-- ==== Sys2Proof/Word.lean ====
section
/-! DEFINITION. The machine's word types and their plainest arithmetic (R2, R7, R8). -/

namespace Sys2Proof

/-- A 64-bit register value (R12). -/
abbrev Word := BitVec 64

/-- One byte of memory (R2). -/
abbrev Byte := BitVec 8

/-- A 32-bit instruction word (R29). -/
abbrev InsnWord := BitVec 32

end Sys2Proof
end

