-- ==== Sys2Proof/Syntax.lean ====
section
/-! DEFINITION. The instruction set as data: operand codes (R19), field values (R31 to R47) and the one
inductive `Instr`, a constructor for each row of spec/opcode_table.json: the 176 encoded instructions and the
88 hardware events, whose arguments name the core, slot, message or outside input the event concerns. -/

namespace Sys2Proof

/-- The six neighbour ports, operand codes 24 to 29 (R19, R163). -/
inductive Port
  | w | e | n | s | l | h
  deriving DecidableEq, Repr

/-- A register operand field of five bits (R19). -/
inductive Operand
  | s (i : Fin 16)
  | mem (k : Fin 8)
  | port (p : Port)
  | code30
  | z
  deriving DecidableEq, Repr

/-- Rounding modes of the RM field (R37, R73). -/
inductive Rm
  | rne | rtz | rdn | rup | rmm | dyn
  deriving DecidableEq, Repr

/-- Scalar floating-point formats, FMT 0 to 2 (R37, R68). -/
inductive Fmt
  | f32 | f16 | bf16
  deriving DecidableEq, Repr

/-- Integer types of `fcvt`, codes 8 to 15 (R38, R66). -/
inductive IntTy
  | b | h | s | w | bn | hn | sn | wn
  deriving DecidableEq, Repr

/-- A type of `fcvt` (R38). -/
inductive CvtTy
  | fp (f : Fmt)
  | int (t : IntTy)
  deriving DecidableEq, Repr

/-- Access sizes SZ 0 to 3 (R31). -/
inductive Size
  | b | h | s | w
  deriving DecidableEq, Repr

/-- Prefetch hints (R39). -/
inductive Hint
  | msc | nt
  deriving DecidableEq, Repr

/-- Fence kinds 0 to 2 (R41). -/
inductive FenceKind
  | acq | rel | full
  deriving DecidableEq, Repr

/-- Scope codes 0 to 6 (R147). -/
inductive Scope
  | thread | core | cluster | die | package | ring | system
  deriving DecidableEq, Repr

/-- Engine codes 0 to 3 (R45). -/
inductive Engine
  | mxe | vxe | cpe | slu
  deriving DecidableEq, Repr

/-- The operands and flags of an engine command (R30, R45). -/
structure EngArgs where
  a : Operand
  b : Operand
  acq : Bool
  rel : Bool
  scope : Scope
  sig : Bool
  deriving DecidableEq, Repr

/-- Where an error of R419 lies: a local-store word of a physical core, a word of a module's physical memory, a data beat of a message
on a link, or a data beat of the next access that a running engine command, or the fill or the footprint of a slot, makes over a link. -/
inductive ErrorPlace
  | localStore (phys off : Nat)
  | memory (module addr : Nat)
  | beat (message : Nat)
  | engine (core : Nat) (eng : Engine)
  | fetch (core : Nat) (slot : Fin 16)
  deriving DecidableEq, Repr

/-- A fabric plane or a Stay port (R455). -/
inductive Link
  | plane (p : Fin 8)
  | stay (p : Fin 2)
  deriving DecidableEq, Repr

/-- A host's access to its window: the byte offset and the size in bytes (R465). -/
structure HostAccess where
  offset : Nat
  size : Nat
  deriving DecidableEq, Repr

/-- What one sampling of R473 reads: a temperature in degrees for each listed physical core, rail voltages in
millivolts for each listed cluster, and the module's readings. -/
structure Sample where
  temps : List (Nat × Int)
  rails : List (Nat × Nat)
  current : Nat
  power : Nat
  inlet : Int
  outlet : Int
  flow : Nat
  /-- Milliseconds for which there has been no coolant flow. -/
  noFlowMs : Nat
  deriving DecidableEq, Repr

/-- A launch by which Canvas starts the pager or a service core at boot (R26, R477 step 9): the core, and what a launch delivers (R157).
Each segment is its base and its descriptor word (R15). -/
structure BootStart where
  core : Nat
  packet : List Byte
  mask : BitVec 16
  segs : List (Word × BitVec 47)
  asid : BitVec 16
  trapvec : BitVec 62
  enroll : BitVec 6
  deriving DecidableEq, Repr

/-- What a CXL port finds at its training (R472): nothing, a type-3 device of a number of bytes, or a device of another reported type. -/
inductive CxlDevice
  | absent
  | expander (bytes : Nat)
  | other (reported : Nat)
  deriving DecidableEq, Repr

/-- What a boot (R477) meets from outside: whether the signature of the shipped image verifies, and that image's version and bytes; the
results of training, that Mast writes to the fabric block (R448) and that leave links up or down; the configuration that Mast holds, which
begins with the 16 words of its SVC fields (R410, log 98); and the software that Canvas starts, as bytes at keys of the module's memory and
launches. -/
structure BootInput where
  imageOk : Bool
  imageVersion : BitVec 32
  modid : Nat
  nmod : Nat
  ringid : Nat
  rlen : Nat
  rpos : Nat
  peer0 : Option Nat
  peer1 : Option Nat
  imageBytes : List Byte
  configBytes : List Byte
  /-- Planes and Stay ports that training leaves down. -/
  planesDown : BitVec 8
  staysDown : BitVec 2
  expanders : List CxlDevice
  loads : List (Nat × Byte)
  starts : List BootStart
  deriving DecidableEq, Repr

/-- Every row of spec/opcode_table.json. -/
inductive Instr
  /-- Writes the 64-bit sum of operands A and B to D. (R86) -/
  | add (d a b : Operand)
  /-- Writes A minus B, modulo 2^64, to D. (R86) -/
  | sub (d a b : Operand)
  /-- Writes the bitwise and of A and B to D. (R86) -/
  | and (d a b : Operand)
  /-- Writes the bitwise or of A and B to D; the aliases mov and nop encode as or. (R86) -/
  | or (d a b : Operand)
  /-- Writes the bitwise exclusive or of A and B to D. (R86) -/
  | xor (d a b : Operand)
  /-- Writes A and (not B) to D. (R86) -/
  | andn (d a b : Operand)
  /-- Shifts A left by B mod 64, with zeros entering. (R86) -/
  | shl (d a b : Operand)
  /-- Shifts A right logically by B mod 64. (R86) -/
  | shr (d a b : Operand)
  /-- Shifts A right arithmetically by B mod 64. (R86) -/
  | sar (d a b : Operand)
  /-- Rotates A right by B mod 64. (R86) -/
  | rot (d a b : Operand)
  /-- Writes the signed lesser of A and B. (R86) -/
  | min (d a b : Operand)
  /-- Writes the signed greater of A and B. (R86) -/
  | max (d a b : Operand)
  /-- Writes the unsigned lesser of A and B. (R86) -/
  | minn (d a b : Operand)
  /-- Writes the unsigned greater of A and B. (R86) -/
  | maxn (d a b : Operand)
  /-- Writes 1 when A is less than B as signed, else 0. (R86) -/
  | slt (d a b : Operand)
  /-- Writes 1 when A is less than B as unsigned, else 0. (R86) -/
  | sltn (d a b : Operand)
  /-- Writes 1 when A equals B, else 0. (R86) -/
  | seq (d a b : Operand)
  /-- Writes the low 64 bits of the product of A and B. (R86) -/
  | mul (d a b : Operand)
  /-- Writes the upper half of the signed 128-bit product. (R86) -/
  | mulh (d a b : Operand)
  /-- Writes the upper half of the unsigned 128-bit product. (R86) -/
  | mulhn (d a b : Operand)
  /-- Writes the signed truncated quotient, with the special cases of R67. (R86) -/
  | div (d a b : Operand)
  /-- Writes the unsigned quotient, with the special case of R67. (R86) -/
  | divn (d a b : Operand)
  /-- Writes the signed remainder, with the special cases of R67. (R86) -/
  | rem (d a b : Operand)
  /-- Writes the unsigned remainder, with the special case of R67. (R86) -/
  | remn (d a b : Operand)
  /-- Writes the count of leading zero bits of A. (R87) -/
  | clz (d a : Operand)
  /-- Writes the count of trailing zero bits of A. (R87) -/
  | ctz (d a : Operand)
  /-- Writes the count of one bits of A. (R87) -/
  | popc (d a : Operand)
  /-- Exchanges the two low bytes of A, zero-extended. (R87) -/
  | bswapH (d a : Operand)
  /-- Reverses the four low bytes of A, zero-extended. (R87) -/
  | bswapS (d a : Operand)
  /-- Reverses the eight bytes of A. (R87) -/
  | bswapW (d a : Operand)
  /-- Sign-extends the low 8 bits of A. (R87) -/
  | sextB (d a : Operand)
  /-- Sign-extends the low 16 bits of A. (R87) -/
  | sextH (d a : Operand)
  /-- Sign-extends the low 32 bits of A. (R87) -/
  | sextS (d a : Operand)
  /-- Zero-extends the low 8 bits of A. (R87) -/
  | zextB (d a : Operand)
  /-- Zero-extends the low 16 bits of A. (R87) -/
  | zextH (d a : Operand)
  /-- Zero-extends the low 32 bits of A. (R87) -/
  | zextS (d a : Operand)
  /-- Writes A when C is nonzero and B otherwise, using all three sources. (R88) -/
  | sel (d a b c : Operand)
  /-- Adds the sign-extended immediate to A. (R89) -/
  | addi (d a : Operand) (imm : BitVec 16)
  /-- Ands A with the zero-extended immediate. (R89) -/
  | andi (d a : Operand) (imm : BitVec 16)
  /-- Ors A with the zero-extended immediate. (R89) -/
  | ori (d a : Operand) (imm : BitVec 16)
  /-- Exclusive-ors A with the zero-extended immediate. (R89) -/
  | xori (d a : Operand) (imm : BitVec 16)
  /-- Writes 1 when A is less than the signed immediate. (R89) -/
  | slti (d a : Operand) (imm : BitVec 16)
  /-- Shifts A left by the immediate n. (R90) -/
  | shli (d a : Operand) (n : BitVec 6)
  /-- Shifts A right logically by the immediate n. (R90) -/
  | shri (d a : Operand) (n : BitVec 6)
  /-- Shifts A right arithmetically by the immediate n. (R90) -/
  | sari (d a : Operand) (n : BitVec 6)
  /-- Rotates A right by the immediate n. (R90) -/
  | roti (d a : Operand) (n : BitVec 6)
  /-- Extracts a zero-extended bitfield of A. (R91) -/
  | bfx (d a : Operand) (pos len1 : BitVec 6)
  /-- Extracts a sign-extended bitfield of A. (R91) -/
  | bfxs (d a : Operand) (pos len1 : BitVec 6)
  /-- Inserts the low bits of A into a bitfield of D. (R91) -/
  | bfi (d a : Operand) (pos len1 : BitVec 6)
  /-- Writes the sign-extended 21-bit immediate to D. (R92) -/
  | li (d : Operand) (imm : BitVec 21)
  /-- Shifts D left by 21 and ors in the 21-bit immediate. (R92) -/
  | lhi (d : Operand) (imm : BitVec 21)
  /-- Floating-point add rounded once in the chosen format and mode. (R96) -/
  | fadd (d a b : Operand) (f : Fmt) (rm : Rm)
  /-- Floating-point subtract rounded once. (R96) -/
  | fsub (d a b : Operand) (f : Fmt) (rm : Rm)
  /-- Floating-point multiply rounded once. (R96) -/
  | fmul (d a b : Operand) (f : Fmt) (rm : Rm)
  /-- Floating-point divide rounded once. (R96) -/
  | fdiv (d a b : Operand) (f : Fmt) (rm : Rm)
  /-- Delivers the lesser operand, with NaN and signed-zero rules. (R97) -/
  | fmin (d a b : Operand) (f : Fmt)
  /-- Delivers the greater operand, with NaN and signed-zero rules. (R97) -/
  | fmax (d a b : Operand) (f : Fmt)
  /-- Quiet equality comparison writing 1 or 0. (R98) -/
  | feq (d a b : Operand) (f : Fmt)
  /-- Signalling less-than comparison writing 1 or 0. (R98) -/
  | flt (d a b : Operand) (f : Fmt)
  /-- Signalling less-or-equal comparison writing 1 or 0. (R98) -/
  | fle (d a b : Operand) (f : Fmt)
  /-- Delivers A with the sign bit of B. (R99) -/
  | fsgn (d a b : Operand) (f : Fmt)
  /-- Delivers the rounded square root of A. (R100) -/
  | fsqrt (d a : Operand) (f : Fmt) (rm : Rm)
  /-- Writes a one-hot class mask of A. (R101) -/
  | fclass (d a : Operand) (f : Fmt)
  /-- Rounds A to an integral value in the same format. (R102) -/
  | fround (d a : Operand) (f : Fmt) (rm : Rm)
  /-- Delivers x times y plus c rounded once. (R103) -/
  | fma (d a b c : Operand) (f : Fmt) (rm : Rm)
  /-- Delivers minus x times y plus c rounded once. (R103) -/
  | fnma (d a b c : Operand) (f : Fmt) (rm : Rm)
  /-- Converts A between floating-point and integer types under R78. (R104) -/
  | fcvt (d a : Operand) (dt st : CvtTy) (rm : Rm)
  /-- Loads a sign-extended element through a segment and pointer. (R119) -/
  | ld (d : Operand) (k : Fin 8) (sz : Size) (mod : Bool) (disp : BitVec 15)
  /-- Loads a zero-extended element through a segment and pointer. (R119) -/
  | ldn (d : Operand) (k : Fin 8) (sz : Size) (mod : Bool) (disp : BitVec 15)
  /-- Stores the low bytes of D through a segment and pointer. (R120) -/
  | st (d : Operand) (k : Fin 8) (sz : Size) (mod : Bool) (disp : BitVec 15)
  /-- Requests that a 128-byte line be brought nearer, never trapping or parking. (R122) -/
  | pf (hint : Hint) (k : Fin 8) (mod : Bool) (disp : BitVec 15)
  /-- Loads a full word and sets it empty, waiting while it is empty. (R180) -/
  | ldfe (d : Operand) (k : Fin 8) (mod : Bool) (disp : BitVec 15)
  /-- Loads a full word, leaving it full, waiting while it is empty. (R180) -/
  | ldff (d : Operand) (k : Fin 8) (mod : Bool) (disp : BitVec 15)
  /-- Stores to an empty word and sets it full, waiting while it is full. (R180) -/
  | stef (d : Operand) (k : Fin 8) (mod : Bool) (disp : BitVec 15)
  /-- Stores to a word and sets it full unconditionally. (R180) -/
  | stsf (d : Operand) (k : Fin 8) (mod : Bool) (disp : BitVec 15)
  /-- Sets the full-empty bit of the word at aK to empty. (R182) -/
  | fempty (k : Fin 8)
  /-- Writes the full-empty bit of the word at aK to D. (R182) -/
  | fstate (d : Operand) (k : Fin 8)
  /-- Loads a word and places a reservation on its 64-byte block. (R192) -/
  | lr (d : Operand) (k : Fin 8)
  /-- Stores B if the thread still holds its reservation, writing success to D. (R192) -/
  | sc (d b : Operand) (k : Fin 8)
  /-- Compares the word with D and stores B on equality, returning the old value. (R191) -/
  | cas (d b : Operand) (k : Fin 8)
  /-- Parks until the thread's reservation is cleared. (R194) -/
  | waitrs
  /-- Atomically adds B to the word and returns the old value. (R189) -/
  | amoAdd (d b : Operand) (k : Fin 8)
  /-- Atomically ands B into the word. (R189) -/
  | amoAnd (d b : Operand) (k : Fin 8)
  /-- Atomically ors B into the word. (R189) -/
  | amoOr (d b : Operand) (k : Fin 8)
  /-- Atomically exclusive-ors B into the word. (R189) -/
  | amoXor (d b : Operand) (k : Fin 8)
  /-- Atomically keeps the signed lesser of the word and B. (R189) -/
  | amoMin (d b : Operand) (k : Fin 8)
  /-- Atomically keeps the signed greater of the word and B. (R189) -/
  | amoMax (d b : Operand) (k : Fin 8)
  /-- Atomically keeps the unsigned lesser of the word and B. (R189) -/
  | amoMinn (d b : Operand) (k : Fin 8)
  /-- Atomically keeps the unsigned greater of the word and B. (R189) -/
  | amoMaxn (d b : Operand) (k : Fin 8)
  /-- Atomically replaces the word with B and returns the old value. (R189) -/
  | amoSwap (d b : Operand) (k : Fin 8)
  /-- Atomically adds an FP32 value to a single, rounding to nearest even. (R190) -/
  | amoFadd (d b : Operand) (k : Fin 8)
  /-- Fence without a flag: waits for PENDB and REP copies by kind and scope. (R285) -/
  | fence (kind : FenceKind) (scope : Scope)
  /-- Fence that, after its waits, sets a flag word at aK full with 1. (R286) -/
  | fenceFlag (kind : FenceKind) (scope : Scope) (k : Fin 8)
  /-- Drains PENDB, arrives at the scope's barrier episode and waits for its release. (R196) -/
  | bar (scope : Scope)
  /-- Branches when A equals B. (R125) -/
  | beq (a b : Operand) (disp : BitVec 16)
  /-- Branches when A differs from B. (R125) -/
  | bne (a b : Operand) (disp : BitVec 16)
  /-- Branches when A is less than B as signed. (R125) -/
  | blt (a b : Operand) (disp : BitVec 16)
  /-- Branches when A is at least B as signed. (R125) -/
  | bge (a b : Operand) (disp : BitVec 16)
  /-- Branches when A is less than B as unsigned. (R125) -/
  | bltn (a b : Operand) (disp : BitVec 16)
  /-- Branches when A is at least B as unsigned. (R125) -/
  | bgen (a b : Operand) (disp : BitVec 16)
  /-- Branches when A is zero. (R125) -/
  | bz (a : Operand) (disp : BitVec 16)
  /-- Branches when A is nonzero. (R125) -/
  | bnz (a : Operand) (disp : BitVec 16)
  /-- Jumps PC-relative. (R126) -/
  | jmp (disp : BitVec 26)
  /-- Writes PC+4 to s15 and jumps PC-relative. (R126) -/
  | call (disp : BitVec 26)
  /-- Jumps to the seg7 offset in A; the alias ret encodes as jr s15. (R126) -/
  | jr (a : Operand)
  /-- Sets up the zero-overhead loop registers from a count and a body end. (R127) -/
  | loop (a : Operand) (disp : BitVec 16)
  /-- Sets pointer aK to operand A. (R123) -/
  | setp (k : Fin 8) (a : Operand)
  /-- Writes pointer aK to D. (R123) -/
  | getp (d : Operand) (k : Fin 8)
  /-- Sets mode register mK from the low 20 bits of A. (R123) -/
  | setm (k : Fin 8) (a : Operand)
  /-- Writes BASE or the rights-and-limit word of segK to D. (R123) -/
  | segq (d : Operand) (k : Fin 8) (second : Bool)
  /-- Loads segment descriptor segK in supervisor mode after checking it. (R249) -/
  | segld (k : Fin 8) (a b : Operand)
  /-- Writes a port's queue entries and credits without popping. (R173) -/
  | npcount (d a : Operand)
  /-- Starts an idle or halted slot of the same core at an entry offset. (R153) -/
  | spawn (a b : Operand)
  /-- Waits for PENDB and engines, empties its queues and makes the slot idle. (R156) -/
  | texit
  /-- Vacates the thread's next own issue position. (R155) -/
  | yield
  /-- Checks a packet, drains PENDB and sends a launch wake to every core of the scope. (R157) -/
  | launch (scope : Scope) (a b : Operand)
  /-- Copies a valid packet to the bottom of a deque of the core. (R209) -/
  | taskpush (a : Operand)
  /-- Takes and splits a packet into the slot's buffer, or parks waiting for one. (R210) -/
  | taskpop (d : Operand)
  /-- Retires the packet in service, sending successor decrements after a release drain. (R212) -/
  | taskdone (a : Operand)
  /-- Binds a handler packet to the word at aK, firing at once if it is full. (R218) -/
  | trigset (k : Fin 8) (b : Operand)
  /-- Discards any binding of the word at aK. (R219) -/
  | trigclr (k : Fin 8)
  /-- Takes the lowest free group identifier of the module, or 0. (R200) -/
  | gidget (d : Operand)
  /-- Frees a group identifier. (R200) -/
  | gidput (a : Operand)
  /-- Issues a ternary matrix product into FP32 outputs on the MXE. (R330) -/
  | mxTgemm (x : EngArgs)
  /-- Issues an exact INT8 product by digit planes on the MXE. (R331) -/
  | mxIgemm (x : EngArgs)
  /-- Issues scaling of an INT32 tile into FP32 with one rounding. (R332) -/
  | mxPromo (x : EngArgs)
  /-- Issues a fill of an output tile with zero or a bias row. (R333) -/
  | mxClr (x : EngArgs)
  /-- Issues an elementwise add on the VXE. (R349) -/
  | vxAdd (x : EngArgs)
  /-- Issues an elementwise subtract. (R349) -/
  | vxSub (x : EngArgs)
  /-- Issues an elementwise multiply. (R349) -/
  | vxMul (x : EngArgs)
  /-- Issues an elementwise fused multiply-add. (R349) -/
  | vxFma (x : EngArgs)
  /-- Issues an elementwise minimum. (R349) -/
  | vxMin (x : EngArgs)
  /-- Issues an elementwise maximum. (R349) -/
  | vxMax (x : EngArgs)
  /-- Issues an elementwise absolute value. (R349) -/
  | vxAbs (x : EngArgs)
  /-- Issues an elementwise type conversion. (R350) -/
  | vxCvt (x : EngArgs)
  /-- Issues quantisation of rows to MXINT8 with E8M0 exponents. (R353) -/
  | vxQuant (x : EngArgs)
  /-- Issues a fixed-order row reduction. (R354) -/
  | vxRed (x : EngArgs)
  /-- Issues a correctly rounded exponential. (R352) -/
  | vxExp (x : EngArgs)
  /-- Issues a correctly rounded reciprocal square root. (R352) -/
  | vxRsq (x : EngArgs)
  /-- Issues a row softmax. (R355) -/
  | vxSmax (x : EngArgs)
  /-- Issues distance computations between queries and vectors. (R356) -/
  | vxDist (x : EngArgs)
  /-- Issues an elementwise comparison into INT8 results. (R351) -/
  | vxCmp (x : EngArgs)
  /-- Issues an elementwise selection by a mask. (R349) -/
  | vxSel (x : EngArgs)
  /-- Issues a fill of D with the scalar operand. (R349) -/
  | vxFill (x : EngArgs)
  /-- Issues a multi-dimensional copy on the CPE. (R367) -/
  | cpCopy (x : EngArgs)
  /-- Issues a multicast copy to selected cores' local stores. (R368) -/
  | cpMcast (x : EngArgs)
  /-- Issues a list-driven gather of pieces. (R369) -/
  | cpGath (x : EngArgs)
  /-- Issues a list-driven scatter of pieces. (R369) -/
  | cpScat (x : EngArgs)
  /-- Issues ternarisation of BF16 latent weights into PT5 trits and scales. (R373) -/
  | cpTern (x : EngArgs)
  /-- Issues packing or unpacking of trits. (R370) -/
  | cpPack (x : EngArgs)
  /-- Issues a prefetch of a range into its home slices. (R371) -/
  | cpPf (x : EngArgs)
  /-- Issues a contribution to a reduction named by a group identifier. (R372) -/
  | cpRed (x : EngArgs)
  /-- Issues a fill of a walk with the scalar operand. (R367) -/
  | cpFill (x : EngArgs)
  /-- Issues page bounding from summary records into gather lists. (R387) -/
  | slBound (x : EngArgs)
  /-- Issues exact scoring of listed pages into a top-k list or dense scores. (R390) -/
  | slScore (x : EngArgs)
  /-- Issues emptying of a top-k list with capacity and direction. (R392) -/
  | slKinit (x : EngArgs)
  /-- Issues insertion of one score and identifier into a top-k list. (R392) -/
  | slKins (x : EngArgs)
  /-- Issues merging of a top-k image into a list. (R392) -/
  | slKmerge (x : EngArgs)
  /-- Issues writing of a top-k list's image to memory. (R392) -/
  | slKread (x : EngArgs)
  /-- Issues recomputation of summary records of key pages. (R393) -/
  | slResum (x : EngArgs)
  /-- Writes a rigging register of an engine. (R317) -/
  | engset (eng : Engine) (n : Fin 32) (a : Operand)
  /-- Reads a rigging register of an engine. (R317) -/
  | engget (d : Operand) (eng : Engine) (n : Fin 32)
  /-- Waits for the thread's commands on an engine and traps on a recorded error. (R317) -/
  | engwait (eng : Engine)
  /-- Writes the engine status word and clears the returned format flags. (R317) -/
  | engstat (d : Operand) (eng : Engine)
  /-- Waits for the engine and stores the thread's engine state to a save area. (R320) -/
  | engsave (eng : Engine) (a : Operand)
  /-- Waits for the engine and loads the thread's engine state from a save area. (R320) -/
  | engload (eng : Engine) (a : Operand)
  /-- Reads a system register into D. (R129) -/
  | mfsys (d : Operand) (sys : BitVec 12)
  /-- Writes A to a system register, with privilege and refusal checks. (R129) -/
  | mtsys (sys : BitVec 12) (a : Operand)
  /-- Takes TRAP_INSN with TRAPVAL n. (R134) -/
  | trap (n : BitVec 12)
  /-- Returns from a trap handler to TRAPPC, restoring MODE from PMODE. (R134) -/
  | tret
  /-- Takes the BREAK trap. (R134) -/
  | brk
  /-- Steps SEED by xorshift64 and writes it to D. (R130) -/
  | rand (d : Operand)
  /-- Waits for PENDB to reach zero and invalidates the core's instruction cache. (R131) -/
  | iinv
  /-- Drains PENDB and releases the waiters of a fault-table entry. (R416) -/
  | wake (a : Operand)
  /-- Requests a save or restore of a core context at the freeze controller. (R422) -/
  | preempt (a : Operand)
  /-- Drains PENDB and drops translations of an ASID in the module, awaiting acknowledgements. (R250) -/
  | tlbinv (d a : Operand)
  -- hardware events (spec/95_what_each_step_holds.md)
  /-- An instruction-cache line fill lands and the fetching thread resumes. (R132) -/
  | icacheFill (core : Nat) (slot : Fin 16)
  /-- A remote reply is written whole and the waiting instruction completes. (R146) -/
  | remoteReplyLands (id : Nat)
  /-- The cluster port accepts a translated store, which then retires into PENDB. (R244) -/
  | storeAccepted (id : Nat)
  /-- A remote store's acknowledgement arrives and subtracts its bytes from PENDB, carrying any deferred error. (R234) -/
  | storeAck (id : Nat)
  /-- An instruction waiting for PENDB to reach zero continues, or traps on a held deferred error. (R246) -/
  | pendbDrainResume (core : Nat) (slot : Fin 16)
  /-- The message engine performs an incoming remote operation at the core. (R140) -/
  | mseRemoteOp (core : Nat)
  /-- The message engine reissues a woken instruction, which completes, parks again or traps. (R145) -/
  | mseReissue (core : Nat)
  /-- After 64 cycles without a position the MSE takes the next position and its owner slips. (R141) -/
  | mseForcedPosition (core : Nat)
  /-- A pushed port entry joins the peer queue, or is discarded at an idle slot with its credit returned. (R170) -/
  | portEntryArrives (id : Nat)
  /-- A credit returned by a pop reaches the pushing slot and may wake it. (R167) -/
  | portCreditReturn (id : Nat)
  /-- A port wait lasting more than NPLIM cycles takes NP_TIMEOUT. (R172) -/
  | npTimeout (core : Nat) (slot : Fin 16)
  /-- A failed remote full-empty attempt is repeated 16 cycles after the reply, up to FERETRY times. (R184) -/
  | feRetry (id : Nat)
  /-- A full-empty attempt at the home succeeds or places the waiter in the monitor table or a ticket. (R184) -/
  | homeAttempt (id : Nat)
  /-- A freed entry is kept for the now-serving ticket and the holding core reissues its thread. (R186) -/
  | ticketServed (home : Nat)
  /-- Every 1,024 cycles with tickets outstanding the oldest monitor entry is freed and its thread woken. (R186) -/
  | monitorTurnover (home : Nat)
  /-- A word wait exceeding WAITLIM sends a withdrawal to the home. (R187) -/
  | waitlimExpiry (core : Nat) (slot : Fin 16)
  /-- The home performs a withdrawal, giving up the entry and trapping the thread with FE_TIMEOUT. (R187) -/
  | withdrawal (core : Nat) (slot : Fin 16)
  /-- An arrival raises A of the group and completes the episode when A reaches E. (R197) -/
  | barArrival (core : Nat) (slot : Fin 16)
  /-- An episode's release reaches a core and completes its waiting bar instructions. (R196) -/
  | barRelease (core : Nat) (slot : Fin 16)
  /-- A launch wake at a core takes a launch entry and starts or holds the masked slots. (R159) -/
  | launchWake (flood core : Nat)
  /-- A held launch start is performed in the cycle after its slot becomes idle or halts. (R159) -/
  | heldStart (core : Nat) (slot : Fin 16)
  /-- A taskpop waiting longer than WAITLIM completes with 0. (R211) -/
  | taskpopTimeout (core : Nat) (slot : Fin 16)
  /-- A packet's footprint is copied into the local store and pinned before taskpop completes. (R217) -/
  | footprintFetch (core : Nat) (slot : Fin 16)
  /-- A split raises WAIT of each named pending packet at its home. (R210) -/
  | splitIncrement (id : Nat)
  /-- A decrement lowers WAIT of a pending packet and releases it to a deque at zero, or enters an event. (R213) -/
  | successorDecrement (id : Nat)
  /-- A core with waiting slots and empty deques begins stealing rounds. (R215) -/
  | stealStart (core : Nat)
  /-- A steal request at the victim's task unit is refused or answered with a packet or upper half. (R216) -/
  | stealRequest (core : Nat)
  /-- A steal reply reaches the thief, which places the packet or tries the next victim. (R216) -/
  | stealReply (core : Nat)
  /-- The 256-cycle pause between steal rounds ends and a new round begins. (R215) -/
  | stealPauseEnd (core : Nat)
  /-- At the home, a trigset binding replaces any earlier one and fires if the word is full. (R218) -/
  | triggerBind (id : Nat)
  /-- At the home, a trigclr discards the word's binding. (R219) -/
  | triggerUnbind (id : Nat)
  /-- A firing reaches the bound core, which writes TRIGGA and TRIGVAL and places the packet. (R220) -/
  | triggerFiring (id : Nat)
  /-- A held release or firing is placed when its target deque frees an entry. (R221) -/
  | heldTaskPlacement (core : Nat)
  /-- A walker completes a translation, succeeding or failing with a fault. (R243) -/
  | translationWalk (id : Nat)
  /-- A failed walk joins or opens a fault-table entry, waiting for a free entry if needed. (R414) -/
  | faultEntryOpen (id : Nat)
  /-- A die claims a ring index, waits for word 0 empty and writes the record full. (R412) -/
  | faultRecordWrite (die : Nat)
  /-- A wake reaches the fault table and releases every waiter of the open entry. (R416) -/
  | faultTableRelease (core : Nat) (slot : Fin 16)
  /-- A request returned for want of a held-request entry is sent again after 1,024 cycles. (R415) -/
  | heldRequestResend (id : Nat)
  /-- A cluster port or die acknowledges a translation drop. (R250) -/
  | tlbinvAck (core : Nat) (slot : Fin 16)
  /-- An engine starts its next queued command. (R336) -/
  | engineCommandStart (core : Nat) (eng : Engine) (units : Nat)
  /-- An engine completes a command, freeing its entry and sending its signal. (R315) -/
  | engineCommandComplete (core : Nat) (eng : Engine)
  /-- A matrix sub-array idle for MXGATE cycles is power-gated. (R321) -/
  | mxSubarrayGate (core : Nat) (sub : Fin 4)
  /-- An engine bulk transfer is performed at the receiving die and acknowledged. (R454) -/
  | bulkTransfer (core : Nat) (eng : Engine)
  /-- A reduction contribution or partial is combined at the home slice or a switch. (R459) -/
  | reductionContribution (core : Nat)
  /-- A reduction result is written to a member's destination and its command completes. (R372) -/
  | reductionResult (core : Nat)
  /-- An identifier's drain ends and parked commands proceed. (R461) -/
  | gidDrainComplete (module gid : Nat)
  /-- Two matching requests meeting at a Shroud switch combine into one. (R264) -/
  | shroudCombine (first second : Nat)
  /-- A slice accepts a request, serving it, joining a miss or taking a miss entry. (R267) -/
  | sliceRequest (id : Nat)
  /-- A line fill lands and the miss entry's requests are served in order. (R267) -/
  | missFill (slice line : Nat)
  /-- The write-back buffer sends its oldest line to the bulk tier. (R268) -/
  | writeback (slice : Nat)
  /-- A REP store copy is applied at a replica when its stamp is later. (R283) -/
  | repReplicaCopy (id : Nat)
  /-- The receiving core's MSE performs an active message from another module. (R453) -/
  | activeMessage (id : Nat)
  /-- The freeze controller freezes a core and writes its save record. (R423) -/
  | contextSave (module : Nat)
  /-- The freeze controller loads a save record into a physical core and resumes it. (R422) -/
  | contextRestore (module : Nat)
  /-- A core past its temperature limit is frozen and moved to a cooler free core, or slowed. (R433) -/
  | thermalMigration (core : Nat) (dest : Nat)
  /-- A slowed core 15 °C below its limit leaves divider ÷8. (R433) -/
  | thermalSlowdownEnd (core : Nat)
  /-- A core's clock divider changes between two issue positions. (R434) -/
  | dividerChange (phys : Nat) (log2 : Fin 4)
  /-- A cluster rail finishes rising and a raised divider takes effect. (R436) -/
  | railRiseComplete (cluster : Nat)
  /-- A gating request powers a core off, or is refused. (R435) -/
  | powerGate (phys : Nat)
  /-- An arrival at a gated core wakes it after 1 µs and is performed. (R435) -/
  | powerGateWake (phys : Nat)
  /-- An uncorrectable error poisons the word and enters an event. (R419) -/
  | uncorrectableError (place : ErrorPlace)
  /-- A fabric plane or Stay port fails and its pairs move after accepted messages settle. (R455) -/
  | linkFailure (module : Nat) (link : Link)
  /-- A running expander fails; its lines return poisoned and writes are discarded. (R472) -/
  | cxlExpanderFailure (module : Nat) (port : Fin 6)
  /-- Halyard samples sensors every 100 µs, capping power and holding reset on overheat. (R473) -/
  | sensorSample (module : Nat) (sample : Sample)
  /-- The event arbiter numbers an event and writes it to flash and EVRING. (R474) -/
  | eventEntry (module : Nat)
  /-- A Canvas access outside its rights is refused, logged and Canvas restarted. (R476) -/
  | canvasSandboxFault (module : Nat) (address : Word)
  /-- A module reset idles every slot and sets reset values. (R26) -/
  | moduleReset (module : Nat)
  /-- Mast and Canvas boot, measure, verify and initialise the module. (R477) -/
  | boot (module : Nat) (input : BootInput)
  /-- Power is lost, possibly during an update's flash write. (R480) -/
  | powerLoss (module : Nat)
  /-- A host doorbell write copies the launch window and floods a launch from service core 0. (R467) -/
  | ldoor (module : Nat) (value : Word)
  /-- A host write of ones clears interrupt bits. (R466) -/
  | hirq (module : Nat) (value : Word)
  /-- A host write of interrupt enables, raising MSI-X at once for pending bits. (R466) -/
  | hien (module : Nat) (value : Word)
  /-- A host read of launch status clears REJ and DROP. (R466) -/
  | lstat (module : Nat)
  /-- A host read of the lost-event count clears it. (R466) -/
  | evlost (module : Nat)
  /-- A host write to a window register without its own row, dropped with DROP when BUSY. (R465) -/
  | hostRegisterWrite (module : Nat) (access : HostAccess) (value : Word)
  /-- Mailbox command reading module memory by PA. (R470) -/
  | memrd (module : Nat)
  /-- Mailbox command writing module memory by PA. (R470) -/
  | memwr (module : Nat)
  /-- Mailbox command returning every sensor reading. (R470) -/
  | sense (module : Nat)
  /-- Mailbox command setting the module power cap. (R470) -/
  | pcap (module : Nat)
  /-- Mailbox command setting the per-core temperature limit. (R470) -/
  | tlimit (module : Nat)
  /-- Mailbox command reading flash log entries. (R470) -/
  | evlog (module : Nat)
  /-- Mailbox command returning a signed attestation report. (R479) -/
  | attest (module : Nat)
  /-- Mailbox command returning the identity certificate. (R470) -/
  | idcert (module : Nat)
  /-- Mailbox command verifying a staged image and writing it to flash. (R480) -/
  | update (module : Nat)
  /-- Mailbox command resetting the module. (R470) -/
  | reset (module : Nat)
  /-- A die waiting for word 0 of its claimed fault record to be empty tries again every 256 cycles. (R412) -/
  | faultRecordRetry (die : Nat)
  /-- A host write to MBDOOR submits the mailbox request, changes nothing while BUSY, and answers an unlisted code with status 0x01. (R469) -/
  | mbdoor (module : Nat) (value : Word)
  /-- A soft error that can be corrected is corrected, with no visible effect, and Halyard counts it. (R419) -/
  | correctableError (module : Nat) (place : ErrorPlace)
  deriving DecidableEq, Repr

end Sys2Proof
end

