-- ==== Sys2Proof/WellFormed.lean ====
section
/-! DEFINITION. Which terms of `Instr` are instructions with a word of their own: the encoded rows of the table, without the
field values that R36, R38, R39, R41, R44, R48 and R127 exclude. Decoding answers well-formed terms only. -/

namespace Sys2Proof

/-- The term is one of the 176 encoded instructions; the other constructors are hardware events, which have no word. -/
def Instr.encoded (i : Instr) : Bool :=
  match i with
  | .icacheFill _ _ => false
  | .remoteReplyLands _ => false
  | .storeAccepted _ => false
  | .storeAck _ => false
  | .pendbDrainResume _ _ => false
  | .mseRemoteOp _ => false
  | .mseReissue _ => false
  | .mseForcedPosition _ => false
  | .portEntryArrives _ => false
  | .portCreditReturn _ => false
  | .npTimeout _ _ => false
  | .feRetry _ => false
  | .homeAttempt _ => false
  | .ticketServed _ => false
  | .monitorTurnover _ => false
  | .waitlimExpiry _ _ => false
  | .withdrawal _ _ => false
  | .barArrival _ _ => false
  | .barRelease _ _ => false
  | .launchWake _ _ => false
  | .heldStart _ _ => false
  | .taskpopTimeout _ _ => false
  | .footprintFetch _ _ => false
  | .splitIncrement _ => false
  | .successorDecrement _ => false
  | .stealStart _ => false
  | .stealRequest _ => false
  | .stealReply _ => false
  | .stealPauseEnd _ => false
  | .triggerBind _ => false
  | .triggerUnbind _ => false
  | .triggerFiring _ => false
  | .heldTaskPlacement _ => false
  | .translationWalk _ => false
  | .faultEntryOpen _ => false
  | .faultRecordWrite _ => false
  | .faultTableRelease _ _ => false
  | .heldRequestResend _ => false
  | .tlbinvAck _ _ => false
  | .engineCommandStart _ _ _ => false
  | .engineCommandComplete _ _ => false
  | .mxSubarrayGate _ _ => false
  | .bulkTransfer _ _ => false
  | .reductionContribution _ => false
  | .reductionResult _ => false
  | .gidDrainComplete _ _ => false
  | .shroudCombine _ _ => false
  | .sliceRequest _ => false
  | .missFill _ _ => false
  | .writeback _ => false
  | .repReplicaCopy _ => false
  | .activeMessage _ => false
  | .contextSave _ => false
  | .contextRestore _ => false
  | .thermalMigration _ _ => false
  | .thermalSlowdownEnd _ => false
  | .dividerChange _ _ => false
  | .railRiseComplete _ => false
  | .powerGate _ => false
  | .powerGateWake _ => false
  | .uncorrectableError _ => false
  | .linkFailure _ _ => false
  | .cxlExpanderFailure _ _ => false
  | .sensorSample _ _ => false
  | .eventEntry _ => false
  | .canvasSandboxFault _ _ => false
  | .moduleReset _ => false
  | .boot _ _ => false
  | .powerLoss _ => false
  | .ldoor _ _ => false
  | .hirq _ _ => false
  | .hien _ _ => false
  | .lstat _ => false
  | .evlost _ => false
  | .hostRegisterWrite _ _ _ => false
  | .memrd _ => false
  | .memwr _ => false
  | .sense _ => false
  | .pcap _ => false
  | .tlimit _ => false
  | .evlog _ => false
  | .attest _ => false
  | .idcert _ => false
  | .update _ => false
  | .reset _ => false
  | .faultRecordRetry _ => false
  | .mbdoor _ _ => false
  | .correctableError _ _ => false
  | _ => true

/-- The bitfield lies within the word: pos + len is at most 64, with len - 1 as encoded (R36). -/
def bitfieldOk (pos len1 : BitVec 6) : Bool := pos.toNat + len1.toNat + 1 ≤ 64

/-- `fcvt` has two different types, and at most one of them is an integer type (R38). -/
def cvtOk (dt st : CvtTy) : Bool :=
  match dt, st with
  | .int _, .int _ => false
  | .fp f, .fp g => f ≠ g
  | _, _ => true

/-- The fields hold no value that takes ILLEGAL_INSN (R48). -/
def Instr.fieldsOk (i : Instr) : Bool :=
  match i with
  | .bfx _ _ pos len1 | .bfxs _ _ pos len1 | .bfi _ _ pos len1 => bitfieldOk pos len1
  | .fcvt _ _ dest src _ => cvtOk dest src
  | .ldn _ _ sz _ _ => sz ≠ .w
  | .bar scope => scope ≠ .thread
  | .launch scope _ _ => scope ≠ .thread
  | .loop _ disp => 0 < disp.toInt
  | _ => true

/-- A well-formed instruction: it has a word, and the word decodes to it. -/
def Instr.wf (i : Instr) : Bool := i.encoded && i.fieldsOk

end Sys2Proof
end

