-- ==== Sys2Proof/Decode.lean ====
section
/-! DEFINITION. The decoder of instruction words (R29 to R48), total on any 32 bits and refusing by name, and after it the
encoder, written from the same encoding tables. Fields are read as numbers; R30 gives their places. -/

namespace Sys2Proof

/-- Why a word is not an instruction (R48); each takes ILLEGAL_INSN. -/
inductive DecodeError
  /-- The major opcode is unassigned, or is 0x00 or 0x3F (R32). -/
  | major
  /-- FN, SUB, CMD, a kind, type, rounding mode, format, hint, size or scope value is unassigned. -/
  | selector
  /-- A reserved field does not hold its stated value. -/
  | reserved
  /-- A K field does not hold 0b00 followed by K, or the n of `segq` is above 1 (R43). -/
  | pointer
  /-- R36, R38 or R127 excludes the word. -/
  | excluded
  deriving DecidableEq, Repr

/-- The unsigned value of `n` bits from bit `lo` of a word. -/
def bits (w : Nat) (lo n : Nat) : Nat := w / 2 ^ lo % 2 ^ n

/-- The operand of a five-bit code (R19). -/
def Operand.ofCode (c : Nat) : Operand :=
  if c < 16 then .s (Fin.ofNat 16 c)
  else if c < 24 then .mem (Fin.ofNat 8 (c - 16))
  else match c with
    | 24 => .port .w
    | 25 => .port .e
    | 26 => .port .n
    | 27 => .port .s
    | 28 => .port .l
    | 29 => .port .h
    | 30 => .code30
    | _ => .z

/-- The number of a port, 0 to 5, in the order of codes 24 to 29 (R19). -/
def Port.index : Port → Fin 6
  | .w => 0 | .e => 1 | .n => 2 | .s => 3 | .l => 4 | .h => 5

/-- The code of an operand (R19). -/
def Operand.code : Operand → Nat
  | .s i => i
  | .mem k => 16 + k
  | .port p => 24 + p.index
  | .code30 => 30
  | .z => 31

/-- Rounding modes by RM (R37). -/
def Rm.ofCode : Nat → Except DecodeError Rm
  | 0 => .ok .rne | 1 => .ok .rtz | 2 => .ok .rdn | 3 => .ok .rup | 4 => .ok .rmm | 5 => .ok .dyn | _ => .error .selector

def Rm.code : Rm → Nat
  | .rne => 0 | .rtz => 1 | .rdn => 2 | .rup => 3 | .rmm => 4 | .dyn => 5

/-- Formats by FMT (R37). -/
def Fmt.ofCode : Nat → Except DecodeError Fmt
  | 0 => .ok .f32 | 1 => .ok .f16 | 2 => .ok .bf16 | _ => .error .selector

def Fmt.code : Fmt → Nat
  | .f32 => 0 | .f16 => 1 | .bf16 => 2

/-- Conversion types by code (R38). -/
def CvtTy.ofCode : Nat → Except DecodeError CvtTy
  | 0 => .ok (.fp .f32) | 1 => .ok (.fp .f16) | 2 => .ok (.fp .bf16)
  | 8 => .ok (.int .b) | 9 => .ok (.int .h) | 10 => .ok (.int .s) | 11 => .ok (.int .w)
  | 12 => .ok (.int .bn) | 13 => .ok (.int .hn) | 14 => .ok (.int .sn) | 15 => .ok (.int .wn)
  | _ => .error .selector

def CvtTy.code : CvtTy → Nat
  | .fp .f32 => 0 | .fp .f16 => 1 | .fp .bf16 => 2
  | .int .b => 8 | .int .h => 9 | .int .s => 10 | .int .w => 11
  | .int .bn => 12 | .int .hn => 13 | .int .sn => 14 | .int .wn => 15

/-- Sizes by SZ (R31). -/
def Size.ofCode : Nat → Size
  | 0 => .b | 1 => .h | 2 => .s | _ => .w

def Size.code : Size → Nat
  | .b => 0 | .h => 1 | .s => 2 | .w => 3

/-- Scopes by code (R147). -/
def Scope.ofCode : Nat → Except DecodeError Scope
  | 0 => .ok .thread | 1 => .ok .core | 2 => .ok .cluster | 3 => .ok .die | 4 => .ok .package | 5 => .ok .ring
  | 6 => .ok .system | _ => .error .selector

def Scope.code : Scope → Nat
  | .thread => 0 | .core => 1 | .cluster => 2 | .die => 3 | .package => 4 | .ring => 5 | .system => 6

/-- Engines by code (R45). -/
def Engine.ofCode : Nat → Except DecodeError Engine
  | 0 => .ok .mxe | 1 => .ok .vxe | 2 => .ok .cpe | 3 => .ok .slu | _ => .error .selector

def Engine.code : Engine → Nat
  | .mxe => 0 | .vxe => 1 | .cpe => 2 | .slu => 3

/-- Fence kinds by code (R41). -/
def FenceKind.ofCode : Nat → Except DecodeError FenceKind
  | 0 => .ok .acq | 1 => .ok .rel | 2 => .ok .full | _ => .error .selector

def FenceKind.code : FenceKind → Nat
  | .acq => 0 | .rel => 1 | .full => 2

/-- A field that must hold 0b00 followed by K (R43). -/
def pointerField (x : Nat) : Except DecodeError (Fin 8) :=
  if x < 8 then .ok (Fin.ofNat 8 x) else .error .pointer

/-- Refuses a word by name unless the condition holds. -/
def require (c : Bool) (e : DecodeError) : Except DecodeError Unit :=
  if c then .ok () else .error e

/-- The member of a family that a selector value names. -/
def member {α : Type} (family : List α) (fn : Nat) : Except DecodeError α :=
  match family[fn]? with
  | some f => .ok f
  | none => .error .selector

/-- Major 0x01 by FN (R33). -/
def binaryFamily : List (Operand → Operand → Operand → Instr) :=
  [.add, .sub, .and, .or, .xor, .andn, .shl, .shr, .sar, .rot, .min, .max, .minn, .maxn, .slt, .sltn, .seq, .mul, .mulh, .mulhn, .div, .divn, .rem, .remn]

/-- Major 0x02 by FN (R34). -/
def unaryFamily : List (Operand → Operand → Instr) :=
  [.clz, .ctz, .popc, .bswapH, .bswapS, .bswapW, .sextB, .sextH, .sextS, .zextB, .zextH, .zextS]

/-- Majors 0x04 to 0x08 (R35). -/
def immediateFamily : List (Operand → Operand → BitVec 16 → Instr) := [.addi, .andi, .ori, .xori, .slti]

/-- Major 0x09 by kind (R35). -/
def shiftFamily : List (Operand → Operand → BitVec 6 → Instr) := [.shli, .shri, .sari, .roti]

/-- Major 0x0A by kind (R35). -/
def bitfieldFamily : List (Operand → Operand → BitVec 6 → BitVec 6 → Instr) := [.bfx, .bfxs, .bfi]

/-- Major 0x10, OP 0 to 3 (R37). -/
def fpRoundedFamily : List (Operand → Operand → Operand → Fmt → Rm → Instr) := [.fadd, .fsub, .fmul, .fdiv]

/-- Major 0x10, OP 4 to 9 (R37). -/
def fpExactFamily : List (Operand → Operand → Operand → Fmt → Instr) := [.fmin, .fmax, .feq, .flt, .fle, .fsgn]

/-- Major 0x1D, FN 0x010 to 0x019 (R40). -/
def amoFamily : List (Operand → Operand → Fin 8 → Instr) :=
  [.amoAdd, .amoAnd, .amoOr, .amoXor, .amoMin, .amoMax, .amoMinn, .amoMaxn, .amoSwap, .amoFadd]

/-- Majors 0x20 to 0x25 (R42). -/
def branchFamily : List (Operand → Operand → BitVec 16 → Instr) := [.beq, .bne, .blt, .bge, .bltn, .bgen]

/-- Commands of ENG 0 by CMD (R45). -/
def mxeFamily : List (EngArgs → Instr) := [.mxTgemm, .mxIgemm, .mxPromo, .mxClr]

/-- Commands of ENG 1 by CMD (R45). -/
def vxeFamily : List (EngArgs → Instr) :=
  [.vxAdd, .vxSub, .vxMul, .vxFma, .vxMin, .vxMax, .vxAbs, .vxCvt, .vxQuant, .vxRed, .vxExp, .vxRsq, .vxSmax, .vxDist, .vxCmp, .vxSel, .vxFill]

/-- Commands of ENG 2 by CMD (R45). -/
def cpeFamily : List (EngArgs → Instr) :=
  [.cpCopy, .cpMcast, .cpGath, .cpScat, .cpTern, .cpPack, .cpPf, .cpRed, .cpFill]

/-- Commands of ENG 3 by CMD (R45). -/
def sluFamily : List (EngArgs → Instr) :=
  [.slBound, .slScore, .slKinit, .slKins, .slKmerge, .slKread, .slResum]

/-- The commands of an engine (R45). -/
def commandFamily : Engine → List (EngArgs → Instr)
  | .mxe => mxeFamily
  | .vxe => vxeFamily
  | .cpe => cpeFamily
  | .slu => sluFamily

/-- FP binary words, major 0x10 (R37). -/
def decodeFpBinary (d a b : Operand) (fn : Nat) : Except DecodeError Instr := do
  require (bits fn 3 1 = 0) .reserved
  let f ← Fmt.ofCode (bits fn 4 2)
  let op := bits fn 6 5
  if op < 4 then
    let mk ← member fpRoundedFamily op
    let rm ← Rm.ofCode (bits fn 0 3)
    return mk d a b f rm
  else
    let mk ← member fpExactFamily (op - 4)
    require (bits fn 0 3 = 0) .selector
    return mk d a b f

/-- FP unary words, major 0x11 (R37). -/
def decodeFpUnary (d a : Operand) (fn : Nat) : Except DecodeError Instr := do
  require (bits fn 3 1 = 0) .reserved
  let f ← Fmt.ofCode (bits fn 4 2)
  match bits fn 6 5 with
  | 0 => do let rm ← Rm.ofCode (bits fn 0 3); return .fsqrt d a f rm
  | 1 => do require (bits fn 0 3 = 0) .selector; return .fclass d a f
  | 2 => do let rm ← Rm.ofCode (bits fn 0 3); return .fround d a f rm
  | _ => .error .selector

/-- FP ternary words, majors 0x12 and 0x13 (R37). -/
def decodeFpTernary (mk : Operand → Operand → Operand → Operand → Fmt → Rm → Instr) (d a b : Operand) (fn : Nat) :
    Except DecodeError Instr := do
  require (bits fn 3 1 = 0) .reserved
  let f ← Fmt.ofCode (bits fn 4 2)
  let rm ← Rm.ofCode (bits fn 0 3)
  return mk d a b (Operand.ofCode (bits fn 6 5)) f rm

/-- Conversion words, major 0x14 (R38). -/
def decodeFcvt (d a : Operand) (fn : Nat) : Except DecodeError Instr := do
  let dt ← CvtTy.ofCode (bits fn 7 4)
  let st ← CvtTy.ofCode (bits fn 3 4)
  let rm ← Rm.ofCode (bits fn 0 3)
  require (cvtOk dt st) .excluded
  return .fcvt d a dt st rm

/-- M-format words, majors 0x18 to 0x1C (R30, R39). -/
def decodeMemory (major w : Nat) : Except DecodeError Instr :=
  let dn := bits w 21 5
  let d := Operand.ofCode dn
  let k := Fin.ofNat 8 (bits w 18 3)
  let sz := Size.ofCode (bits w 16 2)
  let mod := bits w 15 1 = 1
  let disp := BitVec.ofNat 15 w
  match major with
  | 0x18 => .ok (.ld d k sz mod disp)
  | 0x19 => do require (sz ≠ .w) .selector; return .ldn d k sz mod disp
  | 0x1A => .ok (.st d k sz mod disp)
  | 0x1B => do
    require (sz = .b) .reserved
    match dn with
    | 0 => .ok (.pf .msc k mod disp)
    | 1 => .ok (.pf .nt k mod disp)
    | _ => .error .selector
  | _ => match sz with
    | .b => .ok (.ldfe d k mod disp)
    | .h => .ok (.ldff d k mod disp)
    | .s => .ok (.stef d k mod disp)
    | .w => .ok (.stsf d k mod disp)

/-- Synchronising words, major 0x1D (R40); `an` is the whole A field. -/
def decodeSync (dn an bn fn : Nat) : Except DecodeError Instr := do
  require (an < 8) .reserved
  let d := Operand.ofCode dn
  let b := Operand.ofCode bn
  let k := Fin.ofNat 8 an
  match fn with
  | 0 => do require (dn = 0 && bn = 0) .reserved; return .fempty k
  | 1 => do require (bn = 0) .reserved; return .fstate d k
  | 2 => do require (bn = 0) .reserved; return .lr d k
  | 3 => .ok (.sc d b k)
  | 4 => .ok (.cas d b k)
  | 5 => do require (dn = 0 && an = 0 && bn = 0) .reserved; return .waitrs
  | _ =>
    if fn < 0x10 then .error .selector
    else do
      let mk ← member amoFamily (fn - 0x10)
      return mk d b k

/-- Fence words, major 0x1E (R41). -/
def decodeFence (dn an bn fn : Nat) : Except DecodeError Instr := do
  require (dn = 0 && bn = 0 && bits fn 5 6 = 0) .reserved
  let kind ← FenceKind.ofCode (bits fn 3 2)
  let scope ← Scope.ofCode (bits fn 0 3)
  match bits an 3 2 with
  | 0 => do require (bits an 0 3 = 0) .reserved; return .fence kind scope
  | 2 => .ok (.fenceFlag kind scope (Fin.ofNat 8 (bits an 0 3)))
  | _ => .error .selector

/-- Barrier words, major 0x1F (R41). -/
def decodeBar (dn an bn fn : Nat) : Except DecodeError Instr := do
  require (dn = 0 && an = 0 && bn = 0 && bits fn 3 8 = 0) .reserved
  let scope ← Scope.ofCode (bits fn 0 3)
  require (scope ≠ .thread) .selector
  return .bar scope

/-- Pointer and port words, major 0x2C (R43). -/
def decodePointer (dn an bn fn : Nat) : Except DecodeError Instr :=
  match fn with
  | 0 => do
    require (bn = 0) .reserved
    let k ← pointerField dn
    return .setp k (Operand.ofCode an)
  | 1 => do
    require (bn = 0) .reserved
    let k ← pointerField an
    return .getp (Operand.ofCode dn) k
  | 2 => do
    require (bn = 0) .reserved
    let k ← pointerField dn
    return .setm k (Operand.ofCode an)
  | 3 => do
    let k ← pointerField an
    require (bn < 2) .pointer
    return .segq (Operand.ofCode dn) k (bn = 1)
  | 4 => do
    let k ← pointerField dn
    return .segld k (Operand.ofCode an) (Operand.ofCode bn)
  | 5 => do
    require (bn = 0) .reserved
    return .npcount (Operand.ofCode dn) (Operand.ofCode an)
  | _ => .error .selector

/-- Thread and task words, major 0x2D (R44). -/
def decodeThread (dn an bn fn : Nat) : Except DecodeError Instr :=
  let a := Operand.ofCode an
  let b := Operand.ofCode bn
  let hi := bits fn 8 3
  match bits fn 0 8 with
  | 0x03 => do
    require (dn = 0) .reserved
    let scope ← Scope.ofCode hi
    require (scope ≠ .thread) .selector
    return .launch scope a b
  | 0x00 => do require (hi = 0 && dn = 0) .reserved; return .spawn a b
  | 0x01 => do require (hi = 0 && dn = 0 && an = 0 && bn = 0) .reserved; return .texit
  | 0x02 => do require (hi = 0 && dn = 0 && an = 0 && bn = 0) .reserved; return .yield
  | 0x04 => do require (hi = 0 && dn = 0 && bn = 0) .reserved; return .taskpush a
  | 0x05 => do require (hi = 0 && an = 0 && bn = 0) .reserved; return .taskpop (Operand.ofCode dn)
  | 0x06 => do require (hi = 0 && dn = 0 && bn = 0) .reserved; return .taskdone a
  | 0x07 => do
    require (hi = 0 && dn = 0) .reserved
    let k ← pointerField an
    return .trigset k b
  | 0x08 => do
    require (hi = 0 && dn = 0 && bn = 0) .reserved
    let k ← pointerField an
    return .trigclr k
  | 0x09 => do require (hi = 0 && an = 0 && bn = 0) .reserved; return .gidget (Operand.ofCode dn)
  | 0x0A => do require (hi = 0 && dn = 0 && bn = 0) .reserved; return .gidput a
  | _ => .error .selector

/-- Engine commands, major 0x30 (R30, R45). -/
def decodeCommand (w : Nat) : Except DecodeError Instr := do
  let eng ← Engine.ofCode (bits w 23 3)
  let mk ← member (commandFamily eng) (bits w 16 7)
  let scope ← Scope.ofCode (bits w 1 3)
  return mk {
    a := Operand.ofCode (bits w 11 5), b := Operand.ofCode (bits w 6 5), acq := bits w 5 1 = 1,
    rel := bits w 4 1 = 1, scope := scope, sig := bits w 0 1 = 1 }

/-- Engine-interface words, major 0x31 (R46). -/
def decodeInterface (dn an bn fn : Nat) : Except DecodeError Instr := do
  let eng ← Engine.ofCode (bits fn 5 3)
  let n := bits fn 0 5
  let d := Operand.ofCode dn
  let a := Operand.ofCode an
  require (bn = 0) .reserved
  match bits fn 8 3 with
  | 0 => do require (dn = 0) .reserved; return .engset eng (Fin.ofNat 32 n) a
  | 1 => do require (an = 0) .reserved; return .engget d eng (Fin.ofNat 32 n)
  | 2 => do require (n = 0 && dn = 0 && an = 0) .reserved; return .engwait eng
  | 3 => do require (n = 0 && an = 0) .reserved; return .engstat d eng
  | 4 => do require (n = 0 && dn = 0) .reserved; return .engsave eng a
  | 5 => do require (n = 0 && dn = 0) .reserved; return .engload eng a
  | _ => .error .selector

/-- System words, major 0x38 (R47). -/
def decodeSystem (dn an w : Nat) : Except DecodeError Instr :=
  let sysn := bits w 4 12
  let sys := BitVec.ofNat 12 sysn
  let d := Operand.ofCode dn
  let a := Operand.ofCode an
  match bits w 0 4 with
  | 0 => do require (an = 0) .reserved; return .mfsys d sys
  | 1 => do require (dn = 0) .reserved; return .mtsys sys a
  | 2 => do require (dn = 0 && an = 0) .reserved; return .trap sys
  | 3 => do require (dn = 0 && an = 0 && sysn = 0) .reserved; return .tret
  | 4 => do require (dn = 0 && an = 0 && sysn = 0) .reserved; return .brk
  | 5 => do require (an = 0 && sysn = 0) .reserved; return .rand d
  | 6 => do require (dn = 0 && an = 0 && sysn = 0) .reserved; return .iinv
  | 7 => do require (dn = 0 && sysn = 0) .reserved; return .wake a
  | 8 => do require (dn = 0 && sysn = 0) .reserved; return .preempt a
  | 9 => do require (sysn = 0) .reserved; return .tlbinv d a
  | _ => .error .selector

/-- The decoder on a word read as a number (R29, R32): the major opcode alone fixes the format. -/
def decodeNat (w : Nat) : Except DecodeError Instr :=
  let major := bits w 26 6
  let dn := bits w 21 5
  let an := bits w 16 5
  let bn := bits w 11 5
  let fn := bits w 0 11
  let d := Operand.ofCode dn
  let a := Operand.ofCode an
  let b := Operand.ofCode bn
  let imm := BitVec.ofNat 16 w
  match major with
  | 0x01 => do let mk ← member binaryFamily fn; return mk d a b
  | 0x02 => do
    let mk ← member unaryFamily fn
    require (bn = 0) .reserved
    return mk d a
  | 0x03 => do require (bits fn 0 6 = 0) .reserved; return .sel d a b (Operand.ofCode (bits fn 6 5))
  | 0x04 => .ok (.addi d a imm)
  | 0x05 => .ok (.andi d a imm)
  | 0x06 => .ok (.ori d a imm)
  | 0x07 => .ok (.xori d a imm)
  | 0x08 => .ok (.slti d a imm)
  | 0x09 => do
    require (bits w 8 8 = 0) .reserved
    let mk ← member shiftFamily (bits w 6 2)
    return mk d a (BitVec.ofNat 6 w)
  | 0x0A => do
    let mk ← member bitfieldFamily (bits w 14 2)
    require (bits w 12 2 = 0) .reserved
    let pos := BitVec.ofNat 6 (bits w 6 6)
    let len1 := BitVec.ofNat 6 w
    require (bitfieldOk pos len1) .excluded
    return mk d a pos len1
  | 0x0B => .ok (.li d (BitVec.ofNat 21 w))
  | 0x0C => .ok (.lhi d (BitVec.ofNat 21 w))
  | 0x10 => decodeFpBinary d a b fn
  | 0x11 => do require (bn = 0) .reserved; decodeFpUnary d a fn
  | 0x12 => decodeFpTernary .fma d a b fn
  | 0x13 => decodeFpTernary .fnma d a b fn
  | 0x14 => do require (bn = 0) .reserved; decodeFcvt d a fn
  | 0x18 => decodeMemory 0x18 w
  | 0x19 => decodeMemory 0x19 w
  | 0x1A => decodeMemory 0x1A w
  | 0x1B => decodeMemory 0x1B w
  | 0x1C => decodeMemory 0x1C w
  | 0x1D => decodeSync dn an bn fn
  | 0x1E => decodeFence dn an bn fn
  | 0x1F => decodeBar dn an bn fn
  | 0x20 => .ok (.beq d a imm)
  | 0x21 => .ok (.bne d a imm)
  | 0x22 => .ok (.blt d a imm)
  | 0x23 => .ok (.bge d a imm)
  | 0x24 => .ok (.bltn d a imm)
  | 0x25 => .ok (.bgen d a imm)
  | 0x26 => do require (an = 0) .reserved; return .bz d imm
  | 0x27 => do require (an = 0) .reserved; return .bnz d imm
  | 0x28 => .ok (.jmp (BitVec.ofNat 26 w))
  | 0x29 => .ok (.call (BitVec.ofNat 26 w))
  | 0x2A => do require (dn = 0 && bn = 0 && fn = 0) .reserved; return .jr a
  | 0x2B => do
    require (an = 0) .reserved
    require (0 < imm.toInt) .excluded
    return .loop d imm
  | 0x2C => decodePointer dn an bn fn
  | 0x2D => decodeThread dn an bn fn
  | 0x30 => decodeCommand w
  | 0x31 => decodeInterface dn an bn fn
  | 0x38 => decodeSystem dn an w
  | _ => .error .major

/-- The decoder of instruction words. In the B format the first two operand fields are A and B (R30). -/
def decodeWord (w : InsnWord) : Except DecodeError Instr := decodeNat w.toNat

/-- The word of four little-endian bytes (R2, R29). -/
def wordOfBytes (b0 b1 b2 b3 : Byte) : InsnWord :=
  BitVec.ofNat 32 (b0.toNat + 2 ^ 8 * b1.toNat + 2 ^ 16 * b2.toNat + 2 ^ 24 * b3.toNat)

/-- The instruction of a table row: the row's 32 bits are one little-endian word. -/
def decodeTableWord (nbits w : Nat) : Option Instr :=
  (decodeWord (BitVec.ofNat 32 (w % 2 ^ nbits))).toOption

/-- R format: D, A, B and FN under a major (R30). -/
def encR (major d a b fn : Nat) : Nat := major * 2 ^ 26 + d * 2 ^ 21 + a * 2 ^ 16 + b * 2 ^ 11 + fn

/-- I and B formats: two operand fields and 16 bits (R30). -/
def encI (major d a : Nat) (imm : BitVec 16) : Nat := major * 2 ^ 26 + d * 2 ^ 21 + a * 2 ^ 16 + imm.toNat

/-- L format: D and 21 bits (R30). -/
def encL (major d : Nat) (imm : BitVec 21) : Nat := major * 2 ^ 26 + d * 2 ^ 21 + imm.toNat

/-- M format: D, K, SZ, MOD and DISP (R30). -/
def encM (major d k sz : Nat) (mod : Bool) (disp : BitVec 15) : Nat :=
  major * 2 ^ 26 + d * 2 ^ 21 + k * 2 ^ 18 + sz * 2 ^ 16 + mod.toNat * 2 ^ 15 + disp.toNat

/-- E format (R30, R45). -/
def encE (eng cmd : Nat) (x : EngArgs) : Nat :=
  0x30 * 2 ^ 26 + eng * 2 ^ 23 + cmd * 2 ^ 16 + x.a.code * 2 ^ 11 + x.b.code * 2 ^ 6 + x.acq.toNat * 2 ^ 5 +
    x.rel.toNat * 2 ^ 4 + x.scope.code * 2 + x.sig.toNat

/-- S format: D, A, SYS and SUB (R30). -/
def encS (d a sys sub : Nat) : Nat := 0x38 * 2 ^ 26 + d * 2 ^ 21 + a * 2 ^ 16 + sys * 2 ^ 4 + sub

/-- The word of an instruction as a number; 0, which decodes to no instruction, for a hardware event. -/
def encodeNat (i : Instr) : Nat :=
  match i with
  | .add d a b => encR 0x01 d.code a.code b.code 0x000
  | .sub d a b => encR 0x01 d.code a.code b.code 0x001
  | .and d a b => encR 0x01 d.code a.code b.code 0x002
  | .or d a b => encR 0x01 d.code a.code b.code 0x003
  | .xor d a b => encR 0x01 d.code a.code b.code 0x004
  | .andn d a b => encR 0x01 d.code a.code b.code 0x005
  | .shl d a b => encR 0x01 d.code a.code b.code 0x006
  | .shr d a b => encR 0x01 d.code a.code b.code 0x007
  | .sar d a b => encR 0x01 d.code a.code b.code 0x008
  | .rot d a b => encR 0x01 d.code a.code b.code 0x009
  | .min d a b => encR 0x01 d.code a.code b.code 0x00a
  | .max d a b => encR 0x01 d.code a.code b.code 0x00b
  | .minn d a b => encR 0x01 d.code a.code b.code 0x00c
  | .maxn d a b => encR 0x01 d.code a.code b.code 0x00d
  | .slt d a b => encR 0x01 d.code a.code b.code 0x00e
  | .sltn d a b => encR 0x01 d.code a.code b.code 0x00f
  | .seq d a b => encR 0x01 d.code a.code b.code 0x010
  | .mul d a b => encR 0x01 d.code a.code b.code 0x011
  | .mulh d a b => encR 0x01 d.code a.code b.code 0x012
  | .mulhn d a b => encR 0x01 d.code a.code b.code 0x013
  | .div d a b => encR 0x01 d.code a.code b.code 0x014
  | .divn d a b => encR 0x01 d.code a.code b.code 0x015
  | .rem d a b => encR 0x01 d.code a.code b.code 0x016
  | .remn d a b => encR 0x01 d.code a.code b.code 0x017
  | .clz d a => encR 0x02 d.code a.code 0 0x000
  | .ctz d a => encR 0x02 d.code a.code 0 0x001
  | .popc d a => encR 0x02 d.code a.code 0 0x002
  | .bswapH d a => encR 0x02 d.code a.code 0 0x003
  | .bswapS d a => encR 0x02 d.code a.code 0 0x004
  | .bswapW d a => encR 0x02 d.code a.code 0 0x005
  | .sextB d a => encR 0x02 d.code a.code 0 0x006
  | .sextH d a => encR 0x02 d.code a.code 0 0x007
  | .sextS d a => encR 0x02 d.code a.code 0 0x008
  | .zextB d a => encR 0x02 d.code a.code 0 0x009
  | .zextH d a => encR 0x02 d.code a.code 0 0x00a
  | .zextS d a => encR 0x02 d.code a.code 0 0x00b
  | .sel d a b c => encR 0x03 d.code a.code b.code (c.code * 2 ^ 6)
  | .addi d a imm => encI 0x04 d.code a.code imm
  | .andi d a imm => encI 0x05 d.code a.code imm
  | .ori d a imm => encI 0x06 d.code a.code imm
  | .xori d a imm => encI 0x07 d.code a.code imm
  | .slti d a imm => encI 0x08 d.code a.code imm
  | .shli d a n => encR 0x09 d.code a.code 0 (0 * 2 ^ 6 + n.toNat)
  | .shri d a n => encR 0x09 d.code a.code 0 (1 * 2 ^ 6 + n.toNat)
  | .sari d a n => encR 0x09 d.code a.code 0 (2 * 2 ^ 6 + n.toNat)
  | .roti d a n => encR 0x09 d.code a.code 0 (3 * 2 ^ 6 + n.toNat)
  | .bfx d a pos len1 => encR 0x0A d.code a.code (0 * 2 ^ 3 + pos.toNat / 2 ^ 5) (pos.toNat % 2 ^ 5 * 2 ^ 6 + len1.toNat)
  | .bfxs d a pos len1 => encR 0x0A d.code a.code (1 * 2 ^ 3 + pos.toNat / 2 ^ 5) (pos.toNat % 2 ^ 5 * 2 ^ 6 + len1.toNat)
  | .bfi d a pos len1 => encR 0x0A d.code a.code (2 * 2 ^ 3 + pos.toNat / 2 ^ 5) (pos.toNat % 2 ^ 5 * 2 ^ 6 + len1.toNat)
  | .li d imm => encL 0x0B d.code imm
  | .lhi d imm => encL 0x0C d.code imm
  | .fadd d a b f rm => encR 0x10 d.code a.code b.code (0 * 2 ^ 6 + f.code * 2 ^ 4 + rm.code)
  | .fsub d a b f rm => encR 0x10 d.code a.code b.code (1 * 2 ^ 6 + f.code * 2 ^ 4 + rm.code)
  | .fmul d a b f rm => encR 0x10 d.code a.code b.code (2 * 2 ^ 6 + f.code * 2 ^ 4 + rm.code)
  | .fdiv d a b f rm => encR 0x10 d.code a.code b.code (3 * 2 ^ 6 + f.code * 2 ^ 4 + rm.code)
  | .fmin d a b f => encR 0x10 d.code a.code b.code (4 * 2 ^ 6 + f.code * 2 ^ 4)
  | .fmax d a b f => encR 0x10 d.code a.code b.code (5 * 2 ^ 6 + f.code * 2 ^ 4)
  | .feq d a b f => encR 0x10 d.code a.code b.code (6 * 2 ^ 6 + f.code * 2 ^ 4)
  | .flt d a b f => encR 0x10 d.code a.code b.code (7 * 2 ^ 6 + f.code * 2 ^ 4)
  | .fle d a b f => encR 0x10 d.code a.code b.code (8 * 2 ^ 6 + f.code * 2 ^ 4)
  | .fsgn d a b f => encR 0x10 d.code a.code b.code (9 * 2 ^ 6 + f.code * 2 ^ 4)
  | .fsqrt d a f rm => encR 0x11 d.code a.code 0 (0 * 2 ^ 6 + f.code * 2 ^ 4 + rm.code)
  | .fclass d a f => encR 0x11 d.code a.code 0 (1 * 2 ^ 6 + f.code * 2 ^ 4)
  | .fround d a f rm => encR 0x11 d.code a.code 0 (2 * 2 ^ 6 + f.code * 2 ^ 4 + rm.code)
  | .fma d a b c f rm => encR 0x12 d.code a.code b.code (c.code * 2 ^ 6 + f.code * 2 ^ 4 + rm.code)
  | .fnma d a b c f rm => encR 0x13 d.code a.code b.code (c.code * 2 ^ 6 + f.code * 2 ^ 4 + rm.code)
  | .fcvt d a dt st rm => encR 0x14 d.code a.code 0 (dt.code * 2 ^ 7 + st.code * 2 ^ 3 + rm.code)
  | .ld d k sz mod disp => encM 0x18 d.code k sz.code mod disp
  | .ldn d k sz mod disp => encM 0x19 d.code k sz.code mod disp
  | .st d k sz mod disp => encM 0x1A d.code k sz.code mod disp
  | .pf .msc k mod disp => encM 0x1B 0 k 0 mod disp
  | .pf .nt k mod disp => encM 0x1B 1 k 0 mod disp
  | .ldfe d k mod disp => encM 0x1C d.code k 0 mod disp
  | .ldff d k mod disp => encM 0x1C d.code k 1 mod disp
  | .stef d k mod disp => encM 0x1C d.code k 2 mod disp
  | .stsf d k mod disp => encM 0x1C d.code k 3 mod disp
  | .fempty k => encR 0x1D 0 k 0 0x000
  | .fstate d k => encR 0x1D d.code k 0 0x001
  | .lr d k => encR 0x1D d.code k 0 0x002
  | .sc d b k => encR 0x1D d.code k b.code 0x003
  | .cas d b k => encR 0x1D d.code k b.code 0x004
  | .waitrs => encR 0x1D 0 0 0 0x005
  | .amoAdd d b k => encR 0x1D d.code k b.code 0x010
  | .amoAnd d b k => encR 0x1D d.code k b.code 0x011
  | .amoOr d b k => encR 0x1D d.code k b.code 0x012
  | .amoXor d b k => encR 0x1D d.code k b.code 0x013
  | .amoMin d b k => encR 0x1D d.code k b.code 0x014
  | .amoMax d b k => encR 0x1D d.code k b.code 0x015
  | .amoMinn d b k => encR 0x1D d.code k b.code 0x016
  | .amoMaxn d b k => encR 0x1D d.code k b.code 0x017
  | .amoSwap d b k => encR 0x1D d.code k b.code 0x018
  | .amoFadd d b k => encR 0x1D d.code k b.code 0x019
  | .fence kind scope => encR 0x1E 0 0 0 (kind.code * 2 ^ 3 + scope.code)
  | .fenceFlag kind scope k => encR 0x1E 0 (2 * 2 ^ 3 + k) 0 (kind.code * 2 ^ 3 + scope.code)
  | .bar scope => encR 0x1F 0 0 0 scope.code
  | .beq a b disp => encI 0x20 a.code b.code disp
  | .bne a b disp => encI 0x21 a.code b.code disp
  | .blt a b disp => encI 0x22 a.code b.code disp
  | .bge a b disp => encI 0x23 a.code b.code disp
  | .bltn a b disp => encI 0x24 a.code b.code disp
  | .bgen a b disp => encI 0x25 a.code b.code disp
  | .bz a disp => encI 0x26 a.code 0 disp
  | .bnz a disp => encI 0x27 a.code 0 disp
  | .jmp disp => 0x28 * 2 ^ 26 + disp.toNat
  | .call disp => 0x29 * 2 ^ 26 + disp.toNat
  | .jr a => encR 0x2A 0 a.code 0 0
  | .loop a disp => encI 0x2B a.code 0 disp
  | .setp k a => encR 0x2C k a.code 0 0x000
  | .getp d k => encR 0x2C d.code k 0 0x001
  | .setm k a => encR 0x2C k a.code 0 0x002
  | .segq d k second => encR 0x2C d.code k second.toNat 0x003
  | .segld k a b => encR 0x2C k a.code b.code 0x004
  | .npcount d a => encR 0x2C d.code a.code 0 0x005
  | .spawn a b => encR 0x2D 0 a.code b.code 0x00
  | .texit => encR 0x2D 0 0 0 0x01
  | .yield => encR 0x2D 0 0 0 0x02
  | .launch scope a b => encR 0x2D 0 a.code b.code (scope.code * 2 ^ 8 + 0x03)
  | .taskpush a => encR 0x2D 0 a.code 0 0x04
  | .taskpop d => encR 0x2D d.code 0 0 0x05
  | .taskdone a => encR 0x2D 0 a.code 0 0x06
  | .trigset k b => encR 0x2D 0 k b.code 0x07
  | .trigclr k => encR 0x2D 0 k 0 0x08
  | .gidget d => encR 0x2D d.code 0 0 0x09
  | .gidput a => encR 0x2D 0 a.code 0 0x0A
  | .mxTgemm x => encE 0 0x00 x
  | .mxIgemm x => encE 0 0x01 x
  | .mxPromo x => encE 0 0x02 x
  | .mxClr x => encE 0 0x03 x
  | .vxAdd x => encE 1 0x00 x
  | .vxSub x => encE 1 0x01 x
  | .vxMul x => encE 1 0x02 x
  | .vxFma x => encE 1 0x03 x
  | .vxMin x => encE 1 0x04 x
  | .vxMax x => encE 1 0x05 x
  | .vxAbs x => encE 1 0x06 x
  | .vxCvt x => encE 1 0x07 x
  | .vxQuant x => encE 1 0x08 x
  | .vxRed x => encE 1 0x09 x
  | .vxExp x => encE 1 0x0a x
  | .vxRsq x => encE 1 0x0b x
  | .vxSmax x => encE 1 0x0c x
  | .vxDist x => encE 1 0x0d x
  | .vxCmp x => encE 1 0x0e x
  | .vxSel x => encE 1 0x0f x
  | .vxFill x => encE 1 0x10 x
  | .cpCopy x => encE 2 0x00 x
  | .cpMcast x => encE 2 0x01 x
  | .cpGath x => encE 2 0x02 x
  | .cpScat x => encE 2 0x03 x
  | .cpTern x => encE 2 0x04 x
  | .cpPack x => encE 2 0x05 x
  | .cpPf x => encE 2 0x06 x
  | .cpRed x => encE 2 0x07 x
  | .cpFill x => encE 2 0x08 x
  | .slBound x => encE 3 0x00 x
  | .slScore x => encE 3 0x01 x
  | .slKinit x => encE 3 0x02 x
  | .slKins x => encE 3 0x03 x
  | .slKmerge x => encE 3 0x04 x
  | .slKread x => encE 3 0x05 x
  | .slResum x => encE 3 0x06 x
  | .engset eng n a => encR 0x31 0 a.code 0 (0 * 2 ^ 8 + eng.code * 2 ^ 5 + n)
  | .engget d eng n => encR 0x31 d.code 0 0 (1 * 2 ^ 8 + eng.code * 2 ^ 5 + n)
  | .engwait eng => encR 0x31 0 0 0 (2 * 2 ^ 8 + eng.code * 2 ^ 5)
  | .engstat d eng => encR 0x31 d.code 0 0 (3 * 2 ^ 8 + eng.code * 2 ^ 5)
  | .engsave eng a => encR 0x31 0 a.code 0 (4 * 2 ^ 8 + eng.code * 2 ^ 5)
  | .engload eng a => encR 0x31 0 a.code 0 (5 * 2 ^ 8 + eng.code * 2 ^ 5)
  | .mfsys d sys => encS d.code 0 sys.toNat 0
  | .mtsys sys a => encS 0 a.code sys.toNat 1
  | .trap n => encS 0 0 n.toNat 2
  | .tret => encS 0 0 0 3
  | .brk => encS 0 0 0 4
  | .rand d => encS d.code 0 0 5
  | .iinv => encS 0 0 0 6
  | .wake a => encS 0 a.code 0 7
  | .preempt a => encS 0 a.code 0 8
  | .tlbinv d a => encS d.code a.code 0 9
  | _ => 0

/-- The word of a well-formed instruction (R29 to R47). -/
def encode (i : Instr) : InsnWord := BitVec.ofNat 32 (encodeNat i)

end Sys2Proof
end

