-- ==== Sys2Proof/Config.lean ====
section
/-! DEFINITION. What the spec leaves open and the model does not choose: opaque constants without a value. A statement that
holds in the model holds whatever they are (notes/assumptions 1, 5). -/

namespace Sys2Proof

/-- Which agent of the machine moves in a step: a logical core in its issue position (R137), the nominal clock, a message on
its way to its destination's queue, or one of the hardware events of the table. -/
inductive Turn
  | position (core : Nat)
  | clock
  | deliver (id : Nat)
  | event (i : Instr)
  deriving DecidableEq, Repr, Inhabited

namespace Config

/-- The agent that moves at a given count of steps, where nothing outside fixed it: the order among agents that R158, R179,
R207 and R280 leave free. -/
opaque schedule : Nat → Turn

/-- A value the spec leaves open, one for each number of the counter `State.fresh`. -/
opaque freeNat : Nat → Nat

/-- The set of a slice in which a line stands (R258 gives 8,192 sets and no placement). -/
opaque lineSet : Nat → Nat

/-- Which entry of a full translation buffer of the given size gives way (R243 names no policy); the counter is
`State.fresh`. -/
opaque victim : Nat → Nat → Nat

/-- SHAKE256 of a byte string, with the number of output bytes (R477 to R479 name the function and do not define it). -/
opaque shake256 : List Byte → Nat → List Byte

/-- The SHAKE256 hash of the public key in an image's header, at the width of the fused one (R477 step 3). -/
opaque keyHash : List Byte → List Byte

/-- Whether an SLH-DSA-SHAKE-256s signature in an image verifies over its header and body (R477 step 3). -/
opaque imageVerifies : List Byte → Bool

/-- The header fields of a firmware image: its version and its security version (R477 step 3, R479). -/
opaque imageVersions : List Byte → BitVec 32 × BitVec 32

/-- The SLH-DSA-SHAKE-256f signature of 49,856 bytes of a message by the key with the given 96 seed bytes (R478, R479). -/
opaque sign : List Byte → List Byte → List Byte

/-- The correctly rounded exponential (R352) where the model's interval arithmetic does not settle the rounding: function, format
and rounding-mode codes, input bits. -/
opaque expBits : Nat → Nat → Nat → Nat → Nat

/-- The bytes of a staged image, from its first 4,096 (R480 gives its place and not its length). -/
opaque imageLength : List Byte → Nat

/-- The body of a reply of SENSE, from the sample as it is: R470 and R473 give no layout. -/
opaque senseReply : Option Sample → List Byte

/-- The sequence numbers that the body of an EVLOG asks for, or none where it is malformed: R470 gives no layout. -/
opaque evlogAsked : List Byte → Option (List Word)

end Config

end Sys2Proof
end

