-- ==== Sys2Proof/Machine/State.lean ====
section
/-! DEFINITION. The state of the machine as plain data, its reset, and the reasons a step can stop. A thread's state is R11 to
R28; a core's is R140, R206, R313, R382; a module's is R236, R243, R258, R414, R422, R466. Contexts are kept by logical core
number, since R151 moves them between physical cores; clocks, instruction caches and local-store bytes by physical core. -/

namespace Sys2Proof.Machine

/-- A table from numbers to values: pairs in strictly rising order of their numbers. -/
abbrev Map (α : Type) := List (Nat × α)

/-- The value at a number, if the table lists one. -/
def look {α : Type} : Map α → Nat → Option α
  | [], _ => none
  | (j, v) :: rest, k => if j = k then some v else if k < j then none else look rest k

/-- The table with a value at a number. -/
def put {α : Type} : Map α → Nat → α → Map α
  | [], k, v => [(k, v)]
  | (j, w) :: rest, k, v =>
    if k < j then (k, v) :: (j, w) :: rest
    else if k = j then (k, v) :: rest
    else (j, w) :: put rest k v

/-- The table without a number. -/
def del {α : Type} : Map α → Nat → Map α
  | [], _ => []
  | (j, w) :: rest, k => if k < j then (j, w) :: rest else if k = j then rest else (j, w) :: del rest k

/-- The numbers of a table rise strictly, from above a bound. -/
def risingFrom {α : Type} (lo : Nat) : Map α → Bool
  | [] => true
  | (k, _) :: rest => lo ≤ k && risingFrom (k + 1) rest

/-- The canonical form of a table. -/
def rising {α : Type} (m : Map α) : Bool := risingFrom 0 m

/-- What a byte of memory that nothing has written reads as (log 2). -/
def unreadByte : Byte := 0

/-- Memory: bytes by key, the words that are empty, and the words that carry a poison mark. A byte's key is
`physical core * 2^30 + offset` for a local store and `2^63 + module * 2^44 + PA` for a module's physical memory; a word's key
is its byte key divided by 8. -/
structure Memory where
  cells : List Host.Cell
  empties : Map Unit
  poisons : Map Unit
  deriving DecidableEq, Repr

/-- The canonical form: keys rise strictly, and no cell is listed with the value an unlisted byte reads as. -/
def Memory.wf (m : Memory) : Bool :=
  rising m.cells && m.cells.all (fun c => c.2 ≠ unreadByte) && rising m.empties && rising m.poisons

/-- A segment descriptor without its reserved bits (R15). -/
structure Seg where
  base : Word
  word : BitVec 47
  deriving DecidableEq, Repr

/-- What a full-empty or reservation waiter awaits (R185). -/
inductive Awaits
  | full | empty | reservation
  deriving DecidableEq, Repr

/-- Why a thread is not ready (R144). -/
inductive Wait
  /-- State 2: the reply, acceptance or performance of request `id` (R146, R244). -/
  | reply (id : Nat)
  /-- State 2: the fill of an instruction-cache line (R132). -/
  | fill
  /-- State 2: `PENDB` to reach zero, room in `PENDB` (R235), REP copies (R285), or the thread's engine commands in `texit`. -/
  | drain
  /-- State 2: a `bar` about to arrive, arrived, or released (R196). -/
  | barArrive (scope : Scope)
  | barWait (scope : Scope)
  | barReleased (scope : Scope)
  /-- State 2: the module's freeze controller (R422). -/
  | controller
  /-- State 2: the acknowledgements of a `tlbinv`: its operands, and the dies that have not acknowledged (R250). -/
  | acks (a d : Word) (left : List Nat)
  /-- State 2: the fault table's reply to a `wake` (R416). -/
  | table (handle : Word)
  /-- State 3: a word at a home, in a monitor entry or with a ticket (R184, R186). -/
  | word (home : Nat) (ga : Word) (awaits : Awaits)
  /-- State 4: an incoming queue to gain an entry, or a credit (R171). -/
  | port (p : Port) (push : Bool)
  /-- State 5: room in an engine's queue share (R313). -/
  | engineQueue (eng : Engine)
  /-- State 5: the thread's commands on an engine (R317). -/
  | engineDone (eng : Engine)
  /-- State 5: room in a deque (R209). -/
  | dequeRoom (urgent : Bool)
  /-- State 5: a free trigger entry (R218). -/
  | triggerRoom
  /-- State 5: a free binding at a home (R218). -/
  | bindingRoom (home : Nat)
  /-- State 5: the drain of a group identifier (R201). -/
  | gidDrain (gid : Nat)
  /-- State 5: the task unit, busy with a split (R207, R210). -/
  | taskUnit
  /-- State 6: a fault record's waiter, since a value of `CYCLE` (R409). -/
  | fault (since : Nat)
  /-- State 8: a packet (R211). -/
  | taskpop
  /-- State 8: a packet has been assigned, and its footprint is to be fetched (R217). -/
  | footprint
  deriving DecidableEq, Repr

/-- The run state of a slot (R117, R139). -/
inductive RunState
  | idle
  | ready
  | halted
  | waiting (w : Wait)
  deriving DecidableEq, Repr

/-- Where an operation is performed: a window offset of a logical core, or a physical address of a module, on a REP page with
the die of the replica. -/
inductive Place
  | win (core off : Nat)
  | pa (module addr : Nat)
  | rep (module die addr : Nat)
  deriving DecidableEq, Repr

/-- The record of a key page that a write updates: D, the record's bytes as up to two physical pieces (start, length, PIN of the page),
and the key byte's offset in its page (R253, R255, R261). -/
structure SumRef where
  d : Nat
  pieces : List (Nat × Nat × Bool)
  off : Nat
  deriving DecidableEq, Repr

/-- A translated target: its place, home number and the record it updates. -/
structure Target where
  place : Place
  home : Nat
  /-- PIN of the mapping; none for a word named by physical address alone or in a local store (R259, R261). -/
  pin : Option Bool
  sum : Option SumRef
  deriving DecidableEq, Repr

/-- What an instruction's attempt has already been given by memory, in the order of its uses (R81, R146). -/
inductive Token
  /-- A value read. -/
  | val (v : Word)
  /-- An effect outside the core was accepted or performed. -/
  | done
  /-- The access ended in a precise trap (R242, R245). -/
  | trap (cause : Byte) (v : Word)
  /-- A word of a store was checked and translated to a target, which the store then uses (R136, R244). -/
  | target (t : Target)
  deriving DecidableEq, Repr

/-- A thread's state for one engine (R311, R319). -/
structure EngThread where
  rig : Vector Word 32
  seq : BitVec 32
  flags : BitVec 5
  err : Option Byte
  doneSeq : BitVec 32
  deriving DecidableEq, Repr

/-- The state of the thread in one slot (R11 to R28), with the waiting state of R144. -/
structure Thread where
  s : Vector Word 16
  a : Vector Word 8
  m : Vector (BitVec 20) 8
  seg : Vector Seg 8
  pc : Word
  /-- `STATUS` [16:0]; its bits [3:2] are always 0 (R24). -/
  status : BitVec 17
  asid : BitVec 16
  trapvec : BitVec 62
  trappc : BitVec 62
  trapcause : Byte
  trapval : Word
  waitlim : BitVec 32
  feretry : BitVec 8
  nplim : BitVec 32
  pendb : BitVec 32
  seed : Word
  sigaddr : BitVec 61
  /-- `ENROLL` [6:1]. -/
  enroll : BitVec 6
  lstart : BitVec 62
  lend : BitVec 62
  lcount : Word
  mxpromo : BitVec 7
  eng : Vector EngThread 4
  /-- The six incoming queues, head first, each entry with the logical core and slot that pushed it (R166, R167). -/
  queues : Vector (List (Word × Nat × Fin 16)) 6
  /-- Credits on the six outgoing ports (R167). -/
  credits : Vector Nat 6
  run : RunState
  /-- A deferred error: its cause and global address (R246). -/
  deferred : Option (Byte × Word)
  /-- The reservation held: the global address given to `lr`, and its home (R192). -/
  reservation : Option (Word × Nat)
  /-- A packet is in service (R210). -/
  inService : Bool
  /-- A packet has been assigned to the slot (R211). -/
  assigned : Option (List Byte)
  /-- The pinned footprint: FPDST and FPLEN (R217). -/
  pin : Option (Nat × Nat)
  /-- Words of the assigned packet's footprint already fetched (R217). -/
  fetched : Nat
  /-- The launch entry that started the thread (R159). -/
  entry : Option (Fin 16)
  /-- The word of the instruction a waiting thread stands at; none while it waits for a fetch. -/
  parked : Option InsnWord
  taken : List Token
  /-- `CYCLE` from which the thread may next issue (R27, R145, R146, R155). -/
  nextIssue : Nat
  /-- The handler's first fetch is to come (R28). -/
  entering : Bool
  /-- The start of the port wait, with `NPLIM` as read then (R172). -/
  portWait : Option (Nat × BitVec 32)
  /-- The start of the word wait or of the wait in `taskpop`, with `WAITLIM` as read then (R187, R211). -/
  wordWait : Option (Nat × BitVec 32)
  /-- A withdrawal is on its way to the home (R187). -/
  withdrawing : Bool
  /-- A ticket held at a home: the home and the number (R186). -/
  ticket : Option (Nat × Nat)
  /-- A wake has queued a reissue at the MSE (R145). -/
  woken : Bool
  /-- The release of a fault with FATAL, or an expiry: the trap that the reissue takes (R145, R172, R187, R415). -/
  pendingTrap : Option (Byte × Word)
  /-- `CYCLE` in which the wait in `taskpop` ended without a packet (R211). -/
  popEnded : Option Nat
  /-- Starts of the slot so far. What an earlier thread of the slot left in flight carries an earlier number, and changes nothing of
  the thread (R27). -/
  gen : Nat
  /-- `CYCLE` in which the slot last became idle or halted (R159). -/
  freedAt : Nat
  /-- Nominal time at which a `bar` issued, and once its episode is complete that by which it completes (R198). -/
  barAt : Nat
  /-- Nominal time before which a fetch or a footprint that found no held-request entry is not sent again (R415). -/
  again : Nat
  /-- The next word that a fill or a footprint brings over a link is spoiled there (R419, R455). -/
  spoiled : Bool
  deriving DecidableEq, Repr

/-- The packet, descriptors and registers that a launch delivers (R157). -/
structure Launch where
  packet : List Byte
  mask : BitVec 16
  seg : Vector Seg 8
  asid : BitVec 16
  trapvec : BitVec 62
  enroll : BitVec 6
  source : Nat
  deriving DecidableEq, Repr

/-- A launch entry of the task unit (R159). -/
structure LaunchEntry where
  /-- Arrival number, which orders held starts of one slot. -/
  order : Nat
  held : BitVec 16
  running : BitVec 16
  launch : Launch
  deriving DecidableEq, Repr

/-- One of the core's two deques: its top place and its count (R206). -/
structure Deque where
  top : Nat
  count : Nat
  deriving DecidableEq, Repr

/-- A successor release or a firing that waits for room (R221), by the name of its message, and the request of a held
decrement, whose answer waits for its placement. -/
structure HeldTask where
  order : Nat
  packet : List Byte
  trigger : Option (Fin 16)
  owner : Option Nat
  deriving DecidableEq, Repr

/-- Where a split's lower part goes (R210, R211, R216). -/
inductive SplitFor
  | pop (slot : Fin 16)
  | assign (slot : Fin 16)
  | steal (thief : Nat)
  deriving DecidableEq, Repr

/-- A split whose successor increments are not all performed (R210, R216). -/
structure Split where
  lower : List Byte
  upper : List Byte
  urgent : Bool
  target : SplitFor
  left : List Nat
  deriving DecidableEq, Repr

/-- The stealing of a core (R215): the round's stage and place, and the request outstanding. At stage 3 the round has been stopped, and
only its reply is awaited. -/
inductive Steal
  | off
  | asking (stage : Nat) (j : Nat) (offset : Nat) (victim : Nat)
  | answered (stage : Nat) (j : Nat) (offset : Nat) (packet : Option (List Byte))
  | paused (until_ : Nat)
  deriving DecidableEq, Repr

/-- Work of the message engine (R140). -/
inductive MseItem
  | remote (id : Nat)
  | reissue (slot : Fin 16)
  deriving DecidableEq, Repr

/-- An engine command with its snapshot (R313, R430). -/
structure Cmd where
  cmd : Nat
  slot : Fin 16
  a : Word
  b : Word
  /-- The rigging registers, each address parameter as its global address (R430). -/
  rig : Vector Word 32
  /-- The descriptors that pieces, records, pages and entries are checked against when they are reached (R369, R385). -/
  seg : Seg
  seg2 : Seg
  asid : BitVec 16
  acq : Bool
  rel : Bool
  scope : Scope
  sig : Bool
  sigaddr : BitVec 61
  seq : BitVec 32
  mxpromo : BitVec 7
  /-- The stream state of `cp.tern` (R374). -/
  st : Word
  /-- Requests of the issuing thread retired before the issue, which ACQ awaits (R289). -/
  earlier : List Nat
  /-- Issue number, which orders the thread's commands on different engines (R289). -/
  order : Nat
  /-- The start of its slot that issued it (R27). -/
  gen : Nat
  deriving DecidableEq, Repr

/-- A wide accumulator with its NaN mark, and the F26 running sum (R306, R308, R322). -/
structure Acc where
  w : Int
  nan : Bool
  run : BitVec 26
  deriving DecidableEq, Repr

/-- Operands of a window as the matrix engine holds them (R322, R323): the column block, the window, and each run of bytes read so far
with its scales or exponents. -/
structure Tile where
  block : Nat
  window : Nat
  runs : List (List Byte × List Nat)
  deriving DecidableEq, Repr

/-- The progress of a running command (R431): counters in the nesting order of its loops, an index vector, accumulators, lane
partials, the stream state, format flags and whether the contribution of a reduction was sent. -/
structure Prog where
  c : Nat
  w : Nat
  m : Nat
  n : Nat
  g : Nat
  /-- The command stands inside an output element (R424). -/
  atElement : Bool
  idx : List Nat
  acc : Map Acc
  lanes : List (Option Int)
  /-- The two weight-tile buffers, and the activations of the window (R322). -/
  tiles : Vector (Option Tile) 2
  rows : Option Tile
  /-- A value computed for an output element, with its flags, that the next access writes (R334). -/
  pending : Option (Nat × BitVec 5)
  /-- Elements that a row, a block or a group of trits has read, and what it has to write (R348, R358, R376). -/
  row : List Nat
  out : List Nat
  /-- Lines that `cp.pf` has requested, each with its home (R371). -/
  lines : List (Nat × Nat)
  /-- Queries and their scales, as a selection command read them. -/
  queries : List (List Byte × Nat)
  /-- For each query the best pages so far with their bounds, best first, and how many have qualified (R388). -/
  picks : List (List (Nat × Nat) × Nat)
  st : Word
  flags : BitVec 5
  sent : Bool
  /-- Every write is made; the signal is to be sent (R424). -/
  written : Bool
  /-- An error has stopped the command (R318). -/
  error : Option Byte
  deriving DecidableEq, Repr

/-- What a running engine command waits for. -/
inductive EngWait
  | none
  /-- A fault entry (R415), or a bulk transfer held at another module (R454). -/
  | fault
  /-- A bulk transfer to another module, for an address (R454). -/
  | transfer (ga : Word)
  /-- A bulk transfer that found no held-request entry, which is sent again at a nominal time (R415). -/
  | returned (again : Nat)
  /-- The answer of an active message (R454). -/
  | message (id : Nat)
  deriving DecidableEq, Repr

/-- One engine of a core (R315). -/
structure EngineUnit where
  queue : List Cmd
  running : Option (Cmd × Prog)
  wait : EngWait
  /-- A transfer to another module has been allowed (R454). -/
  transferred : Bool
  /-- The answer of its last active message (R454). -/
  reply : Option Token
  /-- The next word that it reads or writes over a link is spoiled there (R419, R455). -/
  spoiled : Bool
  deriving DecidableEq, Repr

/-- A top-k list (R382). -/
structure TopK where
  k : Nat
  dir : Bool
  pairs : List (BitVec 32 × BitVec 32)
  deriving DecidableEq, Repr

/-- Whether a context is resident (R421). -/
inductive CoreStatus
  | active | frozen | saved
  deriving DecidableEq, Repr

/-- The state of a logical core outside its threads. -/
structure Core where
  status : CoreStatus
  /-- The first name of what is sent after a freeze has begun, which is held at its source (R176, R421). -/
  freezeFrom : Nat
  mxgate : BitVec 16
  /-- `CYCLE` at the issue of the `mtsys` that last wrote `MXGATE` (R23). -/
  mxgateAt : Nat
  mse : List MseItem
  /-- Cycles with work pending and no position (R141). -/
  starved : Nat
  normal : Deque
  urgent : Deque
  entries : Vector (Option LaunchEntry) 16
  /-- What the launch entries held at the last save (R428, log 12). -/
  saved : Vector (Option LaunchEntry) 16
  /-- Trigger entries in use, and those whose binding was discarded while the context was not resident (R218, R223). -/
  triggers : BitVec 16
  unbound : BitVec 16
  heldTasks : List HeldTask
  split : Option Split
  /-- Slots waiting in `taskpop`, longest first (R211). -/
  poppers : List (Fin 16)
  steal : Steal
  /-- The steal state g (R215). -/
  g : Word
  engines : Vector EngineUnit 4
  topk : Vector TopK 4
  /-- Sub-arrays gated, and cycle stamps since which each is idle (R321). -/
  gated : BitVec 4
  idleSince : Vector Nat 4
  energy : Word
  /-- The cluster meter when the context entered its cluster (R438). -/
  meterBase : Word
  msgin : Word
  /-- `SLOTST` before a freeze (R429). -/
  codes : Word
  deriving DecidableEq, Repr

/-- A line of the instruction cache: its bytes and the poison marks of its words (R132). -/
structure ILine where
  bytes : List Byte
  poison : BitVec 16
  deriving DecidableEq, Repr

/-- The state of a physical core. -/
structure Phys where
  cycle : Word
  /-- Nominal time of the next core cycle (R434). -/
  next : Nat
  /-- log2 of the divider, and the divider waited for while the rail rises (R434, R436). -/
  divider : Fin 4
  wanted : Fin 4
  /-- Instruction-cache lines by ASID and line address (R132). -/
  icache : Map ILine
  gated : Bool
  /-- Nominal time at which a wake from a power gate ends (R435). -/
  waking : Option Nat
  temp : Int
  hot : Bool
  deriving DecidableEq, Repr

/-- A waiter in a monitor table (R185). -/
structure Monitor where
  core : Nat
  slot : Fin 16
  ga : Word
  word : Nat
  awaits : Awaits
  deriving DecidableEq, Repr

/-- A reservation in a home's table (R192). -/
structure Reservation where
  core : Nat
  slot : Fin 16
  block : Nat
  deriving DecidableEq, Repr

/-- A trigger binding (R218). -/
structure Binding where
  word : Nat
  ga : Word
  core : Nat
  entry : Fin 16
  deriving DecidableEq, Repr

/-- The tables of one home (R185, R186, R192, R218). Words and blocks are named by their keys within the home. -/
structure Home where
  monitors : List Monitor
  nextTicket : BitVec 48
  nowServing : BitVec 48
  /-- Outstanding tickets: number, core, slot. -/
  tickets : List (Nat × Nat × Fin 16)
  /-- Entries kept for served tickets. -/
  kept : List Nat
  reservations : List Reservation
  bindings : List Binding
  lastTurn : Nat
  deriving DecidableEq, Repr

/-- A line present in a slice (R258, R261, R262), and whether it is one of a REP page (R274). -/
structure Line where
  num : Nat
  dirty : Bool
  pinned : Bool
  rep : Bool
  deriving DecidableEq, Repr

/-- The way that a miss entry fills (R260, R268): one that is free for it, one whose dirty line waits for the write-back buffer, or
none yet, while every way of the set is pinned or taken. -/
inductive Way
  | free
  | evicting (num : Nat)
  | wanted
  deriving DecidableEq, Repr

/-- A miss entry (R267): the line, the way it fills, what has been asked of the line since, whether a `cp.pf` took the entry (R273), and
the requests that wait on it in order of acceptance. -/
structure Miss where
  line : Nat
  way : Way
  pin : Bool
  nt : Bool
  dirty : Bool
  rep : Bool
  byCp : Bool
  waiters : List Nat
  deriving DecidableEq, Repr

/-- A memory-side-cache slice: lines in order of use, most recent first; miss entries; the write-back buffer, oldest first; write-backs
on their way through miss entries and through the reserved one (R267, R268). The bytes stand in `Memory` whatever tier holds them. -/
structure Slice where
  lines : List Line
  misses : List Miss
  writebacks : List Nat
  sending : List Nat
  reserved : Option Nat
  deriving DecidableEq, Repr

/-- The Shroud of a die (R263): the requests on each line before each stage, first to leave first, by `stage * 128 + line`; a line
before stage 7 is an output of the network, and holds what a slice is to accept. The second network carries answers back over the same
lines, from stage 7 to stage 0. -/
structure Net where
  queues : Map (List Nat)
  /-- Outputs, as `stage * 128 + line` of the next stage, that last served their lower input (R266). -/
  lower : List Nat
  replies : Map (List Nat)
  /-- Outputs of the second network, as `stage * 128 + line`, that last served the odd one of their two inputs. -/
  replyLower : List Nat
  /-- Outputs by which a combined request has left in this cycle, each with its name (R264). -/
  spent : List (Nat × Nat)
  deriving DecidableEq, Repr

/-- A valid summary region (R252). -/
structure Region where
  vbase : Nat
  vlen : Nat
  sbase : Nat
  dc : Nat
  sprd : Bool
  hdie : Nat
  deriving DecidableEq, Repr

/-- A leaf as a translation buffer holds it (R240, R243): with the physical address of its entry, and the region entries that are cached
with it, those of its ASID in ascending index up to a poisoned one, whose address is kept (R252). -/
structure Leaf where
  pfn : Nat
  pageBits : Nat
  attrs : BitVec 14
  entry : Nat
  regions : List Region
  poisonAt : Option Nat
  deriving DecidableEq, Repr

/-- A translation-buffer entry: ASID, page base and leaf. -/
structure TlbEntry where
  asid : BitVec 16
  page : Nat
  leaf : Leaf
  deriving DecidableEq, Repr

/-- What a fault-table entry releases (R415). -/
inductive Waiter
  | thread (core : Nat) (slot : Fin 16)
  | engine (core : Nat) (eng : Engine)
  | footprint (core : Nat) (slot : Fin 16)
  | request (id : Nat)
  deriving DecidableEq, Repr

/-- A walk's failure (R411, R413). -/
structure WalkFault where
  cause : Byte
  level : Nat
  epa : Nat
  ga : Word
  deriving DecidableEq, Repr

/-- A fault-table entry (R414). -/
structure FaultEntry where
  isOpen : Bool
  gen : BitVec 20
  asid : BitVec 16
  page : Nat
  /-- The GA of word 1 of its record. -/
  ga : Word
  waiters : List Waiter
  deriving DecidableEq, Repr

/-- A failed walk that has not yet joined or opened an entry (R414). -/
structure PendingFault where
  die : Nat
  kind : Nat
  asid : BitVec 16
  fault : WalkFault
  core : Nat
  slot : Fin 16
  waiter : Waiter
  deriving DecidableEq, Repr

/-- A record that a die has to write: its words, the ring index it claimed, and when it may try again (R412). -/
structure PendingRecord where
  words : List Word
  index : Option Nat
  retryAt : Nat
  deriving DecidableEq, Repr

/-- The state of one die that is not a core's or a slice's: its fault table and last-level TLB. -/
structure Die where
  tlb : List TlbEntry
  faults : Map FaultEntry
  records : List PendingRecord
  deriving DecidableEq, Repr

/-- A request to the freeze controller (R422). -/
structure FreezeReq where
  core : Nat
  slot : Fin 16
  value : Word
  deriving DecidableEq, Repr

/-- An event raised and not yet numbered (R474, R475, R487). -/
structure Event where
  source : Word
  code : Nat
  stamp : Word
  d0 : Word
  d1 : Word
  d2 : Word
  deriving DecidableEq, Repr

/-- The host-visible control window (R466). -/
structure Window where
  recovery : Bool
  isReady : Bool
  version : BitVec 32
  hirq : BitVec 4
  hien : BitVec 4
  /-- MSI-X vectors raised, oldest first. -/
  msix : List (Fin 4)
  lpkt : Vector Word 32
  lseg : Vector Word 16
  lasid : BitVec 16
  ltvec : BitVec 62
  lenrol : BitVec 6
  launchBusy : Bool
  rej : Bool
  drop : Bool
  /-- The flood that a doorbell started, until its wake has left service core 0 (R467). -/
  launching : Option Nat
  mbreq : Map Word
  mbrep : List Byte
  mbBusy : Bool
  /-- Bytes that the command in service has moved, and poisoned words that it met (R470, R471). -/
  mbDone : Nat
  mbBad : List Nat
  mbStatus : Byte
  mbLen : Nat
  evhead : BitVec 10
  evtail : BitVec 10
  evlost : Word
  fqmir : Word
  evring : Map (List Word)
  deriving DecidableEq, Repr

/-- Halyard: Mast's and Canvas's registers, the fuses and the flash (R473 to R480). -/
structure Halyard where
  pcap : Nat
  tlimit : Nat
  sample : Option Sample
  lastSample : Nat
  /-- Module power of the samples of the last millisecond, newest first, and the time since which the mean is low. -/
  powers : List Nat
  lowSince : Option Nat
  lastDivider : Nat
  heldInReset : Bool
  seqNum : Word
  /-- The flash log, newest first, of at most 262,144 entries (R474). -/
  log : List (List Word)
  events : List Event
  meas : Vector (List Byte) 8
  /-- The Mast region of flash, which the boot measures and locks, and the image area with its validity marker (R476, R477, R480). -/
  mast : List Byte
  image : List Byte
  imageValid : Bool
  /-- Fuses: the hash of the vendor key and the security version (R476, R477). -/
  vendorHash : List Byte
  fusedVersion : BitVec 32
  modidAtBoot : Nat
  identitySeed : List Byte
  secret : List Byte
  certificate : List Byte
  /-- The copy of the staged image that an UPDATE is taking, and an image verified and being written to flash (R480). -/
  staged : List Byte
  writing : Option (List Byte)
  report : List (List Byte)
  softErrors : Nat
  canvasRestarts : Nat
  deriving DecidableEq, Repr

/-- The state of one module. -/
structure Module where
  /-- Nominal time of the last module reset (R23). -/
  since : Nat
  /-- Logical cores that stand on another physical core than the one of their own number, both of this module (R151). -/
  table : Map Nat
  /-- Backed bytes of windows 0 to 6, and expanders that failed (R270, R472). -/
  backed : Vector Nat 7
  failed : BitVec 7
  clusterTlbs : Map (List TlbEntry)
  dies : Map Die
  /-- Group identifiers draining in this module, and reductions they drain for (R461). -/
  draining : List Nat
  freezeQueue : List FreezeReq
  /-- A thermal migration under way: the logical core and the free physical core (R433). -/
  migrating : Option (Nat × Nat)
  rails : Map Nat
  meters : Map Word
  chargedToHalyard : Word
  window : Window
  halyard : Halyard
  /-- Planes and Stay ports that are down (R455). -/
  planesDown : BitVec 8
  staysDown : BitVec 2
  deriving DecidableEq, Repr

/-- The latched fabric block of a module (R448). -/
structure Fabric where
  nmod : Nat
  ringid : Nat
  rlen : Nat
  rpos : Nat
  peer0 : Option Nat
  peer1 : Option Nat
  deriving DecidableEq, Repr

/-- Who asks a slice for a line, and then reads or writes it (R263, R267): an engine, a fetch, a footprint, a walker for a page; or a `cp.pf`,
with its retention (R273, R371). -/
inductive LineFor
  | engine (core : Nat) (eng : Engine)
  | fetch (core : Nat) (slot : Fin 16)
  | footprint (core : Nat) (slot : Fin 16)
  | walk (die : Nat) (cluster : Option Nat) (asid : BitVec 16) (page : Nat)
  | copy (core : Nat) (keep : Bool)
  /-- The save record of a core (R422, R423). -/
  | record (core : Nat)
  deriving DecidableEq, Repr

/-- Operations at homes (R178, R179), and what active messages bring to a core (R453). -/
inductive HomeOp
  | load (n : Nat)
  | store (n : Nat) (v : Word)
  | ldfe
  | ldff
  | stef (v : Word)
  | stsf (v : Word)
  | fempty
  | fstate
  | lr
  | sc (v : Word)
  | cas (c v : Word)
  | amo (fn : Nat) (v : Word)
  | waitrs
  | bind (core : Nat) (entry : Fin 16)
  | unbind
  | gidget
  | gidput (g : Nat)
  | prefetch (nt : Bool)
  /-- An eight-byte read that is none of those R264 lets combine: of a task packet, or by `engload`. -/
  | packet
  /-- The translation of a write, and nothing else (R136). -/
  | check
  /-- A line for an access that is made when it is there. -/
  | line (who : LineFor)
  /-- A successor decrement, at the pending packet that its address names (R213). -/
  | decrement
  /-- The wake of a launch, for every core of the module it is addressed to (R456). -/
  | wake (flood : Nat)
  deriving DecidableEq, Repr

/-- How far a request has come. -/
inductive Stage
  /-- Sent, and not yet at its home's core, receiving core or translation. -/
  | sent
  /-- In an MSE's queue. -/
  | queued
  /-- Sent on by a receiving core to the home core that it names, and in that core's queue (R453). -/
  | forwarded
  | atHome
  /-- Translated; not yet accepted by a slice. A store of the own module that has not retired awaits acceptance here. -/
  | translated
  /-- Accepted by its slice, with the answer that waits for the fill of its line. -/
  | missing (answer : Token)
  /-- Combined into another request, with whose answer its own comes (R264). -/
  | merged
  /-- A decrement whose packet waits for room in its deque (R221). -/
  | room
  /-- Answered, with the answer on its way back through the Shroud (R263). -/
  | replying (answer : Token)
  /-- A failed full-empty attempt, repeated from the given time (R184). -/
  | failed (again : Nat)
  /-- Held at its home module for a fault (R415), or waiting to be held. -/
  | held
  /-- Returned for want of a held-request entry, sent again at the given time (R415). -/
  | returned (again : Nat)
  /-- Performed, with the answer it carries back. -/
  | performed (answer : Token)
  deriving DecidableEq, Repr

/-- A request on its way (R146, R234, R244, R245). -/
structure Req where
  core : Nat
  slot : Fin 16
  asid : BitVec 16
  op : HomeOp
  ga : Word
  /-- A reply is awaited; otherwise the request is, or will be, retired (R278). -/
  awaited : Bool
  /-- Bytes it holds in `PENDB` (R183, R234). -/
  bytes : Nat
  /-- The instruction has retired it. -/
  retired : Bool
  /-- Repeats left (R184). -/
  left : Nat
  /-- The start of its slot that sent it (R27). -/
  gen : Nat
  /-- Order in which its answer was sent, which packets of one pair of cores keep (R150). -/
  answered : Nat
  /-- It was held or returned, and later messages of its pair and path still wait behind it (R453). -/
  requeued : Bool
  /-- The receiving core whose message engine it reached, and when (R452, R453). -/
  via : Option Nat := none
  arrived : Nat := 0
  /-- Order among what is sent over the Ratline: its own name, or that taken when a receiving core sent it on (R150). -/
  hop : Option Nat := none
  /-- The input by which it entered the Shroud (R263). -/
  input : Nat := 0
  /-- A link has spoiled the data that it writes (R419, R455). -/
  spoiled : Bool := false
  /-- The engine whose message it is (R454). -/
  engine : Option Engine := none
  target : Option Target
  stage : Stage
  /-- Combined requests that take their answers from this one: id, for `amo` the operand of the first, and the switch whose combining
  buffer holds the pair (R264, R265). -/
  combined : List (Nat × Word × Nat)
  deriving DecidableEq, Repr

/-- A port entry or a credit in flight (R167, R170). -/
structure PortMsg where
  isCredit : Bool
  core : Nat
  slot : Fin 16
  port : Port
  value : Word
  fromCore : Nat
  fromSlot : Fin 16
  /-- The physical core whose clock counts its latency (R434). -/
  fromPhys : Nat
  due : Nat
  deriving DecidableEq, Repr

/-- Task-unit messages in flight (R210, R220): an increment with the core that splits, a firing with the home that fires. -/
inductive TaskMsg
  | increment (handle : Word) (splitter : Nat)
  | firing (core : Nat) (entry : Fin 16) (ga val : Word) (home : Nat)
  deriving DecidableEq, Repr

/-- A launch flood in flight and the cores it has reached (R158, R456). -/
structure Flood where
  scope : Scope
  launch : Launch
  fromCore : Nat
  fromSlot : Option (Fin 16)
  reached : List Nat
  /-- Modules that have the wake (R456). -/
  modules : List Nat
  deriving DecidableEq, Repr

/-- A copy of a REP store on its way to the replica of a die: the word as the store left it, with its full-empty bit and poison mark
(R282, R283, log 65). -/
structure RepCopy where
  module : Nat
  die : Nat
  /-- The address of the word. -/
  addr : Nat
  value : Word
  poison : Bool
  full : Bool
  stamp : Nat × Nat
  core : Nat
  slot : Fin 16
  /-- The start of the slot that wrote (R27). -/
  gen : Nat
  /-- The engine command that wrote: its engine and SEQ (R285, R289). -/
  engine : Option (Engine × BitVec 32)
  deriving DecidableEq, Repr

/-- A word of a REP page at the replica of a die other than die 0, or the stamp alone of die 0's (R262, R283). -/
structure RepWord where
  value : Word
  poison : Bool
  full : Bool
  stamp : Nat × Nat
  deriving DecidableEq, Repr

/-- A barrier group at one scope: enrolment, arrivals and the threads that arrived (R197). -/
structure Group where
  e : Int
  a : Nat
  waiting : List (Nat × Fin 16)
  /-- Nominal time of the latest issue among the arrivals (R198). -/
  last : Nat
  deriving DecidableEq, Repr

/-- A member's contribution to a reduction (R372, R459). -/
structure Contribution where
  core : Nat
  rank : Nat
  nmemb : Nat
  rop : Nat
  rtyp : Nat
  vec : List Word
  deriving DecidableEq, Repr

/-- A reduction: contributions, and once complete its result or the disagreement, with the members still to be written. -/
structure Reduction where
  asid : BitVec 16
  gid : Nat
  got : List Contribution
  result : Option (Option (List Word))
  pending : List Nat
  deriving DecidableEq, Repr

/-- The slot that issues, and the agents' common scalars. -/
structure Ctl where
  /-- Logical core and slot of the instruction that `exec` runs. -/
  core : Nat
  slot : Fin 16
  turn : Option Turn
  /-- Steps taken; the number given to `Config.schedule`. -/
  steps : Nat
  /-- Free values taken so far. -/
  fresh : Nat
  /-- Names given to messages so far. -/
  nextId : Nat
  /-- Nominal core clock cycles (R1) since reset. -/
  now : Nat
  deriving DecidableEq, Repr

/-- The machine. -/
structure State where
  ctl : Ctl
  mem : Memory
  threads : Map Thread
  cores : Map Core
  phys : Map Phys
  homes : Map Home
  slices : Map Slice
  /-- By `module * 8 + die`. -/
  nets : Map Net
  modules : Map Module
  fabrics : Map Fabric
  nmod : Nat
  groups : Map Group
  reqs : Map Req
  ports : Map PortMsg
  tasks : Map TaskMsg
  floods : Map Flood
  faults : Map PendingFault
  copies : Map RepCopy
  replicas : Map RepWord
  reductions : Map Reduction
  deriving DecidableEq, Repr

/-- Why the machine stops. -/
inductive Fault
  /-- The turn names an issue position of a core in a module that does not exist (R449). Raised by `step`; safe: no such core
  has state. -/
  | noSuchModule
  deriving DecidableEq, Repr

/-- Why an instruction has no meaning here. -/
inductive Refusal
  /-- The instruction has no meaning in this model. Raised by an arm of `exec`; safe. -/
  | notModelled (mnemonic : String)
  deriving DecidableEq, Repr

/-- Engine thread state of a started thread (R311). -/
def EngThread.start : EngThread := { rig := Vector.replicate 32 0, seq := 0, flags := 0, err := none, doneSeq := 0 }

/-- An empty descriptor (R15). -/
def Seg.zero : Seg := { base := 0, word := 0 }

/-- A slot at module reset (R26, R23, R27, R167). -/
def Thread.reset : Thread where
  s := Vector.replicate 16 0
  a := Vector.replicate 8 0
  m := Vector.replicate 8 0
  seg := Vector.replicate 8 Seg.zero
  pc := 0
  status := 0
  asid := 0
  trapvec := 0
  trappc := 0
  trapcause := 0
  trapval := 0
  waitlim := 0
  feretry := 8
  nplim := 0
  pendb := 0
  seed := 0
  sigaddr := 0
  enroll := 0
  lstart := 0
  lend := 0
  lcount := 0
  mxpromo := 1
  eng := Vector.replicate 4 EngThread.start
  queues := Vector.replicate 6 []
  credits := Vector.replicate 6 4
  run := .idle
  deferred := none
  reservation := none
  inService := false
  assigned := none
  pin := none
  fetched := 0
  entry := none
  parked := none
  taken := []
  nextIssue := 0
  entering := false
  portWait := none
  wordWait := none
  withdrawing := false
  ticket := none
  woken := false
  pendingTrap := none
  popEnded := none
  gen := 0
  freedAt := 0
  barAt := 0
  again := 0
  spoiled := false

def EngineUnit.reset : EngineUnit := { queue := [], running := none, wait := .none, transferred := false, reply := none, spoiled := false }

/-- Core L at module reset (R23, R116, R215, R382, R421). -/
def Core.reset (L : Nat) : Core where
  status := .active
  freezeFrom := 0
  mxgate := 256
  mxgateAt := 0
  mse := []
  starved := 0
  normal := { top := 0, count := 0 }
  urgent := { top := 0, count := 0 }
  entries := Vector.replicate 16 none
  saved := Vector.replicate 16 none
  triggers := 0
  unbound := 0
  heldTasks := []
  split := none
  poppers := []
  steal := .off
  g := BitVec.ofNat 64 (L + 1)
  engines := Vector.replicate 4 EngineUnit.reset
  topk := Vector.replicate 4 { k := 0, dir := false, pairs := [] }
  gated := 0
  idleSince := Vector.replicate 4 0
  energy := 0
  meterBase := 0
  msgin := 0
  codes := 0

/-- A physical core at nominal time `now` of a module that was reset at `since`, when nothing has yet moved it: its clock runs at
divider 1 (R23, R434). -/
def Phys.reset (now since : Nat) : Phys where
  cycle := BitVec.ofNat 64 (now - since)
  next := now
  divider := 0
  wanted := 0
  icache := []
  gated := false
  waking := none
  temp := 25
  hot := false

def Home.reset : Home where
  monitors := []
  nextTicket := 0
  nowServing := 0
  tickets := []
  kept := []
  reservations := []
  bindings := []
  lastTurn := 0

def Slice.reset : Slice := { lines := [], misses := [], writebacks := [], sending := [], reserved := none }

def Net.reset : Net := { queues := [], lower := [], replies := [], replyLower := [], spent := [] }

def Die.reset : Die := { tlb := [], faults := [], records := [] }

/-- The control window at reset (R466). -/
def Window.reset : Window where
  recovery := false
  isReady := false
  version := 0
  hirq := 0
  hien := 0
  msix := []
  lpkt := Vector.replicate 32 0
  lseg := Vector.replicate 16 0
  lasid := 0
  ltvec := 0
  lenrol := 0
  launchBusy := false
  rej := false
  drop := false
  launching := none
  mbreq := []
  mbrep := []
  mbBusy := false
  mbDone := 0
  mbBad := []
  mbStatus := 0
  mbLen := 0
  evhead := 0
  evtail := 0
  evlost := 0
  fqmir := 0
  evring := []

/-- Halyard at reset: MEAS zero (R477), temperature limit 100 (R433); the rest as log 3 says. -/
def Halyard.reset : Halyard where
  pcap := 2400
  tlimit := 100
  sample := none
  lastSample := 0
  powers := []
  lowSince := none
  lastDivider := 0
  heldInReset := false
  seqNum := 0
  log := []
  events := []
  meas := Vector.replicate 8 (List.replicate 64 0)
  mast := []
  image := []
  imageValid := true
  vendorHash := []
  fusedVersion := 0
  modidAtBoot := 0
  identitySeed := []
  secret := []
  certificate := []
  staged := []
  writing := none
  report := []
  softErrors := 0
  canvasRestarts := 0

/-- A module at reset, with the shipped backing: 1,536 GB and six expanders of 1,792 GB (R4, R270). -/
def Module.reset : Module where
  since := 0
  table := []
  backed := #v[1536000000000, 1792000000000, 1792000000000, 1792000000000, 1792000000000, 1792000000000, 1792000000000]
  failed := 0
  clusterTlbs := []
  dies := []
  draining := []
  freezeQueue := []
  migrating := none
  rails := []
  meters := []
  chargedToHalyard := 0
  window := Window.reset
  halyard := Halyard.reset
  planesDown := 0
  staysDown := 0

/-- The fabric block of a module without Stay cabling (R448). -/
def Fabric.alone (m : Nat) : Fabric := { nmod := 1, ringid := m, rlen := 1, rpos := 0, peer0 := none, peer1 := none }

/-- The machine right after module reset (R26): every slot idle, nothing in flight, memory with nothing listed. -/
def State.reset : State where
  ctl := { core := 0, slot := 0, turn := none, steps := 0, fresh := 0, nextId := 0, now := 0 }
  mem := { cells := [], empties := [], poisons := [] }
  threads := []
  cores := []
  phys := []
  homes := []
  slices := []
  nets := []
  modules := []
  fabrics := []
  nmod := 1
  groups := []
  reqs := []
  ports := []
  tasks := []
  floods := []
  faults := []
  copies := []
  replicas := []
  reductions := []

end Sys2Proof.Machine
end

