-- ==== Sys2Proof/Machine/Ops.lean ====
section
/-! DEFINITION. The machine's micro-operations, and the named operations over registers and contexts that every meaning is
written with: access to memory by key, threads, wakes, taking a trap (R133) and returning from it (R134), starting and ending
threads (R27, R153, R159), barrier groups (R197) and events (R474). -/

namespace Sys2Proof.Machine

/-- One indivisible change of one part of the state. Every step of the machine is a list of these. -/
inductive Op
  | poke (key : Nat) (b : Byte)
  | fe (word : Nat) (full : Bool)
  | poison (word : Nat) (on : Bool)
  | ctl (c : Ctl)
  | thread (key : Nat) (t : Thread)
  | core (L : Nat) (c : Core)
  | phys (P : Nat) (p : Phys)
  | home (h : Nat) (x : Home)
  | slice (n : Nat) (x : Slice)
  | net (n : Nat) (x : Net)
  | module (m : Nat) (x : Module)
  | fabric (m : Nat) (x : Fabric)
  | nmod (n : Nat)
  | group (key : Nat) (x : Group)
  | req (id : Nat) (x : Option Req)
  | port (id : Nat) (x : Option PortMsg)
  | task (id : Nat) (x : Option TaskMsg)
  | flood (id : Nat) (x : Option Flood)
  | fault (id : Nat) (x : Option PendingFault)
  | copy (id : Nat) (x : Option RepCopy)
  | replica (key : Nat) (x : Option RepWord)
  | reduction (id : Nat) (x : Option Reduction)
  deriving DecidableEq, Repr

/-- Writes or removes an entry. -/
def putOrDel {α : Type} (m : Map α) (k : Nat) : Option α → Map α
  | some v => put m k v
  | none => del m k

/-- Writes one byte, keeping the canonical form. -/
def Memory.poke (m : Memory) (key : Nat) (b : Byte) : Memory :=
  { m with cells := if b = unreadByte then del m.cells key else put m.cells key b }

/-- Sets a full-empty bit; full words are not listed (R178). -/
def Memory.setFe (m : Memory) (word : Nat) (full : Bool) : Memory :=
  { m with empties := if full then del m.empties word else put m.empties word () }

/-- Sets or clears a poison mark (R419). -/
def Memory.setPoison (m : Memory) (word : Nat) (on : Bool) : Memory :=
  { m with poisons := if on then put m.poisons word () else del m.poisons word }

/-- The byte at a key. -/
def Memory.byte (m : Memory) (key : Nat) : Byte := (look m.cells key).getD unreadByte

/-- The full-empty bit of a word. -/
def Memory.full (m : Memory) (word : Nat) : Bool := (look m.empties word).isNone

/-- The poison mark of a word. -/
def Memory.poisoned (m : Memory) (word : Nat) : Bool := (look m.poisons word).isSome

/-- The effect of a micro-operation. -/
def Op.apply (o : Op) (s : State) : State :=
  match o with
  | .poke k b => { s with mem := s.mem.poke k b }
  | .fe w f => { s with mem := s.mem.setFe w f }
  | .poison w p => { s with mem := s.mem.setPoison w p }
  | .ctl c => { s with ctl := c }
  | .thread k t => { s with threads := put s.threads k t }
  | .core L c => { s with cores := put s.cores L c }
  | .phys P p => { s with phys := put s.phys P p }
  | .home h x => { s with homes := put s.homes h x }
  | .slice n x => { s with slices := put s.slices n x }
  | .net n x => { s with nets := put s.nets n x }
  | .module m x => { s with modules := put s.modules m x }
  | .fabric m x => { s with fabrics := put s.fabrics m x }
  | .nmod n => { s with nmod := n }
  | .group k x => { s with groups := put s.groups k x }
  | .req id x => { s with reqs := putOrDel s.reqs id x }
  | .port id x => { s with ports := putOrDel s.ports id x }
  | .task id x => { s with tasks := putOrDel s.tasks id x }
  | .flood id x => { s with floods := putOrDel s.floods id x }
  | .fault id x => { s with faults := putOrDel s.faults id x }
  | .copy id x => { s with copies := putOrDel s.copies id x }
  | .replica k x => { s with replicas := putOrDel s.replicas k x }
  | .reduction id x => { s with reductions := putOrDel s.reductions id x }

/-- The effect of micro-operations, first to last. -/
def applyAll (ops : List Op) (s : State) : State := ops.foldl (fun s o => o.apply s) s

/-- A computation under way in a step from `s₀`: the micro-operations so far, newest first, and the state that they make. -/
structure Run (s₀ : State) where
  s : State
  ops : List Op
  made : s = applyAll ops.reverse s₀

/-- Nothing done yet. -/
def Run.start (s : State) : Run s := { s := s, ops := [], made := rfl }

/-- One micro-operation more. -/
def Run.push {s₀ : State} (r : Run s₀) (o : Op) : Run s₀ :=
  { s := o.apply r.s, ops := o :: r.ops, made := by simp [applyAll, r.made] }

/-- An action of the hardware in a step from `s₀`. -/
abbrev Act (s₀ : State) := StateM (Run s₀)

variable {s₀ : State}

/-- Performs a micro-operation. -/
def emit (o : Op) : Act s₀ Unit := modify fun r => r.push o

/-- The state so far. -/
def now : Act s₀ State := do return (← get).s

/-- The state that an action makes. -/
def afterAct (s : State) (a : Act s Unit) : State := (a.run (Run.start s)).2.s

/-- The outcome of an action of the hardware. -/
def act (s : State) (a : Act s Unit) : Host.Outcome State Fault Refusal := .next (afterAct s a)

/-- An event that its conditions do not allow now: nothing happens. -/
def when_ (c : Bool) (a : Act s₀ Unit) : Act s₀ Unit := if c then a else pure ()

/-- Performs an action for each member of a list in order. -/
def each {α : Type} (xs : List α) (f : α → Act s₀ Unit) : Act s₀ Unit :=
  match xs with
  | [] => pure ()
  | x :: rest => do f x; each rest f

/-- The bits `[lo + n - 1 : lo]` of a value. -/
def field {w : Nat} (x : BitVec w) (lo n : Nat) : Nat := x.toNat / 2 ^ lo % 2 ^ n

/-- A bit of a value. -/
def bit {w : Nat} (x : BitVec w) (i : Nat) : Bool := x.getLsbD i

/-- The signed value of `n` bits held in a number. -/
def signed (n x : Nat) : Int := if x % 2 ^ n < 2 ^ (n - 1) then (x % 2 ^ n : Nat) else (x % 2 ^ n : Nat) - (2 ^ n : Nat)

/-- A number as bytes, least significant first (R2). -/
def toBytes (n x : Nat) : List Byte := (List.range n).map fun i => BitVec.ofNat 8 (x / 2 ^ (8 * i))

/-- Bytes, least significant first, as a number (R2). -/
def ofBytes (bs : List Byte) : Nat := bs.foldr (fun b n => b.toNat + 256 * n) 0

/-- A 64-bit word of a number. -/
abbrev w64 (n : Nat) : Word := BitVec.ofNat 64 n

/-- A 64-bit word of an integer. -/
abbrev wInt (n : Int) : Word := BitVec.ofInt 64 n

/-- The quotient rounded up. -/
def ceilDiv (a b : Nat) : Nat := (a + b - 1) / b

/-- A vector with one element replaced. -/
def vset {α : Type} {n : Nat} (xs : Vector α n) (i : Fin n) (v : α) : Vector α n := xs.set i.val v i.isLt

/-- The next xorshift64 state (R8). -/
def nextRand (x : Word) : Word :=
  let x := x ^^^ (x <<< 13)
  let x := x ^^^ (x >>> 7)
  x ^^^ (x <<< 17)

/-! Numbers of cores and groups (R148, R149). -/

/-- Cores of a module. -/
def coresPerModule : Nat := 8192

def moduleOf (L : Nat) : Nat := L / 8192
def dieOf (L : Nat) : Nat := L / 1024 % 8
def rowOf (L : Nat) : Nat := L / 16 % 64
def colOf (L : Nat) : Nat := L % 16
def clusterOf (L : Nat) : Nat := L / 16
def coreAt (m d r c : Nat) : Nat := m * 8192 + d * 1024 + r * 16 + c

/-- Mesh column and row of a core (R149). -/
def meshOf (L : Nat) : Nat × Nat := (16 * (dieOf L % 2) + colOf L, 64 * (dieOf L / 2) + rowOf L)

/-- The core of a module at a mesh column and row (R149). -/
def coreAtMesh (m x y : Nat) : Nat := coreAt m (x / 16 + 2 * (y / 64)) (y % 64) (x % 16)

/-! Reading contexts. -/

def tkey (L : Nat) (k : Fin 16) : Nat := L * 16 + k

/-- The thread in a slot. -/
def State.thread (s : State) (L : Nat) (k : Fin 16) : Thread := (look s.threads (tkey L k)).getD Thread.reset

def State.core (s : State) (L : Nat) : Core := (look s.cores L).getD (Core.reset L)

def State.module (s : State) (m : Nat) : Module := (look s.modules m).getD Module.reset

def State.fabric (s : State) (m : Nat) : Fabric := (look s.fabrics m).getD (Fabric.alone m)

/-- The physical core of a logical core (R151). -/
def State.physOf (s : State) (L : Nat) : Nat := (look (s.module (moduleOf L)).table L).getD L

/-- The cluster and the die at whose memory ports a core's accesses leave (R243, R263). -/
def State.clusterAt (s : State) (L : Nat) : Nat := clusterOf (s.physOf L)
def State.dieAt (s : State) (L : Nat) : Nat := dieOf (s.physOf L)

def State.physCore (s : State) (P : Nat) : Phys := (look s.phys P).getD (Phys.reset s.ctl.now (s.module (moduleOf P)).since)

/-- `CYCLE` as a logical core reads it (R25). -/
def State.cycle (s : State) (L : Nat) : Nat := (s.physCore (s.physOf L)).cycle.toNat

def State.home (s : State) (h : Nat) : Home := (look s.homes h).getD Home.reset

def State.slice (s : State) (n : Nat) : Slice := (look s.slices n).getD Slice.reset

def State.net (s : State) (n : Nat) : Net := (look s.nets n).getD Net.reset

def State.group (s : State) (key : Nat) : Group := (look s.groups key).getD { e := 0, a := 0, waiting := [], last := 0 }

def Module.die (x : Module) (d : Nat) : Die := (look x.dies d).getD Die.reset

/-! Changing contexts. -/

def setThread (L : Nat) (k : Fin 16) (t : Thread) : Act s₀ Unit := emit (.thread (tkey L k) t)

def modThread (L : Nat) (k : Fin 16) (f : Thread → Thread) : Act s₀ Unit := do
  setThread L k (f ((← now).thread L k))

def modCore (L : Nat) (f : Core → Core) : Act s₀ Unit := do emit (.core L (f ((← now).core L)))

def modModule (m : Nat) (f : Module → Module) : Act s₀ Unit := do emit (.module m (f ((← now).module m)))

def modWindow (m : Nat) (f : Window → Window) : Act s₀ Unit := modModule m fun x => { x with window := f x.window }

def modHalyard (m : Nat) (f : Halyard → Halyard) : Act s₀ Unit := modModule m fun x => { x with halyard := f x.halyard }

def modPhys (P : Nat) (f : Phys → Phys) : Act s₀ Unit := do emit (.phys P (f ((← now).physCore P)))

/-- A core that messages reach: its context is active, and its clock runs (R421, R435). -/
def State.reachable (s : State) (L : Nat) : Bool :=
  (s.core L).status = .active && !(s.physCore (s.physOf L)).gated && !(s.module (moduleOf L)).halyard.heldInReset

/-- An access from elsewhere to a gated core's local store wakes the core, which runs 1 microsecond later (R435). -/
def rouse (L : Nat) : Act s₀ Unit := do
  let s ← now
  let p := s.physCore (s.physOf L)
  when_ (p.gated && p.waking.isNone && (s.core L).status = .active) (modPhys (s.physOf L) fun p => { p with waking := some (s.ctl.now + 2000) })

def modHome (h : Nat) (f : Home → Home) : Act s₀ Unit := do emit (.home h (f ((← now).home h)))

def modSlice (n : Nat) (f : Slice → Slice) : Act s₀ Unit := do emit (.slice n (f ((← now).slice n)))

def modNet (n : Nat) (f : Net → Net) : Act s₀ Unit := do emit (.net n (f ((← now).net n)))

def modDie (m d : Nat) (f : Die → Die) : Act s₀ Unit := modModule m fun x => { x with dies := put x.dies d (f (x.die d)) }

def modEngine (L : Nat) (e : Engine) (f : EngineUnit → EngineUnit) : Act s₀ Unit :=
  modCore L fun c => { c with engines := vset c.engines (Fin.ofNat 4 e.code) (f (c.engines.get (Fin.ofNat 4 e.code))) }

def modReq (id : Nat) (f : Req → Req) : Act s₀ Unit := do
  match look (← now).reqs id with
  | some r => emit (.req id (some (f r)))
  | none => pure ()

/-- A new name for a message. -/
def freshId : Act s₀ Nat := do
  let c := (← now).ctl
  emit (.ctl { c with nextId := c.nextId + 1 })
  return c.nextId

/-- A value the spec leaves open (log 5). -/
def freeValue : Act s₀ Nat := do
  let c := (← now).ctl
  emit (.ctl { c with fresh := c.fresh + 1 })
  return Config.freeNat c.fresh

/-! Memory by key. -/

/-- Key of a byte of the local store of a physical core. -/
def lsKey (P off : Nat) : Nat := P * 2 ^ 30 + off

/-- Key of a byte of a module's physical memory. -/
def paKey (m addr : Nat) : Nat := 2 ^ 63 + m * 2 ^ 44 + addr

/-- `n` bytes from a key, as a number (R2). -/
def State.bytesAt (s : State) (key n : Nat) : List Byte := (List.range n).map fun i => s.mem.byte (key + i)

def State.natAt (s : State) (key n : Nat) : Nat := ofBytes (s.bytesAt key n)

/-- Stores bytes from a key. -/
def pokeBytes (key : Nat) (bs : List Byte) : Act s₀ Unit :=
  match bs with
  | [] => pure ()
  | b :: rest => do emit (.poke key b); pokeBytes (key + 1) rest

/-- Bytes of a logical core's local store. -/
def State.lsBytes (s : State) (L off n : Nat) : List Byte := s.bytesAt (lsKey (s.physOf L) off) n

def pokeLs (L off : Nat) (bs : List Byte) : Act s₀ Unit := do pokeBytes (lsKey ((← now).physOf L) off) bs

/-! Events (R474, R487). -/

/-- Raises an event: it takes its number when the arbiter sees it (R474). -/
def raiseEvent (m : Nat) (source : Word) (code : Nat) (stamp : Word) (d0 d1 d2 : Word) : Act s₀ Unit :=
  modHalyard m fun h =>
    { h with events := h.events ++ [{ source := source, code := code, stamp := stamp, d0 := d0, d1 := d1, d2 := d2 }] }

/-- Sets a bit of `HIRQ`; when it becomes set beside its enable its vector is raised (R466). -/
def raiseHirq (m : Nat) (b : Fin 4) : Act s₀ Unit :=
  modWindow m fun w => { w with
    hirq := w.hirq ||| (1#4 <<< b.val)
    msix := if !bit w.hirq b.val && bit w.hien b.val then w.msix ++ [b] else w.msix }

/-- The source field of a unit (R475). -/
def unitSource (code : Nat) : Word := w64 (2 ^ 33 + code)

/-! Status fields (R24). -/

def Thread.mode (t : Thread) : Bool := bit t.status 0
def Thread.pmode (t : Thread) : Bool := bit t.status 1
def Thread.rm (t : Thread) : Nat := field t.status 4 3
def Thread.flags (t : Thread) : Nat := field t.status 7 5
def Thread.enables (t : Thread) : Nat := field t.status 12 5

/-- `STATUS` with MODE and PMODE replaced. -/
def statusWithModes (st : BitVec 17) (pmode mode : Bool) : BitVec 17 :=
  BitVec.ofNat 17 (st.toNat / 4 * 4 + 2 * pmode.toNat + mode.toNat)

/-- `STATUS` as a record or a boot image gives it: RM holds 0 to 4 alone, and any other code gives 0 (R73, log 36). -/
def legalStatus (st : BitVec 17) : BitVec 17 := if 5 ≤ field st 4 3 then st &&& ~~~0x70#17 else st

/-- TRAPVEC as an offset (R23). -/
def Thread.vector (t : Thread) : Word := w64 (4 * t.trapvec.toNat)

/-- Takes a precise trap at a PC: what R133 writes and nothing else; the handler's first fetch is then due (R28). -/
def enterTrap (t : Thread) (cause : Byte) (val pc : Word) : Thread :=
  { t with
    trappc := BitVec.ofNat 62 (pc.toNat / 4)
    trapcause := cause
    trapval := val
    status := statusWithModes t.status t.mode true
    pc := t.vector
    entering := true }

/-- Returns from a trap: MODE from PMODE, PC from TRAPPC, PMODE unchanged (R134). -/
def trapReturn (t : Thread) : Thread :=
  { t with status := statusWithModes t.status t.pmode t.pmode, pc := w64 (4 * t.trappc.toNat) }

/-- Trap causes (R135). -/
def Cause.illegalInsn : Byte := 0x01
def Cause.illegalOperand : Byte := 0x02
def Cause.privilege : Byte := 0x03
def Cause.segLimit : Byte := 0x04
def Cause.segRights : Byte := 0x05
def Cause.misaligned : Byte := 0x06
def Cause.fpEnabled : Byte := 0x07
def Cause.trapInsn : Byte := 0x09
def Cause.break_ : Byte := 0x0A
def Cause.feTimeout : Byte := 0x10
def Cause.npTimeout : Byte := 0x11
def Cause.npEdge : Byte := 0x12
def Cause.engReject : Byte := 0x18
def Cause.engError : Byte := 0x19
def Cause.pageFatal : Byte := 0x20
def Cause.protection : Byte := 0x21
def Cause.writeLocked : Byte := 0x22
def Cause.dataPoison : Byte := 0x28

/-- A thread made ready from a `CYCLE` on, with nothing left of its wait. -/
def Thread.readyFrom (t : Thread) (cycle : Nat) : Thread :=
  { t with
    run := .ready, parked := none, taken := [], nextIssue := cycle, portWait := none, wordWait := none, withdrawing := false,
    ticket := none, woken := false, pendingTrap := none, popEnded := none }

/-- A thread made ready again by what does not end its port wait, its word wait or its turn at a home (R172, R187, R188). -/
def Thread.againFrom (t : Thread) (cycle : Nat) : Thread :=
  { (t.readyFrom cycle) with portWait := t.portWait, wordWait := t.wordWait, ticket := t.ticket }

/-- The pinned footprint of the packet in service is to be fetched again after a restore (R426). -/
def Thread.refetches (t : Thread) : Bool := t.inService && t.assigned.isSome

/-- Where a restored or moved slot goes on: it waits for `PENDB` (R292, R425), then for its footprint (R426), and issues from a `CYCLE`
on. -/
def Thread.goesOn (t : Thread) (cycle : Nat) : Thread :=
  let t := t.againFrom cycle
  if t.pendb ≠ 0 then { t with run := .waiting .drain }
  else if t.refetches then { t with run := .waiting .footprint, fetched := 0 }
  else t

/-- The thread with a new wait, standing at an instruction (none for a fetch). -/
def Thread.wait (t : Thread) (w : Wait) (at_ : Option InsnWord) (taken : List Token) : Thread :=
  { t with run := .waiting w, parked := at_, taken := taken, woken := false }

/-! Wakes (R145). -/

/-- Queues the reissue of a waiting thread at its core's MSE, once. -/
def wake (L : Nat) (k : Fin 16) : Act s₀ Unit := do
  let t := (← now).thread L k
  match t.run with
  | .waiting _ => when_ (!t.woken) do
      setThread L k { t with woken := true }
      modCore L fun c => { c with mse := c.mse ++ [.reissue k] }
  | _ => pure ()

/-- Wakes every thread of a core whose wait satisfies a condition, in slot order. -/
def wakeWhere (L : Nat) (p : Wait → Bool) : Act s₀ Unit :=
  each (List.finRange 16) fun k => do
    match ((← now).thread L k).run with
    | .waiting w => when_ (p w) (wake L k)
    | _ => pure ()

/-! Barrier groups (R147, R197). -/

/-- The number of a core's group at a scope. -/
def State.groupOf (s : State) (scope : Scope) (L : Nat) : Nat :=
  match scope with
  | .thread => 0
  | .core => L
  | .cluster => L / 16
  | .die => L / 1024
  | .package => moduleOf L
  | .ring => (s.fabric (moduleOf L)).ringid
  | .system => 0

def groupKey (scope : Scope) (n : Nat) : Nat := scope.code * 2 ^ 40 + n

/-- Cycles from the issue of the last arrival in which every `bar` of an episode completes (R198, R457). -/
def State.barCycles (s : State) (scope : Scope) (L : Nat) : Nat :=
  match scope with
  | .thread | .core => 20
  | .cluster => 60
  | .die => 200
  | .package => 480
  | .ring => 1000 + 800 * ceilDiv (s.fabric (moduleOf L)).rlen 2
  | .system => 12000 + 3200 * ((List.range 21).find? fun n => s.nmod ≤ 8 ^ n).getD 0

/-- Nominal cycles that a number of a core's cycles takes (R434). -/
def State.nominal (s : State) (L cycles : Nat) : Nat := cycles * 2 ^ (s.physCore (s.physOf L)).divider.val

/-- Changes a group's counts, and completes the episode when A > 0 and A >= E (R197). -/
def settleGroup (scope : Scope) (key : Nat) (g : Group) : Act s₀ Unit := do
  if 0 < g.a ∧ g.e ≤ g.a then
    emit (.group key { g with a := 0, waiting := [] })
    each g.waiting fun (L, k) => do
      let s ← now
      modThread L k fun t => { t with run := .waiting (.barReleased scope), barAt := g.last + s.nominal L (s.barCycles scope L) }
  else
    emit (.group key g)

/-- Changes a group by threads that leave it or join it. An episode that this completes has its bound of R198 counted from now (log 86). -/
def changeGroup (scope : Scope) (key : Nat) (g : Group) : Act s₀ Unit := do
  let s ← now
  settleGroup scope key (if 0 < g.a ∧ g.e ≤ g.a then { g with last := s.ctl.now } else g)

/-- Raises or lowers E of a group. -/
def enrol (scope : Scope) (n : Nat) (delta : Int) : Act s₀ Unit := do
  let key := groupKey scope n
  let g := (← now).group key
  changeGroup scope key { g with e := g.e + delta }

/-- The scopes with a bit in `ENROLL`, with the bit's place there. -/
def enrolScopes : List (Nat × Scope) := [(0, .core), (1, .cluster), (2, .die), (3, .package), (4, .ring), (5, .system)]

/-- Applies a change of E for every scope a thread of core `L` is enrolled at. -/
def enrolThread (L : Nat) (enroll : BitVec 6) (delta : Int) : Act s₀ Unit :=
  each enrolScopes fun (i, scope) => when_ (bit enroll i) do enrol scope ((← now).groupOf scope L) delta

/-! Ports (R163 to R167). -/

def Port.ofIndex : Nat → Port
  | 0 => .w | 1 => .e | 2 => .n | 3 => .s | 4 => .l | _ => .h

def allPorts : List Port := [.w, .e, .n, .s, .l, .h]

/-- The operand code of a port (R19). -/
def Port.operandCode (p : Port) : Nat := 24 + p.index.val

/-- The peer of a slot's port and the peer's queue that receives a push; none at the edge of the mesh (R163, R165). -/
def peer (L : Nat) (k : Fin 16) (p : Port) : Option (Nat × Fin 16 × Port) :=
  let (x, y) := meshOf L
  let m := moduleOf L
  match p with
  | .w => if x = 0 then none else some (coreAtMesh m (x - 1) y, k, .e)
  | .e => if x = 31 then none else some (coreAtMesh m (x + 1) y, k, .w)
  | .n => if y = 0 then none else some (coreAtMesh m x (y - 1), k, .s)
  | .s => if y = 255 then none else some (coreAtMesh m x (y + 1), k, .n)
  | .l => some (L, k - 1, .h)
  | .h => some (L, k + 1, .l)

/-- Mesh hops between two physical cores of a module. -/
def hops (P Q : Nat) : Nat :=
  let (x, y) := meshOf P
  let (x', y') := meshOf Q
  (max x x' - min x x') + (max y y' - min y y')

/-- The latency L of a port between two cores (R170): 10, 14 or 38 cycles, and 2 for each mesh hop between the physical cores
once a core stands on another physical core, by a migration or by a restore (log 88). -/
def State.portLatency (s : State) (L M : Nat) : Nat :=
  let base := if L = M then 10 else if dieOf L = dieOf M then 14 else 38
  let P := s.physOf L
  let Q := s.physOf M
  if P = L ∧ Q = M then base else base + 2 * hops P Q

/-- Sends a port entry or a credit; it can be used from L cycles of the sender's clock later, and not before what was sent to the
same queue before it (R168, R170). -/
def sendPort (isCredit : Bool) (fromL : Nat) (fromK : Fin 16) (toL : Nat) (toK : Fin 16) (p : Port) (v : Word) : Act s₀ Unit := do
  let s ← now
  let id ← freshId
  let same := s.ports.filter fun (_, x) => x.isCredit = isCredit ∧ x.core = toL ∧ x.slot = toK ∧ x.port = p
  let due := same.foldl (fun n x => max n x.2.due) (s.ctl.now + s.nominal fromL (s.portLatency fromL toL))
  emit (.port id (some {
    isCredit := isCredit, core := toL, slot := toK, port := p, value := v, fromCore := fromL, fromSlot := fromK
    fromPhys := s.physOf fromL, due := due }))

/-- Returns one credit to the slot that pushed an entry of this slot's queue `p` (R167). -/
def returnCredit (L : Nat) (k : Fin 16) (p : Port) (fromL : Nat) (fromK : Fin 16) : Act s₀ Unit := do
  match peer L k p with
  | some (_, _, q) => sendPort true L k fromL fromK q 0
  | none => pure ()

/-- Empties a slot's incoming queues and returns their credits (R28, R156). -/
def emptyQueues (L : Nat) (k : Fin 16) : Act s₀ Unit := do
  let t := (← now).thread L k
  each allPorts fun p => each (t.queues.get p.index) fun (_, fl, fk) => returnCredit L k p fl fk
  modThread L k fun t => { t with queues := Vector.replicate 6 [] }

/-! Ends and starts of threads. -/

/-- The launch entry that started a thread counts it as ended (R159). -/
def endEntry (L : Nat) (k : Fin 16) (e : Option (Fin 16)) : Act s₀ Unit := do
  match e with
  | none => pure ()
  | some i => modCore L fun c =>
      match c.entries.get i with
      | none => c
      | some x =>
        let running := BitVec.ofNat 16 (x.running.toNat - if bit x.running k.val then 2 ^ k.val else 0)
        let left := if running = 0 ∧ x.held = 0 then none else some { x with running := running }
        { c with entries := vset c.entries i left }

/-- A thread leaves its slot: its reservation is removed at the home without waking anyone (R193: `texit`, a halt, pre-emption). -/
def dropReservation (L : Nat) (k : Fin 16) : Act s₀ Unit := do
  match ((← now).thread L k).reservation with
  | none => pure ()
  | some (_, h) => do
    modHome h fun x => { x with reservations := x.reservations.filter fun r => !(r.core = L ∧ r.slot = k) }
    modThread L k fun t => { t with reservation := none }

/-- Halts a slot whose handler's first fetch failed (R28). -/
def halt (L : Nat) (k : Fin 16) : Act s₀ Unit := do
  let s ← now
  let t := s.thread L k
  emptyQueues L k
  dropReservation L k
  enrolThread L t.enroll (-1)
  endEntry L k t.entry
  modThread L k fun t => { (t.readyFrom 0) with run := .halted, entry := none, entering := false, freedAt := s.cycle L }

/-- The thread state that `spawn` starts (R27); credits are the slot's own (R167). -/
def spawned (parent old : Thread) (entry : Word) : Thread :=
  { Thread.reset with
    seg := parent.seg, asid := parent.asid, trapvec := parent.trapvec, enroll := parent.enroll, waitlim := parent.waitlim,
    feretry := parent.feretry, nplim := parent.nplim, seed := parent.seed, sigaddr := parent.sigaddr,
    mxpromo := parent.mxpromo, pc := entry, credits := old.credits, gen := old.gen + 1 }

/-- A descriptor of a launching core as the receiving core gets it (R161). -/
def rebase (launcher receiver : Nat) (d : Seg) : Seg :=
  let b := d.base.toNat
  if b < 2 ^ 63 ∧ b / 2 ^ 30 = launcher then
    if field d.word 45 2 = 1 then
      { d with base := w64 (receiver / 16 * 2 ^ 34 + b % 2 ^ 34) }
    else { d with base := w64 (receiver * 2 ^ 30 + b % 2 ^ 30) }
  else d

/-- The thread state that a launch starts at a core (R27, R160, R161). -/
def launched (x : Launch) (old : Thread) (L : Nat) (k e : Fin 16) : Thread :=
  { Thread.reset with
    s := ((vset (vset (vset Thread.reset.s 1 (w64 L)) 2 (w64 (0x1F0000 + 256 * e.val))) 3 (w64 k.val)))
    seg := x.seg.map (rebase x.source L)
    asid := x.asid, trapvec := x.trapvec, enroll := x.enroll
    pc := w64 (ofBytes ((x.packet.drop 8).take 8))
    credits := old.credits
    gen := old.gen + 1
    entry := some e }

/-- Starts a slot in a cycle: it first issues at its first own position at least 16 cycles later (R27, R153, R160). A packet left in
service by a halt, and its pin, are discarded (R224). -/
def startAt (L : Nat) (k : Fin 16) (t : Thread) (cycle : Nat) : Act s₀ Unit :=
  setThread L k { t with run := .ready, nextIssue := cycle + 16 }

/-- Starts a slot in the present cycle. -/
def start (L : Nat) (k : Fin 16) (t : Thread) : Act s₀ Unit := do startAt L k t ((← now).cycle L)

/-- A slot that `spawn` or a launch can start (R28, R153). -/
def Thread.startable (t : Thread) : Bool :=
  match t.run with
  | .idle | .halted => true
  | _ => false

end Sys2Proof.Machine
end

