-- ==== Sys2Proof/Machine/Cache.lean ====
section
/-! DEFINITION. The memory-side cache (R258 to R274): the slice of a physical address, which lines a slice holds, its miss entries with
their victims and pins, and write-backs. The bytes of a line stand in `Memory` whatever tier holds them. -/

namespace Sys2Proof.Machine

variable {s₀ : State}

/-- The number of a slice as a home; a core's local store has its logical core number (R185). -/
def sliceHome (m d n : Nat) : Nat := 2 ^ 40 + m * 1024 + d * 128 + n

/-- The die of a slice, as `module * 8 + die`. -/
def dieOfSlice (home : Nat) : Nat := (home - 2 ^ 40) / 128

/-- The line number of a physical address (R259). -/
def lineOf (a : Nat) : Nat := a / 128

/-- The slice that homes a physical address (R259): die and number. -/
def sliceOf (a : Nat) (sprd : Bool) (hdie : Nat) : Nat × Nat :=
  let l := lineOf a
  let h := ((l % 1024 ^^^ l / 2 ^ 10 % 1024) ^^^ (l / 2 ^ 20 % 1024 ^^^ l / 2 ^ 30 % 128))
  (if sprd then h / 128 else hdie, h % 128)

/-- The home of a word named by physical address alone (R259). -/
def paTarget (m a : Nat) : Target :=
  let (d, n) := sliceOf a true 0
  { place := .pa m a, home := sliceHome m d n, pin := none, sum := none }

/-! The lines of the Shroud (R263). -/

/-- What waits on a line before a stage; before stage 7, at a slice. -/
def Net.at_ (n : Net) (stage line : Nat) : List Nat := (look n.queues (stage * 128 + line)).getD []

def Net.set (n : Net) (stage line : Nat) (ids : List Nat) : Net :=
  { n with queues := if ids.isEmpty then del n.queues (stage * 128 + line) else put n.queues (stage * 128 + line) ids }

/-- Puts a request at an input of a die's network. -/
def enterAt (die input id : Nat) : Act s₀ Unit := modNet die fun n => n.set 0 input (n.at_ 0 input ++ [id])

/-- The input of a die's network for what a physical core sends: the memory port of its cluster, or the input of the die it comes from and
of the row of the core (R263, R447). -/
def inputFrom (P die : Nat) : Nat := if moduleOf P * 8 + dieOf P = die then rowOf P else 64 + 8 * dieOf P + rowOf P % 8

/-- The physical address of a place, with its module. -/
def Place.physical (p : Place) : Option (Nat × Nat) :=
  match p with
  | .win _ _ => none
  | .pa m a | .rep m _ a => some (m, a)

def Place.isRep (p : Place) : Bool :=
  match p with
  | .rep _ _ _ => true
  | _ => false

/-! Slices. -/

def Slice.find (s : Slice) (num : Nat) : Option Line := s.lines.find? fun l => l.num = num

/-- The set in which a line stands, of 8,192 (R258). -/
def setIndex (num : Nat) : Nat := Config.lineSet num % 8192

/-- The lines of the set in which a line stands, most recently used first. -/
def Slice.setOf (s : Slice) (num : Nat) : List Line := s.lines.filter fun l => setIndex l.num = setIndex num

/-- Ways of a line's set that miss entries are to fill. -/
def Slice.filling (s : Slice) (num : Nat) : Nat :=
  (s.misses.filter fun x => x.way = .free && setIndex x.line = setIndex num).length

/-- Miss entries in use, by misses and by write-backs (R267, R268). -/
def Slice.used (s : Slice) : Nat := s.misses.length + s.sending.length

/-- The least recently used way that is not pinned, and that no other miss has chosen (R260). -/
def Slice.victim (s : Slice) (num : Nat) : Option Line :=
  ((s.setOf num).filter fun l => !l.pinned && !s.misses.any fun x => x.way = .evicting l.num).getLast?

/-- A line leaves its way, a dirty one for the write-back buffer if that has room (R268); a replica's line is not written back but at
die 0 (R274). -/
def Slice.evict (s : Slice) (die : Nat) (l : Line) : Option Slice :=
  let rest := s.lines.filter fun x => x.num ≠ l.num
  if !l.dirty || (l.rep && die % 8 ≠ 0) then some { s with lines := rest }
  else if s.writebacks.length < 8 then some { s with lines := rest, writebacks := s.writebacks ++ [l.num] }
  else none

/-- The way of a miss entry now: one of its set that is free, or its victim's once that has left. -/
def Slice.wayFor (s : Slice) (die : Nat) (x : Miss) : Slice × Way :=
  let leave (l : Line) : Slice × Way :=
    match s.evict die l with
    | some s => (s, .free)
    | none => (s, .evicting l.num)
  match x.way with
  | .free => (s, .free)
  | .evicting v =>
    match s.find v with
    | some l => leave l
    | none => (s, .free)
  | .wanted =>
    if (s.setOf x.line).length + s.filling x.line < 16 then (s, .free)
    else match s.victim x.line with
      | some l => leave l
      | none => (s, .wanted)

/-- Gives ways to the listed miss entries, in order. -/
def Slice.giveWays (die : Nat) : List Miss → Slice → Slice
  | [], s => s
  | x :: rest, s =>
    let (s, w) := s.wayFor die x
    giveWays die rest { s with misses := s.misses.map fun y => if y.line = x.line then { y with way := w } else y }

/-- Gives every miss entry that waits for a way the one it can have. -/
def Slice.settle (s : Slice) (die : Nat) : Slice := s.giveWays die s.misses

def Slice.missing (s : Slice) (num : Nat) : Bool := s.misses.any fun x => x.line = num

/-- Takes a miss entry for an absent line, which chooses its victim (R267). -/
def takeEntry (home : Nat) (x : Miss) : Act s₀ Unit :=
  modSlice home fun s => ({ s with misses := s.misses ++ [x] }).settle (dieOfSlice home)

/-- The miss entry of an access to a line. -/
def missOf (tg : Target) (num : Nat) : Miss where
  line := num
  way := .wanted
  pin := tg.pin.getD false
  nt := false
  dirty := false
  rep := tg.place.isRep
  byCp := false
  waiters := []

/-- The lines at its home that an access uses, each with PIN of its page: its own, and those of the record that it updates (R255). -/
def Target.lines (tg : Target) : List (Nat × Bool) :=
  let own := match tg.place.physical with
    | none => []
    | some (_, a) => [(lineOf a, tg.pin.getD false)]
  match tg.sum with
  | none => own
  | some r => (own ++ r.pieces.flatMap fun (a, n, pin) =>
      (List.range (lineOf (a + n - 1) + 1 - lineOf a)).map fun i => (lineOf a + i, pin)).eraseDups

/-- Lines of an access that are neither present nor awaited at its slice. -/
def Slice.absent (s : Slice) (tg : Target) : List (Nat × Bool) := tg.lines.filter fun l => (s.find l.1).isNone && !s.missing l.1

/-- A miss entry for each absent line of an access (R267). -/
def takeEntries (tg : Target) : Act s₀ Unit := do
  each (((← now).slice tg.home).absent tg) fun (l, pin) => takeEntry tg.home { missOf tg l with pin := pin }

/-- The line of an access by the hardware of the module itself, which comes by no network (log 66): true when it is present. An absent line
takes a miss entry if one is free, and the access is made once it is filled (R267). -/
def lineReady (tg : Target) : Act s₀ Bool := do
  match tg.place.physical with
  | none => return true
  | some (_, a) =>
    let sl := (← now).slice tg.home
    if (sl.find (lineOf a)).isSome then return true
    else
      when_ (sl.used < 64 && !sl.missing (lineOf a)) (takeEntries tg)
      return false

/-- A line that fills its set's free way; a PIN line is pinned unless its set holds 12 pinned ways, which is an event (R261). -/
def fillLine (home : Nat) (x : Miss) : Act s₀ Unit := do
  let s ← now
  let sl := s.slice home
  let full := 12 ≤ ((sl.setOf x.line).filter fun l => l.pinned).length
  let line : Line := { num := x.line, dirty := x.dirty, pinned := x.pin && !full, rep := x.rep }
  emit (.slice home (({ sl with
    lines := if x.nt then sl.lines ++ [line] else line :: sl.lines
    misses := sl.misses.filter fun y => y.line ≠ x.line }).settle (dieOfSlice home)))
  when_ (x.pin && full)
    (raiseEvent (dieOfSlice home / 8) (unitSource (0x100 + dieOfSlice home % 8)) 0x10 (w64 s.ctl.now) (w64 (128 * x.line))
      (w64 (home % 128)) 0)

/-! Use and dirt (R260, R268). -/

/-- The entry of `State.replicas` for a word of a REP page on a die. -/
def replicaKey (m d a : Nat) : Nat := ((m * 8 + d) * 2 ^ 44 + a) / 8

/-- An access through a mapping without REP: the replicas of the line at other dies than 0, if its page had any, are dropped, and die 0's
line is no longer pinned, so that it is written back (R261, R274). -/
def dropReplicas (m a : Nat) : Act s₀ Unit := do
  let s ← now
  let base := lineOf a * 128
  each (List.range 8) fun d => do
    each (List.range 16) fun i =>
      let key := replicaKey m d (base + 8 * i)
      when_ (look s.replicas key).isSome (emit (.replica key none))
    let home := sliceHome m d (sliceOf a true 0).2
    let sl := s.slice home
    when_ (sl.lines.any fun l => l.num = lineOf a && l.rep) (emit (.slice home { sl with
      lines := if d = 0 then sl.lines.map fun l => if l.num = lineOf a && l.rep then { l with rep := false, pinned := false } else l
        else sl.lines.filter fun l => !(l.num = lineOf a && l.rep) }))

/-- Marks a line as most recently used, dirty if written, at its slice or in its miss entry. A use through a mapping without PIN unpins
it; a word named by physical address alone does neither (R259, R261). -/
def touch (tg : Target) (dirty : Bool) : Act s₀ Unit := do
  match tg.place.physical with
  | none => pure ()
  | some (m, a) =>
    let s ← now
    when_ (tg.pin.isSome && !tg.place.isRep && !s.replicas.isEmpty) (dropReplicas m a)
    let sl := (← now).slice tg.home
    let rep (old : Bool) : Bool := if tg.pin.isSome then tg.place.isRep else old
    match sl.find (lineOf a) with
    | some l =>
      emit (.slice tg.home { sl with
        lines := { l with dirty := l.dirty || dirty, pinned := l.pinned && tg.pin ≠ some false, rep := rep l.rep } ::
          sl.lines.filter fun x => x.num ≠ lineOf a })
    | none =>
      when_ (sl.missing (lineOf a)) (emit (.slice tg.home { sl with
        misses := sl.misses.map fun x =>
          if x.line = lineOf a then
            { x with dirty := x.dirty || dirty, nt := false, pin := tg.pin.getD x.pin, rep := rep x.rep }
          else x }))

/-- Marks the line of a place dirty at its slice (R268). -/
def markDirty (home : Nat) (p : Place) : Act s₀ Unit := do
  match p.physical with
  | none => pure ()
  | some (_, a) =>
    modSlice home fun s => { s with
      lines := s.lines.map fun l => if l.num = lineOf a then { l with dirty := true } else l
      misses := s.misses.map fun x => if x.line = lineOf a then { x with dirty := true } else x }

/-- A use of a line by physical address (R259, R260): false, and nothing is done yet, while the line is not there (R267). -/
def useLine (m a : Nat) (dirty : Bool) : Act s₀ Bool := do
  if ← lineReady (paTarget m a) then
    touch (paTarget m a) dirty
    return true
  else return false

/-- Uses of lines in order: false while one of them is not there. -/
def useEach (m : Nat) (dirty : Bool) : List Nat → Act s₀ Bool
  | [] => pure true
  | l :: rest => do if ← useLine m (128 * l) dirty then useEach m dirty rest else return false

/-- The lines that hold a run of bytes of a physical memory. -/
def useLines (m a n : Nat) (dirty : Bool) : Act s₀ Bool :=
  useEach m dirty ((List.range (lineOf (a + n - 1) + 1 - lineOf a)).map fun i => lineOf a + i)

/-- Moves a present line to the least recently used place (R273). -/
def touchLast (tg : Target) (num : Nat) : Act s₀ Unit :=
  modSlice tg.home fun sl =>
    match sl.find num with
    | none => sl
    | some l => { sl with
        lines := sl.lines.filter (fun x => x.num ≠ num) ++ [{ l with pinned := l.pinned && tg.pin ≠ some false }] }

end Sys2Proof.Machine
end

