-- ==== Sys2Proof/Machine/Home.lean ====
section
/-! DEFINITION. Operations at homes (R178, R179): reading and writing the bytes of a word with its full-empty bit, poison mark,
reservations, waiters, trigger binding and summary record, each in one indivisible step; the windows of a core (R113); and the
routes between modules (R450 to R452). -/

namespace Sys2Proof.Machine

variable {s₀ : State}

/-! Global addresses. -/

/-- The address lies in shared space (R232). -/
def isShared (ga : Word) : Bool := bit ga 63

/-- The home module of a global address (R232, R148). -/
def gaModule (ga : Word) : Nat := field ga 43 20

/-- The logical core a local-space address names (R148). -/
def gaCore (ga : Word) : Nat := field ga 30 33

/-- The window offset of a local-space address (R113). -/
def gaOff (ga : Word) : Nat := field ga 0 30

/-! Routes between modules (R450 to R452, R455). -/

inductive Path
  | stay0 | stay1 | fabric
  deriving DecidableEq, Repr

/-- The path of an operation, from its target's global address; the pairs of a failed Stay port use the fabric. -/
def State.pathOf (s : State) (S : Nat) (ga : Word) : Path :=
  let f := s.fabric S
  let D := gaModule ga
  if isShared ga then .fabric
  else if f.peer1 = some D then (if bit (s.module S).staysDown 1 || bit (s.module D).staysDown 0 then .fabric else .stay1)
  else if f.peer0 = some D then (if bit (s.module S).staysDown 0 || bit (s.module D).staysDown 1 then .fabric else .stay0)
  else .fabric

/-- The plane of an ordered pair of modules: (S + D) mod 8, moved on past planes that failed at either end. -/
def State.planeOf (s : State) (S D : Nat) : Nat :=
  let p := (S + D) % 8
  let up (i : Nat) : Bool := !bit (s.module S).planesDown ((p + i) % 8) && !bit (s.module D).planesDown ((p + i) % 8)
  (p + ((List.range 8).find? up).getD 0) % 8

/-- The receiving core of a pair on a path (R452). -/
def State.receiver (s : State) (S : Nat) (ga : Word) : Nat :=
  let D := gaModule ga
  match s.pathOf S ga with
  | .fabric => coreAt D (s.planeOf S D) 63 (S % 16)
  | .stay0 => coreAt D 0 0 (S % 16)
  | .stay1 => coreAt D 7 0 (S % 16)

/-! Places. -/

/-- The name of a word in its home's tables. -/
def Place.word (p : Place) : Nat :=
  match p with
  | .win L off => (L * 2 ^ 30 + off) / 8
  | .pa m a | .rep m _ a => (2 ^ 63 + m * 2 ^ 44 + a) / 8

/-- The name of the aligned 64-byte block that holds a word (R192). -/
def Place.block (p : Place) : Nat := p.word / 8

/-- The key of a place's first byte in `Memory`. -/
def State.keyOf (s : State) (p : Place) : Nat :=
  match p with
  | .win L off => lsKey (s.physOf L) off
  | .pa m a | .rep m _ a => paKey m a

/-- The physical address lies in the window of an expander that failed while running (R472). -/
def State.failedPa (s : State) (m a : Nat) : Bool := bit (s.module m).failed (a / 2 ^ 41)

/-- The bits of a byte of the fabric block that are not reserved; the others read as zero (R448). -/
def fabricMask (off : Nat) : Byte :=
  let j := off % 8
  match off / 8 with
  | 0 => if j < 2 then 0xFF else if j = 2 then 0x0F else 0
  | 1 => if j < 2 then 0xFF else if j = 2 then 0x1F else 0
  | 2 => if j < 4 then 0xFF else if j = 4 then 0x01 else 0
  | 3 | 4 => if j < 2 then 0xFF else if j = 2 then 0x0F else if j = 7 then 0x80 else 0
  | _ => 0

/-- A byte of physical memory; bit 0 of the identifier bitmap reads as 1 (R458), and reserved bits of the fabric block as 0 (R448). -/
def State.paByte (s : State) (m a : Nat) : Byte :=
  let b := s.mem.byte (paKey m a)
  if a = 0x82100 then b ||| 1
  else if 0x82300 ≤ a ∧ a < 0x82340 then b &&& fabricMask (a - 0x82300)
  else b

/-- The word of a REP page as the replica of a die holds it: die 0's is the memory itself, another's is listed once a store has
made them differ (R248, R274). -/
def State.repWord (s : State) (m d a : Nat) : RepWord :=
  let key := paKey m (a / 8 * 8)
  let listed := look s.replicas (replicaKey m d a)
  let own : RepWord := {
    value := w64 (s.natAt key 8), poison := s.mem.poisoned (key / 8), full := s.mem.full (key / 8)
    stamp := (listed.map fun r => r.stamp).getD (0, 0) }
  if d = 0 then own else listed.getD own

/-- `n` bytes at a place, which lie in one word. -/
def State.readPlace (s : State) (p : Place) (n : Nat) : Nat :=
  match p with
  | .win _ _ => s.natAt (s.keyOf p) n
  | .pa m a => ofBytes ((List.range n).map fun i => s.paByte m (a + i))
  | .rep m d a => (s.repWord m d a).value.toNat / 2 ^ (8 * (a % 8)) % 2 ^ (8 * n)

/-- The poison mark of the word at a place. -/
def State.placePoison (s : State) (p : Place) : Bool :=
  match p with
  | .win _ _ => s.mem.poisoned (s.keyOf p / 8)
  | .pa m a => s.mem.poisoned (s.keyOf p / 8) || s.failedPa m a
  | .rep m d a => (s.repWord m d a).poison || s.failedPa m a

/-- The full-empty bit of the word at a place. -/
def State.placeFull (s : State) (p : Place) : Bool :=
  match p with
  | .rep m d a => (s.repWord m d a).full
  | p => s.mem.full (s.keyOf p / 8)

/-! Wakes at a home (R185, R193, R194). -/

/-- Wakes, in the order of their keys, the threads whose wait satisfies a condition, wherever they run. -/
def wakeAll (p : Wait → Bool) : Act s₀ Unit := do
  each (← now).threads fun (key, t) =>
    match t.run with
    | .waiting w => when_ (p w) (wake (key / 16) (Fin.ofNat 16 key))
    | _ => pure ()

/-- Frees the monitor entries that satisfy a condition, in the order in which they were filled, and wakes their threads. -/
def freeMonitors (home : Nat) (p : Monitor → Bool) : Act s₀ Unit := do
  let h := (← now).home home
  when_ (h.monitors.any p) do
    emit (.home home { h with monitors := h.monitors.filter fun m => !p m })
    each (h.monitors.filter p) fun m => wake m.core m.slot

/-- Gives up a thread's entry, kept entry or ticket at a home (R186 to R188). -/
def withdraw (L : Nat) (k : Fin 16) (home : Nat) : Act s₀ Unit := do
  let s ← now
  let h := s.home home
  let t := s.thread L k
  let mine := t.ticket.any fun x => x.1 = home
  emit (.home home { h with
    monitors := h.monitors.filter fun m => !(m.core = L ∧ m.slot = k)
    kept := if mine then h.kept.filter fun n => t.ticket ≠ some (home, n) else h.kept
    tickets := h.tickets.filter fun (_, c, j) => !(c = L ∧ j = k) })
  when_ mine (setThread L k { t with ticket := none })

/-- A reservation is cleared: its `waitrs` waiter is woken, with an entry at the home or with a ticket there (R186, R194). -/
def reservationGone (home : Nat) (r : Reservation) : Act s₀ Unit := do
  freeMonitors home fun m => m.awaits = .reservation ∧ m.core = r.core ∧ m.slot = r.slot
  let t := (← now).thread r.core r.slot
  match t.run with
  | .waiting (.word h _ .reservation) => when_ (h = home && t.ticket.any fun x => x.1 = home) do
      withdraw r.core r.slot home
      wake r.core r.slot
  | _ => pure ()

/-- Clears the reservations of a home on a block and wakes their `waitrs` waiters (R193, R194). -/
def clearReservations (home block : Nat) : Act s₀ Unit := do
  let h := (← now).home home
  let gone := h.reservations.filter fun r => r.block = block
  when_ (!gone.isEmpty) do
    emit (.home home { h with reservations := h.reservations.filter fun r => r.block ≠ block })
    each gone (reservationGone home)

/-- Clears a thread's own reservation, at whatever home (R192). -/
def clearOwnReservation (L : Nat) (k : Fin 16) : Act s₀ Unit := do
  match ((← now).thread L k).reservation with
  | none => pure ()
  | some (_, h) => do
    modHome h fun x => { x with reservations := x.reservations.filter fun r => !(r.core = L ∧ r.slot = k) }
    modThread L k fun t => { t with reservation := none }

/-- The thread holds its reservation: an entry at a home names it. -/
def State.holds (s : State) (L : Nat) (k : Fin 16) : Bool :=
  match (s.thread L k).reservation with
  | none => false
  | some (_, h) => (s.home h).reservations.any fun r => r.core = L ∧ r.slot = k

/-- Frees the trigger entry of a binding that is discarded; threads that wait for one are woken (R218, R219, R221). For a context
that is not resident this is kept until its restore (R223). -/
def freeTrigger (L : Nat) (e : Fin 16) : Act s₀ Unit := do
  let m : BitVec 16 := 1#16 <<< e.val
  modCore L fun c => { c with triggers := c.triggers &&& ~~~m, unbound := if c.status = .active then c.unbound else c.unbound ||| m }
  wakeWhere L fun w => w = .triggerRoom

/-- Fires the binding of a word whose data stands in the home's step (R220). -/
def fireBinding (home : Nat) (p : Place) : Act s₀ Unit := do
  let s ← now
  let h := s.home home
  match h.bindings.find? fun b => b.word = p.word with
  | none => pure ()
  | some b => do
    emit (.home home { h with bindings := h.bindings.filter fun x => x.word ≠ p.word })
    let id ← freshId
    emit (.task id (some (.firing b.core b.entry b.ga (w64 (s.readPlace p 8)) home)))
    wakeAll fun w => w = .bindingRoom home

/-- The place lies in the window of an expander that failed, where writes are discarded (R472). -/
def State.failedPlace (s : State) (p : Place) : Bool := p.physical.any fun (m, a) => s.failedPa m a

/-- Sets the full-empty bit of a word. Reservations on its block are cleared; a change of state frees the waiters it serves
and, when the word fills, fires its binding (R178, R185, R193, R220). -/
def setFull (home : Nat) (p : Place) (full : Bool) : Act s₀ Unit := do
  let s ← now
  clearReservations home p.block
  when_ (s.placeFull p != full && !s.failedPlace p) do
    emit (.fe (s.keyOf p / 8) full)
    markDirty home p
    freeMonitors home fun m => m.word = p.word ∧ m.awaits = if full then .full else .empty
    when_ full (fireBinding home p)

/-! Summary records (R253 to R255). -/

/-- The physical address of byte `i` of a record that lies in pieces. -/
def pieceAddr (pieces : List (Nat × Nat × Bool)) (i : Nat) : Nat :=
  match pieces with
  | [] => 0
  | (start, len, _) :: rest => if i < len then start + i else pieceAddr rest (i - len)

/-- PIN of the page of byte `i` of a record. -/
def piecePin (pieces : List (Nat × Nat × Bool)) (i : Nat) : Bool :=
  match pieces with
  | [] => false
  | (_, len, pin) :: rest => if i < len then pin else piecePin rest (i - len)

def recNat (s : State) (m : Nat) (r : SumRef) (off n : Nat) : Nat :=
  ofBytes ((List.range n).map fun i => s.paByte m (pieceAddr r.pieces (off + i)))

/-- Writes bytes of a record, whose words have the home of their key page (R253), as writes under R193 through the record's own pages. -/
def recPoke (home m : Nat) (r : SumRef) (off : Nat) (bs : List Byte) : Act s₀ Unit :=
  match bs with
  | [] => pure ()
  | b :: rest => do
    let a := pieceAddr r.pieces off
    clearReservations home (Place.pa m a).block
    when_ (!(← now).failedPa m a) (emit (.poke (paKey m a) b))
    touch { place := .pa m a, home := home, pin := some (piecePin r.pieces off), sum := none } true
    recPoke home m r (off + 1) rest

/-- The update of R255 for bytes written at the record's key offset; `wide` marks a poisoned word. -/
def updateRecord (home m : Nat) (r : SumRef) (bs : List Byte) (wide : Bool) : Act s₀ Unit := do
  let s ← now
  let flags := recNat s m r 4 4
  let fresh := flags % 2 = 0
  let fill := if fresh then 0 else recNat s m r 8 4
  let loose := !fresh && flags / 2 % 2 = 1
  let loose := loose || decide (r.off < fill)
  when_ fresh (recPoke home m r 64 (List.replicate r.d 127 ++ List.replicate r.d 0x80))
  recPoke home m r 4 (toBytes 4 (flags / 4 * 4 + 2 * loose.toNat + 1))
  recPoke home m r 8 (toBytes 4 (max fill (r.off + bs.length)))
  each (bs.zipIdx) fun (b, i) => do
    let c := (r.off + i) % r.d
    let s ← now
    let lo := signed 8 (recNat s m r (64 + c) 1)
    let hi := signed 8 (recNat s m r (64 + r.d + c) 1)
    let x := b.toInt
    recPoke home m r (64 + c) [BitVec.ofInt 8 (min lo (if wide then -128 else x))]
    recPoke home m r (64 + r.d + c) [BitVec.ofInt 8 (max hi (if wide then 127 else x))]

/-! REP pages (R274, R282, R283). -/

/-- The slice cycle now: one slice cycle is two cycles of the nominal clock (R258). -/
def State.sliceCycle (s : State) : Nat := s.ctl.now / 2

/-- A later stamp (R283). -/
def later (x y : Nat × Nat) : Bool := y.1 < x.1 ∨ (y.1 = x.1 ∧ y.2 < x.2)

/-- Bytes written into a word. -/
def mergeWord (old : Nat) (off n v : Nat) : Nat :=
  old % 2 ^ (8 * off) + (v % 2 ^ (8 * n)) * 2 ^ (8 * off) + old / 2 ^ (8 * (off + n)) * 2 ^ (8 * (off + n))

/-- A word as a store leaves it at the replica of a die, when its stamp is later than the last one applied there (R283). -/
def applyReplica (m d a : Nat) (x : RepWord) : Act s₀ Unit := do
  let s ← now
  let old := (s.repWord m d a).stamp
  when_ ((later x.stamp old || old = (0, 0)) && !s.failedPa m a) do
    emit (.replica (replicaKey m d a) (some x))
    when_ (d = 0) do
      let key := paKey m (a / 8 * 8)
      pokeBytes key (toBytes 8 x.value.toNat)
      emit (.poison (key / 8) x.poison)
      emit (.fe (key / 8) x.full)

/-- Who writes: a thread, or a command of it by its engine and SEQ. -/
structure Writer where
  core : Nat
  slot : Fin 16
  gen : Nat
  engine : Option (Engine × BitVec 32)
  deriving DecidableEq, Repr

/-- A thread as a writer. -/
def State.writer (s : State) (L : Nat) (k : Fin 16) : Writer := { core := L, slot := k, gen := (s.thread L k).gen, engine := none }

/-- A store to a REP page: the word is first listed at the replicas that share it, then written at the first replica, and a copy of
the word as it is then is sent to each of the other seven (R282). A slice accepts one request in a slice cycle (R258), so the stamps
of a replica rise. A copy goes over the die links into the Shroud of its die (R447). -/
def storeRep (by_ : Writer) (m d a n v : Nat) (mark full : Option Bool) : Act s₀ Unit := do
  let s ← now
  let shared := s.repWord m 0 a
  each (List.range 8) fun e =>
    when_ (e ≠ 0 ∧ (look s.replicas (replicaKey m e a)).isNone) do
      emit (.replica (replicaKey m e a) (some { shared with stamp := (0, 0) }))
  let w := s.repWord m d a
  let stamp := (max s.sliceCycle w.stamp.1 + 1, d)
  let x : RepWord := {
    value := w64 (mergeWord w.value.toNat (a % 8) n v), stamp := stamp
    poison := mark.getD (w.poison && n ≠ 8), full := full.getD w.full }
  applyReplica m d a x
  each (List.range 8) fun e => when_ (e ≠ d) do
    let id ← freshId
    emit (.copy id (some {
      module := m, die := e, addr := a / 8 * 8, value := x.value, poison := x.poison, full := x.full, stamp := stamp
      core := by_.core, slot := by_.slot, gen := by_.gen, engine := by_.engine }))
    enterAt (m * 8 + e) (64 + 8 * d + rowOf (s.physOf by_.core) % 8) id

/-- Writes data at a place: bytes, the poison mark of a whole word, reservations, the summary record and the line, with the poison mark
and the full-empty bit that a META copy gives (R193, R255, R377, R420). -/
def writeAs (by_ : Writer) (tg : Target) (n v : Nat) (mark full : Option Bool) : Act s₀ Unit := do
  let s ← now
  let p := tg.place
  clearReservations tg.home p.block
  let wasPoison := s.placePoison p
  let poison := mark.getD (wasPoison && n ≠ 8)
  let put : Act s₀ Unit := do
    pokeBytes (s.keyOf p) (toBytes n v)
    when_ (poison != wasPoison) (emit (.poison (s.keyOf p / 8) poison))
    match full with
    | some b => setFull tg.home p b
    | none => pure ()
  touch tg true
  match p with
  | .rep m d a => storeRep by_ m d a n v mark full
  | .pa m a => when_ (!s.failedPa m a) do
      match tg.sum with
      | some r => updateRecord tg.home m r (toBytes n v) poison
      | none => pure ()
      put
  | .win _ _ => put

/-- Writes data for a thread, poisoned if a link has spoiled it (R419). -/
def writeData (L : Nat) (k : Fin 16) (tg : Target) (n v : Nat) (spoiled : Bool := false) : Act s₀ Unit := do
  writeAs ((← now).writer L k) tg n v (if spoiled then some true else none) none

/-! The windows of a core (R113 to R117, R462). -/

/-- The raw offset range that holds the deques and trigger entries (R206). -/
def refusedRaw (off n : Nat) : Bool := 0x1F2000 < off + n

/-- The offset names a register of the core control window or of the message window that loads accept (R116, R462). -/
def controlOffset (c : Nat) : Bool :=
  c % 8 = 0 && (c = 0 || c = 8 || (0x40 ≤ c && c ≤ 0xE0) || (0x1000 ≤ c && c ≤ 0x1060))

/-- What an access does at a window. -/
inductive Access
  | load | store | sync
  deriving DecidableEq, Repr

/-- A window accepts an access of `n` bytes at an offset of a core (R113, R115, R116). -/
def windowAccepts (off n : Nat) (a : Access) : Bool :=
  let o := off % 2 ^ 28
  match off / 2 ^ 28 with
  | 0 => !refusedRaw o n
  | 1 => a = .load && o + n ≤ 0xA00000
  | 2 => a ≠ .sync && o + n ≤ 0x8000
  | _ => a = .load && n = 8 && controlOffset o

/-- `SLOTST` code of a wait (R117, R144). -/
def Wait.code (w : Wait) : Nat :=
  match w with
  | .reply _ | .fill | .drain | .barArrive _ | .barWait _ | .barReleased _ | .controller | .acks _ _ _ | .table _ => 2
  | .word _ _ _ => 3
  | .port _ _ => 4
  | .engineQueue _ | .engineDone _ | .dequeRoom _ | .triggerRoom | .bindingRoom _ | .gidDrain _ | .taskUnit => 5
  | .fault _ => 6
  | .taskpop | .footprint => 8

/-- `SLOTST` code of a slot of an active core (R117). -/
def RunState.code (r : RunState) : Nat :=
  match r with
  | .idle => 0
  | .ready => 1
  | .halted => 7
  | .waiting w => w.code

/-- `SLOTST` code of a slot; 9 while its core is frozen (R117, R423). -/
def State.slotCode (s : State) (L : Nat) (k : Fin 16) : Nat :=
  if (s.core L).status = .frozen then 9 else (s.thread L k).run.code

/-- Commands of a thread outstanding on an engine: queued or running (R313). -/
def State.outstanding (s : State) (L : Nat) (k : Fin 16) (e : Engine) : Nat :=
  let u := (s.core L).engines.get (Fin.ofNat 4 e.code)
  let g := (s.thread L k).gen
  (u.queue.filter fun c => c.slot = k && c.gen = g).length + match u.running with
    | some (c, _) => if c.slot = k && c.gen = g then 1 else 0
    | none => 0

/-- A register of the core control window or message window (R116, R462). -/
def State.control (s : State) (L c : Nat) : Nat :=
  let x := s.core L
  let m := moduleOf L
  if c = 0 then L
  else if c = 8 then ofBytes [] + (List.finRange 16).foldr (fun k n => s.slotCode L k + 16 * n) 0
  else if c < 0xC0 then
    let t := s.thread L (Fin.ofNat 16 ((c - 0x40) / 8))
    allPorts.foldr (fun p n => (t.queues.get p.index).length + 8 * n) 0
  else if c < 0xE0 then
    let e := (c - 0xC0) / 8
    let u := x.engines.get (Fin.ofNat 4 e)
    let n := u.queue.length + u.running.isSome.toNat
    (decide (n ≠ 0)).toNat + 2 ^ 8 * n + 2 ^ 16 * (decide (e = 0 ∧ x.gated ≠ 0)).toNat
  else if c = 0xE0 then x.normal.count + 2 ^ 16 * x.urgent.count
  else if c = 0x1000 then x.msgin.toNat
  else if c = 0x1008 then
    (s.reqs.filter fun (_, r) =>
      r.stage = .held && moduleOf r.core ≠ m && r.via = some L).length % 2 ^ 16
  else if c < 0x1050 then
    let p := (c - 0x1010) / 8
    (!bit (s.module m).planesDown p).toNat + 2 * (bit (s.module m).planesDown p).toNat
  else if c = 0x1050 then
    (!bit (s.module m).staysDown 0 && (s.fabric m).peer0.isSome).toNat + 2 ^ 20 * ((s.fabric m).peer0.getD 0)
  else if c = 0x1058 then
    (!bit (s.module m).staysDown 1 && (s.fabric m).peer1.isSome).toNat + 2 ^ 20 * ((s.fabric m).peer1.getD 0)
  else m + 2 ^ 20 * s.nmod

/-- The trit of a PT5 byte, as a number 0, 1 or 2 standing for -1, 0 and 1 (R62, R299). -/
def pt5 (b : Byte) (i : Nat) : Nat := if 243 ≤ b.toNat then 1 else b.toNat / 3 ^ i % 3

/-- The signed byte of byte `i` of the trit view (R114). -/
def State.tritByte (s : State) (L i : Nat) : Byte :=
  BitVec.ofInt 8 ((pt5 (s.mem.byte (lsKey (s.physOf L) (i / 5))) (i % 5) : Int) - 1)

/-- Byte `k` of the full-empty view (R115). -/
def State.feByte (s : State) (L k : Nat) : Byte :=
  BitVec.ofNat 8 ((List.range 8).foldr (fun j n => (s.placeFull (.win L (8 * (8 * k + j)))).toNat + 2 * n) 0)

/-- What an operation at a home answers. -/
inductive Answer
  | token (t : Token)
  /-- The word is not in the awaited state (R180), the reservation stands (R194), the binding table is full (R218), or no identifier of a line
  of the pool is free (R200). -/
  | failed
  deriving DecidableEq, Repr

/-- The trap of a poisoned word: its cause, and the global address of the 8-byte word (R135, R419). -/
def poisonTrap (ga : Word) : Answer := .token (.trap Cause.dataPoison (w64 (ga.toNat / 8 * 8)))

/-- A load through a window or from memory. A poisoned word that the trit view reads is named by its address in the byte view. -/
def performLoad (ga : Word) (tg : Target) (n : Nat) : Act s₀ Answer := do
  let s ← now
  match tg.place with
  | .win L off =>
    let o := off % 2 ^ 28
    match off / 2 ^ 28 with
    | 1 =>
      match (List.range n).find? fun i => s.mem.poisoned (lsKey (s.physOf L) ((o + i) / 5) / 8) with
      | some i => return poisonTrap (w64 (ga.toNat - off + (o + i) / 5))
      | none => return .token (.val (w64 (ofBytes ((List.range n).map fun i => s.tritByte L (o + i)))))
    | 2 => return .token (.val (w64 (ofBytes ((List.range n).map fun i => s.feByte L (o + i)))))
    | 3 => return .token (.val (w64 (s.control L o)))
    | _ =>
      if s.placePoison tg.place then return poisonTrap ga
      else return .token (.val (w64 (s.readPlace tg.place n)))
  | p =>
    if s.placePoison p then return poisonTrap ga
    else return .token (.val (w64 (s.readPlace p n)))

/-- A store through the full-empty view: every bit it covers (R115). -/
def storeView (L o n v : Nat) : Act s₀ Unit :=
  each (List.range (8 * n)) fun i => setFull L (.win L (8 * (8 * o + i))) (v / 2 ^ i % 2 = 1)

/-- F of R189, but for `amo.fadd`. -/
def amoResult (fn : Nat) (old b : Word) : Word :=
  match fn with
  | 0 => old + b
  | 1 => old &&& b
  | 2 => old ||| b
  | 3 => old ^^^ b
  | 4 => if old.slt b then old else b
  | 5 => if old.slt b then b else old
  | 6 => if old.ult b then old else b
  | 7 => if old.ult b then b else old
  | _ => b

/-- Discards the binding of a word, freeing its trigger entry (R218, R219). -/
def unbind (home : Nat) (p : Place) : Act s₀ Unit := do
  let h := (← now).home home
  match h.bindings.find? fun b => b.word = p.word with
  | none => pure ()
  | some b => do
    emit (.home home { h with bindings := h.bindings.filter fun x => x.word ≠ p.word })
    freeTrigger b.core b.entry
    wakeAll fun w => w = .bindingRoom home

/-- The lowest-numbered free identifier of a line of a module's pool (R200, R458). -/
def State.freeGid (s : State) (m line : Nat) : Option Nat :=
  (List.range 128).findSome? fun i =>
    let b := s.paByte m (128 * line + i)
    ((List.range 8).find? fun j => !bit b j).map fun j => (128 * line - 0x82100 + i) * 8 + j

/-- Sets or clears the bit of an identifier, as a write under R193. -/
def setGid (tg : Target) (m g : Nat) (held : Bool) : Act s₀ Unit := do
  let a := 0x82100 + g / 8
  clearReservations tg.home (Place.pa m a).block
  let b := (← now).paByte m a
  let mask : Byte := BitVec.ofNat 8 (2 ^ (g % 8))
  emit (.poke (paKey m a) (if held then b ||| mask else b &&& ~~~mask))
  touch tg true

/-- Performs an operation of a thread at a home in one indivisible step (R179, R180, R182, R189 to R195, R218 to R220).
`fadd` is the FP32 sum of R190. What a link has spoiled is written poisoned (R419). -/
def performWith (fadd : Word → Word → Word) (L : Nat) (k : Fin 16) (op : HomeOp) (ga : Word) (tg : Target) (spoiled : Bool := false) :
    Act s₀ Answer := do
  let s ← now
  let p := tg.place
  let poisoned := s.placePoison p
  let full := s.placeFull p
  let trap := poisonTrap ga
  let val (x : Nat) := Answer.token (.val (w64 x))
  touch tg false
  match op with
  | .packet => performLoad ga tg 8
  | .load n => performLoad ga tg n
  | .store n v =>
    match p with
    | .win M off =>
      if off / 2 ^ 28 = 2 then storeView M (off % 2 ^ 28) n v.toNat else writeData L k tg n v.toNat spoiled
    | _ => writeData L k tg n v.toNat spoiled
    return .token .done
  | .ldfe =>
    if !full then return .failed
    else if poisoned then return trap
    else
      setFull tg.home p false
      return val (s.readPlace p 8)
  | .ldff =>
    if !full then return .failed else if poisoned then return trap else return val (s.readPlace p 8)
  | .stef v =>
    if full then return .failed
    else
      writeData L k tg 8 v.toNat spoiled
      setFull tg.home p true
      return .token .done
  | .stsf v =>
    writeData L k tg 8 v.toNat spoiled
    setFull tg.home p true
    return .token .done
  | .fempty =>
    setFull tg.home p false
    return .token .done
  | .fstate => return val full.toNat
  | .lr =>
    if poisoned then return trap
    else
      clearOwnReservation L k
      let h := (← now).home tg.home
      let oldest := if 64 ≤ h.reservations.length then h.reservations.head? else none
      let kept := if 64 ≤ h.reservations.length then h.reservations.drop 1 else h.reservations
      emit (.home tg.home { h with reservations := kept ++ [{ core := L, slot := k, block := p.block }] })
      match oldest with
      | some r => reservationGone tg.home r
      | none => pure ()
      modThread L k fun t => { t with reservation := some (ga, tg.home) }
      return val (s.readPlace p 8)
  | .sc v =>
    if poisoned then return trap
    else
      let ok := (s.home tg.home).reservations.any fun r => r.core = L ∧ r.slot = k ∧ r.block = p.block
      clearOwnReservation L k
      when_ ok (writeData L k tg 8 v.toNat spoiled)
      return val ok.toNat
  | .cas c v =>
    if poisoned then return trap
    else
      let old := s.readPlace p 8
      when_ (w64 old = c) (writeData L k tg 8 v.toNat spoiled)
      return val old
  | .amo fn v =>
    if poisoned then return trap
    else if fn = 9 then
      let old := s.readPlace p 4
      writeData L k tg 4 (fadd (w64 old) v).toNat spoiled
      return val old
    else
      let old := s.readPlace p 8
      writeData L k tg 8 (amoResult fn (w64 old) v).toNat spoiled
      return val old
  | .waitrs => if s.holds L k then return .failed else return .token .done
  | .bind core entry =>
    let others := (s.home tg.home).bindings.filter fun b => b.word ≠ p.word
    if 64 ≤ others.length then return .failed
    else
      unbind tg.home p
      modHome tg.home fun h =>
        { h with bindings := h.bindings ++ [{ word := p.word, ga := ga, core := core, entry := entry }] }
      when_ full (fireBinding tg.home p)
      return .token .done
  | .unbind =>
    unbind tg.home p
    return .token .done
  | .gidget =>
    match p with
    | .pa m a =>
      match s.freeGid m (lineOf a) with
      | some g => setGid tg m g true; return val g
      | none => return .failed
    | _ => return val 0
  | .gidput g =>
    match p with
    | .pa m a => when_ (1 ≤ g ∧ g ≤ 4095 ∧ bit (s.paByte m a) (g % 8)) (setGid tg m g false)
    | _ => pure ()
    return .token .done
  | .prefetch _ | .check | .line _ | .decrement | .wake _ => return .token .done

/-- The table of a home has a free monitor entry (R185, R186). -/
def Home.hasEntry (h : Home) : Bool := h.monitors.length + h.kept.length < 64

/-- Places a waiter in the step of its failure: in the entry kept for its ticket, in a free entry that no ticket awaits, or on a new
ticket (R184, R186). The word waited on is named by its place and global address. A ticket at another home, where the page was homed before,
is given up. -/
def placeWaiter (L : Nat) (k : Fin 16) (home : Nat) (word : Nat) (ga : Word) (awaits : Awaits) : Act s₀ Unit := do
  match ((← now).thread L k).ticket with
  | some (h, _) => when_ (h ≠ home) (withdraw L k h)
  | none => pure ()
  let s ← now
  let h := s.home home
  let t := s.thread L k
  let entry : Monitor := { core := L, slot := k, ga := ga, word := word, awaits := awaits }
  match t.ticket with
  | some (_, n) =>
    if n ∈ h.kept then
      emit (.home home { h with kept := h.kept.erase n, monitors := h.monitors ++ [entry] })
      setThread L k { t with ticket := none }
    else pure ()
  | none =>
    if h.hasEntry && h.nowServing = h.nextTicket then emit (.home home { h with monitors := h.monitors ++ [entry] })
    else
      let n := h.nextTicket.toNat
      let turn := if h.tickets.isEmpty then s.ctl.now else h.lastTurn
      emit (.home home { h with nextTicket := h.nextTicket + 1, tickets := h.tickets ++ [(n, L, k)], lastTurn := turn })
      setThread L k { t with ticket := some (home, n) }

end Sys2Proof.Machine
end

