-- ==== Sys2Proof/Machine/Translate.lean ====
section
/-! DEFINITION. Global addresses, their checks and their translation (R232 to R253, R259, R271): the walk, its failures in the
order R241 lists them, the translation buffers, and the home of each word. -/

namespace Sys2Proof.Machine

variable {s₀ : State}

/-- The virtual address of a shared-space address (R232). -/
def gaVa (ga : Word) : Nat := field ga 0 43

/-- The shared-space address of a virtual address at a module. -/
def gaOfVa (m va : Nat) : Word := w64 (2 ^ 63 + m * 2 ^ 43 + va)

/-- All of a range of physical addresses lies in the backed bytes of its window (R270, R271). -/
def Module.backs (x : Module) (a len : Nat) : Bool :=
  match x.backed[a / 2 ^ 41]? with
  | some b => a % 2 ^ 41 + len ≤ b
  | none => false

/-- An entry read by a walk: none when its word is poisoned (R241). -/
def State.entryAt (s : State) (m a : Nat) : Option Word :=
  if s.placePoison (.pa m a) then none else some (w64 (s.readPlace (.pa m a) 8))

/-- RS of a region's channel code (R253). -/
def recordSize (dc : Nat) : Nat := 64 + 2 * (64 * 2 ^ dc)

/-- The region that a table entry of an ASID describes, if it is valid (R252). -/
def regionOf (w0 w1 w2 w3 : Nat) (asid : BitVec 16) : Option Region :=
  let dc := w0 / 2 ^ 16 % 4
  if w0 / 2 ^ 63 % 2 = 1 ∧ w0 / 2 ^ 24 % 2 ^ 39 = 0 ∧ w0 / 2 ^ 18 % 4 = 0 ∧ dc ≠ 3 ∧ w0 % 2 ^ 16 = asid.toNat ∧
      w1 % 16384 = 0 ∧ w2 % 16384 = 0 ∧ w2 ≠ 0 ∧ w1 + w2 ≤ 2 ^ 43 ∧ w3 % 64 = 0 ∧
      w3 + w2 / 16384 * recordSize dc ≤ 2 ^ 43 then
    some { vbase := w1, vlen := w2, sbase := w3, dc := dc, sprd := w0 / 2 ^ 20 % 2 = 1, hdie := w0 / 2 ^ 21 % 8 }
  else none

/-- The address lies in the key range of a region. -/
def Region.holds (r : Region) (va : Nat) : Bool := r.vbase ≤ va && va < r.vbase + r.vlen

/-- The address lies in the summary range of a region (R252). -/
def Region.records (r : Region) (va : Nat) : Bool := r.sbase ≤ va && va < r.sbase + r.vlen / 16384 * recordSize r.dc

/-- The regions of an ASID from an index of the table on, in ascending index, up to a poisoned entry, which is named (R252). -/
def State.regionsFrom (s : State) (m : Nat) (asid : BitVec 16) (i : Nat) : Nat → List Region × Option Nat
  | 0 => ([], none)
  | fuel + 1 =>
    let a := 0x80000 + 32 * i
    match s.entryAt m a, s.entryAt m (a + 8), s.entryAt m (a + 16), s.entryAt m (a + 24) with
    | some w0, some w1, some w2, some w3 =>
      let (rs, p) := s.regionsFrom m asid (i + 1) fuel
      match regionOf w0.toNat w1.toNat w2.toNat w3.toNat asid with
      | some r => (r :: rs, p)
      | none => (rs, p)
    | _, _, _, _ => ([], some a)

/-- The regions of an ASID in a module's table. A table with no byte and no poison mark listed holds none. -/
def State.regions (s : State) (m : Nat) (asid : BitVec 16) : List Region × Option Nat :=
  let lo := paKey m 0x80000
  let hi := paKey m 0x82000
  if (s.mem.cells.any fun c => lo ≤ c.1 ∧ c.1 < hi) || s.mem.poisons.any fun c => lo / 8 ≤ c.1 ∧ c.1 < hi / 8 then
    s.regionsFrom m asid 0 256
  else ([], none)

/-- The level of the entry that a leaf was read from. -/
def Leaf.level (l : Leaf) : Nat := if l.pageBits = 26 then 1 else if l.pageBits = 21 then 2 else 3

/-- The region of an address of a SUM leaf, none under another leaf: the lookup over the entries that are cached with the leaf, which
stops at a poisoned one (R252). -/
def Leaf.region (l : Leaf) (m va : Nat) : Except WalkFault (Option Region) :=
  if !bit l.attrs 5 then .ok none
  else match l.regions.find? fun r => r.holds va with
    | some r => .ok (some r)
    | none =>
      .error (match l.poisonAt with
        | some a => { cause := 0x07, level := 0, epa := a, ga := gaOfVa m va }
        | none => { cause := 0x05, level := l.level, epa := l.entry, ga := gaOfVa m va })

/-- The outcome of reading a leaf: its checks of R241 in order, then its page's backing. The region entries of the ASID are cached with
it. -/
def State.leafAt (s : State) (m : Nat) (asid : BitVec 16) (va level a : Nat) (e : Word) : Except WalkFault Leaf :=
  let ga := gaOfVa m va
  let fail (c : Byte) : Except WalkFault Leaf := .error { cause := c, level := level, epa := a, ga := ga }
  let pageBits := if level = 1 then 26 else if level = 2 then 21 else 14
  let pfn := field e 14 30
  if pfn % 2 ^ (pageBits - 14) ≠ 0 then fail 0x03
  else if bit e 6 ∧ (bit e 5 ∨ !bit e 7) then fail 0x04
  else if !(s.module m).backs (pfn * 2 ^ 14) (2 ^ pageBits) then fail 0x06
  else
    let (rs, p) := s.regions m asid
    let leaf : Leaf := { pfn := pfn, pageBits := pageBits, attrs := BitVec.ofNat 14 e.toNat, entry := a, regions := rs, poisonAt := p }
    match leaf.region m va with
    | .ok _ => .ok leaf
    | .error f => .error f

/-- The walk from the table of a level (R239, R241). `named` is the entry that named the table, with its level. -/
def State.walkFrom (s : State) (m : Nat) (asid : BitVec 16) (va : Nat) (level table : Nat) (named : Nat × Nat) :
    Nat → Except WalkFault Leaf
  | 0 => .error { cause := 0x03, level := level, epa := named.2, ga := gaOfVa m va }
  | fuel + 1 =>
    let ga := gaOfVa m va
    let (index, entries) :=
      if level = 1 then (va / 2 ^ 26, 131072) else if level = 2 then (va / 2 ^ 21 % 32, 32) else (va / 2 ^ 14 % 128, 128)
    if !(s.module m).backs table (8 * entries) then .error { cause := 0x06, level := named.1, epa := named.2, ga := ga }
    else
      let a := table + 8 * index
      let fail (c : Byte) : Except WalkFault Leaf := .error { cause := c, level := level, epa := a, ga := ga }
      match s.entryAt m a with
      | none => fail 0x07
      | some e =>
        if !bit e 0 then fail 0x02
        else if field e 44 20 ≠ 0 ∨ bit e 13 then fail 0x03
        else if bit e 1 then s.leafAt m asid va level a e
        else if level = 3 ∨ field e 2 11 ≠ 0 then fail 0x03
        else s.walkFrom m asid va (level + 1) (field e 14 30 * 2 ^ 14) (level, a) fuel

/-- The walk of an address in the range of an ASID (R238, R239). -/
def State.walk (s : State) (m : Nat) (asid : BitVec 16) (va : Nat) : Except WalkFault Leaf :=
  let a := 8 * asid.toNat
  let fail (c : Byte) : Except WalkFault Leaf := .error { cause := c, level := 0, epa := a, ga := gaOfVa m va }
  match s.entryAt m a with
  | none => fail 0x07
  | some e =>
    if !bit e 0 ∨ field e 44 20 ≠ 0 ∨ field e 1 19 ≠ 0 then fail 0x01
    else s.walkFrom m asid va 1 (field e 20 24 * 2 ^ 20) (0, a) 3

/-- The entries that a walk reads from the table of a level on. -/
def State.readsFrom (s : State) (m va level table : Nat) : Nat → List Nat
  | 0 => []
  | fuel + 1 =>
    let (index, entries) :=
      if level = 1 then (va / 2 ^ 26, 131072) else if level = 2 then (va / 2 ^ 21 % 32, 32) else (va / 2 ^ 14 % 128, 128)
    if !(s.module m).backs table (8 * entries) then []
    else
      let a := table + 8 * index
      match s.entryAt m a with
      | some e =>
        if bit e 0 && !bit e 1 && level ≠ 3 then a :: s.readsFrom m va (level + 1) (field e 14 30 * 2 ^ 14) fuel else [a]
      | none => [a]

/-- The entries of the region table that a lookup reads (R252). -/
def State.regionReads (s : State) (m : Nat) (asid : BitVec 16) (va i : Nat) : Nat → List Nat
  | 0 => []
  | fuel + 1 =>
    let a := 0x80000 + 32 * i
    match s.entryAt m a, s.entryAt m (a + 8), s.entryAt m (a + 16), s.entryAt m (a + 24) with
    | some w0, some w1, some w2, some w3 =>
      if (regionOf w0.toNat w1.toNat w2.toNat w3.toNat asid).any fun r => r.holds va then [a]
      else a :: s.regionReads m asid va (i + 1) fuel
    | _, _, _, _ => [a]

/-- The entries that a walk of an address reads, each at its home (R243, R259). -/
def State.walkReads (s : State) (m : Nat) (asid : BitVec 16) (va : Nat) : List Nat :=
  let a := 8 * asid.toNat
  let table := match s.entryAt m a with
    | some e => if bit e 0 then s.readsFrom m va 1 (field e 20 24 * 2 ^ 20) 3 else []
    | none => []
  a :: table ++ match s.walk m asid va with
    | .ok leaf => if bit leaf.attrs 5 then s.regionReads m asid va 0 256 else []
    | .error f => if f.cause = 0x05 then s.regionReads m asid va 0 256 else []

/-- The physical address of a virtual address under a leaf. -/
def Leaf.pa (l : Leaf) (va : Nat) : Nat := l.pfn * 2 ^ 14 + va % 2 ^ l.pageBits

/-- The number of the page a virtual address lies in, in bytes. -/
def pageBase (va bits : Nat) : Nat := va / 2 ^ bits * 2 ^ bits

def TlbEntry.covers (e : TlbEntry) (asid : BitVec 16) (va : Nat) : Bool :=
  e.asid = asid && pageBase va e.leaf.pageBits = e.page

/-- A list with a member replaced when it is full (R243 gives the capacity and no policy). -/
def tlbInsert (cap fresh : Nat) (xs : List TlbEntry) (e : TlbEntry) : List TlbEntry :=
  if xs.length < cap then e :: xs else e :: xs.eraseIdx (Config.victim fresh xs.length % xs.length)

/-! Lines that are asked of slices (R263, R266, R267). -/

/-- The input of a die's network for a line that is asked for at a physical core's port, or by a link for another module (log 68). -/
def lineInput (link : Bool) (P die : Nat) : Nat := if link then 64 + 8 * dieOf P + rowOf P % 8 else inputFrom P die

/-- What a `cp.pf` asks for comes later than its answer (R273). -/
def LineFor.isCopy (who : LineFor) : Bool :=
  match who with
  | .copy _ _ => true
  | _ => false

/-- Asks a slice for the line of an access, through the Shroud, and answers whether it has been there: the access is made once the answer is
back, and the line has not left its way again (R263, R267). -/
def granted (who : LineFor) (link : Bool) (P : Nat) (tg : Target) : Act s₀ Bool := do
  match tg.place.physical with
  | none => return true
  | some (m, a) =>
    let s ← now
    let mine (r : Req) : Bool := r.op = .line who && r.target.any fun t =>
      t.home = tg.home && (t.place.physical.map fun p => lineOf p.2) = some (lineOf a)
    let ask : Act s₀ Unit := do
      let id ← freshId
      let x := lineInput link P (dieOfSlice tg.home)
      emit (.req id (some {
        core := 8192 * m, slot := 0, asid := 0, op := .line who, ga := gaOfVa m 0, awaited := false, bytes := 0, retired := false, left := 0
        gen := 0, answered := 0, requeued := false, input := x
        target := some tg, stage := .translated, combined := [] }))
      enterAt (dieOfSlice tg.home) x id
    match s.reqs.find? fun x => mine x.2 with
    | some (id, r) =>
      match r.stage with
      | .performed _ =>
        if who.isCopy || ((s.slice tg.home).find (lineOf a)).isSome then return true
        else
          emit (.req id none)
          ask
          return false
      | _ => return false
    | none =>
      ask
      return false

/-- Lines for several accesses, one after the other. -/
def allGranted (who : LineFor) (link : Bool) (P : Nat) : List Target → Act s₀ Bool
  | [] => pure true
  | t :: rest => do if ← granted who link P t then allGranted who link P rest else return false

/-- What has been asked for an access is used up. A line that is still on its way is asked for no one's use. -/
def dropLines (who : LineFor) : Act s₀ Unit := do
  each (← now).reqs fun (id, r) => when_ (r.op = .line who) (emit (.req id (match r.stage with
    | .performed _ => none
    | _ => some { r with op := .prefetch false })))

/-- Why an address has no leaf: its walk failed, or is still being made. -/
inductive NoLeaf
  | fault (f : WalkFault)
  | wait
  deriving DecidableEq, Repr

/-- A translation at a cluster's port, or at a die for a request from another module: cluster TLB, last-level TLB, walk (R243,
R245). A walk reads its entries one after the other at their homes; one that finds a valid leaf fills the buffers it passed. An entry that a link has
spoiled reads as poisoned (R419). -/
def translate (m : Nat) (cluster : Option Nat) (die : Nat) (asid : BitVec 16) (va : Nat) : Act s₀ (Except NoLeaf Leaf) := do
  let s ← now
  let x := s.module m
  let own := match cluster with
    | some c => (look x.clusterTlbs c).getD []
    | none => []
  let d := x.die die
  let fill (leaf : Leaf) (both : Bool) : Act s₀ Unit := do
    let n ← freeValue
    let e : TlbEntry := { asid := asid, page := pageBase va leaf.pageBits, leaf := leaf }
    when_ both (modDie m die fun d => { d with tlb := tlbInsert 12288 n d.tlb e })
    match cluster with
    | some c => modModule m fun x => { x with clusterTlbs := put x.clusterTlbs c (tlbInsert 1024 n own e) }
    | none => pure ()
  let held (leaf : Leaf) : Except NoLeaf Leaf := match leaf.region m va with
    | .ok _ => .ok leaf
    | .error f => .error (.fault f)
  match own.find? fun e => e.covers asid va with
  | some e => return held e.leaf
  | none =>
    match d.tlb.find? fun e => e.covers asid va with
    | some e => do fill e.leaf false; return held e.leaf
    | none =>
      let who := LineFor.walk (m * 8 + die) cluster asid (pageBase va 14)
      let P := match cluster with
        | some c => 16 * c
        | none => coreAt m die 0 0
      if ← allGranted who cluster.isNone P ((s.walkReads m asid va).map (paTarget m)) then
        let s ← now
        let bad := s.reqs.filterMap fun (_, r) => if r.op = .line who && r.spoiled then r.target.bind fun t => t.place.physical else none
        let read := bad.foldl (fun (x : State) (n, a) => { x with mem := x.mem.setPoison (paKey n a / 8) true }) s
        dropLines who
        match read.walk m asid va with
        | .ok leaf => do fill leaf true; return .ok leaf
        | .error f => return .error (.fault f)
      else return .error .wait

/-- Rights an access needs (R242). -/
inductive Need
  | fetch | read | write | both
  deriving DecidableEq, Repr

/-- The check of an access against its leaf: PROTECTION for a missing right or a synchronising operation on a REP page (R181),
WRITE_LOCKED when W is present and WL is set (R242). -/
def checkLeaf (attrs : BitVec 14) (need : Need) (sync : Bool) : Option Byte :=
  let r := bit attrs 2
  let w := bit attrs 3
  let x := bit attrs 4
  if sync && bit attrs 6 then some Cause.protection
  else match need with
    | .fetch => if x then none else some Cause.protection
    | .read => if r then none else some Cause.protection
    | .write => if !w then some Cause.protection else if bit attrs 8 then some Cause.writeLocked else none
    | .both => if !(r && w) then some Cause.protection else if bit attrs 8 then some Cause.writeLocked else none

/-- What a home operation needs (R242). -/
def HomeOp.need (op : HomeOp) : Need :=
  match op with
  | .load _ | .packet | .ldff | .fstate | .lr | .waitrs | .bind _ _ | .unbind | .prefetch _ | .gidget | .gidput _ | .line _ | .wake _ => .read
  | .store _ _ | .stef _ | .stsf _ | .fempty | .check | .decrement => .write
  | .ldfe | .sc _ | .cas _ _ | .amo _ _ => .both

/-- A synchronising operation, which R113 and R181 refuse outside the raw window and on REP pages. -/
def HomeOp.sync (op : HomeOp) : Bool :=
  match op with
  | .load _ | .packet | .store _ _ | .prefetch _ | .check | .line _ | .decrement | .wake _ => false
  | _ => true

/-- The operation writes data of the key page it reaches, whose record its translation then finds too (R253, R255). -/
def HomeOp.writes (op : HomeOp) : Bool :=
  match op with
  | .store _ _ | .stef _ | .stsf _ | .sc _ | .cas _ _ | .amo _ _ | .check => true
  | _ => false

/-- The pieces of a record at its virtual addresses, walked in the region's ASID; a failing byte fails the write (R253). -/
def recordPieces (m : Nat) (cluster : Option Nat) (die : Nat) (asid : BitVec 16) (va len : Nat) :
    Act s₀ (Except NoLeaf (List (Nat × Nat × Bool))) := do
  let first := min len (16384 - va % 16384)
  match ← translate m cluster die asid va with
  | .error f => return .error f
  | .ok l1 =>
    if first = len then return .ok [(l1.pa va, len, bit l1.attrs 7)]
    else
      match ← translate m cluster die asid (va + first) with
      | .error f => return .error f
      | .ok l2 => return .ok [(l1.pa va, first, bit l1.attrs 7), (l2.pa (va + first), len - first, bit l2.attrs 7)]

/-- The slice of key page `n` of a region (R253). -/
def regionSlice (n : Nat) (sprd : Bool) (hdie : Nat) : Nat × Nat :=
  if sprd then (n % 1024 / 128, n % 128) else (hdie, n % 128)

/-- The slice of key page `n` of a region. -/
def Region.home (r : Region) (m n : Nat) : Nat :=
  let (d, k) := regionSlice n r.sprd r.hdie
  sliceHome m d k

/-- The home of a word under its leaf (R247, R253): for a key page its region's slice; for a word of a record, by the regions that are
cached with the leaf, those before a poisoned entry (log 67), the slice of its key page; else the slice of its physical address. -/
def Leaf.home (l : Leaf) (m va : Nat) : Nat :=
  match l.region m va, l.regions.find? fun r => r.records va with
  | .ok (some r), _ => r.home m ((va - r.vbase) / 16384)
  | _, some r => r.home m ((va - r.sbase) / recordSize r.dc)
  | _, none =>
    let (d, n) := sliceOf (l.pa va) (bit l.attrs 9) (field l.attrs 10 3)
    sliceHome m d n

/-- The target of a translated access, with the record that a write of a key page updates (R247, R248, R252, R253). A word of a REP page has
its home on each die at the slice that its line's hash gives (log 91). -/
def targetOf (m : Nat) (cluster : Option Nat) (die : Nat) (asid : BitVec 16) (va : Nat) (leaf : Leaf) (writes : Bool) :
    Act s₀ (Except NoLeaf Target) := do
  let a := leaf.pa va
  let rep := bit leaf.attrs 6
  let base : Target := {
    place := if rep then .rep m die a else .pa m a
    home := if rep then sliceHome m die (sliceOf a true 0).2 else leaf.home m va
    pin := some (bit leaf.attrs 7), sum := none }
  match leaf.region m va with
  | .error f => return .error (.fault f)
  | .ok none => return .ok base
  | .ok (some r) =>
    if writes then
      let n := (va - r.vbase) / 16384
      match ← recordPieces m cluster die asid (r.sbase + recordSize r.dc * n) (recordSize r.dc) with
      | .ok ps => return .ok { base with sum := some { d := 64 * 2 ^ r.dc, pieces := ps, off := (va - r.vbase) % 16384 } }
      | .error f => return .error f
    else return .ok base

/-- What becomes of an access when its address is resolved. -/
inductive Resolved
  | target (t : Target)
  /-- A precise trap, or a deferred error, with this cause (R242, R245). -/
  | trap (cause : Byte)
  /-- A failed walk (R241). -/
  | walk (f : WalkFault)
  /-- A walk still reads its entries (R243). -/
  | wait
  deriving DecidableEq, Repr

def NoLeaf.resolved (x : NoLeaf) : Resolved :=
  match x with
  | .fault f => .walk f
  | .wait => .wait

/-- Resolves a shared-space access at its home module: its leaf, its rights, and then the record that it updates (R242, R253, log 7). -/
def resolveShared (cluster : Option Nat) (die : Nat) (asid : BitVec 16) (ga : Word) (need : Need) (sync writes : Bool) :
    Act s₀ Resolved := do
  let m := gaModule ga
  let va := gaVa ga
  match ← translate m cluster die asid va with
  | .error x => return x.resolved
  | .ok leaf =>
    match checkLeaf leaf.attrs need sync with
    | some c => return .trap c
    | none =>
      match ← targetOf m cluster die asid va leaf writes with
      | .ok t => return .target t
      | .error x => return x.resolved

/-- The target of a local-space access whose window accepts it. -/
def localTarget (ga : Word) : Target :=
  { place := .win (gaCore ga) (gaOff ga), home := gaCore ga, pin := none, sum := none }

/-- Bytes of the system block of a module as a number (R410). -/
def State.sysBlock (s : State) (m off : Nat) : Nat := s.natAt (paKey m (0x82000 + off)) 8

/-- FQCFG.EN of a module, taken as 0 while LOG2N is out of range or a reserved bit is set (R410). -/
def State.faultQueueOn (s : State) (m : Nat) : Bool :=
  let cfg := s.sysBlock m 8
  cfg / 32 % 2 = 1 && 6 ≤ cfg % 32 && cfg % 32 ≤ 16 && cfg / 64 = 0

/-- Service core i of a module (R410). -/
def State.service (s : State) (m i : Nat) : Option Nat :=
  let w := s.sysBlock m (0x40 + 8 * i)
  if w / 2 ^ 63 = 1 then some (w % 2 ^ 33) else none

/-- A service core of its module (R410). -/
def State.isService (s : State) (L : Nat) : Bool := (List.range 16).any fun i => s.service (moduleOf L) i = some L

/-- A failed walk at a module never parks a request of a service core, nor any request while FQCFG.EN is 0 (R408). -/
def State.faultsFatal (s : State) (m L : Nat) : Bool := !s.faultQueueOn m || s.isService L

/-- Names a failed walk of a die, `module * 8 + die`, which then joins or opens a fault-table entry (R414). -/
def raiseFault (die kind : Nat) (asid : BitVec 16) (f : WalkFault) (L : Nat) (k : Fin 16) (waiter : Waiter) : Act s₀ Unit := do
  let id ← freshId
  emit (.fault id (some {
    die := die, kind := kind, asid := asid, fault := f, core := L, slot := k, waiter := waiter }))

/-- The core at which a request arrives: its home, or the receiving core of another module (R452). -/
def State.destination (s : State) (r : Req) : Nat :=
  if gaModule r.ga = moduleOf r.core then gaCore r.ga else s.receiver (moduleOf r.core) r.ga

/-- The module of the access that a fault's waiter makes, unless it is a request of its own name. -/
def Waiter.module (w : Waiter) : Option Nat :=
  match w with
  | .thread L _ | .engine L _ | .footprint L _ => some (moduleOf L)
  | .request _ => none

/-! Links (R446, R450, R455, R487). -/

/-- The die of a home. -/
def State.dieOfHome (s : State) (home : Nat) : Nat := if home < 2 ^ 40 then s.dieAt home else dieOfSlice home % 8

/-- The module and the unit of the link's end at which data for a core's access arrive: at the home for data that are written there, else at
the core (R446, R450, R487); none where they cross no link. -/
def State.linkUnit (s : State) (L : Nat) (ga : Word) (home : Nat) (toHome : Bool) : Option (Nat × Nat) :=
  let S := moduleOf L
  let D := gaModule ga
  if D ≠ S then some (if toHome then D else S, match s.pathOf S ga with
    | .fabric => 0x200 + s.planeOf S D
    | .stay0 => if toHome then 0x211 else 0x210
    | .stay1 => if toHome then 0x210 else 0x211)
  else if s.dieOfHome home ≠ s.dieAt L then some (S, 0x100 + if toHome then s.dieOfHome home else s.dieAt L)
  else none

/-- Data of a word that a link is to spoil cross one: the word is poisoned, which is an event (R419, R487). -/
def spoilOn (L : Nat) (ga : Word) (home : Nat) (toHome spoiled : Bool) : Act s₀ Bool := do
  let s ← now
  match s.linkUnit L ga home toHome with
  | some (m, u) =>
    when_ spoiled (raiseEvent m (unitSource u) 0x11 (w64 s.ctl.now) (w64 (ga.toNat / 8 * 8)) 1 0)
    return spoiled
  | none => return false

/-- Accesses of other modules that a die of a module holds for faults: messages, fetches, footprints and bulk transfers (R415, R454). -/
def State.heldCount (s : State) (m d : Nat) : Nat :=
  let foreign (w : Waiter) : Bool := w.module.any fun n => n ≠ m
  let requests := s.reqs.countP fun (_, q) =>
    q.stage = .held && gaModule q.ga = m && moduleOf q.core ≠ m && dieOf (q.via.getD (s.destination q)) = d
  let walks := s.faults.countP fun (_, f) => f.die = m * 8 + d && foreign f.waiter
  requests + walks + ((((s.module m).die d).faults.map fun (_, e) => e.waiters.countP foreign).foldr (fun a b => a + b) 0)

/-- A die has an entry free to hold an access of another module (R415). -/
def State.mayHold (s : State) (m d : Nat) : Bool := s.heldCount m d < 1024

/-- KIND of a fault record for a thread's operation (R411). -/
def HomeOp.kind (op : HomeOp) : Nat :=
  match op with
  | .load _ | .packet | .prefetch _ | .line _ | .wake _ => 0
  | .store _ _ | .check => 1
  | _ => 3

end Sys2Proof.Machine
end

