-- ==== Sys2Proof/Machine/TaskUnit.lean ====
section
/-! DEFINITION. The task unit of a core (R203 to R224): packets and their validity, deques, splits, assignments, releases,
firings, footprint pins, and launch entries (R159). -/

namespace Sys2Proof.Machine

variable {s₀ : State}

/-! Packets (R203, R204). A packet is its 16 * LEN bytes. -/

abbrev Packet := List Byte

def Packet.word (p : Packet) (off : Nat) : Nat := ofBytes ((p.drop off).take 8)

def Packet.setWord (p : Packet) (off v : Nat) : Packet := p.take off ++ toBytes 8 v ++ p.drop (off + 8)

def hdrLen (h : Nat) : Nat := h % 32
def hdrUrgent (h : Nat) : Bool := h / 2 ^ 5 % 2 = 1
def hdrKind (h : Nat) : Nat := h / 2 ^ 8 % 4
def hdrFp (h : Nat) : Bool := h / 2 ^ 10 % 2 = 1
def hdrNsucc (h : Nat) : Nat := h / 2 ^ 12 % 8
def hdrWait (h : Nat) : Nat := h / 2 ^ 32 % 2 ^ 16

/-- Offset of the footprint record. -/
def fpOffset (h : Nat) : Nat := if hdrKind h = 1 then 40 else 16

/-- Offset of the trigger fields. -/
def trigOffset (h : Nat) : Nat := if hdrFp h then 32 else 16

/-- F of R204: the sizes of the parts present before the payload. -/
def partsSize (h : Nat) : Nat :=
  16 + (if hdrKind h = 1 then 24 else 0) + (if hdrFp h then 16 else 0) + (if hdrKind h = 2 then 16 else 0)

/-- Operations that a packet is valid for (R205). -/
inductive PacketUse
  | push | trigger | launch | release
  deriving DecidableEq, Repr

/-- The conditions of R205 on the header and ENTRY, which a launch tests first (R157). -/
def headerValid (u : PacketUse) (h entry : Nat) : Bool :=
  h / 2 ^ 48 = 0 && h / 2 ^ 15 % 2 ^ 17 = 0 && h / 2 ^ 11 % 2 = 0 && h / 2 ^ 6 % 4 = 0 &&
  2 ≤ hdrLen h && hdrLen h ≤ 16 && hdrKind h ≠ 3 && entry % 4 = 0 &&
  partsSize h + 8 * hdrNsucc h ≤ 16 * hdrLen h &&
  (u = .release || hdrWait h = 0) &&
  (if u = .trigger then hdrKind h = 2 else hdrKind h ≠ 2) &&
  (!hdrFp h || u = .push || u = .trigger) &&
  (u ≠ .launch || hdrNsucc h = 0)

/-- A packet is valid for an operation (R205). -/
def Packet.valid (u : PacketUse) (p : Packet) : Bool :=
  headerValid u (p.word 0) (p.word 8) && (hdrKind (p.word 0) ≠ 1 || 1 ≤ p.word 32)

/-- The width of a range packet (R204). -/
def Packet.width (p : Packet) : Nat := if p.word 16 < p.word 24 then p.word 24 - p.word 16 else 0

def Packet.splits (p : Packet) : Bool := hdrKind (p.word 0) = 1 && p.word 32 < p.width

/-- The two halves of a range (R210). -/
def Packet.halves (p : Packet) : Packet × Packet :=
  let mid := p.word 16 + p.width / 2
  (p.setWord 24 mid, p.setWord 16 mid)

/-- The successor handles (R204). -/
def Packet.handles (p : Packet) : List Nat :=
  let n := hdrNsucc (p.word 0)
  (List.range n).map fun i => p.word (16 * hdrLen (p.word 0) - 8 * n + 8 * i)

/-! The task unit's area (R206). -/

def launchEntryOff (e : Fin 16) : Nat := 0x1F0000 + 256 * e.val
def bufferOff (k : Fin 16) : Nat := 0x1F1000 + 256 * k.val
def triggerOff (e : Fin 16) : Nat := 0x1FF000 + 256 * e.val

def dequeCap (urgent : Bool) : Nat := if urgent then 48 else 160
def dequeBase (urgent : Bool) : Nat := if urgent then 0x1FC000 else 0x1F2000

def Core.deque (c : Core) (urgent : Bool) : Deque := if urgent then c.urgent else c.normal

def setDeque (L : Nat) (urgent : Bool) (d : Deque) : Act s₀ Unit :=
  modCore L fun c => if urgent then { c with urgent := d } else { c with normal := d }

/-- Offset of the packet at a place from the top. -/
def dequeOff (urgent : Bool) (d : Deque) (i : Nat) : Nat :=
  dequeBase urgent + 256 * ((d.top + i) % dequeCap urgent)

/-- Writes bytes of a core's local store word by word as a write at its home, clearing marks and reservations. -/
def writeLs (L : Nat) (k : Fin 16) (off : Nat) (bs : List Byte) : Nat → Act s₀ Unit
  | 0 => pure ()
  | n + 1 => do
    writeAs ((← now).writer L k) { place := .win L off, home := L, pin := none, sum := none } 8 (ofBytes (bs.take 8)) (some false) none
    writeLs L k (off + 8) (bs.drop 8) n

def writePacket (L : Nat) (off : Nat) (p : Packet) : Act s₀ Unit := writeLs L 0 off p (p.length / 8)

/-- A packet in the task unit's area, by its own length. -/
def State.packetAt (s : State) (L off : Nat) : Packet :=
  s.lsBytes L off (16 * hdrLen (ofBytes (s.lsBytes L off 8)))

def State.dequeFull (s : State) (L : Nat) (urgent : Bool) : Bool := dequeCap urgent ≤ ((s.core L).deque urgent).count

/-- Places a packet at the bottom of a deque that has room. -/
def pushBottom (L : Nat) (urgent : Bool) (p : Packet) : Act s₀ Unit := do
  let d := ((← now).core L).deque urgent
  writePacket L (dequeOff urgent d d.count) p
  setDeque L urgent { d with count := d.count + 1 }

/-- A decrement is performed: its acknowledgement is on its way, and takes its 8 bytes from `PENDB` (R212). -/
def decrementDone (id : Option Nat) : Act s₀ Unit := do
  let steps := (← now).ctl.steps
  match id with
  | none => pure ()
  | some id => modReq id fun r => { r with stage := .performed .done, answered := steps }

/-- Held packets go, in arrival order, to the bottom of a deque while it has room (R221). -/
def placeHeldIn (L : Nat) (urgent : Bool) : Nat → Act s₀ Unit
  | 0 => pure ()
  | fuel + 1 => do
    let s ← now
    match (s.core L).heldTasks.find? fun x => hdrUrgent (Packet.word x.packet 0) = urgent with
    | none => pure ()
    | some x => when_ (!s.dequeFull L urgent) do
        modCore L fun c => { c with heldTasks := c.heldTasks.erase x }
        pushBottom L urgent x.packet
        match x.trigger with
        | some e => freeTrigger L e
        | none => pure ()
        decrementDone x.owner
        placeHeldIn L urgent fuel

/-- An entry of a deque is free: what is held for it is placed, and threads that wait for room are woken (R221). -/
def roomFreed (L : Nat) (urgent : Bool) : Act s₀ Unit := do
  placeHeldIn L urgent (dequeCap urgent)
  wakeWhere L fun w => w = .dequeRoom urgent

/-- Removes the bottom packet. -/
def popBottom (L : Nat) (urgent : Bool) : Act s₀ Packet := do
  let s ← now
  let d := (s.core L).deque urgent
  let p := s.packetAt L (dequeOff urgent d (d.count - 1))
  setDeque L urgent { d with count := d.count - 1 }
  return p

/-! Successors (R213). -/

/-- A handle names a core that exists. -/
def State.handleNamed (s : State) (h : Word) : Bool := !isShared h && gaModule h < s.nmod

/-- A handle has the form of R213 and names a core that exists. -/
def State.handleOk (s : State) (h : Word) : Bool := s.handleNamed h && gaOff h < 0x1F0000 && gaOff h % 16 = 0

/-- Writes the header word of a pending packet at its home. -/
def writeHeader (h : Word) (v : Nat) : Act s₀ Unit :=
  writeData (gaCore h) 0 { place := .win (gaCore h) (gaOff h), home := gaCore h, pin := none, sum := none } 8 v

/-- An increment under Split (R213). -/
def incrementWait (h : Word) : Act s₀ Unit := do
  let s ← now
  when_ (s.handleOk h) do
    let w := ofBytes (s.lsBytes (gaCore h) (gaOff h) 8)
    writeHeader h (w % 2 ^ 32 + (hdrWait w + 1) % 2 ^ 16 * 2 ^ 32 + w / 2 ^ 48 * 2 ^ 48)

/-- A packet that comes to a core goes to the bottom of its deque, or is held while that is full, or while the task unit is busy with a
split (R207, R221). Answers whether it was placed. -/
def placeOrHold (L : Nat) (t : HeldTask) : Act s₀ Bool := do
  let urgent := hdrUrgent (Packet.word t.packet 0)
  let behind := ((← now).core L).heldTasks.any fun x => hdrUrgent (Packet.word x.packet 0) = urgent
  if behind || (← now).dequeFull L urgent || ((← now).core L).split.isSome then
    modCore L fun c => { c with heldTasks := c.heldTasks ++ [t] }
    return false
  else
    pushBottom L urgent t.packet
    return true

/-! Splits and assignments (R210, R211). -/

/-- Raises WAIT for each handle: at the own core in this step, elsewhere by messages whose names are answered. -/
def splitIncrements (L : Nat) (p : Packet) : List Nat → Act s₀ (List Nat)
  | [] => pure []
  | h :: rest => do
    if !isShared (w64 h) ∧ gaCore (w64 h) = L then
      incrementWait (w64 h)
      splitIncrements L p rest
    else
      let id ← freshId
      emit (.task id (some (.increment (w64 h) L)))
      return id :: (← splitIncrements L p rest)

/-- Delivers the lower part to a slot, which is woken (R211). -/
def assign (L : Nat) (k : Fin 16) (p : Packet) : Act s₀ Unit := do
  modThread L k fun t => { t with assigned := some p, fetched := 0, popEnded := none }
  modCore L fun c => { c with poppers := c.poppers.filter fun j => j ≠ k }
  wake L k

/-- The slot that has waited longest in `taskpop` and can be assigned a packet: one whose wait ended in an earlier cycle cannot
(R211). -/
def State.popper (s : State) (L : Nat) : Option (Fin 16) :=
  (s.core L).poppers.find? fun k => match (s.thread L k).popEnded with
    | some c => c = s.cycle L
    | none => true

/-- Gives packets in a core's deques to slots that wait in `taskpop`, longest first, until a split must wait for its
increments (R211). The fuel bounds the deliveries of one step by the slots. -/
def assignWaiting (L : Nat) : Nat → Act s₀ Unit
  | 0 => pure ()
  | fuel + 1 => do
    let c := (← now).core L
    match (← now).popper L with
    | none => pure ()
    | some k =>
      if c.split.isSome ∨ (c.urgent.count = 0 ∧ c.normal.count = 0) then pure ()
      else
        let urgent := decide (c.urgent.count ≠ 0)
        let p ← popBottom L urgent
        if p.splits then
          let (lo, hi) := p.halves
          let left ← splitIncrements L p p.handles
          if left.isEmpty then
            pushBottom L urgent hi
            assign L k lo
            assignWaiting L fuel
          else
            modCore L fun c => { c with
              split := some { lower := lo, upper := hi, urgent := urgent, target := .assign k, left := left } }
        else
          assign L k p
          roomFreed L urgent
          assignWaiting L fuel

/-- A core stops stealing: a round ends, and of one whose request is out only the reply is awaited (R215). -/
def stopStealing (L : Nat) : Act s₀ Unit := do
  match ((← now).core L).steal with
  | .paused _ => modCore L fun c => { c with steal := .off }
  | .asking _ _ _ v => modCore L fun c => { c with steal := .asking 3 0 0 v }
  | .answered _ _ _ none => modCore L fun c => { c with steal := .answered 3 0 0 none }
  | _ => pure ()

/-- A packet has entered a core's deque: its stealing stops, and waiting slots are served (R211, R215). -/
def entered (L : Nat) : Act s₀ Unit := do
  stopStealing L
  assignWaiting L 17

/-- A decrement at the named core (R213), by the name of its request; answers whether it is performed, and not held (R221). Bytes of a
pending packet count whatever the poison marks of its words (log 89), and the event of a handle of another form than R213's names no header
(log 90). -/
def decrementWait (id : Nat) (h : Word) (from_ : Nat) (owner : Option Nat) : Act s₀ Bool := do
  let s ← now
  let L := gaCore h
  if !s.handleNamed h then
    raiseEvent (moduleOf from_) (if isShared h then 0 else w64 L) 2 (w64 s.ctl.now) h 0 0
    return true
  else if !s.handleOk h then
    raiseEvent (moduleOf L) (w64 L) 2 (w64 (s.cycle L)) h 0 0
    return true
  else
    let w := ofBytes (s.lsBytes L (gaOff h) 8)
    let p : Packet := s.packetAt L (gaOff h)
    let n := hdrWait w
    let lower := w % 2 ^ 32 + (n - 1) * 2 ^ 32 + w / 2 ^ 48 * 2 ^ 48
    if 1 < n then
      writeHeader h lower
      return true
    else if n = 1 && p.valid .release then
      writeHeader h lower
      let placed ← placeOrHold L { order := id, packet := p.setWord 0 lower, trigger := none, owner := owner }
      when_ placed (entered L)
      return placed
    else
      raiseEvent (moduleOf L) (w64 L) 2 (w64 (s.cycle L)) h (w64 w) 0
      return true

/-- Takes the bottom packet for a slot that issues `taskpop` and splits it; the slot's `assigned` holds it, or a split is under
way (R210). -/
def popFor (L : Nat) (k : Fin 16) : Act s₀ Unit := do
  let c := (← now).core L
  let urgent := decide (c.urgent.count ≠ 0)
  let p ← popBottom L urgent
  if p.splits then
    let (lo, hi) := p.halves
    let left ← splitIncrements L p p.handles
    if left.isEmpty then
      pushBottom L urgent hi
      modThread L k fun t => { t with assigned := some lo, fetched := 0 }
    else
      modCore L fun c => { c with
        split := some { lower := lo, upper := hi, urgent := urgent, target := .pop k, left := left } }
  else
    modThread L k fun t => { t with assigned := some p, fetched := 0 }
    roomFreed L urgent
    entered L

/-- Every increment of a split is performed: its parts are delivered, and the task unit goes on (R210, R216). A lower part that no slot
waits for any more stays in the deque (log 32). -/
def finishSplit (L : Nat) : Act s₀ Unit := do
  match ((← now).core L).split with
  | none => pure ()
  | some x =>
    modCore L fun c => { c with split := none }
    match x.target with
    | .pop k =>
      pushBottom L x.urgent x.upper
      modThread L k fun t => { t with assigned := some x.lower, fetched := 0 }
      wake L k
    | .assign _ =>
      pushBottom L x.urgent x.upper
      match (← now).popper L with
      | some k => assign L k x.lower
      | none => do let _ ← placeOrHold L { order := ← freshId, packet := x.lower, trigger := none, owner := none }
    | .steal thief =>
      let d := ((← now).core L).normal
      writePacket L (dequeOff false d 0) x.lower
      modCore thief fun c => match c.steal with
        | .asking stage j o _ => { c with steal := .answered stage j o (some x.upper) }
        | _ => c
    placeHeldIn L true (dequeCap true)
    placeHeldIn L false (dequeCap false)
    wakeWhere L fun w => w = .taskUnit
    entered L

/-- Two ranges of local-store bytes overlap. -/
def overlap (a b : Nat × Nat) : Bool := a.1 < b.1 + b.2 && b.1 < a.1 + a.2

/-- Another slot of the core has pinned bytes of a range (R217). -/
def State.pinned (s : State) (L : Nat) (k : Fin 16) (range : Nat × Nat) : Bool :=
  (List.finRange 16).any fun j => j ≠ k && match (s.thread L j).pin with
    | some p => overlap p range
    | none => false

/-- A decrement as a request of a thread, counted in `PENDB` (R212, R221, R278). -/
def State.decrementReq (s : State) (L : Nat) (k : Fin 16) (h : Word) (x : Stage) : Req where
  core := L
  slot := k
  asid := 0
  op := .decrement
  ga := h
  awaited := false
  bytes := 8
  retired := true
  left := 0
  gen := (s.thread L k).gen
  answered := 0
  requeued := false
  target := none
  stage := x
  combined := []

/-- Decrements of a retiring packet, in ascending order: own local store at once, elsewhere by requests (R212). One that is held counts
in `PENDB` too (R221). -/
def sendDecrements (L : Nat) (k : Fin 16) : List Nat → Act s₀ Unit
  | [] => pure ()
  | n :: rest => do
    let h := w64 n
    let id ← freshId
    let send (x : Stage) : Act s₀ Unit := do
      emit (.req id (some ((← now).decrementReq L k h x)))
      modThread L k fun t => { t with pendb := t.pendb + 8 }
    if !(← now).handleNamed h || gaCore h = L then
      let done ← decrementWait id h L (some id)
      when_ (!done) (send .room)
    else send .sent
    sendDecrements L k rest

/-- Retires the packet in service: its decrements, its pin (R212). The bytes of the buffer count whatever the poison marks of its words
(log 89). -/
def retirePacket (L : Nat) (k : Fin 16) : Act s₀ Unit := do
  let p := (← now).packetAt L (bufferOff k)
  sendDecrements L k p.handles
  modThread L k fun t => { t with inService := false, pin := none }

/-! Launch entries (R159). -/

/-- A free launch entry. -/
def Core.freeEntry (c : Core) : Option (Fin 16) := (List.finRange 16).find? fun e => (c.entries.get e).isNone

/-- The entry whose held start of a slot comes first (R159). -/
def Core.firstHeld (c : Core) (k : Fin 16) : Option (Fin 16 × LaunchEntry) :=
  let xs := (List.finRange 16).filterMap fun e =>
    match c.entries.get e with
    | some x => if bit x.held k.val then some (e, x) else none
    | none => none
  xs.foldl (fun best y => match best with
    | some b => if y.2.order < b.2.order then some y else some b
    | none => some y) none

/-- Takes a launch entry for a wake: its mask starts idle and halted slots now and holds the others (R159). A slot with an earlier
held start is not started past it (log 73). -/
def takeLaunch (L : Nat) (e : Fin 16) (order : Nat) (x : Launch) : Act s₀ Unit := do
  let s ← now
  writePacket L (launchEntryOff e) x.packet
  let slots := (List.finRange 16).filter fun k => bit x.mask k.val
  let free (k : Fin 16) : Bool := (s.thread L k).startable && ((s.core L).firstHeld k).isNone
  let now_ := slots.filter free
  let mask (ks : List (Fin 16)) : BitVec 16 := BitVec.ofNat 16 (ks.foldr (fun k n => n + 2 ^ k.val) 0)
  let held := slots.filter fun k => !free k
  when_ (!slots.isEmpty) do
    modCore L fun c => { c with
      entries := vset c.entries e (some { order := order, held := mask held, running := mask now_, launch := x }) }
    each now_ fun k => do start L k (launched x ((← now).thread L k) L k e)

end Sys2Proof.Machine
end

