-- ==== Sys2Proof/Machine/Operands.lean ====
section
/-! DEFINITION. Attempts of instructions: the order of checks of R51, every operand form of R19 with its effects (R14, R79 to
R85), the addresses of R109 to R113, accesses to memory (R119, R120, R183, R234, R244), and what an attempt that ends in a trap,
a park or a wait leaves behind (R9, R83, R133, R144). An attempt works on a copy: a trap or park discards it. While a thread
waits for memory, what the attempt was given stands in `Thread.taken`, and the attempt is made again over it (R81, R146). -/

namespace Sys2Proof.Machine

variable {s₀ : State}

/-- Why an attempt does not complete. -/
inductive Stop
  | trap (cause : Byte) (val : Word)
  /-- The deferred error held, reported at a wait for `PENDB` (R246). -/
  | deferred
  /-- Leaves the rotation and begins again from the start (R9). -/
  | park (w : Wait)
  /-- Parks on a word at a home, in the step of the failed attempt (R184). -/
  | parkWord (home word : Nat) (ga : Word) (awaits : Awaits)
  /-- Waits in state 2 and goes on over what it has been given. -/
  | wait (w : Wait)
  /-- Sends a request and waits in state 2 for its reply or acceptance. -/
  | ask (r : Req)
  /-- Takes the bottom packet, whose footprint or whose increments in other cores are to be awaited (R210). -/
  | takePacket
  /-- Retires the packet in service of a thread that ends, and then waits for its decrements (R224). -/
  | retire
  /-- Takes a trigger entry for a packet and asks a home to bind it (R218). -/
  | askBind (r : Req) (packet : List Byte)
  /-- Joins the queue of the module's freeze controller (R422). -/
  | control (v : Word)
  /-- `ENG_ERROR`: the error record is emptied and the trap taken (R317). -/
  | engError (eng : Engine) (code : Byte)
  deriving DecidableEq, Repr

/-- The working copy of an attempt. -/
structure Ctx (s₀ : State) where
  run : Run s₀
  core : Nat
  slot : Fin 16
  insn : InsnWord
  left : List Token
  seen : List Token

/-- An attempt of an instruction. -/
abbrev Att (s₀ : State) := StateT (Ctx s₀) (Except (Stop × List Token))

/-- Where a completed instruction continues. -/
inductive Next
  /-- At the next offset, under the loop check of R128. -/
  | seq
  /-- At the next offset, without the loop check (R128). -/
  | seqNoLoop
  | jump (pc : Word)
  /-- The thread has ended (R156). -/
  | ended
  /-- At the next offset; the next own position is vacated (R155). -/
  | yielded
  deriving DecidableEq, Repr

/-- Ends the attempt. -/
def stop {α : Type} (x : Stop) : Att s₀ α := do
  let c ← get
  throw (x, c.seen.reverse)

/-- Does something to the working copy. -/
def hw {α : Type} (a : Act s₀ α) : Att s₀ α := do
  let c ← get
  let (x, r) := a.run c.run
  set { c with run := r }
  return x

/-- The state as the attempt sees it. -/
def here : Att s₀ State := do return (← get).run.s

/-- The thread as the attempt sees it. -/
def self : Att s₀ Thread := do
  let c ← get
  return c.run.s.thread c.core c.slot

/-- Changes the thread in the working copy. -/
def modSelf (f : Thread → Thread) : Att s₀ Unit := do
  let c ← get
  hw (modThread c.core c.slot f)

/-- Takes the trap of `ILLEGAL_OPERAND`, with the instruction word (R50). -/
def illegalOperand {α : Type} : Att s₀ α := do
  let c ← get
  stop (.trap Cause.illegalOperand (c.insn.zeroExtend 64))

/-! Addresses (R109 to R113). -/

def Seg.limit (d : Seg) : Nat := field d.word 0 40
def Seg.r (d : Seg) : Bool := bit d.word 40
def Seg.w (d : Seg) : Bool := bit d.word 41
def Seg.x (d : Seg) : Bool := bit d.word 42
def Seg.sy (d : Seg) : Bool := bit d.word 43
def Seg.e (d : Seg) : Bool := bit d.word 44
def Seg.spread (d : Seg) : Nat := field d.word 45 2

/-- Rights an access asks of its segment (R109). -/
inductive Right
  | r | w | s
  deriving DecidableEq, Repr

def Seg.has (d : Seg) (need : Right) : Bool :=
  match need with
  | .r => d.r
  | .w => d.w
  | .s => d.sy

/-- The global address of an offset of a segment (R109, R111). -/
def Seg.form (d : Seg) (off : Nat) : Word :=
  if d.spread = 0 then w64 (d.base.toNat + off)
  else
    let b := d.base.toNat
    let w := off / 8
    let col := (b / 2 ^ 30 % 16 + w) % 16
    w64 (b / 2 ^ 34 * 2 ^ 34 + col * 2 ^ 30 + b % 2 ^ 30 + w / 16 * 8 + off % 8)

/-- `Seg` of R109: the address, or the cause and value of its trap. The offset is an exact integer. -/
def segCheck (d : Seg) (off : Int) (size : Nat) (need : Right) : Except (Byte × Word) Word :=
  let val := wInt off
  if off < 0 ∨ (d.limit : Int) < off + size then .error (Cause.segLimit, val)
  else if !d.has need then .error (Cause.segRights, val)
  else
    let ga := d.form off.toNat
    if ga.toNat % min size 16 ≠ 0 then .error (Cause.misaligned, val) else .ok ga

/-- `Seg` through a descriptor of the thread. -/
def seg (k : Fin 8) (off : Int) (size : Nat) (need : Right) : Att s₀ Word := do
  match segCheck ((← self).seg.get k) off size need with
  | .ok ga => return ga
  | .error (c, v) => stop (.trap c v)

/-- The window check of a local-space address (R113, R233). -/
def windowCheck (ga : Word) (n : Nat) (a : Access) : Att s₀ Unit :=
  if !isShared ga && !windowAccepts (gaOff ga) n a then stop (.trap Cause.protection ga) else pure ()

def HomeOp.access (op : HomeOp) : Access :=
  match op with
  | .load _ | .packet | .prefetch _ => .load
  | .store _ _ => .store
  | _ => .sync

/-- Bytes an operation touches at its word. -/
def HomeOp.size (op : HomeOp) : Nat :=
  match op with
  | .load n | .store n _ => n
  | .amo 9 _ => 4
  | _ => 8

/-! What the attempt is given by memory. -/

/-- The next thing an earlier attempt was given. -/
def given : Att s₀ (Option Token) := do
  let c ← get
  match c.left with
  | [] => return none
  | t :: rest =>
    set { c with left := rest, seen := t :: c.seen }
    return some t

def take (t : Token) : Att s₀ Unit := modify fun c => { c with seen := t :: c.seen }

/-- The value of a token; an error becomes its trap. -/
def Token.get (t : Token) : Att s₀ Word :=
  match t with
  | .val v => pure v
  | .done | .target _ => pure 0
  | .trap c v => stop (.trap c v)

/-- The address names the thread's own local store. -/
def isOwn (L : Nat) (ga : Word) : Bool := !isShared ga && gaCore ga = L

/-- The module of an address exists (R245, R449). -/
def State.exists_ (s : State) (ga : Word) : Bool := gaModule ga < s.nmod

/-- A request of this thread. -/
def request (op : HomeOp) (ga : Word) (awaited : Bool) (bytes left : Nat) (retired : Bool) : Att s₀ Req := do
  let c ← get
  let t ← self
  return {
    core := c.core, slot := c.slot, asid := t.asid, op := op, ga := ga, awaited := awaited, bytes := bytes, retired := retired
    left := left, gen := t.gen, answered := 0, requeued := false, target := none, stage := .sent, combined := [] }

/-- A value taken once by an instruction, whose later attempts take the same (R319). -/
def once (x : Att s₀ Word) : Att s₀ Word := do
  match ← given with
  | some t => t.get
  | none =>
    let v ← x
    take (.val v)
    return v

/-- FP32 addition to nearest even, for `amo.fadd` (R190): given by `faddAtomic`. -/
abbrev Fadd := Word → Word → Word

/-- An awaited operation (R183, R278): at the own bank in this step, elsewhere by request. `awaits` is the state a failed
attempt waits for (R184). -/
def awaited (fadd : Fadd) (op : HomeOp) (ga : Word) (awaits : Option Awaits) : Att s₀ Word := do
  windowCheck ga op.size op.access
  match ← given with
  | some t => t.get
  | none =>
    let c ← get
    let s ← here
    if isOwn c.core ga then
      let tg := localTarget ga
      match ← hw (performWith fadd c.core c.slot op ga tg) with
      | .token t => do take t; t.get
      | .failed =>
        match awaits with
        | some a => stop (.parkWord tg.home tg.place.word ga a)
        | none => stop (.park (.bindingRoom tg.home))
    else if !s.exists_ ga then stop (.trap Cause.pageFatal ga)
    else
      let t ← self
      let left := if (awaits = some .full ∨ awaits = some .empty) ∧ t.wordWait.isNone then t.feretry.toNat else 0
      stop (.ask (← request op ga true 0 left false))

/-- Retires an operation at once: it raises `PENDB` and is sent, to a target if its address has been translated; one to a module that does
not exist comes back as an error (R234, R245). -/
def sendStore (op : HomeOp) (ga : Word) (bytes : Nat) (tg : Option Target := none) : Att s₀ Unit := do
  let s ← here
  modSelf fun t => { t with pendb := t.pendb + BitVec.ofNat 32 bytes }
  let r := { (← request op ga false bytes 0 true) with target := tg }
  let r := if s.exists_ ga then r else { r with stage := .performed (.trap Cause.pageFatal ga) }
  hw do
    let id ← freshId
    emit (.req id (some r))

/-- The translation of a write to the own module's shared space, which may trap or park (R136, R244). -/
def translated (ga : Word) : Att s₀ (Option Target) := do
  let c ← get
  if isShared ga ∧ gaModule ga = moduleOf c.core then
    match ← given with
    | some (.target tg) => return some tg
    | some t => do
      let _ ← t.get
      return none
    | none => stop (.ask (← request .check ga true 0 0 false))
  else return none

/-- A retired operation (R183, R234, R235, R244, R278): at the own bank in this step; to the own module's shared space once its
port has accepted it, which raises `PENDB`; elsewhere at once. -/
def retire (fadd : Fadd) (op : HomeOp) (ga : Word) (bytes : Nat) : Att s₀ Unit := do
  windowCheck ga op.size op.access
  let c ← get
  let t ← self
  if isOwn c.core ga then
    match ← hw (performWith fadd c.core c.slot op ga (localTarget ga)) with
    | .token t => do let _ ← t.get; pure ()
    | .failed => pure ()
  else
    if isShared ga ∧ gaModule ga = moduleOf c.core then
      match ← given with
      | some t => do
        let _ ← t.get
        pure ()
      | none =>
        if 2 ^ 32 ≤ t.pendb.toNat + bytes then stop (.wait .drain)
        else stop (.ask (← request op ga false bytes 0 false))
    else if 2 ^ 32 ≤ t.pendb.toNat + bytes then stop (.wait .drain)
    else sendStore op ga bytes

/-- A load of `n` bytes (R119). -/
def load (ga : Word) (n : Nat) : Att s₀ Word := awaited (fun _ b => b) (.load n) ga none

/-- A read of eight bytes of a task packet or by `engload`, which never combines (R264). -/
def loadPacket (ga : Word) : Att s₀ Word := awaited (fun _ b => b) .packet ga none

/-- A store of `n` bytes (R120). -/
def store (ga : Word) (n : Nat) (v : Word) : Att s₀ Unit := retire (fun _ b => b) (.store n v) ga n

/-! Operands (R14, R19, R79). -/

def sizeBytes (sz : Size) : Nat := 2 ^ sz.code

def esz (m : BitVec 20) : Nat := field m 16 2
def sxBit (m : BitVec 20) : Bool := bit m 18
def wrapBit (m : BitVec 20) : Bool := bit m 19
def stride (m : BitVec 20) : Int := signed 16 m.toNat

/-- The advance of a pointer (R14). -/
def advanced (p : Word) (m : BitVec 20) (limit : Nat) : Word :=
  if wrapBit m then
    if limit = 0 then 0 else wInt (((p.toNat : Int) + stride m) % (limit : Int))
  else wInt ((p.toNat : Int) + stride m)

/-- Advances `a`K (R14). -/
def advance (k : Fin 8) : Att s₀ Unit :=
  modSelf fun t => { t with a := vset t.a k (advanced (t.a.get k) (t.m.get k) (t.seg.get k).limit) }

/-- The low `n` bytes of a value, sign-extended or zero-extended (R8). -/
def extend (sx : Bool) (n : Nat) (v : Word) : Word :=
  if sx then wInt (signed (8 * n) v.toNat) else w64 (v.toNat % 2 ^ (8 * n))

/-- Pops a port's queue and returns its credit (R166, R167). -/
def pop (p : Port) : Att s₀ Word := do
  let c ← get
  match (← self).queues.get p.index with
  | [] => stop (.park (.port p false))
  | (v, fl, fk) :: rest =>
    modSelf fun t => { t with queues := vset t.queues p.index rest }
    hw (returnCredit c.core c.slot p fl fk)
    return v

/-- Pushes to a port's peer, with a credit (R167). -/
def push (p : Port) (v : Word) : Att s₀ Unit := do
  let c ← get
  let t ← self
  match peer c.core c.slot p with
  | none => pure ()
  | some (L, k, q) =>
    if t.credits.get p.index = 0 then stop (.park (.port p true))
    else
      modSelf fun t => { t with credits := vset t.credits p.index (t.credits.get p.index - 1) }
      hw (sendPort false c.core c.slot L k q v)

/-- `Operand(code)`: a use as a source (R79). -/
def use (o : Operand) : Att s₀ Word :=
  match o with
  | .s i => do return (← self).s.get i
  | .mem k => do
    let t ← self
    let n := 2 ^ esz (t.m.get k)
    let ga ← seg k (t.a.get k).toNat n .r
    let v ← load ga n
    advance k
    return extend (sxBit (t.m.get k)) n v
  | .port p => pop p
  | .code30 => illegalOperand
  | .z => pure 0

/-- Writes a scalar register. -/
def setReg (i : Fin 16) (v : Word) : Att s₀ Unit := modSelf fun t => { t with s := vset t.s i v }

/-- `WriteOperand(code, v)`: a use as a destination (R79). -/
def write (o : Operand) (v : Word) : Att s₀ Unit :=
  match o with
  | .s i => setReg i v
  | .mem k => do
    let t ← self
    let n := 2 ^ esz (t.m.get k)
    let ga ← seg k (t.a.get k).toNat n .w
    advance k
    store ga n v
  | .port p => push p v
  | .code30 => illegalOperand
  | .z => pure ()

/-- A data register of the synchronising instructions, as a source; `z` gives 0 (R180, R181). -/
def readReg (o : Operand) : Att s₀ Word :=
  match o with
  | .s i => do return (← self).s.get i
  | _ => pure 0

/-- A data register of the synchronising instructions, as a destination; nothing for `z` (R180). -/
def writeReg (o : Operand) (v : Word) : Att s₀ Unit :=
  match o with
  | .s i => setReg i v
  | _ => pure ()

/-! The order of R51. -/

/-- The sets of operand codes that fields accept. -/
inductive Accepts
  /-- 0 to 29 and 31. -/
  | any
  /-- 0 to 15 and 31. -/
  | regOrZ
  /-- 0 to 15. -/
  | reg
  /-- 24 to 29, as a value. -/
  | portCode
  deriving DecidableEq, Repr

def Accepts.ok (a : Accepts) (o : Operand) : Bool :=
  match a, o with
  | .any, .code30 => false
  | .any, _ => true
  | .regOrZ, .s _ | .regOrZ, .z | .reg, .s _ | .portCode, .port _ => true
  | _, _ => false

/-- The operand fields of an instruction in the order A, B, C, D, with the codes each accepts (R45, R85, R123, R181, R208, R210,
R250). -/
def Instr.fields (i : Sys2Proof.Instr) : List (Operand × Accepts) :=
  match i with
  | .add d a b | .sub d a b | .and d a b | .or d a b | .xor d a b | .andn d a b | .shl d a b | .shr d a b | .sar d a b
  | .rot d a b | .min d a b | .max d a b | .minn d a b | .maxn d a b | .slt d a b | .sltn d a b | .seq d a b | .mul d a b
  | .mulh d a b | .mulhn d a b | .div d a b | .divn d a b | .rem d a b | .remn d a b => [(a, .any), (b, .any), (d, .any)]
  | .clz d a | .ctz d a | .popc d a | .bswapH d a | .bswapS d a | .bswapW d a | .sextB d a | .sextH d a | .sextS d a
  | .zextB d a | .zextH d a | .zextS d a => [(a, .any), (d, .any)]
  | .sel d a b c => [(a, .any), (b, .any), (c, .any), (d, .any)]
  | .addi d a _ | .andi d a _ | .ori d a _ | .xori d a _ | .slti d a _ | .shli d a _ | .shri d a _ | .sari d a _
  | .roti d a _ | .bfx d a _ _ | .bfxs d a _ _ => [(a, .any), (d, .any)]
  | .bfi d a _ _ => [(a, .any), (d, .regOrZ)]
  | .li d _ => [(d, .any)]
  | .lhi d _ => [(d, .regOrZ)]
  | .fadd d a b _ _ | .fsub d a b _ _ | .fmul d a b _ _ | .fdiv d a b _ _ | .fmin d a b _ | .fmax d a b _ | .feq d a b _
  | .flt d a b _ | .fle d a b _ | .fsgn d a b _ => [(a, .any), (b, .any), (d, .any)]
  | .fsqrt d a _ _ | .fclass d a _ | .fround d a _ _ | .fcvt d a _ _ _ => [(a, .any), (d, .any)]
  | .fma d a b c _ _ | .fnma d a b c _ _ => [(a, .any), (b, .any), (c, .any), (d, .any)]
  | .ld d _ _ _ _ | .ldn d _ _ _ _ | .st d _ _ _ _ => [(d, .any)]
  | .ldfe d _ _ _ | .ldff d _ _ _ | .stef d _ _ _ | .stsf d _ _ _ | .fstate d _ => [(d, .regOrZ)]
  | .lr d _ => [(d, .reg)]
  | .sc d b _ | .cas d b _ | .amoAdd d b _ | .amoAnd d b _ | .amoOr d b _ | .amoXor d b _ | .amoMin d b _ | .amoMax d b _
  | .amoMinn d b _ | .amoMaxn d b _ | .amoSwap d b _ | .amoFadd d b _ => [(b, .regOrZ), (d, .regOrZ)]
  | .beq a b _ | .bne a b _ | .blt a b _ | .bge a b _ | .bltn a b _ | .bgen a b _ => [(a, .any), (b, .any)]
  | .bz a _ | .bnz a _ | .jr a | .loop a _ | .setp _ a | .setm _ a => [(a, .any)]
  | .getp d _ | .segq d _ _ => [(d, .any)]
  | .segld _ a b => [(a, .any), (b, .any)]
  | .npcount d a => [(a, .portCode), (d, .any)]
  | .spawn a b | .launch _ a b => [(a, .any), (b, .any)]
  | .taskpush a | .taskdone a | .gidput a => [(a, .any)]
  | .taskpop d | .gidget d => [(d, .reg)]
  | .trigset _ b => [(b, .any)]
  | .mxTgemm x | .mxIgemm x | .mxPromo x | .mxClr x | .vxAdd x | .vxSub x | .vxMul x | .vxFma x | .vxMin x | .vxMax x
  | .vxAbs x | .vxCvt x | .vxQuant x | .vxRed x | .vxExp x | .vxRsq x | .vxSmax x | .vxDist x | .vxCmp x | .vxSel x
  | .vxFill x | .cpCopy x | .cpMcast x | .cpGath x | .cpScat x | .cpTern x | .cpPack x | .cpPf x | .cpRed x | .cpFill x
  | .slBound x | .slScore x | .slKinit x | .slKins x | .slKmerge x | .slKread x | .slResum x => [(x.a, .regOrZ), (x.b, .regOrZ)]
  | .engset _ _ a | .engsave _ a | .engload _ a | .mtsys _ a | .wake a | .preempt a => [(a, .any)]
  | .engget d _ _ | .engstat d _ | .mfsys d _ | .rand d => [(d, .any)]
  | .tlbinv d a => [(a, .regOrZ), (d, .regOrZ)]
  | _ => []

/-- Instructions for supervisor mode alone (R49). -/
def Instr.supervisor (i : Sys2Proof.Instr) : Bool :=
  match i with
  | .segld _ _ _ | .tret | .wake _ | .preempt _ | .tlbinv _ _ => true
  | _ => false

/-- The first port that has no peer, in the order A, B, C, D (R165). -/
def edgePort (L : Nat) (k : Fin 16) : List (Operand × Accepts) → Option Port
  | [] => none
  | (.port p, .any) :: rest => if (peer L k p).isNone then some p else edgePort L k rest
  | _ :: rest => edgePort L k rest

/-- Steps 3 and 4 of R51, and the check of R165 that follows them; it comes before R22's checks of an unlisted number and of
privilege, whose place beside it the spec leaves open (log 76). -/
def precheck (i : Sys2Proof.Instr) : Att s₀ Unit := do
  let c ← get
  let t ← self
  if Instr.supervisor i && !t.mode then stop (.trap Cause.privilege (c.insn.zeroExtend 64))
  else if !(Instr.fields i).all fun (o, a) => a.ok o then illegalOperand
  else match edgePort c.core c.slot (Instr.fields i) with
    | some p => stop (.trap Cause.npEdge (w64 (Port.operandCode p)))
    | none => pure ()

/-! Waits for `PENDB` (R246, R285, R287). -/

/-- Waits in state 2 until `PENDB` is zero; a deferred error then traps (R246). -/
def drainPendb : Att s₀ Unit := do
  let t ← self
  if t.pendb ≠ 0 then stop (.wait .drain)
  else if t.deferred.isSome then stop .deferred
  else pure ()

/-- The release effect at a scope: the `PENDB` wait, and at scope 4 or more the wait for REP copies (R285, R287). -/
def release (scope : Scope) : Att s₀ Unit := do
  drainPendb
  let c ← get
  let s ← here
  let g := (← self).gen
  if 4 ≤ scope.code ∧ s.copies.any fun (_, x) => x.core = c.core ∧ x.slot = c.slot ∧ x.gen = g ∧ x.engine.isNone then stop (.wait .drain)
  else pure ()

/-! Completion (R84, R128). -/

/-- The PC and loop count after a completed instruction (R128). -/
def afterLoop (t : Thread) : Thread :=
  if t.pc = w64 (4 * t.lend.toNat) ∧ t.lcount ≠ 0 then
    let n := t.lcount - 1
    { t with lcount := n, pc := if n ≠ 0 then w64 (4 * t.lstart.toNat) else t.pc + 4 }
  else { t with pc := t.pc + 4 }

/-- The PC and loop registers where an instruction continues. -/
def continueAt (t : Thread) (n : Next) : Thread :=
  match n with
  | .seq | .yielded => afterLoop t
  | .seqNoLoop => { t with pc := t.pc + 4 }
  | .jump pc => { t with pc := pc }
  | .ended => t

/-- A home without a ticket, and without the entry kept for it. -/
def Home.without (x : Home) (n : Nat) : Home := { x with kept := x.kept.erase n, tickets := x.tickets.filter fun y => y.1 ≠ n }

/-- Gives back a ticket that its thread no longer needs, with the monitor entry kept for it (R186). -/
def releaseKept (L : Nat) (k : Fin 16) : Act s₀ Unit := do
  match ((← now).thread L k).ticket with
  | some (h, n) => modHome h fun x => x.without n
  | none => pure ()

/-- The limit of a wait has passed: `limit` is not 0 and more cycles than that have gone by (R172, R187). -/
def expired (w : Option (Nat × BitVec 32)) (cycle : Nat) : Bool :=
  match w with
  | some (from_, lim) => lim ≠ 0 && lim.toNat < cycle - from_
  | none => false

/-- Enters a trap of a thread in its core's state; the handler first issues from `gap` cycles on (R133, R145). -/
def trapThread (L : Nat) (k : Fin 16) (gap : Nat) (cause : Byte) (val : Word) : Act s₀ Unit := do
  let s ← now
  releaseKept L k
  modThread L k fun t => enterTrap (t.readyFrom (s.cycle L + gap)) cause val t.pc

/-- Sends a request, and waits in state 2 for its reply or acceptance. -/
def askFor (L : Nat) (k : Fin 16) (insn : InsnWord) (r : Req) (seen : List Token) : Act s₀ Unit := do
  let id ← freshId
  emit (.req id (some r))
  modThread L k fun t => t.wait (.reply id) (some insn) seen

/-- Copies a packet into a trigger entry and marks the entry in use (R218). -/
def takeTrigger (L : Nat) (e : Fin 16) (p : Packet) : Act s₀ Unit := do
  writePacket L (triggerOff e) p
  modCore L fun c => { c with triggers := c.triggers ||| (1#16 <<< e.val) }

/-- Leaves a thread waiting as a stopped attempt says. -/
def settle (L : Nat) (k : Fin 16) (insn : InsnWord) (gap : Nat) (x : Stop) (seen : List Token) : Act s₀ Unit := do
  let s ← now
  let t := s.thread L k
  let c := s.cycle L
  match x with
  | .trap cause val => trapThread L k gap cause val
  | .deferred =>
    match t.deferred with
    | some (cause, val) => do
      modThread L k fun t => { t with deferred := none }
      trapThread L k gap cause val
    | none => pure ()
  | .engError eng code => do
    modThread L k fun t => { t with eng := vset t.eng (Fin.ofNat 4 eng.code) { t.eng.get (Fin.ofNat 4 eng.code) with err := none } }
    trapThread L k gap Cause.engError (w64 (eng.code * 2 ^ 8 + code.toNat))
  | .park (.port p w) =>
    if expired t.portWait c then trapThread L k gap Cause.npTimeout (w64 (Port.operandCode p))
    else
      releaseKept L k
      modThread L k fun t => { (t.wait (.port p w) (some insn) []) with portWait := some (t.portWait.getD (c, t.nplim)), ticket := none }
  | .park .taskpop => do
    modThread L k fun t => { (t.wait .taskpop (some insn) []) with wordWait := some (t.wordWait.getD (c, t.waitlim)) }
    modCore L fun x => { x with poppers := x.poppers ++ [k] }
  | .park w => modThread L k fun t => t.wait w (some insn) []
  | .parkWord home word ga awaits =>
    if expired t.wordWait c then trapThread L k gap Cause.feTimeout ga
    else
      placeWaiter L k home word ga awaits
      modThread L k fun t =>
        { (t.wait (.word home ga awaits) (some insn) []) with wordWait := some (t.wordWait.getD (c, t.waitlim)) }
  | .wait w => modThread L k fun t => { (t.wait w (some insn) seen) with barAt := s.ctl.now }
  | .control v => do
    modModule (moduleOf L) fun m => { m with freezeQueue := m.freezeQueue ++ [{ core := L, slot := k, value := v }] }
    modThread L k fun t => t.wait .controller (some insn) seen
  | .ask r => askFor L k insn r seen
  | .askBind r p => do
    match r.op with
    | .bind _ e => takeTrigger L e p
    | _ => pure ()
    askFor L k insn r seen
  | .retire => do
    retirePacket L k
    modThread L k fun t => t.wait .drain (some insn) []
  | .takePacket => do
    popFor L k
    let ready := ((← now).thread L k).assigned.isSome
    modThread L k fun t => t.wait (if ready then .footprint else .taskUnit) (some insn) []

/-- What follows a completed attempt: the thread goes on at its next place, and issues again `gap` cycles from now or later, 16
more after `yield` (R84, R128, R145, R155). -/
def complete (L : Nat) (k : Fin 16) (gap : Nat) (n : Next) : Act s₀ Unit := do
  match n with
  | .ended => pure ()
  | _ => do
    releaseKept L k
    let c := (← now).cycle L
    let gap := if n = .yielded then gap + 16 else gap
    modThread L k fun t => (continueAt t n).readyFrom (c + gap)

/-- The working copy of an attempt that begins now. -/
def Ctx.start (i : Sys2Proof.Instr) (L : Nat) (k : Fin 16) (r : Run s₀) : Ctx s₀ :=
  { run := r, core := L, slot := k, insn := encode i, left := (r.s.thread L k).taken, seen := [] }

/-- One attempt of an instruction by a thread, from its start, over what it has been given: it completes, traps or waits. The
thread's next issue, if it is ready, is `gap` cycles from now or later (R84, R145, R146). -/
def attempt (i : Sys2Proof.Instr) (body : Att s₀ Next) (L : Nat) (k : Fin 16) (gap : Nat) : Act s₀ Unit := do
  let r ← get
  match (do precheck i; body : Att s₀ Next).run (Ctx.start i L k r) with
  | .error (x, seen) => settle L k (encode i) gap x seen
  | .ok (n, c) => do
    set c.run
    complete L k gap n

/-- The meaning of an instruction: one attempt by the thread that issues. -/
def issue (i : Sys2Proof.Instr) (s : State) (body : Att s Next) : Host.Outcome State Fault Refusal :=
  act s (attempt i body s.ctl.core s.ctl.slot 1)

end Sys2Proof.Machine
end

