-- ==== Sys2Proof/Machine/Float.lean ====
section
/-! DEFINITION. The floating-point formats FP32, FP16 and BF16 (R68) and F26 (R304), their exact values, and each operation of
R96 to R104 computed exactly and rounded once (R72 to R75), with the exceptions it raises (R76). Values of a format are numbers
below 2 to its width. -/

namespace Sys2Proof.Machine

/-- A binary format: exponent and fraction bits (R68). -/
structure Fp where
  ebits : Nat
  fbits : Nat
  deriving DecidableEq, Repr

def fp32 : Fp := { ebits := 8, fbits := 23 }
def fp16 : Fp := { ebits := 5, fbits := 10 }
def bf16 : Fp := { ebits := 8, fbits := 7 }

/-- The format that FMT names (R37). -/
def fpOf (f : Fmt) : Fp :=
  match f with
  | .f32 => fp32
  | .f16 => fp16
  | .bf16 => bf16

def Fp.bias (f : Fp) : Int := 2 ^ (f.ebits - 1) - 1
def Fp.width (f : Fp) : Nat := f.ebits + f.fbits + 1
/-- Infinity's bits without the sign. -/
def Fp.infBits (f : Fp) : Nat := (2 ^ f.ebits - 1) * 2 ^ f.fbits
/-- The canonical NaN (R68, R71). -/
def Fp.nan (f : Fp) : Nat := f.infBits + 2 ^ (f.fbits - 1)
def Fp.signed (f : Fp) (neg : Bool) (x : Nat) : Nat := x + neg.toNat * 2 ^ (f.ebits + f.fbits)
/-- The exponent of the least significant bit of a subnormal. -/
def Fp.qmin (f : Fp) : Int := 1 - f.bias - f.fbits

/-- The exact value of a pattern: `fin neg sig exp` is (-1)^neg * sig * 2^exp, with the sign kept for zero. -/
inductive Num
  | nan (signalling : Bool)
  | inf (neg : Bool)
  | fin (neg : Bool) (sig : Nat) (exp : Int)
  deriving DecidableEq, Repr

/-- The value of a pattern (R68). -/
def Fp.unpack (f : Fp) (x : Nat) : Num :=
  let frac := x % 2 ^ f.fbits
  let e := x / 2 ^ f.fbits % 2 ^ f.ebits
  let neg := x / 2 ^ (f.ebits + f.fbits) % 2 = 1
  if e = 2 ^ f.ebits - 1 then
    if frac = 0 then .inf neg else .nan (frac < 2 ^ (f.fbits - 1))
  else if e = 0 then .fin neg frac f.qmin
  else .fin neg (2 ^ f.fbits + frac) (f.qmin + (e - 1 : Nat))

/-! Exceptions as bits in the order of R77: NV 16, DZ 8, OF 4, UF 2, NX 1. -/

abbrev Exc := BitVec 5

def Exc.none : Exc := 0
def Exc.nv : Exc := 16
def Exc.dz : Exc := 8
def Exc.of : Exc := 4
def Exc.uf : Exc := 2
def Exc.nx : Exc := 1

def nvIf (b : Bool) : Exc := if b then Exc.nv else Exc.none

/-- sig * 2^exp rounded to a multiple of 2^q in a rounding mode of R73, in units of 2^q, and whether that changed it. -/
def roundTo (rm : Nat) (neg : Bool) (sig : Nat) (exp q : Int) : Nat × Bool :=
  if q ≤ exp then (sig * 2 ^ (exp - q).toNat, false)
  else
    let d := (q - exp).toNat
    let whole := sig / 2 ^ d
    let rest := sig % 2 ^ d
    let half := 2 ^ (d - 1)
    let up := match rm with
      | 0 => decide (half < rest ∨ (rest = half ∧ whole % 2 = 1))
      | 1 => false
      | 2 => neg && rest ≠ 0
      | 3 => !neg && rest ≠ 0
      | _ => decide (half ≤ rest)
    (whole + up.toNat, rest ≠ 0)

/-- Bits of a number in binary. -/
def bitLength (n : Nat) : Nat := if n = 0 then 0 else Nat.log2 n + 1

/-- An exact nonzero value rounded once into a format (R72 to R76, R75 on overflow). -/
def Fp.round (f : Fp) (rm : Nat) (neg : Bool) (sig : Nat) (exp : Int) : Nat × Exc :=
  let q := max (exp + bitLength sig - 1 - f.fbits) f.qmin
  let tiny := exp + bitLength sig ≤ 1 - f.bias
  let (m, inexact) := roundTo rm neg sig exp q
  let x := (q - f.qmin).toNat * 2 ^ f.fbits + m
  if f.infBits ≤ x then
    let toMax := rm = 1 ∨ (rm = 2 ∧ !neg) ∨ (rm = 3 ∧ neg)
    (f.signed neg (if toMax then f.infBits - 1 else f.infBits), Exc.of ||| Exc.nx)
  else
    (f.signed neg x, if inexact then (if tiny then Exc.uf ||| Exc.nx else Exc.nx) else Exc.none)

/-- A value delivered in a format: rounded once when it is finite and not zero (R70 to R72). -/
def Fp.pack (f : Fp) (rm : Nat) (x : Num) : Nat × Exc :=
  match x with
  | .nan _ => (f.nan, Exc.none)
  | .inf neg => (f.signed neg f.infBits, Exc.none)
  | .fin neg sig exp => if sig = 0 then (f.signed neg 0, Exc.none) else f.round rm neg sig exp

def Num.isNan (x : Num) : Bool :=
  match x with
  | .nan _ => true
  | _ => false

def Num.isSnan (x : Num) : Bool :=
  match x with
  | .nan s => s
  | _ => false

def Num.neg (x : Num) : Num :=
  match x with
  | .nan s => .nan s
  | .inf n => .inf !n
  | .fin n s e => .fin (!n) s e

/-- The integer sig * 2^exp in units of 2^e, for e at most exp, with its sign. -/
def scaled (neg : Bool) (sig : Nat) (exp e : Int) : Int :=
  let x : Int := (sig * 2 ^ (exp - e).toNat : Nat)
  if neg then -x else x

/-- The exact value of an integer in units of 2^e, with the sign a zero takes. -/
def Num.ofInt (x : Int) (e : Int) (zeroNeg : Bool) : Num :=
  if x = 0 then .fin zeroNeg 0 e else .fin (x < 0) x.natAbs e

/-- The exact sum (R74, R96), and whether it is an invalid operation. -/
def Num.add (rm : Nat) (x y : Num) : Num × Exc :=
  match x, y with
  | .nan a, .nan b => (.nan false, nvIf (a || b))
  | .nan a, _ | _, .nan a => (.nan false, nvIf a)
  | .inf a, .inf b => if a = b then (.inf a, Exc.none) else (.nan false, Exc.nv)
  | .inf a, _ | _, .inf a => (.inf a, Exc.none)
  | .fin na sa ea, .fin nb sb eb =>
    let e := min ea eb
    let zero := if na = nb then na else decide (rm = 2)
    (Num.ofInt (scaled na sa ea e + scaled nb sb eb e) e zero, Exc.none)

/-- The exact product (R96). -/
def Num.mul (x y : Num) : Num × Exc :=
  match x, y with
  | .nan a, .nan b => (.nan false, nvIf (a || b))
  | .nan a, _ | _, .nan a => (.nan false, nvIf a)
  | .inf a, .inf b => (.inf (a != b), Exc.none)
  | .inf a, .fin b s _ | .fin b s _, .inf a =>
    if s = 0 then (.nan false, Exc.nv) else (.inf (a != b), Exc.none)
  | .fin a s e, .fin b t d => (.fin (a != b) (s * t) (e + d), Exc.none)

/-- The exact quotient, to enough bits for one rounding: an inexact quotient ends in a further bit 1 (R96). -/
def Num.div (x y : Num) : Num × Exc :=
  match x, y with
  | .nan a, .nan b => (.nan false, nvIf (a || b))
  | .nan a, _ | _, .nan a => (.nan false, nvIf a)
  | .inf _, .inf _ => (.nan false, Exc.nv)
  | .inf a, .fin b _ _ => (.inf (a != b), Exc.none)
  | .fin a _ _, .inf b => (.fin (a != b) 0 0, Exc.none)
  | .fin a s e, .fin b t d =>
    if t = 0 then (if s = 0 then (.nan false, Exc.nv) else (.inf (a != b), Exc.dz))
    else if s = 0 then (.fin (a != b) 0 0, Exc.none)
    else
      let k := 64 + bitLength t
      let n := s * 2 ^ k
      (.fin (a != b) (2 * (n / t) + (decide (n % t ≠ 0)).toNat) (e - d - k - 1), Exc.none)

/-- The integer square root, by its bits from bit `i - 1` down. -/
def isqrtBits (x : Nat) : Nat → Nat → Nat
  | 0, r => r
  | i + 1, r => isqrtBits x i (if (r + 2 ^ i) * (r + 2 ^ i) ≤ x then r + 2 ^ i else r)

def isqrt (x : Nat) : Nat := isqrtBits x (bitLength x / 2 + 1) 0

/-- The exact square root, to enough bits for one rounding (R100). -/
def Num.sqrt (x : Num) : Num × Exc :=
  match x with
  | .nan a => (.nan false, nvIf a)
  | .inf neg => if neg then (.nan false, Exc.nv) else (.inf false, Exc.none)
  | .fin neg s e =>
    if s = 0 then (.fin neg 0 e, Exc.none)
    else if neg then (.nan false, Exc.nv)
    else
      let n := s * 2 ^ (128 + (e % 2).toNat)
      let r := isqrt n
      (.fin false (2 * r + (decide (r * r ≠ n)).toNat) ((e - e % 2) / 2 - 64 - 1), Exc.none)

/-- How two values that are not NaN compare; -0 equals +0 (R98). -/
def Num.cmp (x y : Num) : Ordering :=
  match x, y with
  | .inf a, .inf b => if a = b then .eq else if a then .lt else .gt
  | .inf a, _ => if a then .lt else .gt
  | _, .inf b => if b then .gt else .lt
  | .fin na sa ea, .fin nb sb eb => compare (scaled na sa ea (min ea eb)) (scaled nb sb eb (min ea eb))
  | _, _ => .eq

def Num.sign (x : Num) : Bool :=
  match x with
  | .nan _ => false
  | .inf n => n
  | .fin n _ _ => n

/-- Ordered below, with -0 below +0 (R97). -/
def Num.below (x y : Num) : Bool :=
  match x.cmp y with
  | .lt => true
  | .eq => x.sign && !y.sign
  | .gt => false

/-! The operations of R96 to R104 on patterns. -/

/-- A result and the exceptions it raises. -/
abbrev FpRes := Nat × Exc

def Fp.finish (f : Fp) (rm : Nat) (x : Num × Exc) : FpRes :=
  let (v, e) := f.pack rm x.1
  (v, x.2 ||| e)

def Fp.add (f : Fp) (rm : Nat) (x y : Nat) : FpRes := f.finish rm (Num.add rm (f.unpack x) (f.unpack y))
def Fp.sub (f : Fp) (rm : Nat) (x y : Nat) : FpRes := f.finish rm (Num.add rm (f.unpack x) (f.unpack y).neg)
def Fp.mul (f : Fp) (rm : Nat) (x y : Nat) : FpRes := f.finish rm (Num.mul (f.unpack x) (f.unpack y))
def Fp.div (f : Fp) (rm : Nat) (x y : Nat) : FpRes := f.finish rm (Num.div (f.unpack x) (f.unpack y))
def Fp.sqrt (f : Fp) (rm : Nat) (x : Nat) : FpRes := f.finish rm (Num.sqrt (f.unpack x))

/-- x * y + c, or -(x * y) + c, rounded once (R103). -/
def Fp.fma (f : Fp) (rm : Nat) (negate : Bool) (x y c : Nat) : FpRes :=
  let (p, e) := Num.mul (f.unpack x) (f.unpack y)
  let z := f.unpack c
  let p := if negate then p.neg else p
  let (s, e') := Num.add rm p z
  f.finish rm (s, e ||| e')

/-- The lesser or greater operand (R97). -/
def Fp.minmax (f : Fp) (greater : Bool) (x y : Nat) : FpRes :=
  let a := f.unpack x
  let b := f.unpack y
  let e := nvIf (a.isSnan || b.isSnan)
  if a.isNan then (if b.isNan then f.nan else y, e)
  else if b.isNan then (x, e)
  else if greater then (if a.below b then y else x, e)
  else (if b.below a then y else x, e)

/-- Quiet or signalling comparison (R98). -/
def Fp.compare (f : Fp) (signalling : Bool) (holds : Ordering → Bool) (x y : Nat) : FpRes :=
  let a := f.unpack x
  let b := f.unpack y
  if a.isNan || b.isNan then (0, nvIf (signalling || a.isSnan || b.isSnan))
  else ((holds (a.cmp b)).toNat, Exc.none)

/-- A with the sign bit of B (R99). -/
def Fp.copySign (f : Fp) (x y : Nat) : FpRes :=
  let a := f.unpack x
  let e := nvIf (a.isSnan || (f.unpack y).isSnan)
  if a.isNan then (f.nan, e)
  else (f.signed (y / 2 ^ (f.ebits + f.fbits) % 2 = 1) (x % 2 ^ (f.ebits + f.fbits)), e)

/-- The class mask (R101). -/
def Fp.classify (f : Fp) (x : Nat) : Nat :=
  match f.unpack x with
  | .nan true => 2 ^ 8
  | .nan false => 2 ^ 9
  | .inf true => 2 ^ 0
  | .inf false => 2 ^ 7
  | .fin neg sig _ =>
    if sig = 0 then (if neg then 2 ^ 3 else 2 ^ 4)
    else if sig < 2 ^ f.fbits then (if neg then 2 ^ 2 else 2 ^ 5)
    else (if neg then 2 ^ 1 else 2 ^ 6)

/-- The nearest integral value of the same format (R102). -/
def Fp.roundIntegral (f : Fp) (rm : Nat) (x : Nat) : FpRes :=
  match f.unpack x with
  | .nan s => (f.nan, nvIf s)
  | .inf neg => (f.signed neg f.infBits, Exc.none)
  | .fin neg sig exp =>
    let (m, inexact) := roundTo rm neg sig exp (max 0 exp)
    ((f.pack rm (.fin neg m (max 0 exp))).1, if inexact then Exc.nx else Exc.none)

/-! Conversions (R78, R104). -/

def IntTy.bits (t : IntTy) : Nat :=
  match t with
  | .b | .bn => 8
  | .h | .hn => 16
  | .s | .sn => 32
  | .w | .wn => 64

def IntTy.isSigned (t : IntTy) : Bool :=
  match t with
  | .b | .h | .s | .w => true
  | _ => false

def IntTy.lo (t : IntTy) : Int := if IntTy.isSigned t then -(2 ^ (IntTy.bits t - 1)) else 0
def IntTy.hi (t : IntTy) : Int := if IntTy.isSigned t then 2 ^ (IntTy.bits t - 1) - 1 else 2 ^ IntTy.bits t - 1

/-- A value to an integer (R78). -/
def toIntTy (t : IntTy) (rm : Nat) (x : Num) : Int × Exc :=
  match x with
  | .nan _ => (0, Exc.nv)
  | .inf neg => (if neg then IntTy.lo t else IntTy.hi t, Exc.nv)
  | .fin neg sig exp =>
    let (m, inexact) := roundTo rm neg sig exp (max 0 exp)
    let v := scaled neg m (max 0 exp) 0
    if v < IntTy.lo t then (IntTy.lo t, Exc.nv)
    else if IntTy.hi t < v then (IntTy.hi t, Exc.nv)
    else (v, if inexact then Exc.nx else Exc.none)

/-- The value of an integer source (R78). -/
def ofIntTy (t : IntTy) (a : Word) : Int :=
  if IntTy.isSigned t then Machine.signed (IntTy.bits t) a.toNat else (a.toNat % 2 ^ IntTy.bits t : Nat)

/-- `fcvt` (R78, R104). -/
def convert (dt st : CvtTy) (rm : Nat) (a : Word) : Word × Exc :=
  let x : Num := match st with
    | .fp f => (fpOf f).unpack (a.toNat % 2 ^ (fpOf f).width)
    | .int t => Num.ofInt (ofIntTy t a) 0 false
  match dt with
  | .int t =>
    let (v, e) := toIntTy t rm x
    (wInt v, e)
  | .fp f =>
    let (v, e) := (fpOf f).finish rm (x, nvIf x.isSnan)
    (w64 v, e)

/-- FP32 addition to nearest even, as `amo.fadd` makes it (R190). -/
def faddAtomic (old b : Word) : Word := w64 (fp32.add 0 (old.toNat % 2 ^ 32) (b.toNat % 2 ^ 32)).1

/-! F26 (R304, R305). A value is a `Num` whose finite values are normal F26 values or zero. -/

/-- Flags of R298 that arithmetic sets: UF 2, OF 4, NV 8. -/
abbrev FmtFlags := BitVec 5

/-- `RNE_F26` (R305). -/
def rneF26 (x : Num) : Num × FmtFlags :=
  match x with
  | .nan _ => (.nan false, 0)
  | .inf n => (.inf n, 0)
  | .fin neg sig exp =>
    if sig = 0 then (.fin neg 0 0, 0)
    else
      let q := exp + bitLength sig - 18
      let (m, _) := roundTo 0 neg sig exp (max q exp)
      let e := max q exp
      if 128 < e + bitLength m then (.inf neg, 4)
      else if e + bitLength m ≤ -126 then (.fin neg 0 0, 2)
      else (.fin neg m e, 0)

/-- The bits of an F26 value (R304). -/
def f26Bits (x : Num) : BitVec 26 :=
  let f : Fp := { ebits := 8, fbits := 17 }
  BitVec.ofNat 26 (f.pack 0 x).1

/-- A loaded F26 pattern (R304). -/
def f26Num (b : BitVec 26) : Num :=
  let f : Fp := { ebits := 8, fbits := 17 }
  match f.unpack b.toNat with
  | .nan _ => .nan false
  | .inf n => .inf n
  | .fin neg sig exp => if sig < 2 ^ 17 then .fin neg 0 0 else .fin neg sig exp

end Sys2Proof.Machine
end

