-- ==== Sys2Proof/Machine/Flags.lean ====
section
/-! DEFINITION. The floating-point side of `STATUS` (R24): the rounding mode in force (R73), the sticky flags and the trap
`FP_ENABLED` (R76, R77, R95). No other instruction computes a flag (R66). -/

namespace Sys2Proof.Machine

variable {s₀ : State}

/-- The rounding mode of an instruction: the RM field, or `STATUS.RM` for `.dyn` (R73, R94). -/
def roundingMode (t : Thread) (rm : Rm) : Nat :=
  match rm with
  | .dyn => t.rm
  | _ => rm.code

/-- `STATUS` with exceptions added to FLAGS (R76, R95). -/
def raiseFlags (status : BitVec 17) (e : Exc) : BitVec 17 := status ||| (e.zeroExtend 17 <<< 7)

/-- `FP_ENABLED` when a raised exception is enabled (R77). -/
def fpCheck (e : Exc) : Att s₀ Unit := do
  if e &&& BitVec.ofNat 5 (← self).enables ≠ 0 then stop (.trap Cause.fpEnabled (e.zeroExtend 64)) else pure ()

/-- The end of R95: the trap, the result, the flags. -/
def fpFinish (d : Operand) (v : Word) (e : Exc) : Att s₀ Next := do
  fpCheck e
  write d v
  modSelf fun t => { t with status := raiseFlags t.status e }
  return .seq

/-- The value of a source in a format (R69, R94). -/
def fpUse (f : Fmt) (o : Operand) : Att s₀ Nat := do
  return (← use o).toNat % 2 ^ (fpOf f).width

end Sys2Proof.Machine
end

