-- ==== Sys2Proof/Machine/Integer.lean ====
section
/-! DEFINITION. Integer instructions (R86 to R92): each is its operand uses in the order A, B, C, D around a function of 64-bit
values (R81). -/

namespace Sys2Proof.Machine

variable {s₀ : State}

/-! Functions of the member tables (R86, R87). -/

def aluShl (a b : Word) : Word := a <<< (b.toNat % 64)
def aluShr (a b : Word) : Word := a >>> (b.toNat % 64)
def aluSar (a b : Word) : Word := a.sshiftRight (b.toNat % 64)
def aluRot (a b : Word) : Word := a.rotateRight (b.toNat % 64)
def aluMin (a b : Word) : Word := if b.slt a then b else a
def aluMax (a b : Word) : Word := if a.slt b then b else a
def aluMinn (a b : Word) : Word := if b.ult a then b else a
def aluMaxn (a b : Word) : Word := if a.ult b then b else a
def aluBool (c : Bool) : Word := w64 c.toNat
def aluMulh (a b : Word) : Word := wInt (a.toInt * b.toInt / 2 ^ 64)
def aluMulhn (a b : Word) : Word := w64 (a.toNat * b.toNat / 2 ^ 64)

/-- Signed quotient (R67): -2^63 by -1 wraps to -2^63. -/
def aluDiv (a b : Word) : Word := if b = 0 then -1 else wInt (a.toInt.tdiv b.toInt)
def aluDivn (a b : Word) : Word := if b = 0 then -1 else w64 (a.toNat / b.toNat)
def aluRem (a b : Word) : Word := if b = 0 then a else wInt (a.toInt.tmod b.toInt)
def aluRemn (a b : Word) : Word := if b = 0 then a else w64 (a.toNat % b.toNat)

def aluClz (a : Word) : Word := w64 (64 - bitLength a.toNat)
def aluCtz (a : Word) : Word := w64 (((List.range 64).find? fun i => bit a i).getD 64)
def aluPopc (a : Word) : Word := w64 ((List.range 64).countP fun i => bit a i)

/-- The low `n` bytes in reverse order, zero-extended. -/
def aluBswap (n : Nat) (a : Word) : Word := w64 (ofBytes (toBytes n a.toNat).reverse)
def aluSext (n : Nat) (a : Word) : Word := wInt (signed n a.toNat)
def aluZext (n : Nat) (a : Word) : Word := w64 (a.toNat % 2 ^ n)

/-- The mask of a bitfield (R91). -/
def fieldMask (pos len : Nat) : Word := w64 ((2 ^ len - 1) * 2 ^ pos)

/-! Shapes (R79, R81). -/

/-- Two sources and a destination (R86). -/
def binary (f : Word → Word → Word) (d a b : Operand) : Att s₀ Next := do
  let x ← use a
  let y ← use b
  write d (f x y)
  return .seq

/-- One source and a destination (R87, R89 to R91). -/
def unary (f : Word → Word) (d a : Operand) : Att s₀ Next := do
  let x ← use a
  write d (f x)
  return .seq

/-- D gets A + B modulo 2^64. (R86) -/
def attAdd (d a b : Operand) : Att s₀ Next := binary (fun x y => x + y) d a b

/-- `add`: one attempt (R86). -/
def execAdd (d a b : Operand) (st : State) : Host.Outcome State Fault Refusal := issue (.add d a b) st (attAdd d a b)

/-- D gets A - B modulo 2^64. (R86) -/
def attSub (d a b : Operand) : Att s₀ Next := binary (fun x y => x - y) d a b

/-- `sub`: one attempt (R86). -/
def execSub (d a b : Operand) (st : State) : Host.Outcome State Fault Refusal := issue (.sub d a b) st (attSub d a b)

/-- D gets A and B. (R86) -/
def attAnd (d a b : Operand) : Att s₀ Next := binary (fun x y => x &&& y) d a b

/-- `and`: one attempt (R86). -/
def execAnd (d a b : Operand) (st : State) : Host.Outcome State Fault Refusal := issue (.and d a b) st (attAnd d a b)

/-- D gets A or B. (R86) -/
def attOr (d a b : Operand) : Att s₀ Next := binary (fun x y => x ||| y) d a b

/-- `or`: one attempt (R86). -/
def execOr (d a b : Operand) (st : State) : Host.Outcome State Fault Refusal := issue (.or d a b) st (attOr d a b)

/-- D gets A xor B. (R86) -/
def attXor (d a b : Operand) : Att s₀ Next := binary (fun x y => x ^^^ y) d a b

/-- `xor`: one attempt (R86). -/
def execXor (d a b : Operand) (st : State) : Host.Outcome State Fault Refusal := issue (.xor d a b) st (attXor d a b)

/-- D gets A and not B. (R86) -/
def attAndn (d a b : Operand) : Att s₀ Next := binary (fun x y => x &&& ~~~y) d a b

/-- `andn`: one attempt (R86). -/
def execAndn (d a b : Operand) (st : State) : Host.Outcome State Fault Refusal := issue (.andn d a b) st (attAndn d a b)

/-- Shift left by B mod 64. (R86) -/
def attShl (d a b : Operand) : Att s₀ Next := binary (aluShl) d a b

/-- `shl`: one attempt (R86). -/
def execShl (d a b : Operand) (st : State) : Host.Outcome State Fault Refusal := issue (.shl d a b) st (attShl d a b)

/-- Logical shift right. (R86) -/
def attShr (d a b : Operand) : Att s₀ Next := binary (aluShr) d a b

/-- `shr`: one attempt (R86). -/
def execShr (d a b : Operand) (st : State) : Host.Outcome State Fault Refusal := issue (.shr d a b) st (attShr d a b)

/-- Arithmetic shift right. (R86) -/
def attSar (d a b : Operand) : Att s₀ Next := binary (aluSar) d a b

/-- `sar`: one attempt (R86). -/
def execSar (d a b : Operand) (st : State) : Host.Outcome State Fault Refusal := issue (.sar d a b) st (attSar d a b)

/-- Rotate right. (R86) -/
def attRot (d a b : Operand) : Att s₀ Next := binary (aluRot) d a b

/-- `rot`: one attempt (R86). -/
def execRot (d a b : Operand) (st : State) : Host.Outcome State Fault Refusal := issue (.rot d a b) st (attRot d a b)

/-- Signed lesser. (R86) -/
def attMin (d a b : Operand) : Att s₀ Next := binary (aluMin) d a b

/-- `min`: one attempt (R86). -/
def execMin (d a b : Operand) (st : State) : Host.Outcome State Fault Refusal := issue (.min d a b) st (attMin d a b)

/-- Signed greater. (R86) -/
def attMax (d a b : Operand) : Att s₀ Next := binary (aluMax) d a b

/-- `max`: one attempt (R86). -/
def execMax (d a b : Operand) (st : State) : Host.Outcome State Fault Refusal := issue (.max d a b) st (attMax d a b)

/-- Unsigned lesser. (R86) -/
def attMinn (d a b : Operand) : Att s₀ Next := binary (aluMinn) d a b

/-- `minn`: one attempt (R86). -/
def execMinn (d a b : Operand) (st : State) : Host.Outcome State Fault Refusal := issue (.minn d a b) st (attMinn d a b)

/-- Unsigned greater. (R86) -/
def attMaxn (d a b : Operand) : Att s₀ Next := binary (aluMaxn) d a b

/-- `maxn`: one attempt (R86). -/
def execMaxn (d a b : Operand) (st : State) : Host.Outcome State Fault Refusal := issue (.maxn d a b) st (attMaxn d a b)

/-- Signed less than. (R86) -/
def attSlt (d a b : Operand) : Att s₀ Next := binary (fun x y => aluBool (x.slt y)) d a b

/-- `slt`: one attempt (R86). -/
def execSlt (d a b : Operand) (st : State) : Host.Outcome State Fault Refusal := issue (.slt d a b) st (attSlt d a b)

/-- Unsigned less than. (R86) -/
def attSltn (d a b : Operand) : Att s₀ Next := binary (fun x y => aluBool (x.ult y)) d a b

/-- `sltn`: one attempt (R86). -/
def execSltn (d a b : Operand) (st : State) : Host.Outcome State Fault Refusal := issue (.sltn d a b) st (attSltn d a b)

/-- Equality. (R86) -/
def attSeq (d a b : Operand) : Att s₀ Next := binary (fun x y => aluBool (x = y)) d a b

/-- `seq`: one attempt (R86). -/
def execSeq (d a b : Operand) (st : State) : Host.Outcome State Fault Refusal := issue (.seq d a b) st (attSeq d a b)

/-- Low half of the product. (R86) -/
def attMul (d a b : Operand) : Att s₀ Next := binary (fun x y => x * y) d a b

/-- `mul`: one attempt (R86). -/
def execMul (d a b : Operand) (st : State) : Host.Outcome State Fault Refusal := issue (.mul d a b) st (attMul d a b)

/-- Upper half of the signed product. (R86) -/
def attMulh (d a b : Operand) : Att s₀ Next := binary (aluMulh) d a b

/-- `mulh`: one attempt (R86). -/
def execMulh (d a b : Operand) (st : State) : Host.Outcome State Fault Refusal := issue (.mulh d a b) st (attMulh d a b)

/-- Upper half of the unsigned product. (R86) -/
def attMulhn (d a b : Operand) : Att s₀ Next := binary (aluMulhn) d a b

/-- `mulhn`: one attempt (R86). -/
def execMulhn (d a b : Operand) (st : State) : Host.Outcome State Fault Refusal := issue (.mulhn d a b) st (attMulhn d a b)

/-- Signed quotient. (R86, R67) -/
def attDiv (d a b : Operand) : Att s₀ Next := binary (aluDiv) d a b

/-- `div`: one attempt (R86, R67). -/
def execDiv (d a b : Operand) (st : State) : Host.Outcome State Fault Refusal := issue (.div d a b) st (attDiv d a b)

/-- Unsigned quotient. (R86, R67) -/
def attDivn (d a b : Operand) : Att s₀ Next := binary (aluDivn) d a b

/-- `divn`: one attempt (R86, R67). -/
def execDivn (d a b : Operand) (st : State) : Host.Outcome State Fault Refusal := issue (.divn d a b) st (attDivn d a b)

/-- Signed remainder. (R86, R67) -/
def attRem (d a b : Operand) : Att s₀ Next := binary (aluRem) d a b

/-- `rem`: one attempt (R86, R67). -/
def execRem (d a b : Operand) (st : State) : Host.Outcome State Fault Refusal := issue (.rem d a b) st (attRem d a b)

/-- Unsigned remainder. (R86, R67) -/
def attRemn (d a b : Operand) : Att s₀ Next := binary (aluRemn) d a b

/-- `remn`: one attempt (R86, R67). -/
def execRemn (d a b : Operand) (st : State) : Host.Outcome State Fault Refusal := issue (.remn d a b) st (attRemn d a b)

/-- Leading zero bits. (R87) -/
def attClz (d a : Operand) : Att s₀ Next := unary (aluClz) d a

/-- `clz`: one attempt (R87). -/
def execClz (d a : Operand) (st : State) : Host.Outcome State Fault Refusal := issue (.clz d a) st (attClz d a)

/-- Trailing zero bits. (R87) -/
def attCtz (d a : Operand) : Att s₀ Next := unary (aluCtz) d a

/-- `ctz`: one attempt (R87). -/
def execCtz (d a : Operand) (st : State) : Host.Outcome State Fault Refusal := issue (.ctz d a) st (attCtz d a)

/-- One bits. (R87) -/
def attPopc (d a : Operand) : Att s₀ Next := unary (aluPopc) d a

/-- `popc`: one attempt (R87). -/
def execPopc (d a : Operand) (st : State) : Host.Outcome State Fault Refusal := issue (.popc d a) st (attPopc d a)

/-- Two bytes reversed. (R87) -/
def attBswapH (d a : Operand) : Att s₀ Next := unary (aluBswap 2) d a

/-- `bswapH`: one attempt (R87). -/
def execBswapH (d a : Operand) (st : State) : Host.Outcome State Fault Refusal := issue (.bswapH d a) st (attBswapH d a)

/-- Four bytes reversed. (R87) -/
def attBswapS (d a : Operand) : Att s₀ Next := unary (aluBswap 4) d a

/-- `bswapS`: one attempt (R87). -/
def execBswapS (d a : Operand) (st : State) : Host.Outcome State Fault Refusal := issue (.bswapS d a) st (attBswapS d a)

/-- Eight bytes reversed. (R87) -/
def attBswapW (d a : Operand) : Att s₀ Next := unary (aluBswap 8) d a

/-- `bswapW`: one attempt (R87). -/
def execBswapW (d a : Operand) (st : State) : Host.Outcome State Fault Refusal := issue (.bswapW d a) st (attBswapW d a)

/-- Sign-extends 8 bits. (R87) -/
def attSextB (d a : Operand) : Att s₀ Next := unary (aluSext 8) d a

/-- `sextB`: one attempt (R87). -/
def execSextB (d a : Operand) (st : State) : Host.Outcome State Fault Refusal := issue (.sextB d a) st (attSextB d a)

/-- Sign-extends 16 bits. (R87) -/
def attSextH (d a : Operand) : Att s₀ Next := unary (aluSext 16) d a

/-- `sextH`: one attempt (R87). -/
def execSextH (d a : Operand) (st : State) : Host.Outcome State Fault Refusal := issue (.sextH d a) st (attSextH d a)

/-- Sign-extends 32 bits. (R87) -/
def attSextS (d a : Operand) : Att s₀ Next := unary (aluSext 32) d a

/-- `sextS`: one attempt (R87). -/
def execSextS (d a : Operand) (st : State) : Host.Outcome State Fault Refusal := issue (.sextS d a) st (attSextS d a)

/-- Zero-extends 8 bits. (R87) -/
def attZextB (d a : Operand) : Att s₀ Next := unary (aluZext 8) d a

/-- `zextB`: one attempt (R87). -/
def execZextB (d a : Operand) (st : State) : Host.Outcome State Fault Refusal := issue (.zextB d a) st (attZextB d a)

/-- Zero-extends 16 bits. (R87) -/
def attZextH (d a : Operand) : Att s₀ Next := unary (aluZext 16) d a

/-- `zextH`: one attempt (R87). -/
def execZextH (d a : Operand) (st : State) : Host.Outcome State Fault Refusal := issue (.zextH d a) st (attZextH d a)

/-- Zero-extends 32 bits. (R87) -/
def attZextS (d a : Operand) : Att s₀ Next := unary (aluZext 32) d a

/-- `zextS`: one attempt (R87). -/
def execZextS (d a : Operand) (st : State) : Host.Outcome State Fault Refusal := issue (.zextS d a) st (attZextS d a)

/-- Selection: A and B are used whatever C is. (R88) -/
def attSel (d a b c : Operand) : Att s₀ Next := do
  let x ← use a
  let y ← use b
  let z ← use c
  write d (if z ≠ 0 then x else y)
  return .seq

/-- `sel`: one attempt (R88). -/
def execSel (d a b c : Operand) (st : State) : Host.Outcome State Fault Refusal := issue (.sel d a b c) st (attSel d a b c)

/-- Adds the signed immediate. (R89) -/
def attAddi (d a : Operand) (imm : BitVec 16) : Att s₀ Next := unary (fun x => x + imm.signExtend 64) d a

/-- `addi`: one attempt (R89). -/
def execAddi (d a : Operand) (imm : BitVec 16) (st : State) : Host.Outcome State Fault Refusal := issue (.addi d a imm) st (attAddi d a imm)

/-- And with the unsigned immediate. (R89) -/
def attAndi (d a : Operand) (imm : BitVec 16) : Att s₀ Next := unary (fun x => x &&& imm.zeroExtend 64) d a

/-- `andi`: one attempt (R89). -/
def execAndi (d a : Operand) (imm : BitVec 16) (st : State) : Host.Outcome State Fault Refusal := issue (.andi d a imm) st (attAndi d a imm)

/-- Or with the unsigned immediate. (R89) -/
def attOri (d a : Operand) (imm : BitVec 16) : Att s₀ Next := unary (fun x => x ||| imm.zeroExtend 64) d a

/-- `ori`: one attempt (R89). -/
def execOri (d a : Operand) (imm : BitVec 16) (st : State) : Host.Outcome State Fault Refusal := issue (.ori d a imm) st (attOri d a imm)

/-- Exclusive or with the unsigned immediate. (R89) -/
def attXori (d a : Operand) (imm : BitVec 16) : Att s₀ Next := unary (fun x => x ^^^ imm.zeroExtend 64) d a

/-- `xori`: one attempt (R89). -/
def execXori (d a : Operand) (imm : BitVec 16) (st : State) : Host.Outcome State Fault Refusal := issue (.xori d a imm) st (attXori d a imm)

/-- Less than the signed immediate. (R89) -/
def attSlti (d a : Operand) (imm : BitVec 16) : Att s₀ Next := unary (fun x => aluBool (x.slt (imm.signExtend 64))) d a

/-- `slti`: one attempt (R89). -/
def execSlti (d a : Operand) (imm : BitVec 16) (st : State) : Host.Outcome State Fault Refusal := issue (.slti d a imm) st (attSlti d a imm)

/-- Shift left by n. (R90) -/
def attShli (d a : Operand) (n : BitVec 6) : Att s₀ Next := unary (fun x => aluShl x (n.zeroExtend 64)) d a

/-- `shli`: one attempt (R90). -/
def execShli (d a : Operand) (n : BitVec 6) (st : State) : Host.Outcome State Fault Refusal := issue (.shli d a n) st (attShli d a n)

/-- Logical shift right by n. (R90) -/
def attShri (d a : Operand) (n : BitVec 6) : Att s₀ Next := unary (fun x => aluShr x (n.zeroExtend 64)) d a

/-- `shri`: one attempt (R90). -/
def execShri (d a : Operand) (n : BitVec 6) (st : State) : Host.Outcome State Fault Refusal := issue (.shri d a n) st (attShri d a n)

/-- Arithmetic shift right by n. (R90) -/
def attSari (d a : Operand) (n : BitVec 6) : Att s₀ Next := unary (fun x => aluSar x (n.zeroExtend 64)) d a

/-- `sari`: one attempt (R90). -/
def execSari (d a : Operand) (n : BitVec 6) (st : State) : Host.Outcome State Fault Refusal := issue (.sari d a n) st (attSari d a n)

/-- Rotate right by n. (R90) -/
def attRoti (d a : Operand) (n : BitVec 6) : Att s₀ Next := unary (fun x => aluRot x (n.zeroExtend 64)) d a

/-- `roti`: one attempt (R90). -/
def execRoti (d a : Operand) (n : BitVec 6) (st : State) : Host.Outcome State Fault Refusal := issue (.roti d a n) st (attRoti d a n)

/-- Extracts a field, zero-extended. (R91) -/
def attBfx (d a : Operand) (pos len1 : BitVec 6) : Att s₀ Next := unary (fun x => aluZext (len1.toNat + 1) (x >>> pos.toNat)) d a

/-- `bfx`: one attempt (R91). -/
def execBfx (d a : Operand) (pos len1 : BitVec 6) (st : State) : Host.Outcome State Fault Refusal := issue (.bfx d a pos len1) st (attBfx d a pos len1)

/-- Extracts a field, sign-extended. (R91) -/
def attBfxs (d a : Operand) (pos len1 : BitVec 6) : Att s₀ Next := unary (fun x => aluSext (len1.toNat + 1) (x >>> pos.toNat)) d a

/-- `bfxs`: one attempt (R91). -/
def execBfxs (d a : Operand) (pos len1 : BitVec 6) (st : State) : Host.Outcome State Fault Refusal := issue (.bfxs d a pos len1) st (attBfxs d a pos len1)

/-- Inserts A into a field of D, which is read after A. (R91) -/
def attBfi (d a : Operand) (pos len1 : BitVec 6) : Att s₀ Next := do
  let x ← use a
  let old ← readReg d
  let mask := fieldMask pos.toNat (len1.toNat + 1)
  write d ((old &&& ~~~mask) ||| ((x <<< pos.toNat) &&& mask))
  return .seq

/-- `bfi`: one attempt (R91). -/
def execBfi (d a : Operand) (pos len1 : BitVec 6) (st : State) : Host.Outcome State Fault Refusal := issue (.bfi d a pos len1) st (attBfi d a pos len1)

/-- D gets the sign-extended immediate. (R92) -/
def attLi (d : Operand) (imm : BitVec 21) : Att s₀ Next := do
  write d (imm.signExtend 64)
  return .seq

/-- `li`: one attempt (R92). -/
def execLi (d : Operand) (imm : BitVec 21) (st : State) : Host.Outcome State Fault Refusal := issue (.li d imm) st (attLi d imm)

/-- D shifted left by 21, with the immediate. (R92) -/
def attLhi (d : Operand) (imm : BitVec 21) : Att s₀ Next := do
  let old ← readReg d
  write d ((old <<< 21) ||| imm.zeroExtend 64)
  return .seq

/-- `lhi`: one attempt (R92). -/
def execLhi (d : Operand) (imm : BitVec 21) (st : State) : Host.Outcome State Fault Refusal := issue (.lhi d imm) st (attLhi d imm)

end Sys2Proof.Machine
end

