-- ==== Sys2Proof/Machine/FloatingPoint.lean ====
section
/-! DEFINITION. Floating-point instructions (R94 to R104): the sources in the order A, B, C, the operation, the trap of R77, the
result, the flags (R95). -/

namespace Sys2Proof.Machine

variable {s₀ : State}

/-- A result of a format as a register value: the bits above the format are clear (R69). -/
def fpWord (x : FpRes) : Word × Exc := (w64 x.1, x.2)

/-- Two sources in one format (R96 to R99). -/
def fpBinary (f : Fmt) (op : Nat → Nat → Nat → FpRes) (rm : Rm) (d a b : Operand) : Att s₀ Next := do
  let x ← fpUse f a
  let y ← fpUse f b
  let (v, e) := fpWord (op (roundingMode (← self) rm) x y)
  fpFinish d v e

/-- One source (R100 to R102). -/
def fpUnary (f : Fmt) (op : Nat → Nat → FpRes) (rm : Rm) (d a : Operand) : Att s₀ Next := do
  let x ← fpUse f a
  let (v, e) := fpWord (op (roundingMode (← self) rm) x)
  fpFinish d v e

/-- Three sources (R103). -/
def fpFused (f : Fmt) (negate : Bool) (rm : Rm) (d a b c : Operand) : Att s₀ Next := do
  let x ← fpUse f a
  let y ← fpUse f b
  let z ← fpUse f c
  let (v, e) := fpWord ((fpOf f).fma (roundingMode (← self) rm) negate x y z)
  fpFinish d v e

/-- Sum. (R96) -/
def attFadd (d a b : Operand) (f : Fmt) (rm : Rm) : Att s₀ Next := fpBinary f (fpOf f).add rm d a b

/-- `fadd`: one attempt (R96). -/
def execFadd (d a b : Operand) (f : Fmt) (rm : Rm) (st : State) : Host.Outcome State Fault Refusal := issue (.fadd d a b f rm) st (attFadd d a b f rm)

/-- Difference. (R96) -/
def attFsub (d a b : Operand) (f : Fmt) (rm : Rm) : Att s₀ Next := fpBinary f (fpOf f).sub rm d a b

/-- `fsub`: one attempt (R96). -/
def execFsub (d a b : Operand) (f : Fmt) (rm : Rm) (st : State) : Host.Outcome State Fault Refusal := issue (.fsub d a b f rm) st (attFsub d a b f rm)

/-- Product. (R96) -/
def attFmul (d a b : Operand) (f : Fmt) (rm : Rm) : Att s₀ Next := fpBinary f (fpOf f).mul rm d a b

/-- `fmul`: one attempt (R96). -/
def execFmul (d a b : Operand) (f : Fmt) (rm : Rm) (st : State) : Host.Outcome State Fault Refusal := issue (.fmul d a b f rm) st (attFmul d a b f rm)

/-- Quotient. (R96) -/
def attFdiv (d a b : Operand) (f : Fmt) (rm : Rm) : Att s₀ Next := fpBinary f (fpOf f).div rm d a b

/-- `fdiv`: one attempt (R96). -/
def execFdiv (d a b : Operand) (f : Fmt) (rm : Rm) (st : State) : Host.Outcome State Fault Refusal := issue (.fdiv d a b f rm) st (attFdiv d a b f rm)

/-- Lesser operand. (R97) -/
def attFmin (d a b : Operand) (f : Fmt) : Att s₀ Next := fpBinary f (fun _ x y => (fpOf f).minmax false x y) .rne d a b

/-- `fmin`: one attempt (R97). -/
def execFmin (d a b : Operand) (f : Fmt) (st : State) : Host.Outcome State Fault Refusal := issue (.fmin d a b f) st (attFmin d a b f)

/-- Greater operand. (R97) -/
def attFmax (d a b : Operand) (f : Fmt) : Att s₀ Next := fpBinary f (fun _ x y => (fpOf f).minmax true x y) .rne d a b

/-- `fmax`: one attempt (R97). -/
def execFmax (d a b : Operand) (f : Fmt) (st : State) : Host.Outcome State Fault Refusal := issue (.fmax d a b f) st (attFmax d a b f)

/-- Quiet equality. (R98) -/
def attFeq (d a b : Operand) (f : Fmt) : Att s₀ Next := fpBinary f (fun _ x y => (fpOf f).compare false (fun o => o = .eq) x y) .rne d a b

/-- `feq`: one attempt (R98). -/
def execFeq (d a b : Operand) (f : Fmt) (st : State) : Host.Outcome State Fault Refusal := issue (.feq d a b f) st (attFeq d a b f)

/-- Signalling less than. (R98) -/
def attFlt (d a b : Operand) (f : Fmt) : Att s₀ Next := fpBinary f (fun _ x y => (fpOf f).compare true (fun o => o = .lt) x y) .rne d a b

/-- `flt`: one attempt (R98). -/
def execFlt (d a b : Operand) (f : Fmt) (st : State) : Host.Outcome State Fault Refusal := issue (.flt d a b f) st (attFlt d a b f)

/-- Signalling less than or equal. (R98) -/
def attFle (d a b : Operand) (f : Fmt) : Att s₀ Next := fpBinary f (fun _ x y => (fpOf f).compare true (fun o => o ≠ .gt) x y) .rne d a b

/-- `fle`: one attempt (R98). -/
def execFle (d a b : Operand) (f : Fmt) (st : State) : Host.Outcome State Fault Refusal := issue (.fle d a b f) st (attFle d a b f)

/-- A with the sign of B. (R99) -/
def attFsgn (d a b : Operand) (f : Fmt) : Att s₀ Next := fpBinary f (fun _ x y => (fpOf f).copySign x y) .rne d a b

/-- `fsgn`: one attempt (R99). -/
def execFsgn (d a b : Operand) (f : Fmt) (st : State) : Host.Outcome State Fault Refusal := issue (.fsgn d a b f) st (attFsgn d a b f)

/-- Square root. (R100) -/
def attFsqrt (d a : Operand) (f : Fmt) (rm : Rm) : Att s₀ Next := fpUnary f (fpOf f).sqrt rm d a

/-- `fsqrt`: one attempt (R100). -/
def execFsqrt (d a : Operand) (f : Fmt) (rm : Rm) (st : State) : Host.Outcome State Fault Refusal := issue (.fsqrt d a f rm) st (attFsqrt d a f rm)

/-- Class mask. (R101) -/
def attFclass (d a : Operand) (f : Fmt) : Att s₀ Next := fpUnary f (fun _ x => ((fpOf f).classify x, Exc.none)) .rne d a

/-- `fclass`: one attempt (R101). -/
def execFclass (d a : Operand) (f : Fmt) (st : State) : Host.Outcome State Fault Refusal := issue (.fclass d a f) st (attFclass d a f)

/-- Nearest integral value. (R102) -/
def attFround (d a : Operand) (f : Fmt) (rm : Rm) : Att s₀ Next := fpUnary f (fpOf f).roundIntegral rm d a

/-- `fround`: one attempt (R102). -/
def execFround (d a : Operand) (f : Fmt) (rm : Rm) (st : State) : Host.Outcome State Fault Refusal := issue (.fround d a f rm) st (attFround d a f rm)

/-- x * y + c rounded once. (R103) -/
def attFma (d a b c : Operand) (f : Fmt) (rm : Rm) : Att s₀ Next := fpFused f false rm d a b c

/-- `fma`: one attempt (R103). -/
def execFma (d a b c : Operand) (f : Fmt) (rm : Rm) (st : State) : Host.Outcome State Fault Refusal := issue (.fma d a b c f rm) st (attFma d a b c f rm)

/-- -(x * y) + c rounded once. (R103) -/
def attFnma (d a b c : Operand) (f : Fmt) (rm : Rm) : Att s₀ Next := fpFused f true rm d a b c

/-- `fnma`: one attempt (R103). -/
def execFnma (d a b c : Operand) (f : Fmt) (rm : Rm) (st : State) : Host.Outcome State Fault Refusal := issue (.fnma d a b c f rm) st (attFnma d a b c f rm)

/-- Converts between types. (R104, R78) -/
def attFcvt (d a : Operand) (dt src : CvtTy) (rm : Rm) : Att s₀ Next := do
  let x ← use a
  let (v, e) := convert dt src (roundingMode (← self) rm) x
  fpFinish d v e

/-- `fcvt`: one attempt (R104, R78). -/
def execFcvt (d a : Operand) (dt src : CvtTy) (rm : Rm) (st : State) : Host.Outcome State Fault Refusal := issue (.fcvt d a dt src rm) st (attFcvt d a dt src rm)

end Sys2Proof.Machine
end

