-- ==== Sys2Proof/Machine/Memory.lean ====
section
/-! DEFINITION. Loads, stores, prefetch, pointers, segments and the port counter (R119 to R124, R173, R249). -/

namespace Sys2Proof.Machine

variable {s₀ : State}

/-- The offset `a`K plus a displacement, as an exact integer (R109, R119). -/
def offsetOf (k : Fin 8) (disp : BitVec 15) : Att s₀ Int := do
  return (((← self).a.get k).toNat : Int) + disp.toInt

/-- Advances the pointer when MOD is 1. -/
def advanceIf (mod : Bool) (k : Fin 8) : Att s₀ Unit := if mod then advance k else pure ()

/-- A load of R119 with its extension. -/
def loadForm (sx : Bool) (d : Operand) (k : Fin 8) (sz : Size) (mod : Bool) (disp : BitVec 15) : Att s₀ Next := do
  let n := sizeBytes sz
  let ga ← seg k (← offsetOf k disp) n .r
  let v ← load ga n
  advanceIf mod k
  write d (extend sx n v)
  return .seq

/-- Sign-extended load. (R119) -/
def attLd (d : Operand) (k : Fin 8) (sz : Size) (mod : Bool) (disp : BitVec 15) : Att s₀ Next := loadForm true d k sz mod disp

/-- `ld`: one attempt (R119). -/
def execLd (d : Operand) (k : Fin 8) (sz : Size) (mod : Bool) (disp : BitVec 15) (st : State) : Host.Outcome State Fault Refusal := issue (.ld d k sz mod disp) st (attLd d k sz mod disp)

/-- Zero-extended load. (R119) -/
def attLdn (d : Operand) (k : Fin 8) (sz : Size) (mod : Bool) (disp : BitVec 15) : Att s₀ Next := loadForm false d k sz mod disp

/-- `ldn`: one attempt (R119). -/
def execLdn (d : Operand) (k : Fin 8) (sz : Size) (mod : Bool) (disp : BitVec 15) (st : State) : Host.Outcome State Fault Refusal := issue (.ldn d k sz mod disp) st (attLdn d k sz mod disp)

/-- The A use of a store to the own module's shared space ends with its translation, before a D use that may trap or park
(R136). -/
def addressFirst (ga : Word) (d : Operand) : Att s₀ Unit :=
  match d with
  | .mem _ | .port _ => do let _ ← translated ga
  | _ => pure ()

/-- Store of the low bytes of the D operand. (R120, R121) -/
def attSt (d : Operand) (k : Fin 8) (sz : Size) (mod : Bool) (disp : BitVec 15) : Att s₀ Next := do
  let n := sizeBytes sz
  let ga ← seg k (← offsetOf k disp) n .w
  windowCheck ga n .store
  addressFirst ga d
  advanceIf mod k
  let v ← use d
  store ga n v
  return .seq

/-- `st`: one attempt (R120, R121). -/
def execSt (d : Operand) (k : Fin 8) (sz : Size) (mod : Bool) (disp : BitVec 15) (st : State) : Host.Outcome State Fault Refusal := issue (.st d k sz mod disp) st (attSt d k sz mod disp)

/-- Prefetch: it sends at most a request, and never traps, parks or waits. (R122) -/
def attPf (hint : Hint) (k : Fin 8) (mod : Bool) (disp : BitVec 15) : Att s₀ Next := do
  let off ← offsetOf k disp
  match segCheck ((← self).seg.get k) off 1 .r with
  | .error _ => pure ()
  | .ok ga =>
    if isShared ga && (← here).exists_ ga then
      let r ← request (.prefetch (hint = .nt)) ga false 0 0 true
      hw do
        let id ← freshId
        emit (.req id (some r))
    else pure ()
  advanceIf mod k
  return .seq

/-- `pf`: one attempt (R122). -/
def execPf (hint : Hint) (k : Fin 8) (mod : Bool) (disp : BitVec 15) (st : State) : Host.Outcome State Fault Refusal := issue (.pf hint k mod disp) st (attPf hint k mod disp)

/-- Sets a pointer. (R123) -/
def attSetp (k : Fin 8) (a : Operand) : Att s₀ Next := do
  let v ← use a
  modSelf fun t => { t with a := vset t.a k v }
  return .seq

/-- `setp`: one attempt (R123). -/
def execSetp (k : Fin 8) (a : Operand) (st : State) : Host.Outcome State Fault Refusal := issue (.setp k a) st (attSetp k a)

/-- Reads a pointer before the D use. (R123) -/
def attGetp (d : Operand) (k : Fin 8) : Att s₀ Next := do
  let v := (← self).a.get k
  write d v
  return .seq

/-- `getp`: one attempt (R123). -/
def execGetp (d : Operand) (k : Fin 8) (st : State) : Host.Outcome State Fault Refusal := issue (.getp d k) st (attGetp d k)

/-- Sets a mode register. (R123) -/
def attSetm (k : Fin 8) (a : Operand) : Att s₀ Next := do
  let v ← use a
  modSelf fun t => { t with m := vset t.m k (v.truncate 20) }
  return .seq

/-- `setm`: one attempt (R123). -/
def execSetm (k : Fin 8) (a : Operand) (st : State) : Host.Outcome State Fault Refusal := issue (.setm k a) st (attSetm k a)

/-- Reads a segment descriptor. (R123) -/
def attSegq (d : Operand) (k : Fin 8) (second : Bool) : Att s₀ Next := do
  let x := (← self).seg.get k
  write d (if second then x.word.zeroExtend 64 else x.base)
  return .seq

/-- `segq`: one attempt (R123). -/
def execSegq (d : Operand) (k : Fin 8) (second : Bool) (st : State) : Host.Outcome State Fault Refusal := issue (.segq d k second) st (attSegq d k second)

/-- Loads a segment descriptor after its checks. (R249) -/
def attSegld (k : Fin 8) (a b : Operand) : Att s₀ Next := do
  let base ← use a
  let w ← use b
  if field w 47 17 ≠ 0 ∨ 2 ≤ field w 45 2 ∨ (field w 45 2 = 1 ∧ (bit base 63 ∨ base.toNat % 8 ≠ 0)) then illegalOperand
  else
    modSelf fun t => { t with seg := vset t.seg k { base := base, word := w.truncate 47 } }
    return .seq

/-- `segld`: one attempt (R249). -/
def execSegld (k : Fin 8) (a b : Operand) (st : State) : Host.Outcome State Fault Refusal := issue (.segld k a b) st (attSegld k a b)

/-- Queue entries and credits of a port; both 0 where it has no peer. (R173) -/
def attNpcount (d a : Operand) : Att s₀ Next := do
  let c ← get
  match a with
  | .port p => do
    let t ← self
    let v := if (peer c.core c.slot p).isNone then 0 else 2 ^ 8 * t.credits.get p.index + (t.queues.get p.index).length
    write d (w64 v)
    return .seq
  | _ => illegalOperand

/-- `npcount`: one attempt (R173). -/
def execNpcount (d a : Operand) (st : State) : Host.Outcome State Fault Refusal := issue (.npcount d a) st (attNpcount d a)

end Sys2Proof.Machine
end

