-- ==== Sys2Proof/Machine/Sync.lean ====
section
/-! DEFINITION. Synchronisation (R178 to R201): full-empty operations, atomics, reservations, fences (R284 to R286), barriers
and group identifiers. -/

namespace Sys2Proof.Machine

variable {s₀ : State}

/-- An operation of a thread at a home, with the sum of R190. -/
def perform (L : Nat) (k : Fin 16) (op : HomeOp) (ga : Word) (tg : Target) (spoiled : Bool := false) : Act s₀ Answer :=
  performWith faddAtomic L k op ga tg spoiled

/-- The address of a synchronising operation at `a`K with a displacement (R180, R181). -/
def syncAddr (k : Fin 8) (disp : BitVec 15) (n : Nat) : Att s₀ Word := do
  seg k (← offsetOf k disp) n .s

/-- A full-empty load (R180). -/
def feLoad (op : HomeOp) (d : Operand) (k : Fin 8) (mod : Bool) (disp : BitVec 15) : Att s₀ Next := do
  let ga ← syncAddr k disp 8
  let v ← awaited faddAtomic op ga (some .full)
  advanceIf mod k
  writeReg d v
  return .seq

/-- An atomic of R189: awaited when it has a destination or lies in the own local store, else retired (R183). -/
def atomic (fn : Nat) (d b : Operand) (k : Fin 8) : Att s₀ Next := do
  let n := (HomeOp.amo fn 0).size
  let ga ← syncAddr k 0 n
  let v ← readReg b
  match d with
  | .z => retire faddAtomic (.amo fn v) ga n
  | _ => do
    let old ← awaited faddAtomic (.amo fn v) ga none
    writeReg d old
  return .seq

/-- The leaf of a shared address of the issuing module as a cluster port finds it, without changing a buffer. -/
def State.probe (s : State) (L : Nat) (asid : BitVec 16) (ga : Word) : Option Leaf :=
  let m := moduleOf L
  let va := gaVa ga
  let own := ((look (s.module m).clusterTlbs (s.clusterAt L)).getD []).find? fun e => e.covers asid va
  let last := ((s.module m).die (s.dieAt L)).tlb.find? fun e => e.covers asid va
  match own, last, s.walk m asid va with
  | some e, _, _ => some e.leaf
  | none, some e, _ => some e.leaf
  | none, none, .ok l => some l
  | none, none, .error _ => none

/-- The REP check of a word of the own module before its instruction waits or sends anything (R181, R218, R286). -/
def flagRepCheck (ga : Word) : Att s₀ Unit := do
  let c ← get
  let s ← here
  if isShared ga && gaModule ga = moduleOf c.core then
    match s.probe c.core (← self).asid ga with
    | some l => if bit l.attrs 6 then stop (.trap Cause.protection ga) else pure ()
    | none => pure ()
  else pure ()

/-- The waits of a fence (R285). -/
def fenceWaits (kind : FenceKind) (scope : Scope) : Att s₀ Unit :=
  if kind ≠ .acq ∧ scope ≠ .thread then release scope else pure ()

/-- Takes a full word, leaving it empty. (R180) -/
def attLdfe (d : Operand) (k : Fin 8) (mod : Bool) (disp : BitVec 15) : Att s₀ Next := feLoad .ldfe d k mod disp

/-- `ldfe`: one attempt (R180). -/
def execLdfe (d : Operand) (k : Fin 8) (mod : Bool) (disp : BitVec 15) (st : State) : Host.Outcome State Fault Refusal := issue (.ldfe d k mod disp) st (attLdfe d k mod disp)

/-- Reads a full word. (R180) -/
def attLdff (d : Operand) (k : Fin 8) (mod : Bool) (disp : BitVec 15) : Att s₀ Next := feLoad .ldff d k mod disp

/-- `ldff`: one attempt (R180). -/
def execLdff (d : Operand) (k : Fin 8) (mod : Bool) (disp : BitVec 15) (st : State) : Host.Outcome State Fault Refusal := issue (.ldff d k mod disp) st (attLdff d k mod disp)

/-- Fills an empty word. (R180) -/
def attStef (d : Operand) (k : Fin 8) (mod : Bool) (disp : BitVec 15) : Att s₀ Next := do
  let ga ← syncAddr k disp 8
  let v ← readReg d
  let _ ← awaited faddAtomic (.stef v) ga (some .empty)
  advanceIf mod k
  return .seq

/-- `stef`: one attempt (R180). -/
def execStef (d : Operand) (k : Fin 8) (mod : Bool) (disp : BitVec 15) (st : State) : Host.Outcome State Fault Refusal := issue (.stef d k mod disp) st (attStef d k mod disp)

/-- Writes a word and sets it full. (R180, R183) -/
def attStsf (d : Operand) (k : Fin 8) (mod : Bool) (disp : BitVec 15) : Att s₀ Next := do
  let ga ← syncAddr k disp 8
  let v ← readReg d
  retire faddAtomic (.stsf v) ga 8
  advanceIf mod k
  return .seq

/-- `stsf`: one attempt (R180, R183). -/
def execStsf (d : Operand) (k : Fin 8) (mod : Bool) (disp : BitVec 15) (st : State) : Host.Outcome State Fault Refusal := issue (.stsf d k mod disp) st (attStsf d k mod disp)

/-- Sets a word empty. (R182, R183) -/
def attFempty (k : Fin 8) : Att s₀ Next := do
  let ga ← syncAddr k 0 8
  retire faddAtomic .fempty ga 8
  return .seq

/-- `fempty`: one attempt (R182, R183). -/
def execFempty (k : Fin 8) (st : State) : Host.Outcome State Fault Refusal := issue (.fempty k) st (attFempty k)

/-- Reads the full-empty bit. (R182) -/
def attFstate (d : Operand) (k : Fin 8) : Att s₀ Next := do
  let ga ← syncAddr k 0 8
  let v ← awaited faddAtomic .fstate ga none
  writeReg d v
  return .seq

/-- `fstate`: one attempt (R182). -/
def execFstate (d : Operand) (k : Fin 8) (st : State) : Host.Outcome State Fault Refusal := issue (.fstate d k) st (attFstate d k)

/-- Load and reserve. (R192) -/
def attLr (d : Operand) (k : Fin 8) : Att s₀ Next := do
  let ga ← syncAddr k 0 8
  let v ← awaited faddAtomic .lr ga none
  writeReg d v
  return .seq

/-- `lr`: one attempt (R192). -/
def execLr (d : Operand) (k : Fin 8) (st : State) : Host.Outcome State Fault Refusal := issue (.lr d k) st (attLr d k)

/-- Store if the reservation is held. (R192) -/
def attSc (d b : Operand) (k : Fin 8) : Att s₀ Next := do
  let ga ← syncAddr k 0 8
  let v ← readReg b
  let ok ← awaited faddAtomic (.sc v) ga none
  writeReg d ok
  return .seq

/-- `sc`: one attempt (R192). -/
def execSc (d b : Operand) (k : Fin 8) (st : State) : Host.Outcome State Fault Refusal := issue (.sc d b k) st (attSc d b k)

/-- Compare and swap. (R191) -/
def attCas (d b : Operand) (k : Fin 8) : Att s₀ Next := do
  let ga ← syncAddr k 0 8
  let c ← readReg d
  let v ← readReg b
  let old ← awaited faddAtomic (.cas c v) ga none
  writeReg d old
  return .seq

/-- `cas`: one attempt (R191). -/
def execCas (d b : Operand) (k : Fin 8) (st : State) : Host.Outcome State Fault Refusal := issue (.cas d b k) st (attCas d b k)

/-- Waits for the reservation to be cleared. (R194) -/
def attWaitrs : Att s₀ Next := do
  let c ← get
  if (← here).holds c.core c.slot then
    match (← self).reservation with
    | some (ga, _) => do let _ ← awaited faddAtomic .waitrs ga (some .reservation); return .seq
    | none => return .seq
  else return .seq

/-- `waitrs`: one attempt (R194). -/
def execWaitrs (st : State) : Host.Outcome State Fault Refusal := issue .waitrs st attWaitrs

/-- Adds. (R189) -/
def attAmoAdd (d b : Operand) (k : Fin 8) : Att s₀ Next := atomic 0 d b k

/-- `amoAdd`: one attempt (R189). -/
def execAmoAdd (d b : Operand) (k : Fin 8) (st : State) : Host.Outcome State Fault Refusal := issue (.amoAdd d b k) st (attAmoAdd d b k)

/-- Ands. (R189) -/
def attAmoAnd (d b : Operand) (k : Fin 8) : Att s₀ Next := atomic 1 d b k

/-- `amoAnd`: one attempt (R189). -/
def execAmoAnd (d b : Operand) (k : Fin 8) (st : State) : Host.Outcome State Fault Refusal := issue (.amoAnd d b k) st (attAmoAnd d b k)

/-- Ors. (R189) -/
def attAmoOr (d b : Operand) (k : Fin 8) : Att s₀ Next := atomic 2 d b k

/-- `amoOr`: one attempt (R189). -/
def execAmoOr (d b : Operand) (k : Fin 8) (st : State) : Host.Outcome State Fault Refusal := issue (.amoOr d b k) st (attAmoOr d b k)

/-- Exclusive-ors. (R189) -/
def attAmoXor (d b : Operand) (k : Fin 8) : Att s₀ Next := atomic 3 d b k

/-- `amoXor`: one attempt (R189). -/
def execAmoXor (d b : Operand) (k : Fin 8) (st : State) : Host.Outcome State Fault Refusal := issue (.amoXor d b k) st (attAmoXor d b k)

/-- Signed lesser. (R189) -/
def attAmoMin (d b : Operand) (k : Fin 8) : Att s₀ Next := atomic 4 d b k

/-- `amoMin`: one attempt (R189). -/
def execAmoMin (d b : Operand) (k : Fin 8) (st : State) : Host.Outcome State Fault Refusal := issue (.amoMin d b k) st (attAmoMin d b k)

/-- Signed greater. (R189) -/
def attAmoMax (d b : Operand) (k : Fin 8) : Att s₀ Next := atomic 5 d b k

/-- `amoMax`: one attempt (R189). -/
def execAmoMax (d b : Operand) (k : Fin 8) (st : State) : Host.Outcome State Fault Refusal := issue (.amoMax d b k) st (attAmoMax d b k)

/-- Unsigned lesser. (R189) -/
def attAmoMinn (d b : Operand) (k : Fin 8) : Att s₀ Next := atomic 6 d b k

/-- `amoMinn`: one attempt (R189). -/
def execAmoMinn (d b : Operand) (k : Fin 8) (st : State) : Host.Outcome State Fault Refusal := issue (.amoMinn d b k) st (attAmoMinn d b k)

/-- Unsigned greater. (R189) -/
def attAmoMaxn (d b : Operand) (k : Fin 8) : Att s₀ Next := atomic 7 d b k

/-- `amoMaxn`: one attempt (R189). -/
def execAmoMaxn (d b : Operand) (k : Fin 8) (st : State) : Host.Outcome State Fault Refusal := issue (.amoMaxn d b k) st (attAmoMaxn d b k)

/-- Replaces. (R189) -/
def attAmoSwap (d b : Operand) (k : Fin 8) : Att s₀ Next := atomic 8 d b k

/-- `amoSwap`: one attempt (R189). -/
def execAmoSwap (d b : Operand) (k : Fin 8) (st : State) : Host.Outcome State Fault Refusal := issue (.amoSwap d b k) st (attAmoSwap d b k)

/-- Adds FP32. (R190) -/
def attAmoFadd (d b : Operand) (k : Fin 8) : Att s₀ Next := atomic 9 d b k

/-- `amoFadd`: one attempt (R190). -/
def execAmoFadd (d b : Operand) (k : Fin 8) (st : State) : Host.Outcome State Fault Refusal := issue (.amoFadd d b k) st (attAmoFadd d b k)

/-- Fence without a flag. (R285) -/
def attFence (kind : FenceKind) (scope : Scope) : Att s₀ Next := do
  fenceWaits kind scope
  return .seq

/-- `fence`: one attempt (R285). -/
def execFence (kind : FenceKind) (scope : Scope) (st : State) : Host.Outcome State Fault Refusal := issue (.fence kind scope) st (attFence kind scope)

/-- Fence with a flag, checked before the waits and sent after them. (R285, R286) -/
def attFenceFlag (kind : FenceKind) (scope : Scope) (k : Fin 8) : Att s₀ Next := do
  let ga ← syncAddr k 0 8
  windowCheck ga 8 .sync
  match (← get).left with
  | [] => do
    flagRepCheck ga
    fenceWaits kind scope
  | _ => pure ()
  retire faddAtomic (.stsf 1) ga 8
  return .seq

/-- `fenceFlag`: one attempt (R285, R286). -/
def execFenceFlag (kind : FenceKind) (scope : Scope) (k : Fin 8) (st : State) : Host.Outcome State Fault Refusal := issue (.fenceFlag kind scope k) st (attFenceFlag kind scope k)

/-- Barrier: the release effect, then the arrival, whose release completes it. (R196) -/
def attBar (scope : Scope) : Att s₀ Next := do
  let t ← self
  if !bit t.enroll (scope.code - 1) then illegalOperand
  else
    release scope
    stop (.wait (.barArrive scope))

/-- `bar`: one attempt (R196). -/
def execBar (scope : Scope) (st : State) : Host.Outcome State Fault Refusal := issue (.bar scope) st (attBar scope)

/-- An address of the own module's shared space, with which a request to the identifier pool goes there; the bitmap is named by its physical
address, and is not translated (R458). -/
def poolGa (L : Nat) : Word := w64 (2 ^ 63 + moduleOf L * 2 ^ 43)

/-- The byte of an identifier's bit in the pool, at its home (R259, R458). -/
def poolTarget (m g : Nat) : Target := paTarget m (0x82100 + g / 8)

/-- Takes the lowest-numbered free identifier of the module, whose lines are searched one after the other at their homes. (R200, R458) -/
def attGidget (d : Operand) : Att s₀ Next := do
  let c ← get
  match ← given with
  | some t => do
    let v ← t.get
    writeReg d v
    return .seq
  | none =>
    let r ← request .gidget (poolGa c.core) true 0 0 false
    stop (.ask { r with target := some (poolTarget (moduleOf c.core) 0) })

/-- `gidget`: one attempt (R200, R458). -/
def execGidget (d : Operand) (st : State) : Host.Outcome State Fault Refusal := issue (.gidget d) st (attGidget d)

/-- Frees an identifier; a value that names none sends nothing. (R200, R458) -/
def attGidput (a : Operand) : Att s₀ Next := do
  let c ← get
  let g ← use a
  if 1 ≤ g.toNat ∧ g.toNat ≤ 4095 then
    let r ← request (.gidput g.toNat) (poolGa c.core) false 0 0 true
    hw do
      let id ← freshId
      emit (.req id (some { r with target := some (poolTarget (moduleOf c.core) g.toNat) }))
  else pure ()
  return .seq

/-- `gidput`: one attempt (R200, R458). -/
def execGidput (a : Operand) (st : State) : Host.Outcome State Fault Refusal := issue (.gidput a) st (attGidput a)

end Sys2Proof.Machine
end

