-- ==== Sys2Proof/Machine/Control.lean ====
section
/-! DEFINITION. Control transfers (R125 to R128), system registers (R22 to R24, R129), random numbers (R130), traps (R134), and
the instruction cache's invalidation (R131). -/

namespace Sys2Proof.Machine

variable {s₀ : State}

/-- The PC plus a displacement counted in instructions. -/
def relative {w : Nat} (pc : Word) (disp : BitVec w) : Word := pc + 4 * disp.signExtend 64

/-- Compare and branch (R125). -/
def branch (cond : Word → Word → Bool) (a b : Operand) (disp : BitVec 16) : Att s₀ Next := do
  let x ← use a
  let y ← use b
  if cond x y then return .jump (relative (← self).pc disp) else return .seq

/-! System registers (R23). -/

/-- The register has a number in the table. -/
def sysKnown (n : Nat) : Bool :=
  n ≤ 3 || (0x10 ≤ n && n ≤ 0x13) || (0x20 ≤ n && n ≤ 0x27) || (0x30 ≤ n && n ≤ 0x32) || (0x40 ≤ n && n ≤ 0x42) ||
    (0x50 ≤ n && n ≤ 0x57)

/-- S-only in the User column: TRAPVEC, TRAPPC, TRAPCAUSE, TRAPVAL. -/
def sysSOnly (n : Nat) : Bool := 0x10 ≤ n && n ≤ 0x13

/-- Read-only in user mode and writable in supervisor mode: ASID, ENROLL, MXGATE (R129). -/
def sysUserRo (n : Nat) : Bool := n = 3 || n = 0x27 || n = 0x40

/-- Loop registers, whose write at LEND makes no loop check (R128). -/
def sysLoop (n : Nat) : Bool := 0x30 ≤ n && n ≤ 0x32

/-- The value of a system register (R23, R24). -/
def State.sysRead (s : State) (L : Nat) (k : Fin 16) (n : Nat) : Word :=
  let t := s.thread L k
  match n with
  | 0x000 => t.status.zeroExtend 64
  | 0x001 => w64 k.val
  | 0x002 => w64 L
  | 0x003 => t.asid.zeroExtend 64
  | 0x010 => w64 (4 * t.trapvec.toNat)
  | 0x011 => w64 (4 * t.trappc.toNat)
  | 0x012 => t.trapcause.zeroExtend 64
  | 0x013 => t.trapval
  | 0x020 => t.waitlim.zeroExtend 64
  | 0x021 => t.feretry.zeroExtend 64
  | 0x022 => t.nplim.zeroExtend 64
  | 0x023 => t.pendb.zeroExtend 64
  | 0x024 => t.seed
  | 0x025 => w64 (s.cycle L)
  | 0x026 => w64 (8 * t.sigaddr.toNat)
  | 0x027 => w64 (2 * t.enroll.toNat)
  | 0x030 => w64 (4 * t.lstart.toNat)
  | 0x031 => w64 (4 * t.lend.toNat)
  | 0x032 => t.lcount
  | 0x040 => (s.core L).mxgate.zeroExtend 64
  | 0x041 => 40
  | 0x042 => t.mxpromo.zeroExtend 64
  | _ => if h : 0x50 ≤ n ∧ n ≤ 0x57 then (t.m.get ⟨n - 0x50, by omega⟩).zeroExtend 64 else 0

/-- A value that the register's map refuses (R24, R23). -/
def sysRefused (n : Nat) (v : Word) : Bool :=
  (n = 0 && 5 ≤ field v 4 3) || (n = 0x42 && (field v 0 7 = 0 || 65 ≤ field v 0 7))

/-- `STATUS` after a write: PMODE in supervisor mode only, MODE never (R24, R129). -/
def statusWrite (old : BitVec 17) (supervisor : Bool) (v : Word) : BitVec 17 :=
  let pmode := if supervisor then bit v 1 else bit old 1
  BitVec.ofNat 17 (field v 4 13 * 2 ^ 4 + 2 * pmode.toNat + (bit old 0).toNat)

/-- A thread's registers after a write; registers that are read-only for both are unchanged. -/
def sysWrite (t : Thread) (n : Nat) (v : Word) : Thread :=
  match n with
  | 0x000 => { t with status := statusWrite t.status t.mode v }
  | 0x003 => { t with asid := v.truncate 16 }
  | 0x010 => { t with trapvec := BitVec.ofNat 62 (v.toNat / 4) }
  | 0x011 => { t with trappc := BitVec.ofNat 62 (v.toNat / 4) }
  | 0x012 => { t with trapcause := v.truncate 8 }
  | 0x013 => { t with trapval := v }
  | 0x020 => { t with waitlim := v.truncate 32 }
  | 0x021 => { t with feretry := v.truncate 8 }
  | 0x022 => { t with nplim := v.truncate 32 }
  | 0x024 => { t with seed := v }
  | 0x026 => { t with sigaddr := BitVec.ofNat 61 (v.toNat / 8) }
  | 0x027 => { t with enroll := BitVec.ofNat 6 (v.toNat / 2) }
  | 0x030 => { t with lstart := BitVec.ofNat 62 (v.toNat / 4) }
  | 0x031 => { t with lend := BitVec.ofNat 62 (v.toNat / 4) }
  | 0x032 => { t with lcount := v }
  | 0x042 => { t with mxpromo := v.truncate 7 }
  | _ => if h : 0x50 ≤ n ∧ n ≤ 0x57 then { t with m := vset t.m ⟨n - 0x50, by omega⟩ (v.truncate 20) } else t

/-- The change of enrolment that a write of ENROLL makes (R197). -/
def enrolChange (L : Nat) (old new : BitVec 6) : Act s₀ Unit := do
  enrolThread L (new &&& ~~~old) 1
  enrolThread L (old &&& ~~~new) (-1)

/-- The register checks of R22 and R129, before the operand uses. -/
def sysCheck (n : Nat) (writes : Bool) : Att s₀ Unit := do
  let c ← get
  let t ← self
  if !sysKnown n then illegalOperand
  else if !t.mode && (sysSOnly n || (writes && sysUserRo n)) then
    stop (.trap Cause.privilege (c.insn.zeroExtend 64))
  else pure ()

/-- Branch if equal. (R125) -/
def attBeq (a b : Operand) (disp : BitVec 16) : Att s₀ Next := branch (fun x y => x = y) a b disp

/-- `beq`: one attempt (R125). -/
def execBeq (a b : Operand) (disp : BitVec 16) (st : State) : Host.Outcome State Fault Refusal := issue (.beq a b disp) st (attBeq a b disp)

/-- Branch if different. (R125) -/
def attBne (a b : Operand) (disp : BitVec 16) : Att s₀ Next := branch (fun x y => x ≠ y) a b disp

/-- `bne`: one attempt (R125). -/
def execBne (a b : Operand) (disp : BitVec 16) (st : State) : Host.Outcome State Fault Refusal := issue (.bne a b disp) st (attBne a b disp)

/-- Branch if signed less. (R125) -/
def attBlt (a b : Operand) (disp : BitVec 16) : Att s₀ Next := branch (fun x y => x.slt y) a b disp

/-- `blt`: one attempt (R125). -/
def execBlt (a b : Operand) (disp : BitVec 16) (st : State) : Host.Outcome State Fault Refusal := issue (.blt a b disp) st (attBlt a b disp)

/-- Branch if signed at least. (R125) -/
def attBge (a b : Operand) (disp : BitVec 16) : Att s₀ Next := branch (fun x y => !x.slt y) a b disp

/-- `bge`: one attempt (R125). -/
def execBge (a b : Operand) (disp : BitVec 16) (st : State) : Host.Outcome State Fault Refusal := issue (.bge a b disp) st (attBge a b disp)

/-- Branch if unsigned less. (R125) -/
def attBltn (a b : Operand) (disp : BitVec 16) : Att s₀ Next := branch (fun x y => x.ult y) a b disp

/-- `bltn`: one attempt (R125). -/
def execBltn (a b : Operand) (disp : BitVec 16) (st : State) : Host.Outcome State Fault Refusal := issue (.bltn a b disp) st (attBltn a b disp)

/-- Branch if unsigned at least. (R125) -/
def attBgen (a b : Operand) (disp : BitVec 16) : Att s₀ Next := branch (fun x y => !x.ult y) a b disp

/-- `bgen`: one attempt (R125). -/
def execBgen (a b : Operand) (disp : BitVec 16) (st : State) : Host.Outcome State Fault Refusal := issue (.bgen a b disp) st (attBgen a b disp)

/-- Branch if zero. (R125) -/
def attBz (a : Operand) (disp : BitVec 16) : Att s₀ Next := branch (fun x _ => x = 0) a .z disp

/-- `bz`: one attempt (R125). -/
def execBz (a : Operand) (disp : BitVec 16) (st : State) : Host.Outcome State Fault Refusal := issue (.bz a disp) st (attBz a disp)

/-- Branch if nonzero. (R125) -/
def attBnz (a : Operand) (disp : BitVec 16) : Att s₀ Next := branch (fun x _ => x ≠ 0) a .z disp

/-- `bnz`: one attempt (R125). -/
def execBnz (a : Operand) (disp : BitVec 16) (st : State) : Host.Outcome State Fault Refusal := issue (.bnz a disp) st (attBnz a disp)

/-- Jump. (R126) -/
def attJmp (disp : BitVec 26) : Att s₀ Next := do return .jump (relative (← self).pc disp)

/-- `jmp`: one attempt (R126). -/
def execJmp (disp : BitVec 26) (st : State) : Host.Outcome State Fault Refusal := issue (.jmp disp) st (attJmp disp)

/-- Call: PC + 4 goes to s15. (R126) -/
def attCall (disp : BitVec 26) : Att s₀ Next := do
  let pc := (← self).pc
  setReg 15 (pc + 4)
  return .jump (relative pc disp)

/-- `call`: one attempt (R126). -/
def execCall (disp : BitVec 26) (st : State) : Host.Outcome State Fault Refusal := issue (.call disp) st (attCall disp)

/-- Jump to a register offset. (R126) -/
def attJr (a : Operand) : Att s₀ Next := do
  let t ← use a
  if t.toNat % 4 ≠ 0 then stop (.trap Cause.misaligned t) else return .jump t

/-- `jr`: one attempt (R126). -/
def execJr (a : Operand) (st : State) : Host.Outcome State Fault Refusal := issue (.jr a) st (attJr a)

/-- Sets the loop registers; a count of 0 skips the body. (R127) -/
def attLoop (a : Operand) (disp : BitVec 16) : Att s₀ Next := do
  let n ← use a
  let pc := (← self).pc
  let last := relative pc disp
  modSelf fun t =>
    { t with lstart := BitVec.ofNat 62 ((pc + 4).toNat / 4), lend := BitVec.ofNat 62 (last.toNat / 4), lcount := n }
  if n = 0 then return .jump (last + 4) else return .seqNoLoop

/-- `loop`: one attempt (R127). -/
def execLoop (a : Operand) (disp : BitVec 16) (st : State) : Host.Outcome State Fault Refusal := issue (.loop a disp) st (attLoop a disp)

/-- Reads a system register, as of its issue (R23). (R129) -/
def attMfsys (d : Operand) (sys : BitVec 12) : Att s₀ Next := do
  let c ← get
  sysCheck sys.toNat false
  let v ← once do return (← here).sysRead c.core c.slot sys.toNat
  write d v
  return .seq

/-- `mfsys`: one attempt (R129). -/
def execMfsys (d : Operand) (sys : BitVec 12) (st : State) : Host.Outcome State Fault Refusal := issue (.mfsys d sys) st (attMfsys d sys)

/-- Writes `MXGATE`: a write that issued before one already performed changes nothing any more (R23, log 63). -/
def writeGate (L : Nat) (v : BitVec 16) (issued : Nat) : Act s₀ Unit :=
  modCore L fun x => if x.mxgateAt ≤ issued then { x with mxgate := v, mxgateAt := issued } else x

/-- Writes a system register. (R129) -/
def attMtsys (sys : BitVec 12) (a : Operand) : Att s₀ Next := do
  let c ← get
  let n := sys.toNat
  sysCheck n true
  let issued ← if n = 0x40 then once do return w64 ((← here).cycle c.core) else pure 0
  let v ← use a
  if sysRefused n v then illegalOperand
  else
    let old := (← self).enroll
    if n = 0x40 then hw (writeGate c.core (v.truncate 16) issued.toNat)
    else modSelf fun t => sysWrite t n v
    if n = 0x27 then hw (enrolChange c.core old (BitVec.ofNat 6 (v.toNat / 2))) else pure ()
    return if sysLoop n then .seqNoLoop else .seq

/-- `mtsys`: one attempt (R129). -/
def execMtsys (sys : BitVec 12) (a : Operand) (st : State) : Host.Outcome State Fault Refusal := issue (.mtsys sys a) st (attMtsys sys a)

/-- Takes TRAP_INSN. (R134) -/
def attTrap (n : BitVec 12) : Att s₀ Next := stop (.trap Cause.trapInsn (n.zeroExtend 64))

/-- `trap`: one attempt (R134). -/
def execTrap (n : BitVec 12) (st : State) : Host.Outcome State Fault Refusal := issue (.trap n) st (attTrap n)

/-- Returns from a trap handler. (R134) -/
def attTret : Att s₀ Next := do
  modSelf fun t => trapReturn t
  return .jump (← self).pc

/-- `tret`: one attempt (R134). -/
def execTret (st : State) : Host.Outcome State Fault Refusal := issue .tret st attTret

/-- Takes BREAK. (R134) -/
def attBrk : Att s₀ Next := stop (.trap Cause.break_ 0)

/-- `brk`: one attempt (R134). -/
def execBrk (st : State) : Host.Outcome State Fault Refusal := issue .brk st attBrk

/-- Steps SEED and writes it. (R130) -/
def attRand (d : Operand) : Att s₀ Next := do
  let x := nextRand (← self).seed
  modSelf fun t => { t with seed := x }
  write d x
  return .seq

/-- `rand`: one attempt (R130). -/
def execRand (d : Operand) (st : State) : Host.Outcome State Fault Refusal := issue (.rand d) st (attRand d)

/-- Waits for PENDB and empties the instruction cache of the core. (R131) -/
def attIinv : Att s₀ Next := do
  let c ← get
  drainPendb
  let P := (← here).physOf c.core
  hw (modPhys P fun p => { p with icache := [] })
  return .seq

/-- `iinv`: one attempt (R131). -/
def execIinv (st : State) : Host.Outcome State Fault Refusal := issue .iinv st attIinv

end Sys2Proof.Machine
end

