-- ==== Sys2Proof/Machine/Threads.lean ====
section
/-! DEFINITION. Starting, yielding and ending threads (R152 to R156, R224), launches (R157, R158), and the reading of packets
through a packet location (R157, R209). -/

namespace Sys2Proof.Machine

variable {s₀ : State}

/-- The segment and offset of a segment-relative location (R157, R312). -/
def locSeg (p : Word) : Fin 8 := Fin.ofNat 8 (field p 61 3)
def locOff (p : Word) : Nat := field p 0 61

/-- Words of an extent that has been checked, each a load (R109, R111, R146). -/
def readWords (d : Seg) (off : Nat) : Nat → Att s₀ (List Byte)
  | 0 => pure []
  | n + 1 => do
    let v ← loadPacket (d.form off)
    return toBytes 8 v.toNat ++ (← readWords d (off + 8) n)

/-- The bytes of an extent, checked whole (R109). -/
def readExtent (k : Fin 8) (off size : Nat) : Att s₀ (List Byte) := do
  let _ ← seg k off size .r
  readWords ((← self).seg.get k) off (size / 8)

/-- A packet at a location: its alignment, its header with a test, then the whole packet and the test of R205. -/
def readPacket (u : PacketUse) (p : Word) (header : Nat → Nat → Att s₀ Unit) : Att s₀ Packet := do
  let off := locOff p
  if off % 16 ≠ 0 then stop (.trap Cause.misaligned (w64 off))
  else
    let h ← readExtent (locSeg p) off 16
    header (Packet.word h 0) (Packet.word h 8)
    let pkt ← readExtent (locSeg p) off (16 * hdrLen (Packet.word h 0))
    if Packet.valid u pkt then return pkt else illegalOperand

/-! The groups and cores that a launch reaches (R147, R197). -/

/-- Modules of the group at scope `ring` or `system` of a core. -/
def State.modulesOf (s : State) (scope : Scope) (L : Nat) : List Nat :=
  let all := List.range s.nmod
  match scope with
  | .ring => all.filter fun m => (s.fabric m).ringid = (s.fabric (moduleOf L)).ringid
  | .system => all
  | _ => [moduleOf L]

/-- Cores of a group at scopes 1 to 4. -/
def scopeSize (scope : Scope) : Nat :=
  match scope with
  | .thread | .core => 1
  | .cluster => 16
  | .die => 1024
  | .package | .ring | .system => 8192

/-- Runs of consecutive cores that make up a group: first core and count. -/
def State.spans (s : State) (scope : Scope) (L : Nat) : List (Nat × Nat) :=
  let n := scopeSize scope
  (s.modulesOf scope L).map fun m => if m = moduleOf L ∧ n < 8192 then (L / n * n, n) else (m * 8192, 8192)

/-- A core lies in the group of a scope. -/
def State.inScope (s : State) (scope : Scope) (L M : Nat) : Bool := (s.spans scope L).any fun (b, n) => b ≤ M && M < b + n

/-- The groups at a scope that a launch reaches, each with the number of its cores reached (R197). -/
def State.groupsReached (s : State) (reach scope : Scope) (L : Nat) : List (Nat × Nat) :=
  let spans := s.spans reach L
  if reach.code ≤ scope.code then [(s.groupOf scope L, (spans.map fun x => x.2).foldr (fun a b => a + b) 0)]
  else match scope with
  | .ring =>
    let rings := ((List.range s.nmod).map fun m => (s.fabric m).ringid).eraseDups
    rings.map fun r => (r, 8192 * ((List.range s.nmod).filter fun m => (s.fabric m).ringid = r).length)
  | _ =>
    let n := scopeSize scope
    spans.flatMap fun (b, c) => (List.range (c / n)).map fun i => (b / n + i, n)

/-- Raises E of every group that a launch with an enrolment and a mask reaches (R197). -/
def enrolLaunch (reach : Scope) (L : Nat) (enroll : BitVec 6) (count : Nat) : Act s₀ Unit := do
  let s ← now
  each enrolScopes fun (i, scope) => when_ (bit enroll i && count ≠ 0) do
    each (s.groupsReached reach scope L) fun (n, cores) => enrol scope n (count * cores)

/-- The module that sends a launch's wake on to another module of its scope: at scope `system` the module at offset (o - 1) div 8, at
scope `ring` the neighbour on the shorter way round (R456). -/
def State.wakeFrom (s : State) (f : Flood) (m : Nat) : Nat :=
  let M := moduleOf f.fromCore
  match f.scope with
  | .ring =>
    let x := s.fabric m
    let ahead := (x.rpos + x.rlen - (s.fabric M).rpos) % x.rlen
    if 2 * ahead ≤ x.rlen then x.peer0.getD M else x.peer1.getD M
  | _ => (M + ((m + s.nmod - M) % s.nmod - 1) / 8) % s.nmod

/-- The wake of a flood as a message to a module from one that has it: to local space over the Stay ring, to shared space over the fabric
(R453, R456). -/
def State.wakeReq (s : State) (flood : Nat) (f : Flood) (S m : Nat) : Req where
  core := 8192 * S
  slot := 0
  asid := 0
  op := .wake flood
  ga := if f.scope = .ring then w64 (m * 2 ^ 43) else gaOfVa m 0
  awaited := false
  bytes := 0
  retired := false
  left := 0
  gen := 0
  answered := s.ctl.steps
  requeued := false
  target := none
  stage := .sent
  combined := []

/-- A module has a launch's wake, and sends it on to the modules behind it (R456). -/
def moduleHas (flood m : Nat) : Act s₀ Unit := do
  let s ← now
  match look s.floods flood with
  | none => pure ()
  | some f =>
    emit (.flood flood (some { f with modules := f.modules ++ [m] }))
    each ((s.modulesOf f.scope f.fromCore).filter fun x => x ≠ moduleOf f.fromCore && s.wakeFrom f x = m) fun x => do
      let id ← freshId
      emit (.req id (some (s.wakeReq flood f m x)))

/-- Sends a launch flood; the wakes reach the cores of the scope one by one (R158, R456). -/
def sendFlood (scope : Scope) (L : Nat) (k : Option (Fin 16)) (x : Launch) : Act s₀ Unit := do
  enrolLaunch scope L x.enroll ((List.range 16).countP fun i => bit x.mask i)
  let id ← freshId
  emit (.flood id (some { scope := scope, launch := x, fromCore := L, fromSlot := k, reached := [], modules := [] }))
  moduleHas id (moduleOf L)

/-- The end of a thread: its deferred error becomes an event, the errors of its commands are discarded, its queues are emptied, its
slot is idle (R156, R246, R317). -/
def endThread (L : Nat) (k : Fin 16) : Act s₀ Unit := do
  let s ← now
  let t := s.thread L k
  match t.deferred with
  | some (cause, ga) => raiseEvent (moduleOf L) (w64 L) 1 (w64 (s.cycle L)) (w64 k.val) (cause.zeroExtend 64) ga
  | none => pure ()
  emptyQueues L k
  dropReservation L k
  enrolThread L t.enroll (-1)
  endEntry L k t.entry
  modThread L k fun t => { (t.readyFrom 0) with
    run := .idle, entry := none, deferred := none, freedAt := s.cycle L, eng := t.eng.map fun e => { e with err := none } }

/-- Starts an idle or halted slot of the core. (R153) -/
def attSpawn (a b : Operand) : Att s₀ Next := do
  let c ← get
  let n ← use a
  let e ← use b
  if 15 < n.toNat then illegalOperand
  else
    let k := Fin.ofNat 16 n.toNat
    let parent ← self
    let old := (← here).thread c.core k
    if old.startable then
      hw do
        start c.core k (spawned parent old e)
        enrolThread c.core parent.enroll 1
    else pure ()
    return .seq

/-- `spawn`: one attempt (R153). -/
def execSpawn (a b : Operand) (st : State) : Host.Outcome State Fault Refusal := issue (.spawn a b) st (attSpawn a b)

/-- Ends the thread once its stores are acknowledged and its commands are complete. (R156, R224) -/
def attTexit : Att s₀ Next := do
  let c ← get
  let L := c.core
  let k := c.slot
  let busy (s : State) : Bool := (s.thread L k).pendb ≠ 0
  let running (s : State) : Bool := [Engine.mxe, .vxe, .cpe, .slu].any fun e => s.outstanding L k e ≠ 0
  let copies (s : State) : Bool := s.copies.any fun (_, x) => x.core = L ∧ x.slot = k ∧ x.gen = (s.thread L k).gen
  if (← self).inService then
    let s ← here
    if busy s || copies s then stop (.wait .drain)
    else if (s.core L).split.isSome then stop (.park .taskUnit)
    else
      hw (retirePacket L k)
      let s ← here
      if busy s || running s then stop .retire else pure ()
  else pure ()
  let s ← here
  if busy s || running s then stop (.wait .drain)
  else
    hw (endThread L k)
    return .ended

/-- `texit`: one attempt (R156, R224). -/
def execTexit (st : State) : Host.Outcome State Fault Refusal := issue .texit st attTexit

/-- Vacates the next own position. (R155) -/
def attYield : Att s₀ Next := do return .yielded

/-- `yield`: one attempt (R155). -/
def execYield (st : State) : Host.Outcome State Fault Refusal := issue .yield st attYield

/-- The packet of a launch, with the test of its header and the check of its scope (R157). -/
def launchPacket (scope : Scope) (p : Word) : Att s₀ Packet := do
  let c ← get
  readPacket .launch p fun h entry => do
    if !headerValid .launch h entry then illegalOperand
    else if 5 ≤ scope.code ∧ !(← self).mode then stop (.trap Cause.privilege (c.insn.zeroExtend 64))
    else pure ()

/-- Checks a packet, waits as a release fence and floods the wake. (R157) -/
def attLaunch (scope : Scope) (a b : Operand) : Att s₀ Next := do
  let c ← get
  let p ← use a
  let mask ← use b
  let pkt ← launchPacket scope p
  release scope
  let t ← self
  hw (sendFlood scope c.core (some c.slot) {
    packet := pkt, mask := mask.truncate 16, seg := t.seg, asid := t.asid, trapvec := t.trapvec, enroll := t.enroll
    source := c.core })
  return .seq

/-- `launch`: one attempt (R157). -/
def execLaunch (scope : Scope) (a b : Operand) (st : State) : Host.Outcome State Fault Refusal := issue (.launch scope a b) st (attLaunch scope a b)

end Sys2Proof.Machine
end

