-- ==== Sys2Proof/Machine/Tasks.lean ====
section
/-! DEFINITION. Task instructions (R208 to R224) over the task unit. -/

namespace Sys2Proof.Machine

variable {s₀ : State}

/-- The task unit performs one operation at a time: while a split awaits its increments, others wait (R207). -/
def unitFree : Att s₀ Unit := do
  let c ← get
  if ((← here).core c.core).split.isSome then stop (.park .taskUnit) else pure ()

/-- The footprint record of a packet that is pushed: every check's failure is `ILLEGAL_OPERAND`, and FPSRC becomes a global
address (R217). -/
def rewriteFootprint (p : Packet) : Att s₀ Packet := do
  let h := p.word 0
  if !hdrFp h then return p
  else
    let at_ := fpOffset h
    let src := w64 (p.word at_)
    let dst := p.word (at_ + 8) / 2 ^ 32
    let len := p.word (at_ + 8) % 2 ^ 32
    let d := (← self).seg.get (locSeg src)
    match segCheck d (locOff src) 8 .r with
    | .error _ => illegalOperand
    | .ok ga =>
      if locOff src + len ≤ d.limit ∧ len % 8 = 0 ∧ 8 ≤ len ∧ len ≤ 262144 ∧ dst % 8 = 0 ∧ dst + len ≤ 0x1F0000 ∧ d.spread = 0 then
        return p.setWord at_ ga.toNat
      else illegalOperand

/-- The packet of `taskpush` and `trigset` (R209, R218). -/
def readTask (u : PacketUse) (p : Word) : Att s₀ Packet := do
  let pkt ← readPacket u p fun h _ => if hdrLen h < 2 ∨ 16 < hdrLen h then illegalOperand else pure ()
  rewriteFootprint pkt

/-- FPDST and FPLEN of a packet. -/
def Packet.range (p : Packet) : Nat × Nat :=
  let w := p.word (fpOffset (p.word 0) + 8)
  (w / 2 ^ 32, w % 2 ^ 32)

/-- The completion of `taskpop`: the buffer, D and the packet in service (R210). -/
def deliver (d : Operand) (x : Packet) : Att s₀ Next := do
  let c ← get
  hw (writePacket c.core (bufferOff c.slot) x)
  writeReg d (w64 (bufferOff c.slot))
  modSelf fun t => { t with inService := true, assigned := none, fetched := 0 }
  return .seq

/-- Copies a valid packet to the bottom of a deque. (R209) -/
def attTaskpush (a : Operand) : Att s₀ Next := do
  let c ← get
  let p ← use a
  let pkt ← readTask .push p
  unitFree
  let urgent := hdrUrgent (pkt.word 0)
  let held := ((← here).core c.core).heldTasks.any fun x => hdrUrgent (Packet.word x.packet 0) = urgent
  if held || (← here).dequeFull c.core urgent then stop (.park (.dequeRoom urgent))
  else
    hw do
      pushBottom c.core urgent pkt
      entered c.core
    return .seq

/-- `taskpush`: one attempt (R209). -/
def execTaskpush (a : Operand) (st : State) : Host.Outcome State Fault Refusal := issue (.taskpush a) st (attTaskpush a)

/-- Takes and splits a packet, or parks until one is assigned. (R210, R211) -/
def attTaskpop (d : Operand) : Att s₀ Next := do
  let c ← get
  let t ← self
  if t.inService then illegalOperand
  else match t.assigned with
  | some x =>
    if hdrFp (Packet.word x 0) ∧ 8 * t.fetched < (Packet.range x).2 then stop (.park .footprint) else deliver d x
  | none =>
    if t.popEnded.isSome then
      hw (modCore c.core fun x => { x with poppers := x.poppers.filter fun j => j ≠ c.slot })
      writeReg d 0
      return .seq
    else
      unitFree
      let core := (← here).core c.core
      if core.urgent.count = 0 ∧ core.normal.count = 0 then stop (.park .taskpop)
      else
        hw (popFor c.core c.slot)
        match (← self).assigned with
        | some x => if hdrFp (Packet.word x 0) then stop .takePacket else deliver d x
        | none => stop .takePacket

/-- `taskpop`: one attempt (R210, R211). -/
def execTaskpop (d : Operand) (st : State) : Host.Outcome State Fault Refusal := issue (.taskpop d) st (attTaskpop d)

/-- Retires the packet in service. (R212) -/
def attTaskdone (a : Operand) : Att s₀ Next := do
  let c ← get
  let b ← use a
  if !(← self).inService ∨ b ≠ w64 (bufferOff c.slot) then illegalOperand
  else
    release .system
    unitFree
    hw (retirePacket c.core c.slot)
    return .seq

/-- `taskdone`: one attempt (R212). -/
def execTaskdone (a : Operand) (st : State) : Host.Outcome State Fault Refusal := issue (.taskdone a) st (attTaskdone a)

/-- Binds a handler packet to a word. (R218) -/
def attTrigset (k : Fin 8) (b : Operand) : Att s₀ Next := do
  let c ← get
  let ga ← syncAddr k 0 8
  windowCheck ga 8 .sync
  match (← get).left with
  | [] => flagRepCheck ga
  | _ => pure ()
  let p ← use b
  let pkt ← readTask .trigger p
  match ← given with
  | some t => do
    let _ ← t.get
    return .seq
  | none =>
    unitFree
    let used := ((← here).core c.core).triggers
    match (List.finRange 16).find? fun e => !bit used e.val with
    | none => stop (.park .triggerRoom)
    | some e =>
      if isOwn c.core ga then
        hw (takeTrigger c.core e pkt)
        let _ ← awaited faddAtomic (.bind c.core e) ga none
        return .seq
      else if !(← here).exists_ ga then stop (.trap Cause.pageFatal ga)
      else stop (.askBind (← request (.bind c.core e) ga true 0 0 false) pkt)

/-- `trigset`: one attempt (R218). -/
def execTrigset (k : Fin 8) (b : Operand) (st : State) : Host.Outcome State Fault Refusal := issue (.trigset k b) st (attTrigset k b)

/-- Discards the binding of a word. (R219) -/
def attTrigclr (k : Fin 8) : Att s₀ Next := do
  let ga ← syncAddr k 0 8
  retire faddAtomic .unbind ga 8
  return .seq

/-- `trigclr`: one attempt (R219). -/
def execTrigclr (k : Fin 8) (st : State) : Host.Outcome State Fault Refusal := issue (.trigclr k) st (attTrigclr k)

end Sys2Proof.Machine
end

