-- ==== Sys2Proof/Machine/Engine.lean ====
section
/-! DEFINITION. Engine commands (R311 to R320): issue with its checks, the engine's accesses to memory with their errors and
parks (R318, R415, R454), the running of a command in units, and its completion. -/

namespace Sys2Proof.Machine

variable {s₀ : State}

def engIx (e : Engine) : Fin 4 := Fin.ofNat 4 e.code

def State.engine (s : State) (L : Nat) (e : Engine) : EngineUnit := (s.core L).engines.get (engIx e)

def Thread.engThread (t : Thread) (e : Engine) : EngThread := t.eng.get (engIx e)

def modEngThread (L : Nat) (k : Fin 16) (e : Engine) (f : EngThread → EngThread) : Act s₀ Unit :=
  modThread L k fun t => { t with eng := vset t.eng (engIx e) (f (t.engThread e)) }

/-! Issue (R312 to R314). -/

/-- An address parameter: rigging register, where its range begins from its offset, bytes that it covers below that and in all,
with a walk how far it reaches above that (R364), accesses, element size and the strides that must be its multiples (R314, R364, R385). `rights` alone is checked of a parameter
whose pieces are checked as they run (R365), and nothing of a `bare` one (R385), nor of one whose extent a chapter computes from a
field that is 0 (`zero`: R327, R343, R364, R385). -/
structure Param where
  n : Fin 32
  skip : Nat := 0
  below : Int := 0
  extent : Nat
  above : Option Int := none
  reads : Bool
  writes : Bool
  esz : Nat
  strides : List Int := []
  walk : Bool := false
  rights : Bool := false
  bare : Bool := false
  zero : Bool := false
  deriving DecidableEq, Repr

/-- What an engine chapter asks of a command at issue: address parameters in ascending register, masks of reserved bits in used
registers, geometry checks on the global addresses of parameters, the group identifier it names, the descriptors that are
used while it runs, and whether it draws from SEED. -/
structure EngSpec where
  params : List Param
  reserved : List (Fin 32 × Nat)
  geometry : (Fin 32 → Nat) → Option Nat
  gid : Option Nat := none
  pieceSeg : Seg := Seg.zero
  pieceSeg2 : Seg := Seg.zero
  draws : Bool := false

/-- The global address of a segment-relative location under direct spread. -/
def Thread.locate (t : Thread) (v : Word) : Word := w64 ((t.seg.get (locSeg v)).base.toNat + locOff v)

/-- Bytes `[a, b)` of a core's window, seen from a run of `n` bytes that begins at offset `o`. -/
def touches (o n a b : Nat) : Bool := 2 ^ 30 ≤ n || (o < b && a < o + n) || (2 ^ 30 + a < o + n)

/-- Bytes that no engine command may name: the views, the control window, the task unit's offsets (R118, R206). -/
def touchesRefused (ga : Word) (n : Nat) : Bool :=
  let o := ga.toNat % 2 ^ 30
  !isShared ga && n ≠ 0 && (touches o n 0x10000000 0x40000000 || touches o n 0x1F0000 0x200000)

/-- The check of one address parameter; the reason of the first failure (R314). -/
def paramReason (t : Thread) (v : Word) (p : Param) : Option Nat :=
  let d := t.seg.get (locSeg v)
  let off := locOff v + p.skip
  let ga := t.locate v
  let first := (off : Int) - p.below
  let stop := match p.above with
    | some x => off + x
    | none => first + p.extent
  if p.bare || p.zero then none
  else if !p.rights && (first < 0 || (d.limit : Int) < stop || 2 ^ 61 ≤ stop) then some 1
  else if !d.e then some 2
  else if (p.reads && !d.r) || (p.writes && !d.w) then some 3
  else if d.spread ≠ 0 then some 4
  else if p.rights then none
  else if touchesRefused (ga + w64 p.skip - wInt p.below) p.extent then some 5
  else if ga.toNat % p.esz ≠ 0 || (p.walk && (off % p.esz ≠ 0 || p.strides.any fun x => x % p.esz ≠ 0)) then some 6
  else none

/-- The reason that rejects a command, in the order of R314: the parameters, reserved fields, the engine's own rules. -/
def rejectReason (t : Thread) (rig : Vector Word 32) (x : EngSpec) : Option Nat :=
  match x.params.findSome? fun p => paramReason t (rig.get p.n) p with
  | some r => some r
  | none =>
    if x.reserved.any fun (n, mask) => (rig.get n).toNat &&& mask ≠ 0 then some 7
    else x.geometry fun n => (t.locate (rig.get n)).toNat

/-- The snapshot, with each address parameter as its global address (R430). -/
def snapshot (t : Thread) (rig : Vector Word 32) (params : List Param) : Vector Word 32 :=
  params.foldl (fun r p => vset r p.n (t.locate (rig.get p.n))) rig

/-- What a thread has retired and is not yet performed: stores, atomics and successor decrements, by their names (R278, R289). -/
def State.retiredBy (s : State) (L : Nat) (k : Fin 16) : List Nat :=
  (s.reqs.filter fun (_, r) =>
    r.core = L && r.slot = k && r.retired && r.engine.isNone && r.gen = (s.thread L k).gen).map fun p => p.1

/-- What has that name is not yet performed. -/
def State.isOpen (s : State) (id : Nat) : Bool := (look s.reqs id).isSome

/-- The issue of an engine command (R313). -/
def issueCommand (eng : Engine) (cmd : Nat) (x : EngArgs) (spec : State → Nat → Thread → EngSpec) : Att s₀ Next := do
  let c ← get
  let a ← readReg x.a
  let b ← readReg x.b
  let t ← self
  let rig := (t.engThread eng).rig
  let s ← here
  let sp := spec s c.core t
  match rejectReason t rig sp with
  | some r => stop (.trap Cause.engReject (w64 (eng.code * 2 ^ 8 + r)))
  | none =>
    let draining : Bool := match sp.gid with
      | some g => decide (g ∈ (s.module (moduleOf c.core)).draining) &&
          !s.reductions.any fun (_, r) => r.asid = t.asid && r.gid = g && r.result.isNone
      | none => false
    if draining then stop (.park (.gidDrain (sp.gid.getD 0)))
    else if 2 ≤ s.outstanding c.core c.slot eng then stop (.park (.engineQueue eng))
    else
      hw do
        modEngThread c.core c.slot eng fun e => { e with seq := e.seq + 1 }
        when_ sp.draws (modThread c.core c.slot fun t => { t with seed := nextRand t.seed })
        let order ← freshId
        let s ← now
        let cmd : Cmd := {
          cmd := cmd, slot := c.slot, a := a, b := b, rig := snapshot t rig sp.params, seg := sp.pieceSeg, seg2 := sp.pieceSeg2
          asid := t.asid, acq := x.acq, rel := x.rel, scope := x.scope, sig := x.sig, sigaddr := t.sigaddr
          seq := ((s.thread c.core c.slot).engThread eng).seq, mxpromo := t.mxpromo, st := t.seed
          earlier := s.retiredBy c.core c.slot, order := order, gen := (s.thread c.core c.slot).gen }
        modEngine c.core eng fun u => { u with queue := u.queue ++ [cmd] }
      return .seq

/-! Running. -/

/-- Why an engine stops at a point of its command. -/
inductive EngStop
  | error (code : Byte)
  /-- A failed walk of a die of a module parks the command there (R415); KIND 4, or 6 at another module (R454). -/
  | walk (f : WalkFault) (die kind : Nat)
  /-- An access to another module waits for its bulk transfer (R454). -/
  | transfer (ga : Word)
  /-- The core that owns a local-store word is gated (R435), or a line is on its way (R263, R267). -/
  | held
  /-- The core that owns a local-store word is frozen or saved (R421). -/
  | away
  /-- A die has no entry free to hold the transfer, which is sent again later (R415). -/
  | returned
  /-- An active message to another module has to be answered (R454). -/
  | message (op : HomeOp) (ga : Word)
  deriving DecidableEq, Repr

/-- A running command and the state of the machine as it changes it. -/
structure EngCtx (s₀ : State) where
  run : Run s₀
  core : Nat
  eng : Engine
  cmd : Cmd
  prog : Prog

/-- Work of an engine: what it has done stays done when it stops (R318). -/
abbrev EngM (s₀ : State) := ExceptT EngStop (StateM (EngCtx s₀))

def engAct {α : Type} (a : Act s₀ α) : EngM s₀ α := do
  let c ← get
  let (x, r) := a.run c.run
  set { c with run := r }
  return x

def engNow : EngM s₀ State := do return (← get).run.s

def prog : EngM s₀ Prog := do return (← get).prog

def modProg (f : Prog → Prog) : EngM s₀ Unit := modify fun c => { c with prog := f c.prog }

/-- A register of the snapshot. -/
def rig (n : Fin 32) : EngM s₀ Word := do return (← get).cmd.rig.get n

/-- Sets format flags (R298). -/
def setFmt (f : FmtFlags) : EngM s₀ Unit := modProg fun p => { p with flags := p.flags ||| f }

/-- Errors of R318 by the trap cause of the access. -/
def engError (cause : Byte) : Byte :=
  if cause = Cause.protection then 1 else if cause = Cause.writeLocked then 2 else if cause = Cause.pageFatal then 3 else 4

/-- The place of an engine access of up to 8 bytes (R242, R421, R435, R454). -/
def engResolve (ga : Word) (need : Need) (sync writes : Bool) : EngM s₀ Target := do
  let c ← get
  let s := c.run.s
  let L := c.core
  let m := gaModule ga
  let other := decide (m ≠ moduleOf L)
  if s.nmod ≤ m then throw (.error 3)
  else if !isShared ga ∧ !(gaOff ga < 0x1F2000) then throw (.error 1)
  else if other ∧ !(s.engine L c.eng).transferred then throw (.transfer ga)
  else if !isShared ga then
    if gaCore ga ≠ L ∧ !s.reachable (gaCore ga) then
      engAct (rouse (gaCore ga))
      throw (if (s.core (gaCore ga)).status = .active then .held else .away)
    else return localTarget ga
  else
    let die := if other then dieOf (s.receiver (moduleOf L) ga) else s.dieAt L
    let cluster := if other then none else some (s.clusterAt L)
    match ← engAct (resolveShared cluster die c.cmd.asid ga need sync writes) with
    | .target t => return t
    | .wait => throw .held
    | .trap cause => throw (.error (engError cause))
    | .walk f =>
      if s.faultsFatal m L then throw (.error 3)
      else if other ∧ !s.mayHold m die then throw .returned
      else throw (.walk f (m * 8 + die) (if other then 6 else 4))

/-- The target of an engine access, once its line has come through the Shroud (R263, R267). -/
def engTarget (ga : Word) (need : Need) (sync writes : Bool) : EngM s₀ Target := do
  let t ← engResolve ga need sync writes
  let c ← get
  let other := decide (gaModule ga ≠ moduleOf c.core)
  let P := c.run.s.physOf (if other then c.run.s.receiver (moduleOf c.core) ga else c.core)
  if ← engAct (granted (.engine c.core c.eng) other P t) then return t else throw .held

/-- The data of an access are spoiled by a link that they cross, to its home or from there (R419, R455). -/
def engSpoiled (ga : Word) (home : Nat) (toHome : Bool) : EngM s₀ Bool := do
  let c ← get
  let x ← engAct (spoilOn c.core ga home toHome (c.run.s.engine c.core c.eng).spoiled)
  engAct (when_ x (modEngine c.core c.eng fun u => { u with spoiled := false }))
  return x

/-- The pieces of a run of bytes that lie in one word each: address and length. -/
def pieces (ga n : Nat) : Nat → List (Nat × Nat)
  | 0 => []
  | fuel + 1 =>
    if n = 0 then []
    else
      let k := min n (8 - ga % 8)
      (ga, k) :: pieces (ga + k) (n - k) fuel

def piecesOf (ga n : Nat) : List (Nat × Nat) := pieces ga n (n / 8 + 2)

/-- The targets of an element, which may lie in two words, each with where its bytes begin in the element and their number. -/
def engTargets (ga : Word) (n : Nat) (need : Need) (writes : Bool) : EngM s₀ (List (Target × Nat × Nat)) :=
  (piecesOf ga.toNat n).mapM fun (a, k) => do
    return (← engTarget (w64 a) need false writes, a - ga.toNat, k)

/-- An element of up to 8 bytes, and whether a word of it is poisoned. -/
def engPeek (ga : Word) (n : Nat) : EngM s₀ (Nat × Bool) := do
  let parts ← engTargets ga n .read false
  let s ← engNow
  parts.forM fun (tg, _, _) => engAct (touch tg false)
  let spoiled ← parts.anyM fun (tg, at_, _) => engSpoiled (ga + w64 at_) tg.home false
  return (ofBytes (parts.flatMap fun (tg, _, k) => toBytes k (s.readPlace tg.place k)),
    spoiled || parts.any fun (tg, _, _) => s.placePoison tg.place)

/-- An element of up to 8 bytes; poison is error 0x04. -/
def engRead (ga : Word) (n : Nat) : EngM s₀ Nat := do
  let (v, p) ← engPeek ga n
  if p then throw (.error 4) else return v

/-- The command as a writer. -/
def engWriter : EngM s₀ Writer := do
  let c ← get
  return { core := c.core, slot := c.cmd.slot, gen := c.cmd.gen, engine := some (c.eng, c.cmd.seq) }

/-- Writes an element to its targets. -/
def engWriteTo (ga : Word) (parts : List (Target × Nat × Nat)) (v : Nat) : EngM s₀ Unit := do
  let w ← engWriter
  parts.forM fun (tg, at_, k) => do
    let spoiled ← engSpoiled (ga + w64 at_) tg.home true
    engAct (writeAs w tg k (v / 2 ^ (8 * at_)) (if spoiled then some true else none) none)

/-- Writes an element of up to 8 bytes. -/
def engWrite (ga : Word) (n v : Nat) : EngM s₀ Unit := do engWriteTo ga (← engTargets ga n .write true) v

/-- Writes a word with the poison mark and the full-empty bit that a META copy gives it (R377). -/
def engStoreMeta (ga : Word) (v : Nat) (mark full : Bool) : EngM s₀ Unit := do
  let w ← engWriter
  let tg ← engTarget ga .both false true
  engAct (writeAs w tg 8 v (some mark) (some full))

/-- Writes an element of the matrix engine, which stops at a poisoned word (R335). -/
def engWriteClean (ga : Word) (n v : Nat) : EngM s₀ Unit := do
  let parts ← engTargets ga n .write true
  let s ← engNow
  if parts.any fun (tg, _, _) => s.placePoison tg.place then throw (.error 4) else engWriteTo ga parts v

/-- Checks that an access would pass, without making it. -/
def engProbe (ga : Word) (need : Need) : EngM s₀ Unit := do
  let tg ← engTarget ga need false false
  if (← engNow).placePoison tg.place then throw (.error 4) else pure ()

/-- A run of bytes; poison is error 0x04. -/
def engBytes (ga n : Nat) : EngM s₀ (List Byte) := do
  let parts ← (piecesOf ga n).mapM fun (a, k) => do
    return toBytes k (← engRead (w64 a) k)
  return parts.flatten

def engEach {α : Type} (xs : List α) (f : α → EngM s₀ Unit) : EngM s₀ Unit :=
  match xs with
  | [] => pure ()
  | x :: rest => do f x; engEach rest f

/-- Writes a run of bytes. -/
def engPut (ga : Nat) (bs : List Byte) : EngM s₀ Unit :=
  engEach (piecesOf ga bs.length) fun (a, k) => engWrite (w64 a) k (ofBytes ((bs.drop (a - ga)).take k))

/-- Progress of a command that has just started. -/
def Prog.start (st : Word) : Prog where
  c := 0
  w := 0
  m := 0
  n := 0
  g := 0
  atElement := false
  idx := List.replicate 6 0
  acc := []
  lanes := List.replicate 32 none
  tiles := #v[none, none]
  rows := none
  pending := none
  row := []
  out := []
  lines := []
  queries := []
  picks := []
  st := st
  flags := 0
  sent := false
  written := false
  error := none

/-- A unit of a command: false when nothing is left to do. -/
abbrev UnitFn (s₀ : State) := Cmd → EngM s₀ Bool

/-- A unit is made: the lines that have come for it are used up. -/
def engUsed : EngM s₀ Unit := do
  let c ← get
  engAct (dropLines (.engine c.core c.eng))

/-- Runs at most `n` units; answers whether the command has ended. -/
def runUnits (unit : EngM s₀ Bool) : Nat → EngM s₀ Bool
  | 0 => pure false
  | n + 1 => do
    let more ← unit
    engUsed
    if more then runUnits unit n else return true

/-- A synchronising operation of a command: an access of the engine, and to another module an active message that its receiving core
performs and answers (R452 to R454). -/
def engMessage (op : HomeOp) (ga : Word) : EngM s₀ Token := do
  let c ← get
  let s := c.run.s
  if gaModule ga = moduleOf c.core then
    let tg ← engTarget ga op.need true true
    match ← engAct (perform c.core c.cmd.slot op ga tg) with
    | .token t => return t
    | .failed => return .done
  else if s.nmod ≤ gaModule ga then return .trap Cause.pageFatal ga
  else match (s.engine c.core c.eng).reply with
    | some t =>
      engAct (modEngine c.core c.eng fun u => { u with reply := none })
      return t
    | none => throw (.message op ga)

/-- The signal of R316: an `stsf` of SEQ to SIGADDR; what keeps it from being performed is error 0x05. -/
def sendSignal : EngM s₀ Unit := do
  let c ← get
  let ga := w64 (8 * c.cmd.sigaddr.toNat)
  if !isShared ga ∧ !windowAccepts (gaOff ga) 8 .sync then throw (.error 5)
  else
    let t ← tryCatch (engMessage (.stsf (c.cmd.seq.zeroExtend 64)) ga) fun x => match x with
      | .error _ => throw (.error 5)
      | x => throw x
    match t with
    | .trap _ _ => throw (.error 5)
    | _ => pure ()

/-- The commands of a thread on an engine completed: its waits are woken (R313, R317). -/
def wakeEngine (L : Nat) (k : Fin 16) (e : Engine) : Act s₀ Unit := do
  match ((← now).thread L k).run with
  | .waiting (.engineQueue e') | .waiting (.engineDone e') => when_ (e = e') (wake L k)
  | _ => pure ()

/-- The thread that issued a command has not been followed by another in its slot (R27). -/
def State.issuerLives (s : State) (L : Nat) (c : Cmd) : Bool := (s.thread L c.slot).gen = c.gen

/-- Completion of the running command: its flags, its error, DONESEQ, its queue entry (R315, R318). A command of a thread whose slot
has been started again changes nothing of the new thread (R27). -/
def completeCommand (L : Nat) (e : Engine) (c : Cmd) (p : Prog) : Act s₀ Unit := do
  dropLines (.engine L e)
  when_ (e = .cpe) do
    dropLines (.copy L true)
    dropLines (.copy L false)
  modEngine L e fun u => { u with running := none, wait := .none, transferred := false, reply := none, spoiled := false }
  when_ ((← now).issuerLives L c) do
    modEngThread L c.slot e fun x => { x with
      flags := x.flags ||| p.flags, doneSeq := c.seq
      err := match x.err with
        | some old => some old
        | none => p.error }
    wakeEngine L c.slot e

/-- The writes of a command that REL awaits are performed at every replica (R289). -/
def State.replicasDone (s : State) (L : Nat) (e : Engine) (c : Cmd) : Bool :=
  c.scope.code < 4 || !s.copies.any fun (_, x) => x.core = L ∧ x.slot = c.slot ∧ x.gen = c.gen ∧ x.engine = some (e, c.seq)

/-- An engine's message to another module (R454). -/
def engineReq (L : Nat) (e : Engine) (c : Cmd) (op : HomeOp) (ga : Word) : Req where
  core := L
  slot := c.slot
  asid := c.asid
  op := op
  ga := ga
  awaited := false
  bytes := 0
  retired := true
  left := 0
  gen := c.gen
  answered := 0
  requeued := false
  engine := some e
  target := none
  stage := .sent
  combined := []

/-- What a command waits for at the point where it has stopped (R415, R454). -/
def awaitStop (L : Nat) (e : Engine) (c : Cmd) (x : EngStop) : Act s₀ Unit := do
  let wait (w : EngWait) : Act s₀ Unit := modEngine L e fun u => { u with wait := w }
  match x with
  | .walk f die kind => do
    wait .fault
    raiseFault die kind c.asid f L c.slot (.engine L e)
  | .transfer ga => wait (.transfer ga)
  | .returned => wait (.returned ((← now).ctl.now + 1024))
  | .message op ga => do
    let id ← freshId
    emit (.req id (some (engineReq L e c op ga)))
    wait (.message id)
  | .held | .away | .error _ => pure ()

/-- The end of a command: the REL wait, the error's entry, the signal, the completion (R316, R318). -/
def endCommand (L : Nat) (e : Engine) (c : Cmd) (p : Prog) : Act s₀ Unit := do
  let s ← now
  if c.rel && !s.replicasDone L e c then modEngine L e fun u => { u with running := some (c, { p with written := true }) }
  else
    when_ (p.error.isSome && s.issuerLives L c) (modEngThread L c.slot e fun x => { x with err := some (x.err.getD (p.error.getD 0)) })
    if c.sig && p.error ≠ some 5 then
      let r ← get
      let (res, ctx) := (sendSignal.run).run { run := r, core := L, eng := e, cmd := c, prog := { p with written := true } }
      set ctx.run
      match res with
      | .ok _ => completeCommand L e c p
      | .error (.error _) => completeCommand L e c { p with error := some (p.error.getD 5) }
      | .error x => do
        modEngine L e fun u => { u with running := some (c, { p with written := true }) }
        awaitStop L e c x
    else completeCommand L e c p

/-- Runs at most `n` units of the running command and settles what stops it. `ends` lets the command end. -/
def advanceCommand (unit : UnitFn s₀) (L : Nat) (e : Engine) (n : Nat) (ends : Bool) : Act s₀ Unit := do
  match ((← now).engine L e).running with
  | none => pure ()
  | some (c, p) =>
    if p.written ∨ p.error.isSome then when_ ends (endCommand L e c p)
    else
      let r ← get
      let (res, ctx) := ((runUnits (unit c) n).run).run { run := r, core := L, eng := e, cmd := c, prog := p }
      set ctx.run
      let p := ctx.prog
      modEngine L e fun u => { u with running := some (c, p), transferred := false }
      match res with
      | .ok true =>
        let p := { p with written := true }
        modEngine L e fun u => { u with running := some (c, p) }
        when_ ends (endCommand L e c p)
      | .ok false => pure ()
      | .error (.error code) =>
        let p := { p with error := some code }
        modEngine L e fun u => { u with running := some (c, p) }
        when_ ends (endCommand L e c p)
      | .error x => awaitStop L e c x

/-- The head of an engine's queue may start: nothing runs, and what ACQ awaits is performed (R289, R315). -/
def State.mayStart (s : State) (L : Nat) (e : Engine) : Bool :=
  let u := s.engine L e
  match u.running, u.queue with
  | none, c :: _ =>
    !c.acq ||
      (!(c.earlier.any fun id => s.isOpen id) &&
        (c.scope.code < 4 || !s.copies.any fun (_, x) => x.core = L ∧ x.slot = c.slot ∧ x.gen = c.gen) &&
        [Engine.mxe, .vxe, .cpe, .slu].all fun e' =>
          let v := s.engine L e'
          (v.queue.all fun d => d.slot ≠ c.slot || c.order ≤ d.order) &&
          match v.running with
          | some (d, _) => d.slot ≠ c.slot || c.order ≤ d.order
          | none => true)
  | _, _ => false

end Sys2Proof.Machine
end

