-- ==== Sys2Proof/Machine/Matrix.lean ====
section
/-! DEFINITION. The ternary matrix engine (R322 to R337): the checks of its four commands at issue, and their effects in units of
one output element. -/

namespace Sys2Proof.Machine

variable {s₀ : State}

/-! Rigging registers (R325, R326). -/

def mxM (g : Word) : Nat := field g 0 16
def mxN (g : Word) : Nat := field g 16 16
def mxK (g : Word) : Nat := field g 32 20
def mxGroup (mode : Word) : Nat := 32 * 2 ^ field mode 4 2
def mxNscale (mode : Word) : Nat := field mode 16 16
def mxAfmt (mode : Word) : Bool := bit mode 0
def hi32 (x : Word) : Nat := field x 32 32
def lo32 (x : Word) : Nat := field x 0 32

/-- A field from which an extent is computed is 0 (R327). -/
def anyZero (dims : List Nat) : Bool := dims.any fun d => d = 0

/-- An extent computed from dimensions; 0 when one of them is 0 (R327). -/
def extentOf (dims : List Nat) (n : Nat) : Nat := if anyZero dims then 0 else n

/-- Two runs of bytes given by their global addresses overlap. -/
def rangesOverlap (a n b m : Nat) : Bool := a < b + m && b < a + n && n ≠ 0 && m ≠ 0

/-- The first geometry rule that fails. -/
def firstReason : List (Nat × Bool) → Option Nat
  | [] => none
  | (r, bad) :: rest => if bad then some r else firstReason rest

/-- The checks of the matrix commands (R326 to R328). -/
def mxSpec (cmd : Nat) (_ : State) (_ : Nat) (t : Thread) : EngSpec :=
  let r := (t.engThread .mxe).rig
  let g := r.get 5
  let M := mxM g
  let N := mxN g
  let K := mxK g
  let ars := hi32 (r.get 6)
  let srs := lo32 (r.get 6)
  let crs := hi32 (r.get 7)
  let wcs := lo32 (r.get 7)
  let tg := r.get 8
  let pr := r.get 10
  let tgemm := cmd = 0
  let igemm := cmd = 1
  let promo := cmd = 2
  let out (reads : Bool) : Param :=
    { n := 4, extent := extentOf [M, N] ((M - 1) * crs + 4 * N), reads := reads, writes := true, esz := 4, zero := anyZero [M, N] }
  let rd (n : Fin 32) (esz : Nat) (dims : List Nat) (e : Nat) : Param :=
    { n := n, extent := extentOf dims e, reads := true, writes := false, esz := esz, zero := anyZero dims }
  let params : List Param :=
    if tgemm then
      [rd 0 1 [M, K] ((M - 1) * ars + K)] ++
      (if mxAfmt tg then [rd 1 1 [M, K] ((M - 1) * srs + ceilDiv K 32)] else []) ++
      [rd 2 1 [N, K] ((N - 1) * wcs + ceilDiv K 5), rd 3 2 [N] (2 * N * mxNscale tg), out true]
    else if igemm then
      [rd 0 1 [M, K] ((M - 1) * ars + K), rd 2 1 [N, K] ((N - 1) * wcs + K), out (bit (r.get 9) 0)]
    else if promo then
      [rd 0 4 [M, N] ((M - 1) * ars + 4 * N), out (bit pr 0)] ++
      (if bit pr 1 then [rd 12 4 [M] (4 * M)] else []) ++ (if bit pr 2 then [rd 13 4 [N] (4 * N)] else [])
    else [out false] ++ (if bit (r.get 11) 0 then [rd 14 4 [N] (4 * N)] else [])
  { params := params
    reserved := [(5, 0xFFF0000000000000)] ++
      (if tgemm then [(8, 0xFFFFFFFF0000FFCE)] else if igemm then [(9, 0xFFFFFFFFFFFFFFFE)]
       else if promo then [(10, 0xFFFFFFFFFFFFFFF8)] else [(11, 0xFFFFFFFFFFFFFFFE)])
    geometry := fun ga =>
      let inPlace := promo && ga 0 = ga 4 && ars = crs
      firstReason [
        (0x10, M = 0 || ((tgemm || igemm) && 32 < M)),
        (0x11, N = 0),
        (0x12, (tgemm && K = 0) || (igemm && (K = 0 || 131071 < K))),
        (0x13, tgemm && mxNscale tg ≠ ceilDiv K (mxGroup tg)),
        (0x14, crs % 4 ≠ 0 || (1 < M && crs < 4 * N)),
        (0x15, !inPlace && params.any fun p =>
          p.n ≠ 4 && rangesOverlap (ga 4) (out false).extent (ga p.n) p.extent)] }

/-! The chain of R308. -/

/-- A trit of a PT5 byte (R299). -/
def trit (b : Byte) (i : Nat) : Int := (pt5 b i : Int) - 1

/-- The dot product of signed bytes with integers. -/
def dot (qs : List Byte) (ts : List Int) : Int := ((qs.zip ts).map fun (q, t) => q.toInt * t).foldr (fun a b => a + b) 0

def accOf (p : Prog) (key : Nat) : Acc := (look p.acc key).getD { w := 0, nan := false, run := 0 }

def setAcc (key : Nat) (x : Acc) : EngM s₀ Unit := modProg fun p => { p with acc := put p.acc key x }

/-- A NaN that arises from values that are none. -/
def bornNan (r : Num) (ins : List Num) : Bool := r.isNan && !ins.any fun x => x.isNan

/-- The end of a group: its value is rounded, scaled and added to the running sum (R308, R309). -/
def endGroup (key : Nat) (scale : Num) : EngM s₀ Unit := do
  let acc := accOf (← prog) key
  let v : Num := if acc.nan then .nan false else Num.ofInt acc.w (-133) false
  let (v, f1) := rneF26 v
  let prod := (Num.mul v scale).1
  let (s, f2) := rneF26 prod
  let run := f26Num acc.run
  let sum := (Num.add 0 run s).1
  let (r, f3) := rneF26 sum
  let nv := acc.nan || scale.isNan || bornNan prod [v, scale] || bornNan sum [run, s]
  setFmt (f1 ||| f2 ||| f3 ||| (if nv then 8 else 0))
  setAcc key { w := 0, nan := false, run := f26Bits r }

/-! Operands of a window, as the array holds them (R322, R323, R330). -/

/-- Positions of window `w` below K. -/
def windowLength (K w : Nat) : Nat := min 160 (K - 160 * w)

/-- The bytes of a column's weights in a window, and its group scales. -/
def weightRun (c : Cmd) (blk w i : Nat) : EngM s₀ (List Byte × List Nat) := do
  let K := mxK (c.rig.get 5)
  let k0 := 160 * w
  let n := windowLength K w
  let col := 32 * blk + i
  let base := (c.rig.get 2).toNat + col * lo32 (c.rig.get 7)
  if c.cmd = 0 then
    let mode := c.rig.get 8
    let G := mxGroup mode
    let bs ← engBytes (base + 32 * w) (ceilDiv (k0 + n) 5 - 32 * w)
    let scales ← (List.range (ceilDiv (k0 + n) G - k0 / G)).mapM fun j =>
      engRead (w64 ((c.rig.get 3).toNat + 2 * (col * mxNscale mode + k0 / G + j))) 2
    return (bs, scales)
  else return (← engBytes (base + k0) n, [])

/-- The activations of a row in a window, and their exponents. -/
def activationRun (c : Cmd) (w m : Nat) : EngM s₀ (List Byte × List Nat) := do
  let n := windowLength (mxK (c.rig.get 5)) w
  let qs ← engBytes ((c.rig.get 0).toNat + m * hi32 (c.rig.get 6) + 160 * w) n
  if c.cmd = 0 && mxAfmt (c.rig.get 8) then
    let es ← engBytes ((c.rig.get 1).toNat + m * lo32 (c.rig.get 6) + 5 * w) (ceilDiv n 32)
    return (qs, es.map fun b => b.toNat)
  else return (qs, [])

/-- What is held of a window's operands, if it is that window's. -/
def heldTile (x : Option Tile) (blk w : Nat) : Tile :=
  match x with
  | some t => if t.block = blk ∧ t.window = w then t else { block := blk, window := w, runs := [] }
  | none => { block := blk, window := w, runs := [] }

/-- The buffer of a window: windows take the two buffers in turn. -/
def tileSlot (NW blk w : Nat) : Fin 2 := Fin.ofNat 2 (blk * NW + w)

/-- Columns of a column block. -/
def blockColumns (N blk : Nat) : Nat := min 32 (N - 32 * blk)

/-- Loads the next column of a window's weight tile; false when the tile is complete. -/
def loadColumn (c : Cmd) (blk w : Nat) : EngM s₀ Bool := do
  let g := c.rig.get 5
  let i := tileSlot (ceilDiv (mxK g) 160) blk w
  let t := heldTile ((← prog).tiles.get i) blk w
  if blockColumns (mxN g) blk ≤ t.runs.length then return false
  else
    let run ← weightRun c blk w t.runs.length
    modProg fun p => { p with tiles := vset p.tiles i (some { t with runs := t.runs ++ [run] }) }
    return true

/-- Loads the activations of the next row of a window; false when all are held. -/
def loadRow (c : Cmd) (blk w : Nat) : EngM s₀ Bool := do
  let t := heldTile (← prog).rows blk w
  if mxM (c.rig.get 5) ≤ t.runs.length then return false
  else
    let run ← activationRun c w t.runs.length
    modProg fun p => { p with rows := some { t with runs := t.runs ++ [run] } }
    return true

/-- Loads a column of the next window's tile into the other buffer. What keeps it from being read is met when that window begins
(R335). -/
def preload (c : Cmd) : EngM s₀ Unit := do
  let p ← prog
  let g := c.rig.get 5
  let NW := ceilDiv (mxK g) 160
  let (blk, w) := if p.w + 1 < NW then (p.c, p.w + 1) else (p.c + 1, 0)
  if blk < ceilDiv (mxN g) 32 then
    tryCatch (do let _ ← loadColumn c blk w) fun _ => pure ()
  else pure ()

/-- The operands of the present window are held before its first addition; a bad code is then seen (R299, R335). True while one more
run has to be read. -/
def loadWindow (c : Cmd) : EngM s₀ Bool := do
  let p ← prog
  if ← loadColumn c p.c p.w then return true
  else if ← loadRow c p.c p.w then
    let p ← prog
    let t := heldTile (p.tiles.get (tileSlot (ceilDiv (mxK (c.rig.get 5)) 160) p.c p.w)) p.c p.w
    let done := mxM (c.rig.get 5) ≤ (heldTile p.rows p.c p.w).runs.length
    setFmt (if done && c.cmd = 0 && (t.runs.any fun r => r.1.any fun b => 243 ≤ b.toNat) then 1 else 0)
    return true
  else return false

/-- The runs of the present element: its column's and its row's. -/
def elementRuns (c : Cmd) (p : Prog) : (List Byte × List Nat) × (List Byte × List Nat) :=
  let t := heldTile (p.tiles.get (tileSlot (ceilDiv (mxK (c.rig.get 5)) 160) p.c p.w)) p.c p.w
  (t.runs.getD p.n ([], []), (heldTile p.rows p.c p.w).runs.getD p.m ([], []))

/-- One block of the chain of the present element, with what its group's end brings; answers the group whose promotion is then due
(R308). W is an unbounded integer: one that a record brings near its 272-bit bound is added to without a wrap (R306, log 93). -/
def chainBlock (c : Cmd) (key b : Nat) : EngM s₀ (Option Nat) := do
  let p ← prog
  let (weights, row) := elementRuns c p
  let K := mxK (c.rig.get 5)
  let mode := c.rig.get 8
  let G := mxGroup mode
  let n := min 32 (K - 32 * b)
  let off := 32 * b - 160 * p.w
  let qs := (row.1.drop off).take n
  let ts := (List.range n).map fun i => trit (weights.1.getD ((off + i) / 5) 0) ((off + i) % 5)
  let e := if mxAfmt mode then row.2.getD (b - 5 * p.w) 0 else 133
  let acc := accOf p key
  if e = 255 then setAcc key { acc with nan := true } else setAcc key { acc with w := acc.w + dot qs ts * 2 ^ e }
  let last := min K ((32 * b / G + 1) * G)
  if last ≤ 32 * b + n then
    let grp := 32 * b / G
    endGroup key (bf16.unpack (weights.2.getD (grp - 160 * p.w / G) 0))
    return if (grp + 1) % c.mxpromo.toNat = 0 ∨ last = K then some grp else none
  else return none

/-- The blocks of the chain up to a promotion that falls due. -/
def chainBlocks (c : Cmd) (key : Nat) : List Nat → EngM s₀ (Option Nat)
  | [] => pure none
  | b :: rest => do
    match ← chainBlock c key b with
    | some g => return some g
    | none => chainBlocks c key rest

/-- The next element of a window, the next window, the next column block. -/
def nextElement (M cols NW : Nat) (p : Prog) : Prog :=
  if p.n + 1 < cols then { p with n := p.n + 1 }
  else if p.m + 1 < M then { p with n := 0, m := p.m + 1 }
  else if p.w + 1 < NW then { p with n := 0, m := 0, w := p.w + 1 }
  else { p with n := 0, m := 0, w := 0, c := p.c + 1, acc := [] }

/-- The chain of the present element goes on over some blocks of the window: to a promotion, or to the next element. -/
def advanceChain (c : Cmd) (key : Nat) (blocks : List Nat) : EngM s₀ Unit := do
  let g := c.rig.get 5
  match ← chainBlocks c key blocks with
  | some grp => modProg fun p => { p with atElement := true, g := grp }
  | none =>
    let p ← prog
    modProg fun p => nextElement (mxM g) (blockColumns (mxN g) p.c) (ceilDiv (mxK g) 160) { p with atElement := false, g := 0 }
    if p.n = 0 ∨ p.m = 0 then preload c else pure ()

/-- The value that a promotion gives C(m, n), with its flags (R308). -/
def promoted (old run : Num) : Nat × FmtFlags :=
  let (sum, _) := Num.add 0 old run
  let (bits, e) := fp32.pack 0 sum
  (bits, if old.isNan then 0 else (if bornNan sum [old, run] then 8 else 0) ||| (if e &&& Exc.of ≠ 0 then 4 else 0))

/-- A unit of `mx.tgemm` (R330): the reading of a run of operands, an element's chain up to a promotion, a promotion's read of
C(m, n), or its write. -/
def tgemmUnit (c : Cmd) : EngM s₀ Bool := do
  let p ← prog
  let g := c.rig.get 5
  if ceilDiv (mxN g) 32 ≤ p.c then return false
  else if ← loadWindow c then return true
  else
    let p ← prog
    let key := 32 * p.m + p.n
    let ga := w64 ((c.rig.get 4).toNat + p.m * hi32 (c.rig.get 7) + 4 * (32 * p.c + p.n))
    let blocks := (List.range (min (5 * p.w + 5) (ceilDiv (mxK g) 32) - 5 * p.w)).map fun i => 5 * p.w + i
    match p.atElement, p.pending with
    | true, none =>
      let old := fp32.unpack (← engRead ga 4)
      modProg fun p => { p with pending := some (promoted old (f26Num (accOf p key).run)) }
    | true, some (bits, f) =>
      engWriteClean ga 4 bits
      setFmt f
      setAcc key { accOf p key with run := 0 }
      modProg fun p => { p with pending := none }
      advanceChain c key (blocks.filter fun b => (p.g + 1) * mxGroup (c.rig.get 8) ≤ 32 * b)
    | false, _ =>
      if p.w = 0 then setAcc key { w := 0, nan := false, run := 0 } else pure ()
      advanceChain c key blocks
    return true

/-- A unit of `mx.igemm` (R331): the reading of a run of operands, an element's additions in a window, or, after the last window of a
block, the read of an output that is added to, or its write. The digit planes of R307 sum to the operand, exactly; an accumulator's
unit is 2^-133 (R306). -/
def igemmUnit (c : Cmd) : EngM s₀ Bool := do
  let p ← prog
  let g := c.rig.get 5
  let NW := ceilDiv (mxK g) 160
  if ceilDiv (mxN g) 32 ≤ p.c then return false
  else
    let key := 32 * p.m + p.n
    let next : EngM s₀ Unit := modProg fun p => nextElement (mxM g) (blockColumns (mxN g) p.c) (NW + 1) p
    if p.w < NW then
      if ← loadWindow c then return true
      else
        let p ← prog
        let (weights, row) := elementRuns c p
        let acc := if p.w = 0 then { w := 0, nan := false, run := 0 } else accOf p key
        setAcc key { acc with w := acc.w + dot row.1 (weights.1.map fun b => b.toInt) * 2 ^ 133 }
        next
        if p.n = 0 ∨ p.m = 0 then preload c else pure ()
    else
      modProg fun p => { p with atElement := true }
      let ga := w64 ((c.rig.get 4).toNat + p.m * hi32 (c.rig.get 7) + 4 * (32 * p.c + p.n))
      let v := (accOf p key).w / 2 ^ 133
      match bit (c.rig.get 9) 0, p.pending with
      | true, none =>
        let old ← engRead ga 4
        modProg fun p => { p with pending := some (((v + old) % 2 ^ 32).toNat, 0) }
      | acc, x =>
        engWriteClean ga 4 (if acc then (x.map fun y => y.1).getD 0 else (v % 2 ^ 32).toNat)
        modProg fun p => { p with atElement := false, pending := none }
        next
    return true

/-- The value of an element of `mx.promo` from its source, its scales and the output's old value, with its flags (R332). -/
def promoValue (acc : Bool) (i s q old : Nat) : Nat × FmtFlags :=
  let s := fp32.unpack s
  let q := fp32.unpack q
  let iv := Num.ofInt (signed 32 i) 0 false
  let x1 := (Num.mul iv s).1
  let x := (Num.mul x1 q).1
  let old := fp32.unpack old
  let y := if acc then (Num.add 0 old x).1 else x
  let (bits, e) := fp32.pack 0 y
  let nv := s.isNan || q.isNan || bornNan x1 [iv, s] || bornNan x [x1, q] || (acc && bornNan y [old, x])
  (bits, (if nv then 8 else 0) ||| (if e &&& Exc.of ≠ 0 then 4 else 0))

/-- A unit of `mx.promo` (R332): an element's reads, or its write. -/
def promoUnit (c : Cmd) : EngM s₀ Bool := do
  let p ← prog
  let g := c.rig.get 5
  if mxM g ≤ p.m then return false
  else
    modProg fun p => { p with atElement := true }
    let mode := c.rig.get 10
    let ga := w64 ((c.rig.get 4).toNat + p.m * hi32 (c.rig.get 7) + 4 * p.n)
    match p.pending with
    | none =>
      let i ← engRead (w64 ((c.rig.get 0).toNat + p.m * hi32 (c.rig.get 6) + 4 * p.n)) 4
      let s ← if bit mode 1 then engRead (w64 ((c.rig.get 12).toNat + 4 * p.m)) 4 else pure 0x3F800000
      let q ← if bit mode 2 then engRead (w64 ((c.rig.get 13).toNat + 4 * p.n)) 4 else pure 0x3F800000
      let old ← if bit mode 0 then engRead ga 4 else pure 0
      modProg fun p => { p with pending := some (promoValue (bit mode 0) i s q old) }
    | some (bits, f) =>
      engWriteClean ga 4 bits
      setFmt f
      modProg fun p => { p with atElement := false, pending := none }
      modProg fun p => if p.n + 1 < mxN g then { p with n := p.n + 1 } else { p with n := 0, m := p.m + 1 }
    return true

/-- One element of `mx.clr` (R333). -/
def clrUnit (c : Cmd) : EngM s₀ Bool := do
  let p ← prog
  let g := c.rig.get 5
  if mxM g ≤ p.m then return false
  else
    modProg fun p => { p with atElement := true }
    let v ← if bit (c.rig.get 11) 0 then engRead (w64 ((c.rig.get 14).toNat + 4 * p.n)) 4 else pure 0
    engWriteClean (w64 ((c.rig.get 4).toNat + p.m * hi32 (c.rig.get 7) + 4 * p.n)) 4 v
    modProg fun p => { p with atElement := false }
    modProg fun p => if p.n + 1 < mxN g then { p with n := p.n + 1 } else { p with n := 0, m := p.m + 1 }
    return true

/-- The units of the matrix commands. -/
def mxUnit (c : Cmd) : EngM s₀ Bool :=
  match c.cmd with
  | 0 => tgemmUnit c
  | 1 => igemmUnit c
  | 2 => promoUnit c
  | _ => clrUnit c

/-- The sub-arrays a command needs (R336). -/
def mxNeeds (c : Cmd) (s : Nat) : Bool := c.cmd ≤ 1 && 8 * s < min 32 (mxN (c.rig.get 5))

/-- A command stands at a restartable point of R337. -/
def mxRestartable (c : Cmd) (p : Prog) : Bool :=
  if c.cmd ≤ 1 then p.m = 0 && p.n = 0 && !p.atElement else p.n = 0 && !p.atElement

/-- Issue. Ternary product into FP32. (R313, R330) -/
def attMxTgemm (x : EngArgs) : Att s₀ Next := issueCommand .mxe 0 x (mxSpec 0)

/-- `mxTgemm`: one attempt of its issue (R313, R330). -/
def execMxTgemm (x : EngArgs) (st : State) : Host.Outcome State Fault Refusal := issue (.mxTgemm x) st (attMxTgemm x)

/-- Issue. Exact INT8 product. (R313, R331) -/
def attMxIgemm (x : EngArgs) : Att s₀ Next := issueCommand .mxe 1 x (mxSpec 1)

/-- `mxIgemm`: one attempt of its issue (R313, R331). -/
def execMxIgemm (x : EngArgs) (st : State) : Host.Outcome State Fault Refusal := issue (.mxIgemm x) st (attMxIgemm x)

/-- Issue. Scaling of INT32 into FP32. (R313, R332) -/
def attMxPromo (x : EngArgs) : Att s₀ Next := issueCommand .mxe 2 x (mxSpec 2)

/-- `mxPromo`: one attempt of its issue (R313, R332). -/
def execMxPromo (x : EngArgs) (st : State) : Host.Outcome State Fault Refusal := issue (.mxPromo x) st (attMxPromo x)

/-- Issue. Fill of a tile. (R313, R333) -/
def attMxClr (x : EngArgs) : Att s₀ Next := issueCommand .mxe 3 x (mxSpec 3)

/-- `mxClr`: one attempt of its issue (R313, R333). -/
def execMxClr (x : EngArgs) (st : State) : Host.Outcome State Fault Refusal := issue (.mxClr x) st (attMxClr x)

end Sys2Proof.Machine
end

