-- ==== Sys2Proof/Machine/Vector.lean ====
section
/-! DEFINITION. The vector engine (R338 to R360): the checks of its commands at issue, the functions of an element, and its
commands in units of an element, a block, a row or an output. -/

namespace Sys2Proof.Machine

variable {s₀ : State}

/-! Types (R342). -/

def vtFloat (t : Nat) : Bool := t < 3
def vtInt (t : Nat) : Bool := 8 ≤ t && t < 16

def vtFp (t : Nat) : Fp := if t = 0 then fp32 else if t = 1 then fp16 else bf16

def vtIntTy (t : Nat) : IntTy :=
  match t with
  | 8 => .b | 9 => .h | 10 => .s | 11 => .w | 12 => .bn | 13 => .hn | 14 => .sn | _ => .wn

/-- Bytes of an element; 1 for INT4 and binary as an element size of R343, 0 for a code without a type. -/
def vtSize (t : Nat) : Nat :=
  match t with
  | 0 | 10 | 14 => 4
  | 1 | 2 | 9 | 13 => 2
  | 3 | 4 | 8 | 12 => 1
  | 11 | 15 => 8
  | _ => 0

/-- Bytes of a row (R342). -/
def rowBytes (t L : Nat) : Nat := if t = 3 then ceilDiv L 2 else if t = 4 then ceilDiv L 8 else L * vtSize t

/-! Field registers (R340, R341). -/

structure VGeom where
  rows : Nat
  len : Nat
  xrs : Nat
  yrs : Nat
  zrs : Nat
  drs : Nat
  fn : Nat
  nfg : Bool
  bz : Bool
  bY : Bool
  dt : Nat
  xt : Nat
  sat : Bool
  rm : Nat
  nv : Nat

def vGeom (r : Vector Word 32) : VGeom where
  rows := field (r.get 4) 32 16
  len := field (r.get 4) 0 24
  xrs := hi32 (r.get 5)
  yrs := lo32 (r.get 5)
  zrs := hi32 (r.get 6)
  drs := lo32 (r.get 6)
  fn := field (r.get 7) 16 8
  nfg := bit (r.get 7) 14
  bz := bit (r.get 7) 13
  bY := bit (r.get 7) 12
  dt := field (r.get 7) 8 4
  xt := field (r.get 7) 4 4
  sat := bit (r.get 7) 3
  rm := field (r.get 7) 0 3
  nv := lo32 (r.get 8)

/-- Commands by their code (R338). -/
def vHasY (cmd : Nat) : Bool := cmd ≤ 5 || cmd = 0xE || cmd = 0xF
def vHasZ (cmd : Nat) : Bool := cmd = 3 || cmd = 0xF
def vElementwise (cmd : Nat) : Bool := cmd ≤ 7 || cmd = 0xA || cmd = 0xB || 0xE ≤ cmd

/-- The codes that R345 lists for XT of a command; `vx.fill` does not use it, and 5 to 7 are refused by every command (R342). -/
def vXtListed (cmd : Nat) (g : VGeom) : Bool :=
  if cmd = 0x10 then g.xt < 5 || 8 ≤ g.xt
  else if cmd = 0xD then (if g.fn = 3 then g.xt = 4 else g.xt = 3 || g.xt = 4 || g.xt = 8)
  else if cmd = 8 || cmd = 0xA || cmd = 0xB || cmd = 0xC then vtFloat g.xt
  else vtFloat g.xt || vtInt g.xt

/-- The codes that R345 lists for DT. -/
def vDtListed (cmd : Nat) (g : VGeom) : Bool :=
  if cmd = 8 || cmd = 0xE then g.dt = 8
  else if cmd = 0xA || cmd = 0xB || cmd = 0xC then vtFloat g.dt
  else if cmd = 0xD then (if g.fn = 2 then g.dt = 0 else if g.fn < 4 then g.dt = 10 else g.dt = 0 || g.dt = 10)
  else vtFloat g.dt || vtInt g.dt

/-- The relations of XT and DT that R345 allows. -/
def vTypesAgree (cmd : Nat) (g : VGeom) : Bool :=
  if cmd = 7 then g.xt ≠ g.dt
  else if cmd = 9 then
    (if g.fn = 0 ∨ g.fn = 3 then
      (if vtFloat g.xt then vtFloat g.dt else g.dt = 10 || g.dt = 11 || g.dt = 14 || g.dt = 15)
    else if g.fn < 4 then g.xt = g.dt else true)
  else if cmd = 8 || cmd = 0xC || cmd = 0xD || cmd = 0xE || cmd = 0x10 then true
  else g.xt = g.dt

/-- FN is a value that the command assigns. -/
def vFnAssigned (cmd fn : Nat) : Bool :=
  if cmd = 0xE then fn ≤ 5 else if cmd = 0xA || cmd = 0xC then fn ≤ 1 else if cmd = 9 || cmd = 0xD then fn ≤ 3 else fn = 0

/-- Bytes of one row of D. -/
def vDRow (cmd : Nat) (g : VGeom) : Nat :=
  if cmd = 9 then vtSize g.dt else if cmd = 0xD then 4 * g.nv else rowBytes g.dt g.len

/-- The checks of the vector commands (R341 to R345). A type code without a size counts as 0 bytes in an extent (log 95). -/
def vxSpec (cmd : Nat) (_ : State) (_ : Nat) (t : Thread) : EngSpec :=
  let r := (t.engThread .vxe).rig
  let g := vGeom r
  let dist := cmd = 0xD
  let quant := cmd = 8
  let zt := if cmd = 0xF then 8 else g.xt
  let src (n : Fin 32) (count rs bytes esz : Nat) : Param :=
    { n := n, extent := extentOf [count, g.len] ((count - 1) * rs + bytes), reads := true, writes := false, esz := max 1 esz
      zero := anyZero [count, g.len] }
  let dst (n : Fin 32) (rs bytes esz : Nat) (dims : List Nat) : Param :=
    { n := n, extent := extentOf dims ((g.rows - 1) * rs + bytes), reads := false, writes := true, esz := max 1 esz, zero := anyZero dims }
  let xs := if cmd = 0x10 then [] else [src 0 g.rows g.xrs (rowBytes g.xt g.len) (vtSize g.xt)]
  let ys :=
    if dist then [src 1 g.nv g.yrs (rowBytes g.xt g.len) (vtSize g.xt)]
    else if vHasY cmd && !g.bY then [src 1 g.rows g.yrs (rowBytes g.xt g.len) (vtSize g.xt)] else []
  let zIn := if vHasZ cmd && !g.bz then [src 2 g.rows g.zrs (rowBytes zt g.len) (vtSize zt)] else []
  let zOut := if quant then [dst 2 g.zrs (ceilDiv g.len 32) 1 [g.rows, g.len]] else []
  let ds := [dst 3 g.drs (vDRow cmd g) (vtSize g.dt) (if dist then [g.rows, g.nv] else if cmd = 9 then [g.rows] else [g.rows, g.len])]
  let nf : List Param := if g.nfg then [{ n := 9, extent := 8, reads := true, writes := true, esz := 8 }] else []
  { params := xs ++ ys ++ zIn ++ zOut ++ ds ++ nf
    reserved := [(4, 0xFFFF0000FF000000), (7, 0xFFFFFFFFFF008000)] ++ (if dist then [(8, 0xFFFFFFFF00000000)] else [])
    geometry := fun ga =>
      let stride (n : Fin 32) : Nat := if n = 0 then g.xrs else if n = 1 then g.yrs else g.zrs
      let sources := xs ++ ys ++ zIn
      let outs := zOut ++ ds
      let clash (p q : Param) : Bool := rangesOverlap (ga p.n) p.extent (ga q.n) q.extent
      let inPlace (d x : Param) : Bool :=
        vElementwise cmd && d.n = 3 && ga 3 = ga x.n && g.drs = stride x.n && d.esz = x.esz
      firstReason [
        (0x10, g.rows = 0 || g.len = 0 || (dist && g.nv = 0)),
        (0x11, dist && (16 < g.rows || (g.xt = 8 && 32768 < g.len) || ((g.xt = 3 || g.xt = 4) && 65536 < g.len))),
        (0x12, !vXtListed cmd g || !vDtListed cmd g),
        (0x13, !vTypesAgree cmd g),
        (0x14, 5 ≤ g.rm || (cmd = 0xC && g.rm ≠ 0)),
        (0x15, !vFnAssigned cmd g.fn || (g.bY && !vHasY cmd) || (g.bz && !vHasZ cmd)),
        (0x16, 1 < g.rows && (g.drs < vDRow cmd g || (quant && g.zrs < ceilDiv g.len 32))),
        (0x17, (outs.any fun d => sources.any fun x => clash d x && !inPlace d x) ||
          (nf.any fun q => (outs ++ sources).any fun p => clash q p))] }

/-! Functions of elements (R346 to R352). An element is its bits; a result comes with its NONFIN. -/

def finiteBits (t bits : Nat) : Bool :=
  match (vtFp t).unpack bits with
  | .fin _ _ _ => true
  | _ => false

/-- The value of an integer element. -/
def intVal (t bits : Nat) : Int := ofIntTy (vtIntTy t) (w64 bits)

/-- An exact integer as an element (R347). -/
def intBits (t : Nat) (sat : Bool) (v : Int) : Nat :=
  let ty := vtIntTy t
  let v := if sat then max (IntTy.lo ty) (min (IntTy.hi ty) v) else v
  (v % 2 ^ IntTy.bits ty).toNat

def floatRes (t bits : Nat) : Nat × Bool := (bits, !finiteBits t bits)

/-- ln 2 from below in units of 2^-P, from the series of 1 / (k * 2^k). -/
def ln2Below (P : Nat) : Nat := ((List.range (P + 8)).map fun i => 2 ^ P / ((i + 1) * 2 ^ (i + 1))).foldr (fun a b => a + b) 0

/-- e^r from below and above in units of 2^-P, for r in units of 2^-P from below and above and less than 1. -/
def expBelow (P : Nat) (r : Nat) : Nat → Nat → Nat → Nat
  | 0, _, _ => 0
  | fuel + 1, i, term => if term = 0 then 0 else term + expBelow P r fuel (i + 1) (term * r / 2 ^ P / (i + 1))

/-- Bits of the working precision of `expNum`. -/
def expPrec : Nat := 400

/-- Bounds of e^x or 2^x for a finite nonzero x: two values with one exponent, the exact value between them. Values far outside
every format stand as huge or tiny values, and values next to 1 as 1 with a small part of the sign of x (R352). -/
def expBounds (base2 : Bool) (neg : Bool) (sig : Nat) (exp : Int) : Nat × Nat × Int :=
  let P := expPrec
  let top := exp + bitLength sig
  if top < -40 then
    let v := if neg then 2 ^ 100 - 1 else 2 ^ 100 + 1
    (v, v, -100)
  else if 12 < top then (3, 3, if neg then -2000 else 2000)
  else
    let x : Int := scaled neg (sig * 2 ^ (P + exp).toNat) 0 0
    let lo := ln2Below P
    let hi := lo + P + 9
    if base2 then
      let n := x / 2 ^ P
      let f := (x % 2 ^ P).toNat
      let a := expBelow P (f * lo / 2 ^ P) 200 0 (2 ^ P)
      let b := expBelow P (f * hi / 2 ^ P + 1) 200 0 (2 ^ P) + 1000
      if f = 0 then (2 ^ P, 2 ^ P, n - P) else (a, b, n - P)
    else
      let n := x / lo
      let rhi := (x - n * lo).toNat
      let slack := n.natAbs * (P + 9)
      let a := expBelow P (rhi - slack) 200 0 (2 ^ P)
      let b := expBelow P (rhi + slack) 200 0 (2 ^ P) + 1000
      (a, b, n - P)

/-- e^x (FN 0) or 2^x (FN 1), rounded once (R352). -/
def expFp (fmt fn rm bits : Nat) : Nat :=
  let f := vtFp fmt
  match f.unpack bits with
  | .nan _ => f.nan
  | .inf neg => if neg then 0 else f.infBits
  | .fin neg sig exp =>
    if sig = 0 then (f.pack rm (.fin false 1 0)).1
    else
      let (a, b, e) := expBounds (fn = 1) neg sig exp
      let x := (f.round rm false a e).1
      if x = (f.round rm false b e).1 then x else Config.expBits fn fmt rm bits

/-- 1 / sqrt x, rounded once (R352). -/
def rsqFp (fmt rm bits : Nat) : Nat :=
  let f := vtFp fmt
  match f.unpack bits with
  | .nan _ => f.nan
  | .inf neg => if neg then f.nan else 0
  | .fin neg sig exp =>
    if sig = 0 then f.signed neg f.infBits
    else if neg then f.nan
    else
      let s := sig * 2 ^ (exp % 2).toNat
      let n := 2 ^ 240
      let q := isqrt (n / s)
      (f.round rm false (2 * q + (decide (q * q * s ≠ n)).toNat) (-120 - (exp - exp % 2) / 2 - 1)).1

/-- A conversion of an element (R350). -/
def cvtElem (xt dt : Nat) (sat : Bool) (rm x : Nat) : Nat × Bool :=
  if vtFloat xt then
    let v := (vtFp xt).unpack x
    if vtFloat dt then floatRes dt ((vtFp dt).pack rm v).1
    else (intBits dt false (toIntTy (vtIntTy dt) rm v).1, !finiteBits xt x)
  else
    let v := intVal xt x
    if vtFloat dt then floatRes dt ((vtFp dt).pack rm (Num.ofInt v 0 false)).1 else (intBits dt sat v, false)

/-- The predicates of `vx.cmp` (R351). -/
def cmpPred (fn : Nat) (o : Ordering) : Bool :=
  match fn with
  | 0 => o = .eq
  | 1 => o ≠ .eq
  | 2 => o = .lt
  | 3 => o ≠ .gt
  | 4 => o = .gt
  | _ => o ≠ .lt

def cmpElem (xt fn x y : Nat) : Nat :=
  if vtFloat xt then
    let a := (vtFp xt).unpack x
    let b := (vtFp xt).unpack y
    if a.isNan || b.isNan then (decide (fn = 1)).toNat else (cmpPred fn (a.cmp b)).toNat
  else (cmpPred fn (compare (intVal xt x) (intVal xt y))).toNat

/-- F of R349 for the commands with one function per element. -/
def elementFn (cmd : Nat) (g : VGeom) (x y z : Nat) : Nat × Bool :=
  let f := vtFp g.xt
  let fl (v : FpRes) : Nat × Bool := floatRes g.xt v.1
  let i (v : Int) : Nat × Bool := (intBits g.dt g.sat v, false)
  let X := intVal g.xt x
  let Y := intVal g.xt y
  let Z := intVal g.xt z
  match cmd with
  | 0 => if vtFloat g.xt then fl (f.add g.rm x y) else i (X + Y)
  | 1 => if vtFloat g.xt then fl (f.sub g.rm x y) else i (X - Y)
  | 2 => if vtFloat g.xt then fl (f.mul g.rm x y) else i (X * Y)
  | 3 => if vtFloat g.xt then fl (f.fma g.rm false x y z) else i (X * Y + Z)
  | 4 => if vtFloat g.xt then fl (f.minmax false x y) else i (min X Y)
  | 5 => if vtFloat g.xt then fl (f.minmax true x y) else i (max X Y)
  | 6 =>
    if vtFloat g.xt then floatRes g.xt (if (f.unpack x).isNan then f.nan else x % 2 ^ (f.width - 1)) else i X.natAbs
  | 7 => cvtElem g.xt g.dt g.sat g.rm x
  | 0xA => floatRes g.xt (expFp g.xt g.fn g.rm x)
  | 0xB => floatRes g.xt (rsqFp g.xt g.rm x)
  | 0xE => (cmpElem g.xt g.fn x y, false)
  | 0xF =>
    let v := if z % 256 ≠ 0 then x else y
    (v, vtFloat g.xt && !finiteBits g.xt v)
  | _ => (x, vtFloat g.dt && !finiteBits g.dt x)

/-! Units. -/

def setNonfin (b : Bool) : EngM s₀ Unit := setFmt (if b then 16 else 0)

/-- The low bits of a scalar operand as an element (R339). -/
def scalarElem (t : Nat) (v : Word) : Nat := v.toNat % 2 ^ (8 * vtSize t)

/-- The gather write of R348, after the last element. -/
def gatherNonfin (c : Cmd) : EngM s₀ Bool := do
  let p ← prog
  let g := vGeom c.rig
  if g.nfg && bit p.flags 4 && !p.sent then
    match ← engMessage (.amo 2 (c.rig.get 10)) (c.rig.get 9) with
    | .trap cause _ => throw (.error (engError cause))
    | _ =>
      modProg fun p => { p with sent := true }
      return true
  else return false

/-- One element of an elementwise command (R349). -/
def elementUnit (c : Cmd) : EngM s₀ Bool := do
  let p ← prog
  let g := vGeom c.rig
  let at_ (n : Fin 32) (rs sz : Nat) : Word := w64 ((c.rig.get n).toNat + p.m * rs + p.w * sz)
  if g.rows ≤ p.m then gatherNonfin c
  else
    let sz := vtSize g.xt
    let zt := if c.cmd = 0xF then 8 else g.xt
    let x ← if c.cmd = 0x10 then pure (scalarElem g.dt c.a) else engRead (at_ 0 g.xrs sz) sz
    let y ← if !vHasY c.cmd then pure 0 else if g.bY then pure (scalarElem g.xt c.a) else engRead (at_ 1 g.yrs sz) sz
    let z ← if !vHasZ c.cmd then pure 0
      else if g.bz then pure (scalarElem zt c.b) else engRead (at_ 2 g.zrs (vtSize zt)) (vtSize zt)
    let (v, nf) := elementFn c.cmd g x y z
    engWrite (at_ 3 g.drs (vtSize g.dt)) (vtSize g.dt) v
    setNonfin nf
    modProg fun p => if p.w + 1 < g.len then { p with w := p.w + 1 } else { p with w := 0, m := p.m + 1 }
    return true

/-- The exponent of R353 for the greatest magnitude of a block, and its elements. -/
def quantBlock (rm : Nat) (xs : List Num) : Nat × List Int :=
  if xs.any fun x => match x with | .fin _ _ _ => false | _ => true then (255, xs.map fun _ => 0)
  else
    let log2 (x : Num) : Option Int := match x with
      | .fin _ sig exp => if sig = 0 then none else some (exp + bitLength sig - 1)
      | _ => none
    match (xs.filterMap log2).foldr (fun a b => some (match b with | some b => max a b | none => a)) none with
    | none => (0, xs.map fun _ => 0)
    | some top =>
      let e := min (max (top + 127) 0) 254
      (e.toNat, xs.map fun x => match x with
        | .fin neg sig exp =>
          let q := exp + 133 - e
          let (m, _) := roundTo rm neg sig q (max q 0)
          max (-128) (min 127 (scaled neg m (max q 0) 0))
        | _ => 0)

/-- Reads the next element of a row or a block. -/
def readNext (ga n : Nat) : EngM s₀ Unit := do
  let x ← engRead (w64 ga) n
  modProg fun p => { p with row := p.row ++ [x] }

/-- A row or a block is read and written: the next one begins. -/
def Prog.nextRow (p : Prog) : Prog := { p with row := [], out := [], n := 0 }

/-- A unit of `vx.quant` (R353): a block's next read, its computation, or its next write: first the exponent, then the elements, so that the
element at which it stops says what is written (R424, log 35). -/
def quantUnit (c : Cmd) : EngM s₀ Bool := do
  let p ← prog
  let g := vGeom c.rig
  if g.rows ≤ p.m then gatherNonfin c
  else
    let k0 := 32 * p.w
    let n := min 32 (g.len - k0)
    let sz := vtSize g.xt
    if p.row.length < n then readNext ((c.rig.get 0).toNat + p.m * g.xrs + (k0 + p.row.length) * sz) sz
    else if p.out.isEmpty then
      let (e, qs) := quantBlock g.rm (p.row.map (vtFp g.xt).unpack)
      modProg fun p => { p with out := e :: qs.map fun q => (q % 256).toNat }
    else if p.n = 0 then
      engWrite (w64 ((c.rig.get 2).toNat + p.m * g.zrs + p.w)) 1 (p.out.getD 0 0)
      modProg fun p => { p with n := 1 }
    else
      let i := p.n - 1
      engWrite (w64 ((c.rig.get 3).toNat + p.m * g.drs + k0 + i)) 1 (p.out.getD p.n 0)
      setNonfin (!finiteBits g.xt (p.row.getD i 0))
      modProg fun p =>
        if i + 1 < n then { p with n := p.n + 1 }
        else if 32 * (p.w + 1) < g.len then { p.nextRow with w := p.w + 1 } else { p.nextRow with w := 0, m := p.m + 1 }
    return true

/-- A step of a lane or a level of `vx.red`: partials of floats are FP32 bits (R354). -/
def redCombine (float : Bool) (fn rm : Nat) (a b : Int) : Int :=
  if float then
    let x := a.toNat
    let y := b.toNat
    if fn = 0 ∨ fn = 3 then (fp32.add rm x y).1
    else if (fp32.unpack x).isNan || (fp32.unpack y).isNan then fp32.nan
    else (fp32.minmax (fn = 2) x y).1
  else if fn = 1 then min a b else if fn = 2 then max a b else a + b

/-- A lane's partial with a further element; its first term begins it. -/
def redTerm (float : Bool) (fn rm : Nat) (old : Option Int) (x : Int) : Int :=
  if float ∧ fn = 3 then
    match old with
    | none => (fp32.mul rm x.toNat x.toNat).1
    | some a => (fp32.fma rm false x.toNat x.toNat a.toNat).1
  else
    let t := if fn = 3 then x * x else x
    match old with
    | none => t
    | some a => redCombine float fn rm a t

def combineOpt (f : Int → Int → Int) (a b : Option Int) : Option Int :=
  match a, b with
  | some x, some y => some (f x y)
  | some x, none => some x
  | none, y => y

/-- The five levels (R354). -/
def redLevels (f : Int → Int → Int) : Nat → List (Option Int) → Option Int
  | 0, xs => xs.headD none
  | h + 1, xs => redLevels f h ((List.range (2 ^ h)).map fun j => combineOpt f (xs.getD j none) (xs.getD (j + 2 ^ h) none))

/-- An element widened for a reduction: FP32 bits or its integer. -/
def redWiden (xt x : Nat) : Int :=
  if vtFloat xt then ((fp32.pack 0 ((vtFp xt).unpack x)).1 : Nat) else intVal xt x

/-- One element of `vx.red`, or at the end of a row its result (R354). -/
def redUnit (c : Cmd) : EngM s₀ Bool := do
  let p ← prog
  let g := vGeom c.rig
  let fl := vtFloat g.xt
  if g.rows ≤ p.m then gatherNonfin c
  else if p.w < g.len then
    let sz := vtSize g.xt
    let x ← engRead (w64 ((c.rig.get 0).toNat + p.m * g.xrs + p.w * sz)) sz
    let j := p.w % 32
    modProg fun p => { p with
      w := p.w + 1
      lanes := p.lanes.set j (some (redTerm fl g.fn g.rm (p.lanes.getD j none) (redWiden g.xt x))) }
    return true
  else
    let r := (redLevels (redCombine fl g.fn g.rm) 5 p.lanes).getD 0
    let (v, nf) :=
      if fl then floatRes g.dt ((vtFp g.dt).pack g.rm (fp32.unpack r.toNat)).1 else (intBits g.dt g.sat r, false)
    engWrite (w64 ((c.rig.get 3).toNat + p.m * g.drs)) (vtSize g.dt) v
    setNonfin nf
    modProg fun p => { p with w := 0, m := p.m + 1, lanes := List.replicate 32 none }
    return true

/-- The softmax of a row: its elements as DT bits (R355). -/
def softmaxRow (g : VGeom) (sa : Word) (xs : List Nat) : List Nat :=
  let s := if g.fn = 1 then fp32.unpack (sa.toNat % 2 ^ 32) else .fin false 1 0
  let ts := xs.map fun x => (fp32.pack 0 (Num.mul ((vtFp g.xt).unpack x) s).1).1
  let d := vtFp g.dt
  let greatest : Int := ts.foldl (fun (a : Int) (t : Nat) => redCombine true 2 0 a t) (fp32.signed true fp32.infBits : Nat)
  if greatest.toNat = fp32.signed true fp32.infBits then xs.map fun _ => 0
  else
    let es := ts.map fun t => expFp 0 0 0 (fp32.sub 0 t greatest.toNat).1
    let lanes := (es.zipIdx).foldl (fun (ls : List (Option Int)) (e, i) =>
      ls.set (i % 32) (some (redTerm true 0 0 (ls.getD (i % 32) none) (e : Nat)))) (List.replicate 32 none)
    let S := (redLevels (redCombine true 0 0) 5 lanes).getD 0
    es.map fun e => (d.pack 0 (Num.div (fp32.unpack e) (fp32.unpack S.toNat)).1).1

/-- A unit of `vx.smax` (R355): a row's next read, its computation, or its next write. -/
def smaxUnit (c : Cmd) : EngM s₀ Bool := do
  let p ← prog
  let g := vGeom c.rig
  if g.rows ≤ p.m then gatherNonfin c
  else
    let sz := vtSize g.xt
    if p.row.length < g.len then readNext ((c.rig.get 0).toNat + p.m * g.xrs + p.row.length * sz) sz
    else if p.out.isEmpty then modProg fun p => { p with out := softmaxRow g c.a p.row }
    else
      let v := p.out.getD p.n 0
      engWrite (w64 ((c.rig.get 3).toNat + p.m * g.drs + p.n * vtSize g.dt)) (vtSize g.dt) v
      setNonfin (!finiteBits g.dt v)
      modProg fun p => if p.n + 1 < g.len then { p with n := p.n + 1 } else { p.nextRow with m := p.m + 1 }
    return true

/-- Element `i` of an INT8, INT4 or binary vector; a binary element as +1 or -1 (R303). -/
def vecElem (xt : Nat) (bs : List Byte) (i : Nat) : Int :=
  if xt = 3 then signed 4 ((bs.getD (i / 2) 0).toNat / 16 ^ (i % 2))
  else if xt = 4 then (if (bs.getD (i / 8) 0).getLsbD (i % 8) then 1 else -1)
  else (bs.getD i 0).toInt

def sumInt (xs : List Int) : Int := xs.foldr (fun a b => a + b) 0

/-- The exact quotient n / sqrt d rounded to FP32, for d above 0 (R356). -/
def overSqrt (n : Int) (d : Nat) : Nat :=
  if n = 0 then 0
  else
    let a := n.natAbs * n.natAbs * 2 ^ 240
    let q := isqrt (a / d)
    (fp32.round 0 (n < 0) (2 * q + (decide (q * q * d ≠ a)).toNat) (-121)).1

/-- A distance (R356): the result's bits. -/
def distance (xt fn len : Nat) (xs ys : List Byte) : Nat :=
  let x := (List.range len).map (vecElem xt xs)
  let y := (List.range len).map (vecElem xt ys)
  let ip := sumInt ((x.zip y).map fun (a, b) => a * b)
  let h := (x.zip y).countP fun (a, b) => a ≠ b
  let i32 (v : Int) : Nat := (v % 2 ^ 32).toNat
  match fn with
  | 0 => i32 ip
  | 1 => if xt = 4 then i32 (4 * h) else i32 (sumInt ((x.zip y).map fun (a, b) => (a - b) * (a - b)))
  | 2 =>
    if xt = 4 then (fp32.pack 0 (Num.div (Num.ofInt (len - 2 * h) 0 false) (Num.ofInt len 0 false)).1).1
    else
      let xx := sumInt (x.map fun a => a * a)
      let yy := sumInt (y.map fun a => a * a)
      if xx = 0 ∨ yy = 0 then 0 else overSqrt ip (xx * yy).toNat
  | _ => i32 h

/-- One output of `vx.dist` (R356). -/
def distUnit (c : Cmd) : EngM s₀ Bool := do
  let p ← prog
  let g := vGeom c.rig
  if g.rows ≤ p.m then gatherNonfin c
  else
    let n := rowBytes g.xt g.len
    let xs ← engBytes ((c.rig.get 0).toNat + p.m * g.xrs) n
    let ys ← engBytes ((c.rig.get 1).toNat + p.w * g.yrs) n
    engWrite (w64 ((c.rig.get 3).toNat + p.m * g.drs + 4 * p.w)) 4 (distance g.xt g.fn g.len xs ys)
    modProg fun p => if p.w + 1 < g.nv then { p with w := p.w + 1 } else { p with w := 0, m := p.m + 1 }
    return true

/-- The units of the vector commands. -/
def vxUnit (c : Cmd) : EngM s₀ Bool :=
  match c.cmd with
  | 8 => quantUnit c
  | 9 => redUnit c
  | 0xC => smaxUnit c
  | 0xD => distUnit c
  | _ => elementUnit c

/-- The restartable points of R360. -/
def vxRestartable (c : Cmd) (p : Prog) : Bool :=
  if vElementwise c.cmd then p.w % 128 = 0 else if c.cmd = 9 then p.w % 32 = 0
  else if c.cmd = 8 || c.cmd = 0xC then p.row.isEmpty && p.out.isEmpty && p.n = 0
  else true

/-- Issue. Sum. (R313, R349) -/
def attVxAdd (x : EngArgs) : Att s₀ Next := issueCommand .vxe 0x00 x (vxSpec 0x00)

/-- `vxAdd`: one attempt of its issue (R313, R349). -/
def execVxAdd (x : EngArgs) (st : State) : Host.Outcome State Fault Refusal := issue (.vxAdd x) st (attVxAdd x)

/-- Issue. Difference. (R313, R349) -/
def attVxSub (x : EngArgs) : Att s₀ Next := issueCommand .vxe 0x01 x (vxSpec 0x01)

/-- `vxSub`: one attempt of its issue (R313, R349). -/
def execVxSub (x : EngArgs) (st : State) : Host.Outcome State Fault Refusal := issue (.vxSub x) st (attVxSub x)

/-- Issue. Product. (R313, R349) -/
def attVxMul (x : EngArgs) : Att s₀ Next := issueCommand .vxe 0x02 x (vxSpec 0x02)

/-- `vxMul`: one attempt of its issue (R313, R349). -/
def execVxMul (x : EngArgs) (st : State) : Host.Outcome State Fault Refusal := issue (.vxMul x) st (attVxMul x)

/-- Issue. Fused product and sum. (R313, R349) -/
def attVxFma (x : EngArgs) : Att s₀ Next := issueCommand .vxe 0x03 x (vxSpec 0x03)

/-- `vxFma`: one attempt of its issue (R313, R349). -/
def execVxFma (x : EngArgs) (st : State) : Host.Outcome State Fault Refusal := issue (.vxFma x) st (attVxFma x)

/-- Issue. Lesser. (R313, R349) -/
def attVxMin (x : EngArgs) : Att s₀ Next := issueCommand .vxe 0x04 x (vxSpec 0x04)

/-- `vxMin`: one attempt of its issue (R313, R349). -/
def execVxMin (x : EngArgs) (st : State) : Host.Outcome State Fault Refusal := issue (.vxMin x) st (attVxMin x)

/-- Issue. Greater. (R313, R349) -/
def attVxMax (x : EngArgs) : Att s₀ Next := issueCommand .vxe 0x05 x (vxSpec 0x05)

/-- `vxMax`: one attempt of its issue (R313, R349). -/
def execVxMax (x : EngArgs) (st : State) : Host.Outcome State Fault Refusal := issue (.vxMax x) st (attVxMax x)

/-- Issue. Absolute value. (R313, R349) -/
def attVxAbs (x : EngArgs) : Att s₀ Next := issueCommand .vxe 0x06 x (vxSpec 0x06)

/-- `vxAbs`: one attempt of its issue (R313, R349). -/
def execVxAbs (x : EngArgs) (st : State) : Host.Outcome State Fault Refusal := issue (.vxAbs x) st (attVxAbs x)

/-- Issue. Conversion. (R313, R350) -/
def attVxCvt (x : EngArgs) : Att s₀ Next := issueCommand .vxe 0x07 x (vxSpec 0x07)

/-- `vxCvt`: one attempt of its issue (R313, R350). -/
def execVxCvt (x : EngArgs) (st : State) : Host.Outcome State Fault Refusal := issue (.vxCvt x) st (attVxCvt x)

/-- Issue. Quantisation to MXINT8. (R313, R353) -/
def attVxQuant (x : EngArgs) : Att s₀ Next := issueCommand .vxe 0x08 x (vxSpec 0x08)

/-- `vxQuant`: one attempt of its issue (R313, R353). -/
def execVxQuant (x : EngArgs) (st : State) : Host.Outcome State Fault Refusal := issue (.vxQuant x) st (attVxQuant x)

/-- Issue. Row reduction. (R313, R354) -/
def attVxRed (x : EngArgs) : Att s₀ Next := issueCommand .vxe 0x09 x (vxSpec 0x09)

/-- `vxRed`: one attempt of its issue (R313, R354). -/
def execVxRed (x : EngArgs) (st : State) : Host.Outcome State Fault Refusal := issue (.vxRed x) st (attVxRed x)

/-- Issue. Exponential. (R313, R352) -/
def attVxExp (x : EngArgs) : Att s₀ Next := issueCommand .vxe 0x0A x (vxSpec 0x0A)

/-- `vxExp`: one attempt of its issue (R313, R352). -/
def execVxExp (x : EngArgs) (st : State) : Host.Outcome State Fault Refusal := issue (.vxExp x) st (attVxExp x)

/-- Issue. Reciprocal square root. (R313, R352) -/
def attVxRsq (x : EngArgs) : Att s₀ Next := issueCommand .vxe 0x0B x (vxSpec 0x0B)

/-- `vxRsq`: one attempt of its issue (R313, R352). -/
def execVxRsq (x : EngArgs) (st : State) : Host.Outcome State Fault Refusal := issue (.vxRsq x) st (attVxRsq x)

/-- Issue. Row softmax. (R313, R355) -/
def attVxSmax (x : EngArgs) : Att s₀ Next := issueCommand .vxe 0x0C x (vxSpec 0x0C)

/-- `vxSmax`: one attempt of its issue (R313, R355). -/
def execVxSmax (x : EngArgs) (st : State) : Host.Outcome State Fault Refusal := issue (.vxSmax x) st (attVxSmax x)

/-- Issue. Distances. (R313, R356) -/
def attVxDist (x : EngArgs) : Att s₀ Next := issueCommand .vxe 0x0D x (vxSpec 0x0D)

/-- `vxDist`: one attempt of its issue (R313, R356). -/
def execVxDist (x : EngArgs) (st : State) : Host.Outcome State Fault Refusal := issue (.vxDist x) st (attVxDist x)

/-- Issue. Comparison. (R313, R351) -/
def attVxCmp (x : EngArgs) : Att s₀ Next := issueCommand .vxe 0x0E x (vxSpec 0x0E)

/-- `vxCmp`: one attempt of its issue (R313, R351). -/
def execVxCmp (x : EngArgs) (st : State) : Host.Outcome State Fault Refusal := issue (.vxCmp x) st (attVxCmp x)

/-- Issue. Selection. (R313, R349) -/
def attVxSel (x : EngArgs) : Att s₀ Next := issueCommand .vxe 0x0F x (vxSpec 0x0F)

/-- `vxSel`: one attempt of its issue (R313, R349). -/
def execVxSel (x : EngArgs) (st : State) : Host.Outcome State Fault Refusal := issue (.vxSel x) st (attVxSel x)

/-- Issue. Fill. (R313, R349) -/
def attVxFill (x : EngArgs) : Att s₀ Next := issueCommand .vxe 0x10 x (vxSpec 0x10)

/-- `vxFill`: one attempt of its issue (R313, R349). -/
def execVxFill (x : EngArgs) (st : State) : Host.Outcome State Fault Refusal := issue (.vxFill x) st (attVxFill x)

end Sys2Proof.Machine
end

