-- ==== Sys2Proof/Machine/Copy.lean ====
section
/-! DEFINITION. The copy engine (R361 to R380): walks and the checks of its commands at issue, their effects in units of an
element, a PT5 byte, a line or a group, and reductions (R372, R459 to R461). -/

namespace Sys2Proof.Machine

variable {s₀ : State}

/-! Rigging registers (R362, R363). -/

def cpNdim (mode : Word) : Nat := field mode 0 3
def cpEsz (mode : Word) : Nat := 2 ^ field mode 4 2
def cpMeta (mode : Word) : Bool := bit mode 6
def cpGroup (mode : Word) : Nat := 32 * 2 ^ field mode 10 2
def cpEntry (mode : Word) : Nat := if bit mode 12 then 8 else 4

def cpReg (r : Vector Word 32) (n : Nat) : Word := r.getD n 0
def cpCount (r : Vector Word 32) (d : Nat) : Nat := lo32 (cpReg r (3 + d))
def cpSstr (r : Vector Word 32) (d : Nat) : Int := signed 32 (hi32 (cpReg r (3 + d)))
def cpDstr (r : Vector Word 32) (d : Nat) : Int := signed 32 (lo32 (cpReg r (9 + d)))

/-- Members and rank of a reduction, its element bytes. -/
def cpMembers (r : Vector Word 32) : Nat := hi32 (cpReg r 19)
def cpRank (r : Vector Word 32) : Nat := lo32 (cpReg r 19)
def cpRtyp (mode : Word) : Nat := field mode 26 2
def cpRop (mode : Word) : Nat := field mode 24 2
def redSize (mode : Word) : Nat := if cpRtyp mode = 1 then 8 else 4

/-! Walks (R364). -/

/-- Dimensions of a walk: counts with strides, innermost first. -/
abbrev Walk := List (Nat × Int)

/-- Bytes that a walk covers below its offset: off - lo of R364. -/
def Walk.below (w : Walk) : Int := (w.map fun (c, x) => ((c : Int) - 1) * -(min x 0)).foldr (fun a b => a + b) 0

/-- Bytes that a walk covers above its offset, but for its last element: hi - off - e of R364. -/
def Walk.above (w : Walk) : Int := (w.map fun (c, x) => ((c : Int) - 1) * max x 0).foldr (fun a b => a + b) 0

/-- The position of an index vector from the offset. -/
def Walk.at_ (w : Walk) (idx : List Nat) : Int := ((w.zip idx).map fun ((_, x), i) => (i : Int) * x).foldr (fun a b => a + b) 0

/-- The next index vector; past the last one, the outermost index equals its count. -/
def Walk.next : Walk → List Nat → List Nat
  | [], idx => idx
  | _, [] => []
  | [_], i :: is => (i + 1) :: is
  | (c, _) :: w, i :: is => if i + 1 < c then (i + 1) :: is else 0 :: Walk.next w is

/-- The walk has been completed. -/
def Walk.done : Walk → List Nat → Bool
  | [(c, _)], i :: _ => c ≤ i
  | _ :: w, _ :: is => Walk.done w is
  | _, _ => false

def srcWalk (r : Vector Word 32) (n : Nat) : Walk := (List.range n).map fun d => (cpCount r d, cpSstr r d)
def dstWalk (r : Vector Word 32) (n : Nat) : Walk := (List.range n).map fun d => (cpCount r d, cpDstr r d)

/-- Rows of a number of bytes each. -/
def rowsWalk (r : Vector Word 32) (stride : Int) : Walk := [(cpCount r 1, stride)]

/-- An address parameter with a walk (R364). -/
def walkParam (n : Fin 32) (w : Walk) (size esz : Nat) (reads writes : Bool) : Param :=
  { n := n, below := w.below, extent := (w.below + w.above + size).toNat, above := some (w.above + size), reads := reads
    writes := writes, esz := esz, strides := w.map fun d => d.2, walk := true }

/-- Commands of R361 by their codes. -/
def cpNeedsTwo (cmd : Nat) : Bool := 2 ≤ cmd && cmd ≤ 5

/-- The checks of the copy commands (R363 to R366). -/
def cpSpec (cmd : Nat) (s : State) (L : Nat) (t : Thread) : EngSpec :=
  let r := (t.engThread .cpe).rig
  let mode := r.get 2
  let nd := min (cpNdim mode) 6
  let e := cpEsz mode
  let K := cpCount r 0
  let N := cpCount r 1
  let G := cpGroup mode
  let pt5Row := ceilDiv K 5
  let redN := cpCount r 0 * redSize mode
  let params : List Param :=
    match cmd with
    | 0 => [walkParam 0 (srcWalk r nd) e e true false, walkParam 1 (dstWalk r nd) e e (cpMeta mode) true]
    | 1 => [walkParam 0 (srcWalk r nd) e e true false, walkParam 1 (dstWalk r nd) e e false true]
    | 2 => [{ n := 0, extent := 0, reads := true, writes := false, esz := e, rights := true },
        walkParam 1 (dstWalk r 2) e e false true,
        { n := 15, extent := N * cpEntry mode, reads := true, writes := false, esz := cpEntry mode }]
    | 3 => [walkParam 0 (srcWalk r 2) e e true false,
        { n := 1, extent := 0, reads := false, writes := true, esz := e, rights := true },
        { n := 15, extent := N * cpEntry mode, reads := true, writes := false, esz := cpEntry mode }]
    | 4 => [walkParam 0 (rowsWalk r (cpSstr r 1)) (2 * K) 2 true false,
        walkParam 1 (rowsWalk r (cpDstr r 1)) pt5Row 1 false true,
        { n := 20, extent := 2 * N * ceilDiv K G, reads := false, writes := true, esz := 2 }]
    | 5 => [walkParam 0 (rowsWalk r (cpSstr r 1)) (if bit mode 8 then pt5Row else K) 1 true false,
        walkParam 1 (rowsWalk r (cpDstr r 1)) (if bit mode 8 then K else pt5Row) 1 false true]
    | 6 => [walkParam 0 (srcWalk r nd) e e true false]
    | 7 => [{ n := 0, extent := redN, reads := true, writes := false, esz := redSize mode },
        { n := 1, extent := redN, reads := false, writes := true, esz := redSize mode }]
    | _ => [walkParam 1 (dstWalk r nd) e e (cpMeta mode) true]
  let dstrs : List Nat :=
    if cmd = 0 || cmd = 1 || cmd = 8 then List.range nd else if cmd = 2 then [0, 1] else if cmd = 3 then [0]
    else if cmd = 4 || cmd = 5 then [1] else []
  let counts : List Nat := if cmd = 7 then [0] else if cpNeedsTwo cmd then [0, 1] else List.range nd
  let gid := field (r.get 18) 0 12
  let gidByte := s.paByte (moduleOf L) (0x82100 + gid / 8)
  { params := params
    reserved :=
      [(2, 0xFFFFFFFFF0E0E008)] ++ dstrs.map (fun d => (Fin.ofNat 32 (9 + d), 0xFFFFFFFF00000000)) ++
      (if cmd = 1 then [(17, 0xFFFFFFFFFF000000)] else if cmd = 7 then [(18, 0xFFFFFFFFFFFFF000)]
       else if cmd = 4 then [(21, 0xFFFFFFFFFFFF0000)] else [])
    geometry := fun ga =>
      let start (p : Param) : Nat := ((ga p.n : Int) - p.below).toNat
      let reading := params.filter fun p => p.reads && !(p.n = 1)
      let clash (p q : Param) : Bool := rangesOverlap (start p) p.extent (start q) q.extent
      firstReason [
        (0x10, cpNdim mode = 0 || cpNdim mode = 7 || (cpNeedsTwo cmd && cpNdim mode ≠ 2)),
        (0x11, counts.any fun d => cpCount r d = 0),
        (0x12, cmd = 7 && (cpRop mode = 3 || cpRtyp mode = 3)),
        (0x13, (cmd = 1 && isShared (w64 (ga 1))) || (cmd = 6 && !isShared (w64 (ga 0)))),
        (0x14, (cmd = 0 || cmd = 8) && cpMeta mode && (!t.mode || field mode 4 2 ≠ 3)),
        (0x15, cmd = 7 && (gid = 0 || !bit gidByte (gid % 8) || cpMembers r ≤ cpRank r)),
        (0x16, params.any fun p => p.writes && params.any fun q =>
          p.n ≠ q.n && clash p q && (q ∈ reading || (p.n = 1 && q.n = 20))),
        (0x17, cmd = 4 && (field (r.get 21) 7 8 = 255 || bit (r.get 21) 15)),
        (0x18, cmd = 1 && (field (r.get 17) 16 8 = 0 || field (r.get 17) 0 16 = 0 || r.get 16 = 0))]
    gid := if cmd = 7 then some gid else none
    pieceSeg := if cmd = 2 then t.seg.get (locSeg (r.get 0)) else if cmd = 3 then t.seg.get (locSeg (r.get 1)) else Seg.zero
    draws := cmd = 4 && bit mode 9 }

/-! Units. -/

/-- The address of a position from a parameter of the snapshot. -/
def cpAddr (c : Cmd) (n : Nat) (x : Int) : Word := wInt ((cpReg c.rig n).toNat + x)

/-- Goes on to the next index vector. -/
def cpNext (w : Walk) : EngM s₀ Unit := modProg fun p => { p with idx := w.next p.idx }

/-- One word of a META copy: data, bit and mark are written together, and a bit that fills has its effects (R377). -/
def metaWord (src dst : Word) : EngM s₀ Unit := do
  let from_ ← engTarget src .read false false
  let s ← engNow
  engAct (touch from_ false)
  engStoreMeta dst (s.readPlace from_.place 8) (s.placePoison from_.place) (s.placeFull from_.place)

/-- One element of `cp.copy` or `cp.fill` (R367). -/
def copyUnit (c : Cmd) : EngM s₀ Bool := do
  let p ← prog
  let mode := c.rig.get 2
  let nd := cpNdim mode
  let e := cpEsz mode
  let w := dstWalk c.rig nd
  if w.done p.idx then return false
  else
    let dst := cpAddr c 1 (w.at_ p.idx)
    let src := cpAddr c 0 ((srcWalk c.rig nd).at_ p.idx)
    if c.cmd = 8 then engWrite dst e (c.a.toNat % 2 ^ (8 * e))
    else if cpMeta mode then metaWord src dst
    else engWrite dst e (← engRead src e)
    cpNext w
    return true

/-- The cores that `cp.mcast` reaches (R368). -/
def mcastCores (c : Cmd) (L : Nat) : List Nat :=
  (List.range 8).flatMap fun d => (List.range 64).flatMap fun r => (List.range 16).filterMap fun col =>
    if bit (c.rig.get 17) (16 + d) && bit (c.rig.get 16) r && bit (c.rig.get 17) col then some (coreAt (moduleOf L) d r col)
    else none

/-- One element of `cp.mcast`: read once and written at every destination (R367, R368). -/
def mcastUnit (c : Cmd) : EngM s₀ Bool := do
  let p ← prog
  let mode := c.rig.get 2
  let nd := cpNdim mode
  let e := cpEsz mode
  let w := dstWalk c.rig nd
  if w.done p.idx then return false
  else
    let x ← get
    let dests := mcastCores c x.core
    if dests.any fun L => L ≠ x.core && !x.run.s.reachable L then
      engAct (each dests rouse)
      throw .held
    else
      let v ← engRead (cpAddr c 0 ((srcWalk c.rig nd).at_ p.idx)) e
      let dst := cpAddr c 1 (w.at_ p.idx)
      engEach dests fun L => engWrite (w64 (L * 2 ^ 30 + gaOff dst)) e v
      cpNext w
      return true

/-- The check of a piece against its segment: codes 0x01, 0x05 and 0x06 of R314 (R369). -/
def pieceFails (d : Seg) (start count : Nat) (stride : Int) (e : Nat) : Bool :=
  let off := (w64 start - d.base).toNat
  let w : Walk := [(count, stride)]
  let below := w.below.toNat
  let above := w.above.toNat
  let stop := off + above + e
  off < below || d.limit < stop || 2 ^ 61 ≤ stop || touchesRefused (w64 (start - below)) (below + above + e) ||
    start % e ≠ 0 || stride % e ≠ 0

/-- One element of a piece (R369). The entry is read, and its piece checked, before the piece moves. -/
def pieceUnit (c : Cmd) : EngM s₀ Bool := do
  let p ← prog
  let mode := c.rig.get 2
  let e := cpEsz mode
  let gath := c.cmd = 2
  let w : Walk := [(cpCount c.rig 0, 0), (cpCount c.rig 1, 0)]
  if w.done p.idx then return false
  else
    let j := p.idx.getD 0 0
    let i := p.idx.getD 1 0
    if !p.atElement then
      let entry ← engRead (cpAddr c 15 ((i : Int) * cpEntry mode)) (cpEntry mode)
      let o := entry * 2 ^ field mode 16 5
      let (base, stride) := if gath then (cpReg c.rig 0, cpSstr c.rig 0) else (cpReg c.rig 1, cpDstr c.rig 0)
      let off := (base - c.seg.base).toNat
      if 2 ^ 61 ≤ off + o || pieceFails c.seg (base.toNat + o) (cpCount c.rig 0) stride e then throw (.error 0x10)
      else modProg fun p => { p with atElement := true, w := o }
    else pure ()
    let o := (← prog).w
    let si := (j : Int) * cpSstr c.rig 0
    let di := (j : Int) * cpDstr c.rig 0
    let src := if gath then (o : Int) + si else i * cpSstr c.rig 1 + si
    let dst := if gath then i * cpDstr c.rig 1 + di else (o : Int) + di
    engWrite (cpAddr c 1 dst) e (← engRead (cpAddr c 0 src) e)
    cpNext w
    modProg fun p => if p.idx.getD 0 0 = 0 then { p with atElement := false, w := 0 } else p
    return true

/-- A PT5 byte of at most five trits, the rest 0 (R62). -/
def packPt5 (ts : List Int) : Byte :=
  BitVec.ofNat 8 (((List.range 5).map fun i => (ts.getD i 0 + 1).toNat * 3 ^ i).foldr (fun a b => a + b) 0)

/-- The trit of a signed byte (R370). -/
def signOf (x : Int) : Int := if x < 0 then -1 else if x = 0 then 0 else 1

/-- A unit of `cp.pack` (R370): a PT5 byte packed; or one read, once, and then each of its trits written (R376). -/
def packUnit (c : Cmd) : EngM s₀ Bool := do
  let p ← prog
  let mode := c.rig.get 2
  let K := cpCount c.rig 0
  let k := p.idx.getD 0 0
  let i := p.idx.getD 1 0
  let src := (i : Int) * cpSstr c.rig 1
  let dst := (i : Int) * cpDstr c.rig 1
  let next (n : Nat) (p : Prog) : Prog := { p with idx := (if k + n < K then [k + n, i] else [0, i + 1]) ++ p.idx.drop 2 }
  if cpCount c.rig 1 ≤ i then return false
  else if bit mode 8 then
    match p.row with
    | b :: _ =>
      engWrite (cpAddr c 1 (dst + k)) 1 (trit (BitVec.ofNat 8 b) (k % 5) % 256).toNat
      modProg fun p => { next 1 p with row := if k % 5 = 4 ∨ k + 1 = K then [] else p.row }
    | [] =>
      let b ← engRead (cpAddr c 0 (src + (k / 5 : Nat))) 1
      setFmt (if 243 ≤ b then 1 else 0)
      modProg fun p => { p with row := [b] }
    return true
  else
    let vs ← (List.range (min 5 (K - k))).mapM fun j => engRead (cpAddr c 0 (src + (k + j : Nat))) 1
    engWrite (cpAddr c 1 (dst + (k / 5 : Nat))) 1 (packPt5 (vs.map fun v => signOf (signed 8 v))).toNat
    modProg (next 5)
    return true

/-- One element of the walk of `cp.pf`: its line is asked for once, through the Shroud; at the end every line that was asked for has come
(R263, R273, R371). -/
def prefetchUnit (c : Cmd) : EngM s₀ Bool := do
  let p ← prog
  let w := srcWalk c.rig (cpNdim (c.rig.get 2))
  let x ← get
  let s := x.run.s
  if w.done p.idx then
    if p.lines.any fun (h, l) => (s.slice h).missing l then throw .held else return false
  else
    let ga := cpAddr c 0 (w.at_ p.idx)
    let tg ← engResolve ga .read false false
    match tg.place.physical with
    | none => pure ()
    | some (_, a) =>
      if (tg.home, lineOf a) ∈ p.lines then pure ()
      else
        let other := decide (gaModule ga ≠ moduleOf x.core)
        let who := LineFor.copy x.core (bit (c.rig.get 2) 7)
        if ← engAct (granted who other (s.physOf (if other then s.receiver (moduleOf x.core) ga else x.core)) tg) then
          engAct (dropLines who)
          modProg fun p => { p with lines := (tg.home, lineOf a) :: p.lines }
        else throw .held
    cpNext w
    return true

/-! The threshold unit (R373, R374). -/

/-- The magnitude of a finite value. -/
def Num.magnitude (x : Num) : Num :=
  match x with
  | .fin _ sig exp => .fin false sig exp
  | y => y

def Num.finite (x : Num) : Bool :=
  match x with
  | .fin _ _ _ => true
  | _ => false

/-- The sign of a finite value as a trit. -/
def Num.trit (x : Num) : Int :=
  match x with
  | .fin neg sig _ => if sig = 0 then 0 else if neg then -1 else 1
  | _ => 0

/-- The scale of a group of finite weights: the FP32 mean of magnitudes, then BF16. -/
def ternScale (ws : List Num) : Nat :=
  let sum := (ws.map fun x => match x with | .fin _ sig exp => sig * 2 ^ (exp + 133).toNat | _ => 0).foldr (fun a b => a + b) 0
  let mean := (fp32.pack 0 (Num.div (.fin false sum (-133)) (Num.ofInt ws.length 0 false)).1).1
  (bf16.pack 0 (fp32.unpack mean)).1

/-- floor(RNE_F32(x / y) * 2^24) for positive finite values. -/
def keepWeight (x y : Num) : Nat :=
  match fp32.unpack (fp32.pack 0 (Num.div x y).1).1 with
  | .fin _ sig exp => if 0 ≤ exp + 24 then sig * 2 ^ (exp + 24).toNat else sig / 2 ^ (-(exp + 24)).toNat
  | _ => 2 ^ 24

/-- The trits of a group, with the stream state after its draws. -/
def ternTrits (stochastic : Bool) (delta : Num) : Word → List Num → List Int × Word
  | st, [] => ([], st)
  | st, x :: rest =>
    let a := x.magnitude
    let (t, st) :=
      if !stochastic then ((if a.cmp delta = .gt then x.trit else 0), st)
      else if a.cmp delta ≠ .lt then (x.trit, st)
      else if x.trit = 0 then (0, st)
      else
        let st := nextRand st
        ((if field st 40 24 < keepWeight a delta then x.trit else 0), st)
    let (ts, st) := ternTrits stochastic delta st rest
    (t :: ts, st)

/-- The byte that a column's groups share, as it stands: the command writes it, and needs no right to read it nor its word clean (R365). -/
def sharedByte (ga : Word) : EngM s₀ Nat := do
  match ← engTargets ga 1 .write true with
  | (tg, _, _) :: _ => return (← engNow).readPlace tg.place 1
  | [] => return 0

/-- A unit of `cp.tern` (R373): a group is computed, with its stream state after its draws, or its next byte or its scale is written. The shared
byte of the column's previous group is kept with its own trits in `Prog.c`, one more than its value; where a restore has left none, the
byte itself is taken. -/
def ternUnit (c : Cmd) : EngM s₀ Bool := do
  let p ← prog
  let mode := c.rig.get 2
  let K := cpCount c.rig 0
  let G := cpGroup mode
  let NG := ceilDiv K G
  let g := p.idx.getD 0 0
  let n := p.idx.getD 1 0
  let k0 := g * G
  let cnt := min G (K - k0)
  let column := (n : Int) * cpDstr c.rig 1
  let first := k0 / 5
  let shared := k0 % 5
  let len := ceilDiv (shared + cnt) 5
  if cpCount c.rig 1 ≤ n then return false
  else if p.out.isEmpty then
    let ws ← (List.range cnt).mapM fun i => do
      return bf16.unpack (← engRead (cpAddr c 0 ((n : Int) * cpSstr c.rig 1 + (2 * (k0 + i) : Nat))) 2)
    if !ws.all Num.finite then throw (.error 0x11)
    else
      let scale := ternScale ws
      let delta := (Num.mul (bf16.unpack (field (c.rig.get 21) 0 16)) (bf16.unpack scale)).1
      let (ts, st) := ternTrits (bit mode 9) delta p.st ws
      let before ← if shared = 0 then pure 0
        else if p.c ≠ 0 then pure (p.c - 1)
        else sharedByte (cpAddr c 1 (column + first))
      let all := (List.range shared).map (trit (BitVec.ofNat 8 before)) ++ ts
      let bytes := (List.range len).map fun i => (packPt5 ((all.drop (5 * i)).take 5)).toNat
      modProg fun p => { p with out := bytes ++ [scale, st.toNat], w := 0 }
      return true
  else if p.w < len then
    engWrite (cpAddr c 1 (column + (first + p.w : Nat))) 1 (p.out.getD p.w 0)
    modProg fun p => { p with w := p.w + 1 }
    return true
  else
    engWrite (cpAddr c 20 (2 * (n * NG + g) : Nat)) 2 (p.out.getD len 0)
    modProg fun p => { p with
      st := w64 (p.out.getD (len + 1) 0), out := [], w := 0
      c := if g + 1 < NG then p.out.getD (len - 1) 0 + 1 else 0
      idx := (if g + 1 < NG then [g + 1, n] else [0, n + 1]) ++ p.idx.drop 2 }
    return true

/-! Reductions (R372, R459 to R461). -/

/-- The tree T(0, n) of R372. -/
def redTree (f : Nat → Nat → Nat) : Nat → List Nat → Nat
  | 0, xs => xs.headD 0
  | fuel + 1, xs =>
    if xs.length ≤ 1 then xs.headD 0
    else
      let m := 2 ^ (bitLength (xs.length - 1) - 1)
      f (redTree f fuel (xs.take m)) (redTree f fuel (xs.drop m))

/-- One element of a result from the contributions in order of rank (R372). -/
def redElement (rop rtyp : Nat) (xs : List Nat) : Nat :=
  if rtyp = 2 then
    if rop = 0 then
      let v := redTree (fun a b => (fp32.add 0 a b).1) xs.length xs
      if (fp32.unpack v).isNan then fp32.nan else v
    else xs.tail.foldl (fun a b => (fp32.minmax (rop = 2) a b).1) (xs.headD 0)
  else
    let n := if rtyp = 1 then 64 else 32
    let vs := xs.map (signed n)
    let v : Int :=
      if rop = 0 then vs.foldr (fun a b => a + b) 0
      else vs.tail.foldl (fun a b => if rop = 1 then min a b else max a b) (vs.headD 0)
    (v % 2 ^ n).toNat

/-- The members agree, and no two have one rank. -/
def Reduction.agrees (x : Reduction) : Bool :=
  match x.got with
  | [] => true
  | c :: _ =>
    (x.got.all fun d => d.nmemb = c.nmemb && d.rop = c.rop && d.rtyp = c.rtyp && d.vec.length = c.vec.length) &&
      decide (x.got.map (fun d => d.rank)).Nodup

/-- The result vector of a full group; none where its members disagree. -/
def Reduction.vector (x : Reduction) : Option (List Word) :=
  match x.got with
  | [] => none
  | c :: _ =>
    if !x.agrees then none
    else
      let ranked := (List.range c.nmemb).filterMap fun k => x.got.find? fun d => d.rank = k
      some ((List.range c.vec.length).map fun i =>
        w64 (redElement c.rop c.rtyp (ranked.map fun d => (d.vec.getD i 0).toNat)))

/-- The open use of a group (R461). -/
def State.openUse (s : State) (asid : BitVec 16) (gid : Nat) : Option (Nat × Reduction) :=
  s.reductions.find? fun (_, r) => r.asid = asid && r.gid = gid && r.result.isNone

/-- The full group whose result a core awaits. -/
def State.resultFor (s : State) (L : Nat) : Option (Nat × Reduction) :=
  s.reductions.find? fun (_, r) => r.result.isSome && r.pending.contains L

/-- The acceptance of a contribution: it joins the open use or begins one; the completing one fills the group, and its
identifier then drains in every module that has a member (R461). -/
def contribute (asid : BitVec 16) (gid : Nat) (x : Contribution) : Act s₀ Unit := do
  let s ← now
  let (id, r) ← match s.openUse asid gid with
    | some u => pure u
    | none => do
      let id ← freshId
      pure (id, ({ asid := asid, gid := gid, got := [], result := none, pending := [] } : Reduction))
  let r := { r with got := r.got ++ [x] }
  let need := match r.got with
    | c :: _ => c.nmemb
    | [] => 0
  if r.got.length < need then emit (.reduction id (some r))
  else
    let members := r.got.map fun c => c.core
    emit (.reduction id (some { r with result := some r.vector, pending := members }))
    each ((members.map moduleOf).eraseDups) fun m =>
      modModule m fun y => { y with draining := if gid ∈ y.draining then y.draining else y.draining ++ [gid] }

/-- Reads the vector of a `cp.red` and sends it (R372). -/
def redSend (c : Cmd) : EngM s₀ Bool := do
  let mode := c.rig.get 2
  let n := redSize mode
  let vec ← (List.range (cpCount c.rig 0)).mapM fun i => do return w64 (← engRead (cpAddr c 0 (n * i : Nat)) n)
  let x ← get
  engAct (contribute c.asid (field (c.rig.get 18) 0 12) {
    core := x.core, rank := cpRank c.rig, nmemb := cpMembers c.rig, rop := cpRop mode, rtyp := cpRtyp mode, vec := vec })
  modProg fun p => { p with sent := true }
  throw .held

/-- One element of the result of a `cp.red` whose group is full, written to its DST (R372). -/
def redUnitOf (c : Cmd) : EngM s₀ Bool := do
  let p ← prog
  let x ← get
  if !p.sent then throw .held
  else match x.run.s.resultFor x.core with
    | none => throw .held
    | some (_, r) =>
      match r.result with
      | some (some vec) =>
        let i := p.idx.getD 0 0
        let n := redSize (c.rig.get 2)
        if vec.length ≤ i then return false
        else
          engWrite (cpAddr c 1 (n * i : Nat)) n (vec.getD i 0).toNat
          modProg fun p => { p with idx := (i + 1) :: p.idx.drop 1 }
          return true
      | _ => throw (.error 0x12)

/-- The units of the copy commands. -/
def cpUnit (c : Cmd) : EngM s₀ Bool :=
  match c.cmd with
  | 1 => mcastUnit c
  | 2 | 3 => pieceUnit c
  | 4 => ternUnit c
  | 5 => packUnit c
  | 6 => prefetchUnit c
  | 7 => redUnitOf c
  | _ => copyUnit c

/-- Issue. Tensor copy. (R313, R367) -/
def attCpCopy (x : EngArgs) : Att s₀ Next := issueCommand .cpe 0x00 x (cpSpec 0x00)

/-- `cpCopy`: one attempt of its issue (R313, R367). -/
def execCpCopy (x : EngArgs) (st : State) : Host.Outcome State Fault Refusal := issue (.cpCopy x) st (attCpCopy x)

/-- Issue. Copy to many cores. (R313, R368) -/
def attCpMcast (x : EngArgs) : Att s₀ Next := issueCommand .cpe 0x01 x (cpSpec 0x01)

/-- `cpMcast`: one attempt of its issue (R313, R368). -/
def execCpMcast (x : EngArgs) (st : State) : Host.Outcome State Fault Refusal := issue (.cpMcast x) st (attCpMcast x)

/-- Issue. Gather of pieces. (R313, R369) -/
def attCpGath (x : EngArgs) : Att s₀ Next := issueCommand .cpe 0x02 x (cpSpec 0x02)

/-- `cpGath`: one attempt of its issue (R313, R369). -/
def execCpGath (x : EngArgs) (st : State) : Host.Outcome State Fault Refusal := issue (.cpGath x) st (attCpGath x)

/-- Issue. Scatter of pieces. (R313, R369) -/
def attCpScat (x : EngArgs) : Att s₀ Next := issueCommand .cpe 0x03 x (cpSpec 0x03)

/-- `cpScat`: one attempt of its issue (R313, R369). -/
def execCpScat (x : EngArgs) (st : State) : Host.Outcome State Fault Refusal := issue (.cpScat x) st (attCpScat x)

/-- Issue. Ternarisation. (R313, R373, R374) -/
def attCpTern (x : EngArgs) : Att s₀ Next := issueCommand .cpe 0x04 x (cpSpec 0x04)

/-- `cpTern`: one attempt of its issue (R313, R373, R374). -/
def execCpTern (x : EngArgs) (st : State) : Host.Outcome State Fault Refusal := issue (.cpTern x) st (attCpTern x)

/-- Issue. Packing and unpacking of trits. (R313, R370) -/
def attCpPack (x : EngArgs) : Att s₀ Next := issueCommand .cpe 0x05 x (cpSpec 0x05)

/-- `cpPack`: one attempt of its issue (R313, R370). -/
def execCpPack (x : EngArgs) (st : State) : Host.Outcome State Fault Refusal := issue (.cpPack x) st (attCpPack x)

/-- Issue. Prefetch into slices. (R313, R371) -/
def attCpPf (x : EngArgs) : Att s₀ Next := issueCommand .cpe 0x06 x (cpSpec 0x06)

/-- `cpPf`: one attempt of its issue (R313, R371). -/
def execCpPf (x : EngArgs) (st : State) : Host.Outcome State Fault Refusal := issue (.cpPf x) st (attCpPf x)

/-- Issue. Reduction. (R313, R372) -/
def attCpRed (x : EngArgs) : Att s₀ Next := issueCommand .cpe 0x07 x (cpSpec 0x07)

/-- `cpRed`: one attempt of its issue (R313, R372). -/
def execCpRed (x : EngArgs) (st : State) : Host.Outcome State Fault Refusal := issue (.cpRed x) st (attCpRed x)

/-- Issue. Tensor fill. (R313, R367) -/
def attCpFill (x : EngArgs) : Att s₀ Next := issueCommand .cpe 0x08 x (cpSpec 0x08)

/-- `cpFill`: one attempt of its issue (R313, R367). -/
def execCpFill (x : EngArgs) (st : State) : Host.Outcome State Fault Refusal := issue (.cpFill x) st (attCpFill x)

end Sys2Proof.Machine
end

