-- ==== Sys2Proof/Machine/Selection.lean ====
section
/-! DEFINITION. The selection unit (R381 to R397): page bounds and gather lists, exact scores, top-k lists and resummarising, in
units of a page, a list or an entry. -/

namespace Sys2Proof.Machine

variable {s₀ : State}

/-! Rigging registers (R383, R384). -/

structure SGeom where
  p0 : Nat
  np : Nat
  pcnt : Nat
  nq : Nat
  qidx : Nat
  tl : Fin 4
  dense : Bool
  sel : Bool
  l2 : Bool
  dc : Nat
  qrs : Nat
  lrs : Nat
  thresh : Nat
  dir : Bool
  k : Nat
  ido : Nat

def sGeom (r : Vector Word 32) : SGeom where
  p0 := hi32 (r.get 7)
  np := lo32 (r.get 7)
  pcnt := field (r.get 8) 32 13
  nq := field (r.get 8) 24 5
  qidx := field (r.get 8) 16 4
  tl := Fin.ofNat 4 (field (r.get 8) 8 2)
  dense := bit (r.get 8) 5
  sel := bit (r.get 8) 4
  l2 := bit (r.get 8) 3
  dc := field (r.get 8) 1 2
  qrs := hi32 (r.get 9)
  lrs := lo32 (r.get 9)
  thresh := lo32 (r.get 10)
  dir := bit (r.get 11) 16
  k := field (r.get 11) 0 9
  ido := lo32 (r.get 12)

/-- Channels; 0 for the refused code (R385). -/
def SGeom.d (g : SGeom) : Nat := if g.dc = 3 then 0 else 64 * 2 ^ g.dc
def SGeom.rs (g : SGeom) : Nat := 64 + 2 * g.d
def SGeom.kpp (g : SGeom) : Nat := if g.dc = 3 then 0 else 16384 / g.d

/-- The checks of the selection commands (R384 to R386). -/
def slSpec (cmd : Nat) (_ : State) (_ : Nat) (t : Thread) : EngSpec :=
  let r := (t.engThread .slu).rig
  let g := sGeom r
  let bound := cmd = 0
  let score := cmd = 1
  let list := 4 + 4 * g.pcnt
  let rd (n : Fin 32) (skip extent esz : Nat) (dims : List Nat) : Param :=
    { n := n, skip := skip, extent := extentOf dims extent, reads := true, writes := false, esz := esz, zero := anyZero dims }
  let wr (n : Fin 32) (extent esz : Nat) (dims : List Nat) : Param :=
    { n := n, extent := extentOf dims extent, reads := false, writes := true, esz := esz, zero := anyZero dims }
  let bare (n : Fin 32) : Param := { n := n, extent := 0, reads := true, writes := false, esz := 1, bare := true }
  let params : List Param :=
    match cmd with
    | 0 => [rd 0 0 ((g.nq - 1) * g.qrs + g.d) 1 [g.nq], rd 1 0 (4 * g.nq) 4 [g.nq],
        rd 2 (g.rs * g.p0) (g.rs * g.np) 64 [g.np], wr 4 ((g.nq - 1) * g.lrs + list) 4 [g.nq, g.pcnt]]
    | 1 => [rd 0 (g.qidx * g.qrs) g.d 1 [], rd 1 (4 * g.qidx) 4 4 [], bare 2, bare 3,
        rd 4 (g.qidx * g.lrs) list 4 [g.pcnt]] ++
        (if g.dense then [wr 5 (4 * g.pcnt * g.kpp) 4 [g.pcnt]] else [])
    | 4 => [rd 6 0 8 8 []]
    | 5 => [wr 5 8 4 []]
    | 6 => [rd 3 (16384 * g.p0) (16384 * g.np) 16384 [g.np]]
    | _ => []
  { params := params
    reserved :=
      [(8, 0xFFFFE000E0F0FCC1)] ++ (if bound && g.sel then [(10, 0xFFFFFFFF00000000)] else []) ++
      (if cmd = 2 then [(11, 0xFFFFFFFFFFFEFE00)] else []) ++ (if score then [(12, 0xFFFFFFFF00000000)] else [])
    geometry := fun ga =>
      let start (p : Param) : Nat := ga p.n + p.skip
      firstReason [
        (0x10, (bound || cmd = 6) && (g.np = 0 || 2 ^ 32 < g.p0 + g.np)),
        (0x11, (bound || score || cmd = 6) && g.dc = 3),
        (0x12, (bound || score) && (g.nq = 0 || 16 < g.nq || g.pcnt = 0 || 4096 < g.pcnt || (score && g.nq ≤ g.qidx))),
        (0x13, cmd = 2 && (g.k = 0 || 256 < g.k)),
        (0x14, (bound || score) && (g.lrs % 4 ≠ 0 || (1 < g.nq && g.lrs < list))),
        (0x15, bound && g.sel && (fp32.unpack g.thresh).isNan),
        (0x16, params.any fun p => p.writes && params.any fun q =>
          q.reads && rangesOverlap (start p) p.extent (start q) q.extent)]
    pieceSeg := t.seg.get (locSeg (r.get (if cmd = 4 then 6 else if cmd = 5 then 5 else 2)))
    pieceSeg2 := t.seg.get (locSeg (r.get 3)) }

/-! Ordered scores (R388, R391). -/

/-- Whether a score comes before another, its number being higher or lower as `low` says; `nanFirst` says where NaNs stand.
None where neither does. -/
def scoreBefore (low nanFirst : Bool) (x y : Nat) : Option Bool :=
  let a := fp32.unpack x
  let b := fp32.unpack y
  match a.isNan, b.isNan with
  | true, true => none
  | true, false => some nanFirst
  | false, true => some !nanFirst
  | false, false =>
    match a.cmp b with
    | .lt => some low
    | .gt => some !low
    | .eq => none

/-- The total order of pairs (R391). -/
def pairBetter (dir : Bool) (x y : BitVec 32 × BitVec 32) : Bool :=
  match scoreBefore dir false x.1.toNat y.1.toNat with
  | some b => b
  | none => if x.2 ≠ y.2 then x.2.ult y.2 else x.1.ult y.1

/-- Places a pair before the first one that it is better than. -/
def placePair (dir : Bool) (x : BitVec 32 × BitVec 32) : List (BitVec 32 × BitVec 32) → List (BitVec 32 × BitVec 32)
  | [] => [x]
  | y :: rest => if pairBetter dir x y then x :: y :: rest else y :: placePair dir x rest

/-- The insertion of R391. -/
def TopK.insert (t : TopK) (x : BitVec 32 × BitVec 32) : TopK := { t with pairs := (placePair t.dir x t.pairs).take t.k }

/-- The image of a list: its header and entries (R392). -/
def TopK.words (t : TopK) : List Word :=
  w64 (t.pairs.length + 2 ^ 9 * t.k + 2 ^ 18 * t.dir.toNat) :: t.pairs.map fun (s, i) => w64 (s.toNat + 2 ^ 32 * i.toNat)

/-! Records (R253, R254, R393). -/

/-- A record as it was read in one step. -/
structure Summary where
  pscale : Nat
  nonempty : Bool
  mins : List Int
  maxs : List Int

/-- The regions that hold for an address of an ASID at a core's port or at the receiving die: those cached with a translation that
covers it, else those of the table now (R252). -/
def State.regionsAt (s : State) (L : Nat) (asid : BitVec 16) (ga : Word) : List Region × Option Nat :=
  let m := gaModule ga
  let va := gaVa ga
  let own := if m = moduleOf L then (look (s.module m).clusterTlbs (s.clusterAt L)).getD [] else []
  let die := ((s.module m).die (if m = moduleOf L then s.dieAt L else dieOf (s.receiver (moduleOf L) ga))).tlb
  match (own ++ die).find? fun e => e.covers asid va with
  | some e => (e.leaf.regions, e.leaf.poisonAt)
  | none => s.regions m asid

/-- The address is that of the record of a key page of a valid region of the ASID with this channel code (R393). A lookup that a poisoned
table entry stops has found none (log 67). -/
def State.isRecord (s : State) (L : Nat) (asid : BitVec 16) (ga : Word) (dc : Nat) : Bool :=
  let va := gaVa ga
  isShared ga && (s.regionsAt L asid ga).1.any fun r => r.dc = dc && r.records va && (va - r.sbase) % recordSize r.dc = 0

/-- The whole record at an address. -/
def readSummary (c : Cmd) (ga : Word) (g : SGeom) : EngM s₀ Summary := do
  if !(← engNow).isRecord (← get).core c.asid ga g.dc then throw (.error 0x10)
  else
    let bs ← engBytes ga.toNat g.rs
    return {
      pscale := ofBytes (bs.take 4)
      nonempty := (bs.getD 4 0).getLsbD 0
      mins := ((bs.drop 64).take g.d).map fun b => b.toInt
      maxs := ((bs.drop (64 + g.d)).take g.d).map fun b => b.toInt }

/-- The queries of the command with their scales, read once. -/
def readQueries (c : Cmd) (g : SGeom) (qs : List Nat) : EngM s₀ (List (List Byte × Nat)) := do
  let p ← prog
  if p.queries.isEmpty then
    let xs ← qs.mapM fun q => do
      let bs ← engBytes ((c.rig.get 0).toNat + q * g.qrs) g.d
      let s ← engRead (w64 ((c.rig.get 1).toNat + 4 * q)) 4
      return (bs, s)
    modProg fun p => { p with queries := xs }
    return xs
  else return p.queries

/-! Bounds and scores (R387, R390, R394). -/

/-- RNE_F32(x * RNE_F32(a * b)) for an exact integer x, with NV and OF. -/
def scaledScore (x : Int) (a b : Nat) : Nat × FmtFlags :=
  let (s, e1) := fp32.mul 0 a b
  let (v, e2) := fp32.pack 0 (Num.mul (Num.ofInt x 0 false) (fp32.unpack s)).1
  let nv := (fp32.unpack a).isNan || (fp32.unpack b).isNan
  let inf := match fp32.unpack v with
    | .inf _ => true
    | _ => false
  let overflowed := inf && (e1 ||| e2) &&& Exc.of ≠ 0
  let v := if (fp32.unpack v).isNan then fp32.nan else v
  (v, (if nv then 8 else 0) ||| (if overflowed then 4 else 0))

/-- The bound of an empty page. -/
def emptyBound (g : SGeom) : Nat := if g.l2 then fp32.infBits else fp32.signed true fp32.infBits

/-- The exact sum of a bound. -/
def boundSum (g : SGeom) (q : List Byte) (r : Summary) : Int :=
  sumInt ((q.zip (r.mins.zip r.maxs)).map fun (b, (lo, hi)) =>
    let x := b.toInt
    if g.l2 then
      let e := max (max (lo - x) (x - hi)) 0
      e * e
    else if 0 ≤ x then x * hi else x * lo)

/-- The pages kept for a query with a further one (R388): page, bound. -/
def keepPage (g : SGeom) (page bnd : Nat) (kept : List (Nat × Nat) × Nat) : List (Nat × Nat) × Nat :=
  let a := fp32.unpack bnd
  let t := fp32.unpack g.thresh
  let passes := a.isNan || !g.sel || (if g.l2 then a.cmp t ≠ .gt else a.cmp t ≠ .lt)
  if bnd = emptyBound g || !passes then kept
  else
    let before (y : Nat × Nat) : Bool := scoreBefore g.l2 true bnd y.2 = some true
    let rec place : List (Nat × Nat) → List (Nat × Nat)
      | [] => [(page, bnd)]
      | y :: rest => if before y then (page, bnd) :: y :: rest else y :: place rest
    ((place kept.1).take g.pcnt, kept.2 + 1)

/-- One page of `sl.bound`, then one word of its lists (R387, R388). -/
def boundUnit (c : Cmd) : EngM s₀ Bool := do
  let p ← prog
  let g := sGeom c.rig
  if p.w < g.np then
    let qs ← readQueries c g (List.range g.nq)
    let page := g.p0 + p.w
    let r ← readSummary c (w64 ((c.rig.get 2).toNat + g.rs * page)) g
    let picks := if p.picks.isEmpty then List.replicate g.nq ([], 0) else p.picks
    if r.nonempty then
      if g.l2 && qs.any fun q => q.2 ≠ r.pscale then throw (.error 0x11)
      else
        let bounds := qs.map fun (q, s) => scaledScore (boundSum g q r) s (if g.l2 then s else r.pscale)
        engEach bounds fun b => setFmt b.2
        modProg fun p => { p with w := p.w + 1, picks := (picks.zip bounds).map fun (k, b) => keepPage g page b.1 k }
    else modProg fun p => { p with w := p.w + 1, picks := picks }
    return true
  else if p.n < g.nq then
    let (pages, qualified) := p.picks.getD p.n ([], 0)
    let words := (pages.length + if g.pcnt < qualified then 2 ^ 31 else 0) :: pages.map fun x => x.1
    engWrite (w64 ((c.rig.get 4).toNat + p.n * g.lrs + 4 * p.m)) 4 (words.getD p.m 0)
    modProg fun p => if p.m + 1 < words.length then { p with m := p.m + 1 } else { p with m := 0, n := p.n + 1 }
    return true
  else return false

/-- A record, page or entry named while the command runs passes R314 (R385). -/
def reached (d : Seg) (at_ : Word) (rel n esz : Nat) (writes : Bool) : Bool :=
  let off := (at_ - d.base).toNat + rel
  off + n ≤ d.limit && off + n < 2 ^ 61 && d.e && (if writes then d.w else d.r) && d.spread = 0 &&
    !touchesRefused (at_ + w64 rel) n && at_.toNat % esz = 0

/-- Inserts a pair into a list of the core. -/
def insertPair (tl : Fin 4) (x : BitVec 32 × BitVec 32) : EngM s₀ Unit := do
  let c ← get
  engAct (modCore c.core fun k => { k with topk := vset k.topk tl ((k.topk.get tl).insert x) })

/-- The scores of the keys of a page (R390). -/
def pageScores (g : SGeom) (q : List Byte) (s pscale : Nat) (keys : List Byte) : List (Nat × FmtFlags) :=
  (List.range g.kpp).map fun i =>
    let k := (keys.drop (i * g.d)).take g.d
    let sum := sumInt ((q.zip k).map fun (a, b) => if g.l2 then (a.toInt - b.toInt) * (a.toInt - b.toInt) else a.toInt * b.toInt)
    scaledScore sum s (if g.l2 then s else pscale)

/-- A unit of `sl.score` (R390): entry j is read and scored, or in DENSE mode its next score is written. -/
def scoreUnit (c : Cmd) : EngM s₀ Bool := do
  let g := sGeom c.rig
  let qs ← readQueries c g [g.qidx]
  let list := (c.rig.get 4).toNat + g.qidx * g.lrs
  if (← prog).n = 0 then
    let count := (← engRead (w64 list) 4) % 2 ^ 13
    if g.pcnt < count then throw (.error 0x12)
    else modProg fun p => { p with n := count + 1 }
  else pure ()
  let p ← prog
  let j := p.w
  match p.out with
  | x :: rest =>
    engWrite (w64 ((c.rig.get 5).toNat + 4 * (j * g.kpp + (g.kpp - p.out.length)))) 4 x
    modProg fun p => if rest.isEmpty then { p with out := [], w := j + 1 } else { p with out := rest }
    return true
  | [] =>
    if p.n - 1 ≤ j then return false
    else
      let page ← engRead (w64 (list + 4 + 4 * j)) 4
      let rb := c.rig.get 2
      let kb := c.rig.get 3
      if !reached c.seg rb (g.rs * page) g.rs 64 false || !reached c.seg2 kb (16384 * page) 16384 16384 false then
        throw (.error 0x13)
      else
        let ra := w64 (rb.toNat + g.rs * page)
        if !(← engNow).isRecord (← get).core c.asid ra g.dc then throw (.error 0x10)
        else
          let pscale ← engRead ra 4
          let (q, s) := qs.headD ([], 0)
          if g.l2 && pscale ≠ s then throw (.error 0x11)
          else
            let scores := pageScores g q s pscale (← engBytes (kb.toNat + 16384 * page) 16384)
            engEach scores fun x => setFmt x.2
            if g.dense then modProg fun p => { p with out := scores.map fun x => x.1 }
            else
              engEach scores.zipIdx fun (x, i) =>
                insertPair g.tl (BitVec.ofNat 32 x.1, BitVec.ofNat 32 (g.ido + page * g.kpp + i))
              modProg fun p => { p with w := j + 1 }
            return true

/-- The header, then one entry of `sl.kmerge` (R392). -/
def kmergeUnit (c : Cmd) : EngM s₀ Bool := do
  let g := sGeom c.rig
  let at_ := c.rig.get 6
  if (← prog).n = 0 then
    let h ← engRead at_ 8
    if 256 < h % 512 || h / 2 ^ 19 ≠ 0 then throw (.error 0x14)
    else modProg fun p => { p with n := h % 512 + 1 }
  else pure ()
  let p ← prog
  if p.n - 1 ≤ p.w then return false
  else if !reached c.seg at_ (8 + 8 * p.w) 8 8 false then throw (.error 0x14)
  else
    let x ← engRead (w64 (at_.toNat + 8 + 8 * p.w)) 8
    insertPair g.tl (BitVec.ofNat 32 x, BitVec.ofNat 32 (x / 2 ^ 32))
    modProg fun p => { p with w := p.w + 1 }
    return true

/-- One word of the image that `sl.kread` writes (R392). -/
def kreadUnit (c : Cmd) : EngM s₀ Bool := do
  let x ← get
  let p := x.prog
  let image := ((x.run.s.core x.core).topk.get (sGeom c.rig).tl).words
  let at_ := c.rig.get 5
  if image.length ≤ p.w then return false
  else if p.w ≠ 0 && !reached c.seg at_ (8 * p.w) 8 4 true then throw (.error 0x14)
  else
    engPut (at_.toNat + 8 * p.w) (toBytes 8 (image.getD p.w 0).toNat)
    modProg fun p => { p with w := p.w + 1 }
    return true

/-- `sl.kinit` and `sl.kins` (R392). -/
def listUnit (c : Cmd) : EngM s₀ Bool := do
  let p ← prog
  let g := sGeom c.rig
  if p.w ≠ 0 then return false
  else
    let x ← get
    if c.cmd = 2 then
      engAct (modCore x.core fun k => { k with topk := vset k.topk g.tl { k := g.k, dir := g.dir, pairs := [] } })
    else insertPair g.tl (BitVec.ofNat 32 c.a.toNat, BitVec.ofNat 32 c.b.toNat)
    modProg fun p => { p with w := 1 }
    return true

/-- The lines of a key page and of its record, as accesses at their home, which the step of R257 uses (R260). -/
def stepLines (tg : Target) (m a : Nat) (r : SumRef) : List Target :=
  (List.range 128).map (fun i => { tg with place := .pa m (a + 128 * i) }) ++
    ({ tg with place := .pa m a, sum := some r }.lines.drop 1).map fun (l, pin) => { tg with place := .pa m (128 * l), pin := some pin }

/-- The step of R257 at the home of a key page: the record from all bytes of the page. Its lines are used there (R261). -/
def resummarise (tg : Target) (m a : Nat) (r : SumRef) : Act s₀ Unit := do
  let s ← now
  let byte (i : Nat) : Int × Int :=
    if s.placePoison (.pa m (a + i)) then (-128, 127) else
      let x := (s.paByte m (a + i)).toInt
      (x, x)
  each (List.range 128) fun i => touch { tg with place := .pa m (a + 128 * i) } false
  each (List.range r.d) fun c => do
    let xs := (List.range (16384 / r.d)).map fun k => byte (k * r.d + c)
    recPoke tg.home m r (64 + c) [BitVec.ofInt 8 (xs.foldl (fun a x => min a x.1) 127)]
    recPoke tg.home m r (64 + r.d + c) [BitVec.ofInt 8 (xs.foldl (fun a x => max a x.2) (-128))]
  recPoke tg.home m r 4 (toBytes 4 (recNat s m r 4 4 / 4 * 4 + 1))
  recPoke tg.home m r 8 (toBytes 4 16384)

/-- One page of `sl.resum` (R393): a page in no valid region is an error before it is translated. It needs R on the key page; the
record's translation parks it as a write's does. -/
def resumUnit (c : Cmd) : EngM s₀ Bool := do
  let p ← prog
  let g := sGeom c.rig
  if g.np ≤ p.w then return false
  else
    let ga := w64 ((c.rig.get 3).toNat + 16384 * (g.p0 + p.w))
    let x ← get
    let s := x.run.s
    let m := gaModule ga
    let (regions, poisonAt) := s.regionsAt x.core c.asid ga
    match regions.find? fun r => r.holds (gaVa ga) with
    | none =>
      if !isShared ga ∨ poisonAt.isNone then throw (.error 0x10)
      else
        let _ ← engTarget ga .read false false
        throw (.error 0x10)
    | some region =>
      if !isShared ga then throw (.error 0x10)
      else
        let tg ← engTarget ga .read false false
        match tg.place.physical with
        | none => throw (.error 0x10)
        | some (_, a) =>
          let other := decide (m ≠ moduleOf x.core)
          let die := if other then dieOf (s.receiver (moduleOf x.core) ga) else s.dieAt x.core
          let cluster := if other then none else some (s.clusterAt x.core)
          let n := (gaVa ga - region.vbase) / 16384
          let size := recordSize region.dc
          match ← engAct (recordPieces m cluster die c.asid (region.sbase + size * n) size) with
          | .error .wait => throw .held
          | .error (.fault f) =>
            if s.faultsFatal m x.core then throw (.error 3)
            else if other ∧ !s.mayHold m die then throw .returned
            else throw (.walk f (m * 8 + die) (if other then 6 else 4))
          | .ok ps =>
            let r : SumRef := { d := 64 * 2 ^ region.dc, pieces := ps, off := 0 }
            let tg := { tg with home := region.home m n }
            let P := s.physOf (if other then s.receiver (moduleOf x.core) ga else x.core)
            if ← engAct (allGranted (.engine x.core x.eng) other P (stepLines tg m a r)) then
              if (List.range size).any fun i => s.placePoison (.pa m (pieceAddr ps i)) then throw (.error 4)
              else
                engAct (resummarise tg m a r)
                modProg fun p => { p with w := p.w + 1 }
                return true
            else throw .held

/-- The units of the selection commands. -/
def slUnit (c : Cmd) : EngM s₀ Bool :=
  match c.cmd with
  | 0 => boundUnit c
  | 1 => scoreUnit c
  | 4 => kmergeUnit c
  | 5 => kreadUnit c
  | 6 => resumUnit c
  | _ => listUnit c

/-- Issue. Page bounds and gather lists. (R313, R387, R388) -/
def attSlBound (x : EngArgs) : Att s₀ Next := issueCommand .slu 0x00 x (slSpec 0x00)

/-- `slBound`: one attempt of its issue (R313, R387, R388). -/
def execSlBound (x : EngArgs) (st : State) : Host.Outcome State Fault Refusal := issue (.slBound x) st (attSlBound x)

/-- Issue. Exact scores of listed pages. (R313, R390) -/
def attSlScore (x : EngArgs) : Att s₀ Next := issueCommand .slu 0x01 x (slSpec 0x01)

/-- `slScore`: one attempt of its issue (R313, R390). -/
def execSlScore (x : EngArgs) (st : State) : Host.Outcome State Fault Refusal := issue (.slScore x) st (attSlScore x)

/-- Issue. Empties a top-k list. (R313, R392) -/
def attSlKinit (x : EngArgs) : Att s₀ Next := issueCommand .slu 0x02 x (slSpec 0x02)

/-- `slKinit`: one attempt of its issue (R313, R392). -/
def execSlKinit (x : EngArgs) (st : State) : Host.Outcome State Fault Refusal := issue (.slKinit x) st (attSlKinit x)

/-- Issue. Inserts one pair. (R313, R391, R392) -/
def attSlKins (x : EngArgs) : Att s₀ Next := issueCommand .slu 0x03 x (slSpec 0x03)

/-- `slKins`: one attempt of its issue (R313, R391, R392). -/
def execSlKins (x : EngArgs) (st : State) : Host.Outcome State Fault Refusal := issue (.slKins x) st (attSlKins x)

/-- Issue. Inserts an image. (R313, R392) -/
def attSlKmerge (x : EngArgs) : Att s₀ Next := issueCommand .slu 0x04 x (slSpec 0x04)

/-- `slKmerge`: one attempt of its issue (R313, R392). -/
def execSlKmerge (x : EngArgs) (st : State) : Host.Outcome State Fault Refusal := issue (.slKmerge x) st (attSlKmerge x)

/-- Issue. Writes an image. (R313, R392) -/
def attSlKread (x : EngArgs) : Att s₀ Next := issueCommand .slu 0x05 x (slSpec 0x05)

/-- `slKread`: one attempt of its issue (R313, R392). -/
def execSlKread (x : EngArgs) (st : State) : Host.Outcome State Fault Refusal := issue (.slKread x) st (attSlKread x)

/-- Issue. Recomputes records. (R313, R393) -/
def attSlResum (x : EngArgs) : Att s₀ Next := issueCommand .slu 0x06 x (slSpec 0x06)

/-- `slResum`: one attempt of its issue (R313, R393). -/
def execSlResum (x : EngArgs) (st : State) : Host.Outcome State Fault Refusal := issue (.slResum x) st (attSlResum x)

end Sys2Proof.Machine
end

