-- ==== Sys2Proof/Machine/Interface.lean ====
section
/-! DEFINITION. The engine-interface instructions (R317, R319, R320). -/

namespace Sys2Proof.Machine

variable {s₀ : State}

/-- A write of a thread's commands on an engine has still to reach a replica (R289, R317). -/
def State.engineCopies (s : State) (L : Nat) (k : Fin 16) (e : Engine) : Bool :=
  s.copies.any fun (_, x) => x.core = L && x.slot = k && x.gen = (s.thread L k).gen && (x.engine.map fun y => y.1) = some e

/-- Waits for the thread's commands on an engine, and for their writes at every replica (R289, R317). -/
def engineWait (e : Engine) : Att s₀ Unit := do
  let c ← get
  let s ← here
  if s.outstanding c.core c.slot e ≠ 0 ∨ s.engineCopies c.core c.slot e then
    stop (.park (.engineDone e))
  else pure ()

/-- The wait before the first word of a save area is moved. -/
def engineWaitFirst (e : Engine) : Att s₀ Unit := do
  match (← get).left with
  | [] => engineWait e
  | _ => pure ()

/-- Sets a field of the thread's state for an engine. -/
def modEng (e : Engine) (f : EngThread → EngThread) : Att s₀ Unit :=
  modSelf fun t => { t with eng := vset t.eng (engIx e) (f (t.engThread e)) }

/-- The status word (R319). -/
def statusWord (x : EngThread) (out : Nat) : Word :=
  w64 (2 ^ 32 * x.doneSeq.toNat + 2 ^ 8 * x.flags.toNat + 4 * x.err.isSome.toNat + out)

/-- Words 256 and 264 of a save area, after the rigging registers (R320). -/
def saveWords (x : EngThread) : List Word :=
  x.rig.toList ++ [w64 (x.seq.toNat + 2 ^ 32 * x.flags.toNat + 2 ^ 37 * x.err.isSome.toNat + 2 ^ 40 * (x.err.getD 0).toNat), 0]

/-- The words of a save area hold no reserved bit (R320). -/
def saveWordsOk (ws : List Word) : Bool :=
  let w := ws.getD 32 0
  field w 48 16 = 0 && field w 38 2 = 0 && (bit w 37 || field w 40 8 = 0) && ws.getD 33 0 = 0

/-- The thread's state for an engine from a save area. -/
def loadSave (old : EngThread) (ws : List Word) : EngThread :=
  let w := ws.getD 32 0
  { old with
    rig := Vector.ofFn fun i => ws.getD i.val 0
    seq := w.truncate 32
    flags := BitVec.ofNat 5 (field w 32 5)
    err := if bit w 37 then some (BitVec.ofNat 8 (field w 40 8)) else none }

/-- The save area at a location, checked whole (R320). -/
def saveArea (p : Word) (need : Right) : Att s₀ (Seg × Nat) := do
  let off := locOff p
  if off % 16 ≠ 0 then stop (.trap Cause.misaligned (w64 off))
  else
    let _ ← seg (locSeg p) off 272 need
    return ((← self).seg.get (locSeg p), off)

/-- Checks the window of every word of a save area before the first store. -/
def windowWords (d : Seg) (off : Nat) : Nat → Att s₀ Unit
  | 0 => pure ()
  | n + 1 => do
    windowCheck (d.form off) 8 .store
    windowWords d (off + 8) n

/-- The translation of each word's address comes before the first store, so that a word that traps or parks leaves no other stored
(R9, log 64); answers their targets. -/
def checkWords (d : Seg) (off : Nat) : Nat → Att s₀ (List (Option Target))
  | 0 => pure []
  | n + 1 => do
    let tg ← translated (d.form off)
    return tg :: (← checkWords d (off + 8) n)

/-- Stores words from an offset of a segment, whose addresses are checked and translated. -/
def storeWords (d : Seg) (off : Nat) : List (Word × Option Target) → Att s₀ Unit
  | [] => pure ()
  | (w, tg) :: rest => do
    let ga := d.form off
    let c ← get
    if isOwn c.core ga then store ga 8 w
    else sendStore (.store 8 w) ga 8 tg
    storeWords d (off + 8) rest

/-- The words of bytes. -/
def wordsOf (bs : List Byte) : List Word := (List.range (bs.length / 8)).map fun i => w64 (ofBytes ((bs.drop (8 * i)).take 8))

/-- Writes a rigging register. (R317) -/
def attEngset (eng : Engine) (n : Fin 32) (a : Operand) : Att s₀ Next := do
  let v ← use a
  modEng eng fun x => { x with rig := vset x.rig n v }
  return .seq

/-- `engset`: one attempt (R317). -/
def execEngset (eng : Engine) (n : Fin 32) (a : Operand) (st : State) : Host.Outcome State Fault Refusal := issue (.engset eng n a) st (attEngset eng n a)

/-- Reads a rigging register. (R317) -/
def attEngget (d : Operand) (eng : Engine) (n : Fin 32) : Att s₀ Next := do
  write d (((← self).engThread eng).rig.get n)
  return .seq

/-- `engget`: one attempt (R317). -/
def execEngget (d : Operand) (eng : Engine) (n : Fin 32) (st : State) : Host.Outcome State Fault Refusal := issue (.engget d eng n) st (attEngget d eng n)

/-- Waits for the thread's commands; an error then traps. (R317) -/
def attEngwait (eng : Engine) : Att s₀ Next := do
  engineWait eng
  match ((← self).engThread eng).err with
  | some code => stop (.engError eng code)
  | none => return .seq

/-- `engwait`: one attempt (R317). -/
def execEngwait (eng : Engine) (st : State) : Host.Outcome State Fault Refusal := issue (.engwait eng) st (attEngwait eng)

/-- Reads the status word and clears the flags it returns. (R317, R319) -/
def attEngstat (d : Operand) (eng : Engine) : Att s₀ Next := do
  let c ← get
  let v ← once do return statusWord ((← self).engThread eng) ((← here).outstanding c.core c.slot eng)
  modEng eng fun x => { x with flags := x.flags &&& ~~~(BitVec.ofNat 5 (field v 8 5)) }
  write d v
  return .seq

/-- `engstat`: one attempt (R317, R319). -/
def execEngstat (d : Operand) (eng : Engine) (st : State) : Host.Outcome State Fault Refusal := issue (.engstat d eng) st (attEngstat d eng)

/-- Stores the save area. (R317, R320) -/
def attEngsave (eng : Engine) (a : Operand) : Att s₀ Next := do
  let p ← use a
  engineWaitFirst eng
  let (d, off) ← saveArea p .w
  windowWords d off 34
  let targets ← checkWords d off 34
  if 2 ^ 32 ≤ (← self).pendb.toNat + 272 then stop (.wait .drain)
  else
    storeWords d off ((saveWords ((← self).engThread eng)).zip targets)
    return .seq

/-- `engsave`: one attempt (R317, R320). -/
def execEngsave (eng : Engine) (a : Operand) (st : State) : Host.Outcome State Fault Refusal := issue (.engsave eng a) st (attEngsave eng a)

/-- Loads the save area. (R317, R320) -/
def attEngload (eng : Engine) (a : Operand) : Att s₀ Next := do
  let p ← use a
  engineWaitFirst eng
  let (d, off) ← saveArea p .r
  let ws := wordsOf (← readWords d off 34)
  if !saveWordsOk ws then illegalOperand
  else
    modEng eng fun x => loadSave x ws
    return .seq

/-- `engload`: one attempt (R317, R320). -/
def execEngload (eng : Engine) (a : Operand) (st : State) : Host.Outcome State Fault Refusal := issue (.engload eng a) st (attEngload eng a)

end Sys2Proof.Machine
end

