-- ==== Sys2Proof/Machine/System.lean ====
section
/-! DEFINITION. The instructions of system software (R250, R416, R422). -/

namespace Sys2Proof.Machine

variable {s₀ : State}

/-- Sends a handle to a fault table and waits for its reply. (R416) -/
def attWake (a : Operand) : Att s₀ Next := do
  let h ← use a
  if field h 33 31 ≠ 0 then illegalOperand
  else
    release .package
    match ← given with
    | some _ => return .seq
    | none => stop (.wait (.table h))

/-- `wake`: one attempt (R416). -/
def execWake (a : Operand) (st : State) : Host.Outcome State Fault Refusal := issue (.wake a) st (attWake a)

/-- Joins the queue of the freeze controller and waits for its operation. (R422) -/
def attPreempt (a : Operand) : Att s₀ Next := do
  let c ← get
  let s ← here
  let v ← use a
  let m := moduleOf c.core
  let L := field v 0 33
  match ← given with
  | some t => do
    let _ ← t.get
    return .seq
  | none =>
    if field v 33 16 ≠ 0 ∨ 2 ≤ field v 50 2 ∨ s.sysBlock m 0x20 % 2 ^ 13 ≤ field v 52 12 ∨ moduleOf L ≠ m ∨ L = c.core ∨
        s.isService L then
      illegalOperand
    else stop (.control v)

/-- `preempt`: one attempt (R422). -/
def execPreempt (a : Operand) (st : State) : Host.Outcome State Fault Refusal := issue (.preempt a) st (attPreempt a)

/-- Drops translations in the module and waits for the acknowledgements. (R250) -/
def attTlbinv (d a : Operand) : Att s₀ Next := do
  let c ← get
  let ga ← readReg a
  let x ← readReg d
  if !isShared ga ∨ gaModule ga ≠ moduleOf c.core then illegalOperand
  else
    release .package
    match ← given with
    | some _ => return .seq
    | none => stop (.wait (.acks ga x (List.range 8)))

/-- `tlbinv`: one attempt (R250). -/
def execTlbinv (d a : Operand) (st : State) : Host.Outcome State Fault Refusal := issue (.tlbinv d a) st (attTlbinv d a)

end Sys2Proof.Machine
end

