-- ==== Sys2Proof/Machine/Resume.lean ====
section
/-! DEFINITION. The attempt of each instruction, and the further attempts of an instruction at which a thread waits (R145,
R146). -/

namespace Sys2Proof.Machine

variable {s₀ : State}

/-- The attempt of an instruction; a hardware event has none. -/
def attemptOf (i : Sys2Proof.Instr) : Att s₀ Next :=
  match i with
  | .add d a b => attAdd d a b
  | .sub d a b => attSub d a b
  | .and d a b => attAnd d a b
  | .or d a b => attOr d a b
  | .xor d a b => attXor d a b
  | .andn d a b => attAndn d a b
  | .shl d a b => attShl d a b
  | .shr d a b => attShr d a b
  | .sar d a b => attSar d a b
  | .rot d a b => attRot d a b
  | .min d a b => attMin d a b
  | .max d a b => attMax d a b
  | .minn d a b => attMinn d a b
  | .maxn d a b => attMaxn d a b
  | .slt d a b => attSlt d a b
  | .sltn d a b => attSltn d a b
  | .seq d a b => attSeq d a b
  | .mul d a b => attMul d a b
  | .mulh d a b => attMulh d a b
  | .mulhn d a b => attMulhn d a b
  | .div d a b => attDiv d a b
  | .divn d a b => attDivn d a b
  | .rem d a b => attRem d a b
  | .remn d a b => attRemn d a b
  | .clz d a => attClz d a
  | .ctz d a => attCtz d a
  | .popc d a => attPopc d a
  | .bswapH d a => attBswapH d a
  | .bswapS d a => attBswapS d a
  | .bswapW d a => attBswapW d a
  | .sextB d a => attSextB d a
  | .sextH d a => attSextH d a
  | .sextS d a => attSextS d a
  | .zextB d a => attZextB d a
  | .zextH d a => attZextH d a
  | .zextS d a => attZextS d a
  | .sel d a b c => attSel d a b c
  | .addi d a imm => attAddi d a imm
  | .andi d a imm => attAndi d a imm
  | .ori d a imm => attOri d a imm
  | .xori d a imm => attXori d a imm
  | .slti d a imm => attSlti d a imm
  | .shli d a n => attShli d a n
  | .shri d a n => attShri d a n
  | .sari d a n => attSari d a n
  | .roti d a n => attRoti d a n
  | .bfx d a pos len1 => attBfx d a pos len1
  | .bfxs d a pos len1 => attBfxs d a pos len1
  | .bfi d a pos len1 => attBfi d a pos len1
  | .li d imm => attLi d imm
  | .lhi d imm => attLhi d imm
  | .fadd d a b f rm => attFadd d a b f rm
  | .fsub d a b f rm => attFsub d a b f rm
  | .fmul d a b f rm => attFmul d a b f rm
  | .fdiv d a b f rm => attFdiv d a b f rm
  | .fmin d a b f => attFmin d a b f
  | .fmax d a b f => attFmax d a b f
  | .feq d a b f => attFeq d a b f
  | .flt d a b f => attFlt d a b f
  | .fle d a b f => attFle d a b f
  | .fsgn d a b f => attFsgn d a b f
  | .fsqrt d a f rm => attFsqrt d a f rm
  | .fclass d a f => attFclass d a f
  | .fround d a f rm => attFround d a f rm
  | .fma d a b c f rm => attFma d a b c f rm
  | .fnma d a b c f rm => attFnma d a b c f rm
  | .fcvt d a dt st rm => attFcvt d a dt st rm
  | .ld d k sz mod disp => attLd d k sz mod disp
  | .ldn d k sz mod disp => attLdn d k sz mod disp
  | .st d k sz mod disp => attSt d k sz mod disp
  | .pf hint k mod disp => attPf hint k mod disp
  | .ldfe d k mod disp => attLdfe d k mod disp
  | .ldff d k mod disp => attLdff d k mod disp
  | .stef d k mod disp => attStef d k mod disp
  | .stsf d k mod disp => attStsf d k mod disp
  | .fempty k => attFempty k
  | .fstate d k => attFstate d k
  | .lr d k => attLr d k
  | .sc d b k => attSc d b k
  | .cas d b k => attCas d b k
  | .waitrs => attWaitrs
  | .amoAdd d b k => attAmoAdd d b k
  | .amoAnd d b k => attAmoAnd d b k
  | .amoOr d b k => attAmoOr d b k
  | .amoXor d b k => attAmoXor d b k
  | .amoMin d b k => attAmoMin d b k
  | .amoMax d b k => attAmoMax d b k
  | .amoMinn d b k => attAmoMinn d b k
  | .amoMaxn d b k => attAmoMaxn d b k
  | .amoSwap d b k => attAmoSwap d b k
  | .amoFadd d b k => attAmoFadd d b k
  | .fence kind scope => attFence kind scope
  | .fenceFlag kind scope k => attFenceFlag kind scope k
  | .bar scope => attBar scope
  | .beq a b disp => attBeq a b disp
  | .bne a b disp => attBne a b disp
  | .blt a b disp => attBlt a b disp
  | .bge a b disp => attBge a b disp
  | .bltn a b disp => attBltn a b disp
  | .bgen a b disp => attBgen a b disp
  | .bz a disp => attBz a disp
  | .bnz a disp => attBnz a disp
  | .jmp disp => attJmp disp
  | .call disp => attCall disp
  | .jr a => attJr a
  | .loop a disp => attLoop a disp
  | .setp k a => attSetp k a
  | .getp d k => attGetp d k
  | .setm k a => attSetm k a
  | .segq d k second => attSegq d k second
  | .segld k a b => attSegld k a b
  | .npcount d a => attNpcount d a
  | .spawn a b => attSpawn a b
  | .texit => attTexit
  | .yield => attYield
  | .launch scope a b => attLaunch scope a b
  | .taskpush a => attTaskpush a
  | .taskpop d => attTaskpop d
  | .taskdone a => attTaskdone a
  | .trigset k b => attTrigset k b
  | .trigclr k => attTrigclr k
  | .gidget d => attGidget d
  | .gidput a => attGidput a
  | .mxTgemm x => attMxTgemm x
  | .mxIgemm x => attMxIgemm x
  | .mxPromo x => attMxPromo x
  | .mxClr x => attMxClr x
  | .vxAdd x => attVxAdd x
  | .vxSub x => attVxSub x
  | .vxMul x => attVxMul x
  | .vxFma x => attVxFma x
  | .vxMin x => attVxMin x
  | .vxMax x => attVxMax x
  | .vxAbs x => attVxAbs x
  | .vxCvt x => attVxCvt x
  | .vxQuant x => attVxQuant x
  | .vxRed x => attVxRed x
  | .vxExp x => attVxExp x
  | .vxRsq x => attVxRsq x
  | .vxSmax x => attVxSmax x
  | .vxDist x => attVxDist x
  | .vxCmp x => attVxCmp x
  | .vxSel x => attVxSel x
  | .vxFill x => attVxFill x
  | .cpCopy x => attCpCopy x
  | .cpMcast x => attCpMcast x
  | .cpGath x => attCpGath x
  | .cpScat x => attCpScat x
  | .cpTern x => attCpTern x
  | .cpPack x => attCpPack x
  | .cpPf x => attCpPf x
  | .cpRed x => attCpRed x
  | .cpFill x => attCpFill x
  | .slBound x => attSlBound x
  | .slScore x => attSlScore x
  | .slKinit x => attSlKinit x
  | .slKins x => attSlKins x
  | .slKmerge x => attSlKmerge x
  | .slKread x => attSlKread x
  | .slResum x => attSlResum x
  | .engset eng n a => attEngset eng n a
  | .engget d eng n => attEngget d eng n
  | .engwait eng => attEngwait eng
  | .engstat d eng => attEngstat d eng
  | .engsave eng a => attEngsave eng a
  | .engload eng a => attEngload eng a
  | .mfsys d sys => attMfsys d sys
  | .mtsys sys a => attMtsys sys a
  | .trap n => attTrap n
  | .tret => attTret
  | .brk => attBrk
  | .rand d => attRand d
  | .iinv => attIinv
  | .wake a => attWake a
  | .preempt a => attPreempt a
  | .tlbinv d a => attTlbinv d a
  | _ => return .seq

/-- One more attempt of the instruction at which a thread waits; its next issue is `gap` cycles from now or later, and not before the
`CYCLE` that a reissue has set (R145). -/
def resume (L : Nat) (k : Fin 16) (gap : Nat) : Act s₀ Unit := do
  let s ← now
  let t := s.thread L k
  match t.parked with
  | none => pure ()
  | some w =>
    match decodeWord w with
    | .ok i => attempt i (attemptOf i) L k (max gap (t.nextIssue - s.cycle L))
    | .error _ => pure ()

/-- Gives a waiting instruction what it asked memory for, and goes on with it (R146). -/
def land (L : Nat) (k : Fin 16) (t : Token) (gap : Nat) : Act s₀ Unit := do
  modThread L k fun x => { x with taken := x.taken ++ [t] }
  resume L k gap

end Sys2Proof.Machine
end

