-- ==== Sys2Proof/Machine/Shroud.lean ====
section
/-! DEFINITION. The Shroud (R263 to R266, R447): the network of each die that carries requests to its slices, and combines them on the
way, and the second one that carries their answers back. Line `x` before a stage is port `x / 64` of switch `x % 64` there, after the
perfect shuffle; port 0 is the upper input. -/

namespace Sys2Proof.Machine

variable {s₀ : State}

/-- The slice of a request's home. -/
def Req.sliceNumber (r : Req) : Nat := (r.target.map fun t => t.home % 128).getD 0

/-- The input of its home die's network by which a request comes: that of its core, or the input of the die and of the row of the receiving
core that sends a request of another module on (R263, R447), whose own die's input it uses for a slice of its own die (log 68). -/
def State.netInput (s : State) (r : Req) (die : Nat) : Nat :=
  if gaModule r.ga ≠ moduleOf r.core then lineInput true (s.physOf (r.via.getD (s.receiver (moduleOf r.core) r.ga))) die
  else inputFrom (s.physOf r.core) die

/-- A translated request enters the network of its home's die. A thread's earlier request to the same home has entered before it, by the same
input (R279, R292): adds of one thread to one home are performed in the order in which it made them, although rows 1 and 5 of R297 allow
others (log 92). -/
def enterNet (id : Nat) : Act s₀ Unit := do
  let s ← now
  match look s.reqs id with
  | none => pure ()
  | some r =>
    match r.target with
    | none => pure ()
    | some tg =>
      let x := s.netInput r (dieOfSlice tg.home)
      emit (.req id (some { r with input := x }))
      enterAt (dieOfSlice tg.home) x id

/-- The slice for which a request, or a copy of a REP store, is in the network. -/
def State.netSlice (s : State) (id : Nat) : Nat :=
  match look s.reqs id, look s.copies id with
  | some r, _ => r.sliceNumber
  | none, some x => (sliceOf x.addr true 0).2
  | none, none => 0

/-- The line before the next stage by which a request on a line before a stage leaves its switch (R263). -/
def lineAfter (stage line slice : Nat) : Nat := line % 64 * 2 + slice / 2 ^ (6 - stage) % 2

/-- The line by which the head on a line leaves, if one waits there that has not moved in this cycle. -/
def State.headRoute (s : State) (n : Net) (stage line : Nat) : Option (Nat × Nat) :=
  match n.at_ stage line with
  | [] => none
  | id :: _ => if n.spent.any fun x => x.2 = id then none else some (id, lineAfter stage line (s.netSlice id))

/-- A pass of one output of a switch: the request that leaves by it in this cycle, of those whose turn it was to leave its inputs. When
both have one, they alternate; a full queue of 8 stops them (R263, R266). -/
def Net.pass (n : Net) (stage y : Nat) (upper lower : Option Nat) : Net :=
  let to_ := stage + 1
  let x := y / 2
  let key := to_ * 128 + y
  let full := 8 ≤ (n.at_ to_ y).length || n.spent.any fun z => z.1 = key
  let lowerTurn := lower.isSome && (upper.isNone || !n.lower.contains key)
  if full then n
  else match (if lowerTurn then lower else upper) with
    | none => n
    | some id =>
      let from_ := if lowerTurn then x + 64 else x
      let n := (n.set stage from_ (n.at_ stage from_).tail).set to_ y (n.at_ to_ y ++ [id])
      { n with lower := if lowerTurn then key :: n.lower.erase key else n.lower.erase key }

/-- One cycle of one stage: each output of each switch passes one request. The heads are those at the cycle's start. -/
def State.passStage (s : State) (n : Net) (stage : Nat) : Net :=
  let lines := n.queues.filterMap fun (k, _) => if k / 128 = stage then some (k % 128) else none
  let heads := lines.filterMap fun x => (s.headRoute n stage x).map fun (id, y) => (x, id, y)
  let outs := (heads.map fun h => h.2.2).eraseDups
  outs.foldl (fun n y =>
    let head (x : Nat) : Option Nat := (heads.find? fun h => h.1 = x && h.2.2 = y).map fun h => h.2.1
    n.pass stage y (head (y / 2)) (head (y / 2 + 64))) n

/-- One cycle of a network: every stage, the last first. -/
def State.passNet (s : State) (n : Net) : Net := [6, 5, 4, 3, 2, 1, 0].foldl s.passStage n

/-! Combining (R264). -/

/-- Two requests that may combine: the same word at the same home, loads of one size or one of six atomics of 8 bytes. -/
def mayCombine (x y : Req) : Bool :=
  x.stage = .translated && y.stage = .translated && (x.target.map fun t => (t.place, t.home)) = (y.target.map fun t => (t.place, t.home)) &&
  match x.op, y.op with
  | .load n, .load m => n = m
  | .amo f _, .amo g _ => f = g && f ≤ 5
  | _, _ => false

/-- The name of a switch of a die's network, by its stage. -/
def switchKey (die stage sw : Nat) : Nat := (die * 8 + stage) * 64 + sw

/-- Entries of a switch's combining buffer in use. -/
def State.combiningUsed (s : State) (key : Nat) : Nat :=
  (s.reqs.map fun (_, r) => r.combined.countP fun c => c.2.2 = key).foldr (fun a b => a + b) 0

/-- The pair of requests at the two inputs of a switch that combine now: the upper one first. Their queue has room, and the output has not
been used in this cycle. -/
def State.switchPair (s : State) (die : Nat) (n : Net) (stage sw : Nat) : Option (Nat × Nat) :=
  match s.headRoute n stage sw, s.headRoute n stage (sw + 64) with
  | some (a, y), some (b, z) =>
    match look s.reqs a, look s.reqs b with
    | some p, some q =>
      let key := switchKey die stage sw
      if y = z && mayCombine p q && (n.at_ (stage + 1) y).length < 8 && s.combiningUsed key < 8 &&
          !n.spent.any fun c => c.1 = (stage + 1) * 128 + y then
        some (a, b)
      else none
    | _, _ => none
  | _, _ => none

/-- Every pair that combines now, with its die's network, stage and switch. -/
def State.pairs (s : State) : List (Nat × Nat × Nat × Nat × Nat) :=
  s.nets.flatMap fun (die, n) => n.queues.filterMap fun (k, _) =>
    if k / 128 < 7 ∧ k % 128 < 64 then
      (s.switchPair die n (k / 128) (k % 128)).map fun (a, b) => (die, k / 128, k % 128, a, b)
    else none

/-- Two requests that meet at a switch combine into the first, which leaves the switch in that cycle (R264). -/
def combine (first second : Nat) : Act s₀ Unit := do
  let s ← now
  match s.pairs.find? fun (_, _, _, a, b) => a = first && b = second with
  | none => pure ()
  | some (die, stage, sw, _, _) =>
    match look s.reqs first, look s.reqs second with
    | some x, some y =>
      let (op, a) := match x.op, y.op with
        | .amo f a, .amo _ b => (HomeOp.amo f (amoResult f a b), a)
        | op, _ => (op, 0)
      emit (.req first (some { x with op := op, combined := x.combined ++ [(second, a, switchKey die stage sw)] }))
      emit (.req second (some { y with stage := .merged }))
      let y := lineAfter stage sw (s.netSlice first)
      modNet die fun n =>
        let n := (n.set stage sw (n.at_ stage sw).tail).set stage (sw + 64) (n.at_ stage (sw + 64)).tail
        { n.set (stage + 1) y (n.at_ (stage + 1) y ++ [first]) with spent := ((stage + 1) * 128 + y, first) :: n.spent }
    | _, _ => pure ()

/-- The request that a slice can accept next. -/
def State.atSlice (s : State) (home : Nat) : Option Nat := ((s.net (dieOfSlice home)).at_ 7 (home % 128)).head?

/-- A slice takes its next request from the network. -/
def leaveNet (home : Nat) : Act s₀ Unit := modNet (dieOfSlice home) fun n => n.set 7 (home % 128) (n.at_ 7 (home % 128)).tail

/-! The second network (R263, R265). -/

def Net.back (n : Net) (stage line : Nat) : List Nat := (look n.replies (stage * 128 + line)).getD []

def Net.setBack (n : Net) (stage line : Nat) (ids : List Nat) : Net :=
  { n with replies := if ids.isEmpty then del n.replies (stage * 128 + line) else put n.replies (stage * 128 + line) ids }

/-- The line before a stage on the path from an input to a slice. -/
def pathLine (input slice stage : Nat) : Nat := input * 2 ^ stage % 128 + slice / 2 ^ (7 - stage)

/-- The answer of a request that was combined into another with an answer: for an `amo`, F of the old value and the first's operand
(R265); a trap names its own address. -/
def combinedAnswer (op : HomeOp) (a : Word) (q : Req) (tok : Token) : Token :=
  match op, tok with
  | .amo fn _, .val old => .val (amoResult fn old a)
  | _, .trap c _ => .trap c (w64 (q.ga.toNat / 8 * 8))
  | _, t => t

/-- An answer leaves the second network, or moves on to the line before a stage. One that nobody waits for is gone. -/
def answerMoves (die stage line id : Nat) : Act s₀ Unit := do
  if stage ≠ 0 then modNet die fun n => n.setBack stage line (n.back stage line ++ [id])
  else
    let s ← now
    match look s.reqs id with
    | none => pure ()
    | some r =>
      match r.op, r.stage with
      | .prefetch _, _ => emit (.req id none)
      | _, .replying t => emit (.req id (some { r with stage := .performed t, answered := s.ctl.steps }))
      | _, _ => pure ()

/-- The head on a line beyond a stage passes its switch back to the line before the stage, if that is free in this cycle and its queue of 8 has
room. At the switch where its request was combined, the second's answer leaves beside it (R265). Answers the lines used. -/
def passBack (die stage line : Nat) (used : List Nat) : Act s₀ (List Nat) := do
  let s ← now
  let n := s.net die
  match n.back (stage + 1) line with
  | [] => return used
  | id :: rest =>
    match look s.reqs id with
    | none =>
      emit (.net die (n.setBack (stage + 1) line rest))
      return used
    | some r =>
      let x := pathLine r.input r.sliceNumber stage
      let split := r.combined.find? fun c => c.2.2 = switchKey die stage (line / 2)
      let outs := if split.isSome then [x, (x + 64) % 128] else [x]
      if outs.any fun o => used.contains o || (stage ≠ 0 && 8 ≤ (n.back stage o).length) then return used
      else
        let key := stage * 128 + line / 2
        emit (.net die { n.setBack (stage + 1) line rest with
          replyLower := if line % 2 = 1 then key :: n.replyLower.erase key else n.replyLower.erase key })
        match split, r.stage with
        | some c, .replying tok =>
          emit (.req id (some { r with combined := r.combined.erase c }))
          modReq c.1 fun q => { q with stage := .replying (combinedAnswer r.op c.2.1 q tok) }
          answerMoves die stage ((x + 64) % 128) c.1
        | _, _ => pure ()
        answerMoves die stage x id
        return used ++ outs

/-- One cycle of a switch of the second network: its two inputs alternate (R266). -/
def passBackSwitch (die stage sw : Nat) : Act s₀ Unit := do
  let odd := ((← now).net die).replyLower.contains (stage * 128 + sw)
  let used ← passBack die stage (if odd then 2 * sw else 2 * sw + 1) []
  let _ ← passBack die stage (if odd then 2 * sw + 1 else 2 * sw) used

/-- One cycle of every network: the stages nearest the slices first on the way there, those nearest the inputs first on the way back. -/
def passNets : Act s₀ Unit := do
  let s ← now
  each s.nets fun (d, n) => do
    when_ (!n.queues.isEmpty || !n.spent.isEmpty) (emit (.net d { s.passNet n with spent := [] }))
    each (List.range 7) fun stage => do
      let lines := ((← now).net d).replies.filterMap fun (k, _) => if k / 128 = stage + 1 then some (k % 128 / 2) else none
      each lines.eraseDups (passBackSwitch d stage)

end Sys2Proof.Machine
end

