-- ==== Sys2Proof/Machine/Requests.lean ====
section
/-! DEFINITION. Requests on their way (R146, R234, R243 to R246, R264 to R268, R453): translation, acceptance, performance at the
home, combining, misses and write-backs, replies and acknowledgements. -/

namespace Sys2Proof.Machine

variable {s₀ : State}

/-- A waiter of a fault entry, or of a failed walk that has not yet joined one. -/
def State.isWaiter (s : State) (w : Waiter) : Bool :=
  (s.faults.any fun (_, f) => f.waiter = w) ||
    s.modules.any fun (_, m) => m.dies.any fun (_, d) => d.faults.any fun (_, f) => f.waiters.contains w

/-- The request is translated in its own module (R243). -/
def Req.ownShared (r : Req) : Bool := isShared r.ga && gaModule r.ga = moduleOf r.core

/-- Ends the wait of a thread for a request with a token. -/
def landRequest (id : Nat) (r : Req) (t : Token) (gap : Nat) : Act s₀ Unit := do
  emit (.req id none)
  match ((← now).thread r.core r.slot).run with
  | .waiting (.reply n) => when_ (n = id) (land r.core r.slot t gap)
  | _ => pure ()

/-- A failed walk of a thread's own-module access parks it in state 6 (R244, R409). -/
def parkFault (L : Nat) (k : Fin 16) (kind : Nat) (asid : BitVec 16) (f : WalkFault) : Act s₀ Unit := do
  let s ← now
  raiseFault (moduleOf L * 8 + s.dieAt L) kind asid f L k (.thread L k)
  modThread L k fun t => t.wait (.fault (s.cycle L)) t.parked []

/-- It is a request of a core, and not of a module's own hardware: a line, or a launch's wake. -/
def Req.ofCore (r : Req) : Bool :=
  match r.op with
  | .line _ | .wake _ => false
  | _ => true

/-- A `pf` asks for nothing but a line. -/
def HomeOp.isPrefetch (op : HomeOp) : Bool :=
  match op with
  | .prefetch _ => true
  | _ => false

/-- The way that a message takes over the Ratline or between modules: from its core to the core that it reaches next, or from the receiving
core that sends it on to its home (R150, R453). -/
def State.leg (s : State) (r : Req) : Option (Nat × Nat) :=
  match r.stage with
  | .sent => if r.ownShared then none else some (r.core, s.destination r)
  | .forwarded => some (r.via.getD r.core, gaCore r.ga)
  | _ => none

/-- Its place in the order in which its way's sender sent it. -/
def Req.order (r : Req) (id : Nat) : Nat := r.hop.getD id

/-- An increment goes by a way too (R150, R452). -/
def State.legOfTask (s : State) (m : TaskMsg) : Option (Nat × Nat) :=
  match m with
  | .increment h L => if s.handleNamed h then some (L, if gaModule h = moduleOf L then gaCore h else s.receiver (moduleOf L) h) else none
  | .firing _ _ _ _ _ => none

/-- What was sent earlier on a way has still to arrive (R150, R279, R290). -/
def State.legBehind (s : State) (order : Nat) (leg : Option (Nat × Nat)) : Bool :=
  leg.isSome && ((s.reqs.any fun (j, q) => q.order j < order && s.leg q = leg) || s.tasks.any fun (j, x) => j < order && s.legOfTask x = leg)

/-- A message between modules. -/
def Req.foreign (r : Req) : Bool := gaModule r.ga ≠ moduleOf r.core

/-- It has not been performed. -/
def Req.open_ (r : Req) : Bool :=
  match r.stage with
  | .performed _ | .replying _ => false
  | _ => true

/-- A message of the same pair of modules and path stands at the receiving core that the pair used before a plane or a port failed: what the
pair sends now does not pass it (R455). -/
def State.pairMoved (s : State) (r : Req) (M : Nat) : Bool :=
  r.foreign && s.reqs.any fun (_, q) =>
    q.foreign && moduleOf q.core = moduleOf r.core && q.via.isSome && q.via ≠ some M && q.open_ && s.destination q = M

/-- The arrival of a request at the core that performs it: it joins the message engine's queue, in the order in which its source
sent it, successor decrements among what was sent (R140, R150, R279, R290, R453). A decrement joins no queue at its own core, whose task
unit performs it (R213). -/
def deliverRequest (id : Nat) : Act s₀ Unit := do
  let s ← now
  match look s.reqs id with
  | none => pure ()
  | some r =>
    let free := !s.legBehind (r.order id) (s.leg r)
    match r.stage with
    | .sent =>
      let M := s.destination r
      when_ (!r.ownShared && s.reachable M && free && !s.pairMoved r M && (r.op ≠ .decrement || r.foreign)) do
        emit (.req id (some { r with
          stage := .queued, via := some M, arrived := if r.via.isNone then s.ctl.steps else r.arrived }))
        modCore M fun c => { c with mse := c.mse ++ [.remote id] }
    | .forwarded =>
      when_ (s.reachable (gaCore r.ga) && free && r.op ≠ .decrement) do
        emit (.req id (some { r with stage := .atHome }))
        modCore (gaCore r.ga) fun c => { c with mse := c.mse ++ [.remote id] }
    | _ => pure ()

/-- The home of a request is a slice, from which its answer comes back through the Shroud. -/
def Req.atSlice (r : Req) : Bool := r.target.any fun t => 2 ^ 40 ≤ t.home

/-- A request is answered: the answer is on its way back, from a slice through the second network (R263, R265). Nothing answers a `pf`. -/
def answerRequest (id : Nat) (tok : Token) : Act s₀ Unit := do
  let s ← now
  match look s.reqs id with
  | none => pure ()
  | some r =>
    if r.op.isPrefetch then emit (.req id none)
    else match r.target with
    | some tg =>
      if r.atSlice then
        emit (.req id (some { r with stage := .replying tok, answered := s.ctl.steps }))
        modNet (dieOfSlice tg.home) fun n => n.setBack 7 (tg.home % 128) (n.back 7 (tg.home % 128) ++ [id])
      else emit (.req id (some { r with stage := .performed tok, answered := s.ctl.steps }))
    | none => emit (.req id (some { r with stage := .performed tok, answered := s.ctl.steps }))

/-- A request that binds a word ends without binding it: its trigger entry is free again (R218). -/
def dropBinding (op : HomeOp) : Act s₀ Unit :=
  match op with
  | .bind L e => freeTrigger L e
  | _ => pure ()

/-- An earlier request of the same thread has still to pass the cluster's port (R279). -/
def State.translationBehind (s : State) (id : Nat) (r : Req) : Bool :=
  s.reqs.any fun (j, q) => j < id && q.core = r.core && q.slot = r.slot && q.stage = .sent && q.ownShared

/-- A request whose target is known goes on into the Shroud, a store once it is accepted (R244, R263). -/
def sendOn (id : Nat) (r : Req) (tg : Target) : Act s₀ Unit := do
  emit (.req id (some { r with target := some tg, stage := .translated }))
  when_ (r.awaited || r.retired) (enterNet id)

/-- Translation of a request at its cluster's port, in the order in which its thread sent them (R243, R244, R279); one to the identifier pool,
or a word of a store of several, has its target. A `pf` that fails is dropped (R122). -/
def translateRequest (id : Nat) : Act s₀ Unit := do
  let s ← now
  match look s.reqs id with
  | none => pure ()
  | some r => when_ (r.stage = .sent && r.ownShared && !s.translationBehind id r) do
    match r.target with
    | some tg => sendOn id r tg
    | none =>
      match ← resolveShared (some (s.clusterAt r.core)) (s.dieAt r.core) r.asid r.ga r.op.need r.op.sync r.op.writes with
      | .wait => pure ()
      | .target tg => if r.op = .check then landRequest id r (.target tg) 1 else sendOn id r tg
      | .trap c =>
        if r.op.isPrefetch then emit (.req id none)
        else if r.retired then answerRequest id (.trap c r.ga)
        else
          dropBinding r.op
          landRequest id r (.trap c r.ga) 1
      | .walk f =>
        if r.op.isPrefetch then emit (.req id none)
        else if r.retired then answerRequest id (.trap Cause.pageFatal r.ga)
        else
        dropBinding r.op
        if (← now).faultsFatal (moduleOf r.core) r.core then landRequest id r (.trap Cause.pageFatal r.ga) 1
        else
          emit (.req id none)
          match ((← now).thread r.core r.slot).run with
          | .waiting (.reply n) => when_ (n = id) (parkFault r.core r.slot r.op.kind r.asid f)
          | _ => pure ()

/-- Acceptance of a translated store by its port: it retires, its bytes enter `PENDB`, and it enters the Shroud (R244). -/
def acceptStore (id : Nat) : Act s₀ Unit := do
  match look (← now).reqs id with
  | none => pure ()
  | some r =>
    when_ (r.stage = .translated && !r.awaited && !r.retired) do
      emit (.req id (some { r with retired := true }))
      enterNet id
      modThread r.core r.slot fun t => { t with pendb := t.pendb + BitVec.ofNat 32 r.bytes }
      match ((← now).thread r.core r.slot).run with
      | .waiting (.reply n) => when_ (n = id) (land r.core r.slot .done 1)
      | _ => pure ()

/-- The state that a failed attempt awaits (R184, R194). -/
def HomeOp.awaits (op : HomeOp) : Awaits :=
  match op with
  | .stef _ => .empty
  | .waitrs => .reservation
  | _ => .full

/-- A failed attempt at a home: it will be repeated after 16 cycles of what repeats it, the requesting core's memory interface for a local
store and the cluster port for a slice (R184, R434), or the thread is parked in the same step (R184, R186, R187, R218). A search of the pool
goes on in its next line (R200, R458). -/
def failedAttempt (id : Nat) (r : Req) (tg : Target) : Act s₀ Unit := do
  let s ← now
  let t := s.thread r.core r.slot
  let c := s.cycle r.core
  match r.op with
  | .bind L e =>
    freeTrigger L e
    emit (.req id none)
    modThread r.core r.slot fun t => t.wait (.bindingRoom tg.home) t.parked []
  | .gidget =>
    match tg.place.physical with
    | some (m, a) =>
      if a + 128 < 0x82300 then
        emit (.req id (some { r with target := some (paTarget m (128 * (lineOf a + 1))), stage := .translated }))
        enterNet id
      else answerRequest id (.val 0)
    | none => answerRequest id (.val 0)
  | op =>
    if 0 < r.left then
      let wait := if tg.home < 2 ^ 40 then s.nominal r.core 16 else 16
      emit (.req id (some { r with stage := .failed (s.ctl.now + wait) }))
    else
      emit (.req id none)
      if expired t.wordWait c then trapThread r.core r.slot 16 Cause.feTimeout r.ga
      else
        placeWaiter r.core r.slot tg.home tg.place.word r.ga op.awaits
        modThread r.core r.slot fun t =>
          { (t.wait (.word tg.home r.ga op.awaits) t.parked []) with wordWait := some (t.wordWait.getD (c, t.waitlim)) }

/-- Performs a request at its home; its answer is then on its way, or waits for the fill of its line (R267). -/
def performAt (filling : Bool) (id : Nat) (r : Req) (tg : Target) : Act s₀ Unit := do
  match ← perform r.core r.slot r.op r.ga tg r.spoiled with
  | .token t => do
    if filling then modReq id fun r => { r with stage := .missing t } else answerRequest id t
  | .failed => failedAttempt id r tg

def performRequest (id : Nat) (r : Req) (tg : Target) : Act s₀ Unit := performAt false id r tg

/-- A full-empty attempt or a wait for a reservation. -/
def HomeOp.isAttempt (op : HomeOp) : Bool :=
  match op with
  | .ldfe | .ldff | .stef _ | .waitrs => true
  | _ => false

/-- A request whose answer waits for a line joins its miss entry, in order of acceptance (R267). -/
def joinMiss (home line id : Nat) : Act s₀ Unit := do
  match (look (← now).reqs id).map Req.stage with
  | some (.missing _) => modSlice home fun sl => { sl with misses := sl.misses.map fun x =>
      if x.line = line then { x with waiters := x.waiters ++ [id] } else x }
  | _ => pure ()

/-- Acceptance by a slice of the request that comes next out of the Shroud, which performs it; while no miss entry is free, only a `pf`
is accepted (R267, R272). Each absent line takes an entry, and the answer comes with the fill. A `pf` of a poisoned word has no effect
(R122, R420). A `cp.pf` takes at most 48 entries, and asks again while it has them (R273). `which` names the requests that the event is about. -/
def acceptAtSlice (which : HomeOp → Bool) (id : Nat) : Act s₀ Unit := do
  let s ← now
  match look s.reqs id with
  | none => pure ()
  | some r =>
    match r.target with
    | none => pure ()
    | some tg =>
      match tg.place.physical with
      | none => pure ()
      | some (_, a) =>
        let sl := s.slice tg.home
        let line := lineOf a
        when_ (which r.op && r.stage = .translated && s.atSlice tg.home = some id) do
          match r.op with
          | .prefetch nt =>
            leaveNet tg.home
            emit (.req id none)
            when_ (!s.placePoison tg.place) do
              if (sl.find line).isSome then when_ (!nt) (touch tg false)
              else when_ (!sl.missing line && sl.used < 64) (takeEntry tg.home { missOf tg line with nt := nt })
          | .line (.copy _ keep) => when_ (sl.used < 64) do
            leaveNet tg.home
            if (sl.find line).isSome then
              if keep then touch tg false else touchLast tg line
              answerRequest id .done
            else if sl.missing line then answerRequest id .done
            else if sl.misses.countP (fun x => x.byCp) < 48 then
              takeEntry tg.home { missOf tg line with byCp := true }
              answerRequest id .done
            else emit (.req id none)
          | _ => when_ (sl.used < 64 && sl.used + (sl.absent tg).length ≤ 64) do
            leaveNet tg.home
            takeEntries tg
            match tg.lines.find? fun l => (sl.find l.1).isNone with
            | none => performAt false id r tg
            | some (l, _) =>
              performAt true id r tg
              joinMiss tg.home l id

def isBind (op : HomeOp) : Bool :=
  match op with
  | .bind _ _ => true
  | _ => false

def isUnbind (op : HomeOp) : Bool :=
  match op with
  | .unbind => true
  | _ => false

/-- The fill of a line lands in the way of its entry, and the entry's requests are answered in order of acceptance (R267). -/
def fillMiss (home line : Nat) : Act s₀ Unit := do
  let s ← now
  match (s.slice home).misses.find? fun m => m.line = line with
  | none => pure ()
  | some m => when_ (m.way = .free) do
      fillLine home m
      each m.waiters fun id => do
        match look (← now).reqs id with
        | some r =>
          match r.stage with
          | .missing t => answerRequest id t
          | _ => pure ()
        | none => pure ()

/-- The write-back buffer sends its oldest line, through a free miss entry or else the reserved one, and a miss that waits for room goes
on; or a line that was sent has reached the bulk tier. Which comes first is left open (R268, R269). -/
def sendWriteback (home : Nat) : Act s₀ Unit := do
  let n ← freeValue
  modSlice home fun sl =>
    let done : Slice := match sl.reserved, sl.sending with
      | some _, [] => { sl with reserved := none }
      | some x, _ :: rest => if n % 4 < 2 then { sl with reserved := none } else { sl with reserved := some x, sending := rest }
      | none, xs => { sl with sending := xs.tail }
    match sl.writebacks with
    | [] => done
    | x :: rest =>
      if (sl.reserved.isSome || !sl.sending.isEmpty) ∧ n % 2 = 1 then done
      else if sl.used < 64 then ({ sl with writebacks := rest, sending := sl.sending ++ [x] }).settle (dieOfSlice home)
      else if sl.reserved.isNone then ({ sl with writebacks := rest, reserved := some x }).settle (dieOfSlice home)
      else done

/-! Other modules (R245, R453). -/

/-- A message of the same pair and path that arrived earlier is held, or was held and is not yet performed (R290, R453). -/
def State.pairHeld (s : State) (id : Nat) (r : Req) : Bool :=
  s.reqs.any fun (j, q) =>
    j ≠ id && q.arrived < r.arrived && moduleOf q.core = moduleOf r.core && q.foreign && q.via.isSome && q.via = r.via &&
    match q.stage with
    | .held | .returned _ => true
    | .performed _ | .replying _ | .failed _ => false
    | _ => q.requeued

/-- A message engine performs an active message (R462). -/
def countMessage (R : Nat) : Act s₀ Unit := modCore R fun c => { c with msgin := c.msgin + 1 }

/-- A receiving core performs an active message, or it is held (R245, R415, R453). One to its own local store it performs at its bank;
one to another core's goes on to that core, and one to shared space to its slice, while this message engine waits for the answer at
the head of its queue. A decrement is the task unit's (R213), and a launch's wake is the module's (R456). A `pf` that fails, or that would be
held, is dropped (R122, R272). -/
def performMessage (id : Nat) (r : Req) (R : Nat) : Act s₀ Unit := do
  let s ← now
  let m := moduleOf R
  let atHead : Act s₀ Unit := modCore R fun c => { c with mse := .remote id :: c.mse }
  let go (x : Req) (onward : Act s₀ Unit) : Act s₀ Unit := do
    countMessage R
    emit (.req id (some x))
    onward
    atHead
  let hold (x : Stage) : Act s₀ Unit :=
    emit (.req id (if r.op.isPrefetch then none else some { r with stage := x, requeued := true }))
  let fail (cause : Byte) : Act s₀ Unit := do
    countMessage R
    if r.op.isPrefetch then emit (.req id none) else answerRequest id (.trap cause r.ga)
  let onward : Act s₀ Unit := do
    let hop ← freshId
    go { r with stage := .forwarded, hop := some hop } (pure ())
  let H := gaCore r.ga
  if s.pairHeld id r then hold .held
  else match r.op with
  | .wake flood =>
    countMessage R
    emit (.req id none)
    moduleHas flood m
  | .decrement =>
    if H = R then
      countMessage R
      let done ← decrementWait id r.ga r.core (some id)
      modReq id fun r => { r with stage := if done then .performed .done else .room, answered := s.ctl.steps }
    else if (s.core H).status ≠ .active then hold .held
    else onward
  | _ =>
  if !isShared r.ga then
    if H = R then
      countMessage R
      performRequest id r (localTarget r.ga)
    else if (s.core H).status ≠ .active then hold .held
    else onward
  else match ← resolveShared none (dieOf R) r.asid r.ga r.op.need r.op.sync r.op.writes with
    | .target tg => go { r with target := some tg, stage := .translated } (enterNet id)
    | .wait => atHead
    | .trap c => fail c
    | .walk f =>
      if r.op.isPrefetch || s.faultsFatal m r.core then fail Cause.pageFatal
      else if s.mayHold m (dieOf R) then
        hold .held
        raiseFault (m * 8 + dieOf R) 6 r.asid f r.core r.slot (.request id)
      else hold (.returned (s.ctl.now + 1024))

/-- A held message goes on: its fault is released, its home is active again, or the messages before it are performed. The message engine of
its receiving core performs it in a position (R140, R453). -/
def goOnHeld (id : Nat) : Act s₀ Unit := do
  let s ← now
  match look s.reqs id with
  | none => pure ()
  | some r =>
    let R := r.via.getD (s.destination r)
    when_ (r.stage = .held && !s.isWaiter (.request id) && !s.pairHeld id r && s.reachable R &&
        (isShared r.ga || s.reachable (gaCore r.ga))) do
      emit (.req id (some { r with stage := .queued }))
      modCore R fun c => { c with mse := c.mse ++ [.remote id] }

/-- A returned request is sent again (R415). -/
def resendRequest (id : Nat) : Act s₀ Unit := do
  let s ← now
  match look s.reqs id with
  | none => pure ()
  | some r =>
    match r.stage with
    | .returned t => when_ (t ≤ s.ctl.now) (emit (.req id (some { r with stage := .sent })))
    | _ => pure ()

/-- A repeat of a failed attempt, sent as a new request (R184). -/
def retryAttempt (id : Nat) : Act s₀ Unit := do
  let s ← now
  match look s.reqs id with
  | none => pure ()
  | some r =>
    match r.stage, (s.thread r.core r.slot).run with
    | .failed t, .waiting (.reply n) => when_ (t ≤ s.ctl.now && n = id) do
        let new ← freshId
        emit (.req id none)
        emit (.req new (some { r with left := r.left - 1, stage := .sent, target := none, via := none, hop := none, requeued := false }))
        modThread r.core r.slot fun t => { t with run := .waiting (.reply new) }
    | _, _ => pure ()

/-! Replies and acknowledgements. -/

/-- An earlier answer of the same home core to the same core is still on its way (R150). -/
def State.answerBehind (s : State) (r : Req) : Bool :=
  !isShared r.ga && s.reqs.any fun (_, q) =>
    q.core = r.core && !isShared q.ga && gaCore q.ga = gaCore r.ga && q.answered < r.answered &&
    match q.stage with
    | .performed _ => true
    | _ => false

/-- A reply lands, and the waiting instruction goes on in that cycle (R146). -/
def landReply (id : Nat) : Act s₀ Unit := do
  let s ← now
  match look s.reqs id with
  | none => pure ()
  | some r =>
    match r.stage with
    | .performed t => when_ (r.awaited && (s.core r.core).status ≠ .saved && !s.answerBehind r) do
        match t with
        | .trap _ _ => dropBinding r.op
        | _ => pure ()
        landRequest id r t 1
    | _ => pure ()

/-- An acknowledgement subtracts its bytes and carries a deferred error (R234, R246). One for a thread whose slot has been started
again changes nothing of the new thread (R27). An engine's goes to the command that waits for it (R454). -/
def acknowledge (id : Nat) : Act s₀ Unit := do
  let s ← now
  match look s.reqs id with
  | none => pure ()
  | some r =>
    match r.stage with
    | .performed tok => when_ (!r.awaited && r.retired && (s.core r.core).status ≠ .saved && !s.answerBehind r) do
        emit (.req id none)
        match r.engine with
        | some e => do
          when_ (((s.core r.core).engines.get (Fin.ofNat 4 e.code)).wait = .message id)
            (modEngine r.core e fun u => { u with wait := .none, reply := some tok })
        | none => do
          when_ ((s.thread r.core r.slot).gen = r.gen) (modThread r.core r.slot fun t => { t with
          pendb := t.pendb - BitVec.ofNat 32 r.bytes
          deferred := match t.deferred, tok with
            | none, .trap c v => some (c, v)
            | d, _ => d })
    | _ => pure ()

/-- An instruction that waits for `PENDB`, or for REP copies, goes on when its wait is over (R246, R285); a restored slot then
issues (R425). -/
def resumeDrain (L : Nat) (k : Fin 16) : Act s₀ Unit := do
  let s ← now
  let t := s.thread L k
  when_ (t.run = .waiting .drain && (s.core L).status = .active) do
    if t.parked.isSome then resume L k 1
    else when_ (t.pendb = 0) (setThread L k (t.goesOn (max t.nextIssue (s.cycle L + 1))))

/-- The target of a word of a REP page at the replica of a die, at the slice that its line's hash gives (R274, log 91). -/
def replicaTarget (m d a : Nat) : Target :=
  { place := .rep m d a, home := sliceHome m d (sliceOf a true 0).2, pin := some true, sum := none }

/-- A REP copy that comes next out of the Shroud at its replica's slice is applied there, in a slice cycle after its stamp and after the earlier
copies between the same dies; a replica that lacks the line fills it (R267, R274, R282, R283). -/
def applyCopy (id : Nat) : Act s₀ Unit := do
  let s ← now
  match look s.copies id with
  | none => pure ()
  | some x =>
    let earlier := s.copies.any fun (j, y) => j < id && y.module = x.module && y.stamp.2 = x.stamp.2 && y.die = x.die
    let tg := replicaTarget x.module x.die x.addr
    let sl := s.slice tg.home
    when_ (!earlier && x.stamp.1 ≤ s.sliceCycle && s.atSlice tg.home = some id && sl.used < 64) do
      leaveNet tg.home
      takeEntries tg
      emit (.copy id none)
      touch tg true
      applyReplica x.module x.die x.addr { value := x.value, poison := x.poison, full := x.full, stamp := x.stamp }
      let s ← now
      match (s.thread x.core x.slot).run with
      | .waiting (.engineDone e) =>
        when_ (s.outstanding x.core x.slot e = 0 && !s.engineCopies x.core x.slot e) (wake x.core x.slot)
      | _ => pure ()

/-- A reply lands. (R146) -/
def execRemoteReplyLands (id : Nat) (st : State) : Host.Outcome State Fault Refusal := act st (landReply id)

/-- A translated store is accepted. (R244) -/
def execStoreAccepted (id : Nat) (st : State) : Host.Outcome State Fault Refusal := act st (acceptStore id)

/-- An acknowledgement arrives. (R234, R246) -/
def execStoreAck (id : Nat) (st : State) : Host.Outcome State Fault Refusal := act st (acknowledge id)

/-- A wait for `PENDB` ends. (R246) -/
def execPendbDrainResume (core : Nat) (slot : Fin 16) (st : State) : Host.Outcome State Fault Refusal := act st (resumeDrain core slot)

/-- A failed attempt is repeated. (R184) -/
def execFeRetry (id : Nat) (st : State) : Host.Outcome State Fault Refusal := act st (retryAttempt id)

/-- A full-empty attempt is made at its slice. (R184, R267) -/
def execHomeAttempt (id : Nat) (st : State) : Host.Outcome State Fault Refusal := act st (acceptAtSlice HomeOp.isAttempt id)

/-- A binding is made at its slice. (R218, R267) -/
def execTriggerBind (id : Nat) (st : State) : Host.Outcome State Fault Refusal := act st (acceptAtSlice isBind id)

/-- A binding is discarded at its slice. (R219, R267) -/
def execTriggerUnbind (id : Nat) (st : State) : Host.Outcome State Fault Refusal := act st (acceptAtSlice isUnbind id)

/-- A request is translated. (R243, R244) -/
def execTranslationWalk (id : Nat) (st : State) : Host.Outcome State Fault Refusal := act st (translateRequest id)

/-- A returned request is sent again. (R415) -/
def execHeldRequestResend (id : Nat) (st : State) : Host.Outcome State Fault Refusal := act st (resendRequest id)

/-- Two requests combine. (R264, R265) -/
def execShroudCombine (first second : Nat) (st : State) : Host.Outcome State Fault Refusal := act st (combine first second)

/-- A slice accepts a request. (R267, R272) -/
def execSliceRequest (id : Nat) (st : State) : Host.Outcome State Fault Refusal := act st (acceptAtSlice (fun op => !(op.isAttempt || isBind op || isUnbind op)) id)

/-- A fill lands. (R267) -/
def execMissFill (slice line : Nat) (st : State) : Host.Outcome State Fault Refusal := act st (fillMiss slice line)

/-- The write-back buffer sends its oldest line. (R268) -/
def execWriteback (slice : Nat) (st : State) : Host.Outcome State Fault Refusal := act st (sendWriteback slice)

/-- A REP copy is applied. (R282, R283) -/
def execRepReplicaCopy (id : Nat) (st : State) : Host.Outcome State Fault Refusal := act st (applyCopy id)

end Sys2Proof.Machine
end

