-- ==== Sys2Proof/Machine/Rotation.lean ====
section
/-! DEFINITION. The rotation of a core (R17, R28, R131 to R146): fetching an instruction, filling instruction-cache lines, what an
issue position is used for, and the message engine. -/

namespace Sys2Proof.Machine

variable {s₀ : State}

/-- A row of the table that stands for a hardware event and not for an instruction word. -/
def Instr.isEvent (i : Sys2Proof.Instr) : Bool :=
  match i with
  | .icacheFill _ _ | .remoteReplyLands _ | .storeAccepted _ | .storeAck _ | .pendbDrainResume _ _ | .mseRemoteOp _
  | .mseReissue _ | .mseForcedPosition _ | .portEntryArrives _ | .portCreditReturn _ | .npTimeout _ _ | .feRetry _
  | .homeAttempt _ | .ticketServed _ | .monitorTurnover _ | .waitlimExpiry _ _ | .withdrawal _ _ | .barArrival _ _
  | .barRelease _ _ | .launchWake _ _ | .heldStart _ _ | .taskpopTimeout _ _ | .footprintFetch _ _ | .splitIncrement _
  | .successorDecrement _ | .stealStart _ | .stealRequest _ | .stealReply _ | .stealPauseEnd _ | .triggerBind _
  | .triggerUnbind _ | .triggerFiring _ | .heldTaskPlacement _ | .translationWalk _ | .faultEntryOpen _ | .faultRecordWrite _
  | .faultTableRelease _ _ | .heldRequestResend _ | .tlbinvAck _ _ | .engineCommandStart _ _ _ | .engineCommandComplete _ _
  | .mxSubarrayGate _ _ | .bulkTransfer _ _ | .reductionContribution _ | .reductionResult _ | .gidDrainComplete _ _
  | .shroudCombine _ _ | .sliceRequest _ | .missFill _ _ | .writeback _ | .repReplicaCopy _ | .activeMessage _
  | .contextSave _ | .contextRestore _ | .thermalMigration _ _ | .thermalSlowdownEnd _ | .dividerChange _ _
  | .railRiseComplete _ | .powerGate _ | .powerGateWake _ | .uncorrectableError _ | .linkFailure _ _
  | .cxlExpanderFailure _ _ | .sensorSample _ _ | .eventEntry _ | .canvasSandboxFault _ _ | .moduleReset _ | .boot _ _
  | .powerLoss _ | .ldoor _ _ | .hirq _ _ | .hien _ _ | .lstat _ | .evlost _ | .hostRegisterWrite _ _ _ | .memrd _ | .memwr _
  | .sense _ | .pcap _ | .tlimit _ | .evlog _ | .attest _ | .idcert _ | .update _ | .reset _ | .faultRecordRetry _
  | .mbdoor _ _ | .correctableError _ _ => true
  | _ => false

/-! Fetching (R17, R113, R132, R420). -/

inductive Fetch
  | trap (cause : Byte) (v : Word)
  | miss (line : Word)
  | word (w : InsnWord)
  deriving DecidableEq, Repr

/-- The tag of an instruction-cache line: its address, and the ASID by which a shared one was translated. -/
def lineTag (asid : BitVec 16) (line : Word) : Nat := (if isShared line then asid.toNat * 2 ^ 64 else 0) + line.toNat

/-- The aligned line that holds an address. -/
def lineAt (ga : Word) : Word := w64 (ga.toNat / 128 * 128)

def State.cachedLine (s : State) (L : Nat) (asid : BitVec 16) (line : Word) : Option ILine :=
  look (s.physCore (s.physOf L)).icache (lineTag asid line)

/-- A byte of a fetched address, with the mark of its word, when its line is held. -/
def State.cachedByte (s : State) (L : Nat) (asid : BitVec 16) (ga : Word) : Option (Byte × Bool) :=
  (s.cachedLine L asid (lineAt ga)).map fun l =>
    (l.bytes.getD (ga.toNat % 128) 0, bit l.poison (ga.toNat % 128 / 8))

/-- What the fetch of a thread gives (R17). -/
def State.fetch (s : State) (L : Nat) (t : Thread) : Fetch :=
  let d := t.seg.get 7
  let pc := t.pc
  if pc.toNat % 4 ≠ 0 then .trap Cause.misaligned pc
  else if d.limit < pc.toNat + 4 then .trap Cause.segLimit pc
  else if !t.mode && !d.x then .trap Cause.segRights pc
  else
    let ga := d.base + pc
    if !isShared ga && !(gaOff ga < 2 ^ 28 && windowAccepts (gaOff ga) 4 .load) then .trap Cause.protection ga
    else if !s.exists_ ga then .trap Cause.pageFatal ga
    else
      match s.cachedByte L t.asid ga, s.cachedByte L t.asid (ga + 1), s.cachedByte L t.asid (ga + 2), s.cachedByte L t.asid (ga + 3) with
      | some (b0, p0), some (b1, p1), some (b2, p2), some (b3, p3) =>
        if p0 || p1 || p2 || p3 then
          .trap Cause.dataPoison (w64 ((ga.toNat + if p0 then 0 else if p1 then 1 else if p2 then 2 else 3) / 8 * 8))
        else .word (wordOfBytes b0 b1 b2 b3)
      | none, _, _, _ => .miss (lineAt ga)
      | _, _, _, _ => .miss (lineAt (ga + 3))

/-- A fetch that fails: a trap, or for the first fetch of a handler a halt (R28). -/
def fetchTrap (L : Nat) (k : Fin 16) (gap : Nat) (cause : Byte) (v : Word) : Act s₀ Unit := do
  if ((← now).thread L k).entering then halt L k else trapThread L k gap cause v

/-- A place some bytes on. -/
def Place.plus (p : Place) (n : Nat) : Place :=
  match p with
  | .win L off => .win L (off + n)
  | .pa m a => .pa m (a + n)
  | .rep m d a => .rep m d (a + n)

/-- The line at a place, with the marks of its words. -/
def State.lineFrom (s : State) (p : Place) : ILine :=
  { bytes := (List.range 16).flatMap fun i => toBytes 8 (s.readPlace (p.plus (8 * i)) 8)
    poison := BitVec.ofNat 16 (((List.range 16).map fun i => (s.placePoison (p.plus (8 * i))).toNat * 2 ^ i).foldr (fun a b => a + b) 0) }

def fillCacheLine (L : Nat) (asid : BitVec 16) (line : Word) (p : Place) : Act s₀ Unit := do
  let s ← now
  modPhys (s.physOf L) fun x => { x with icache := put x.icache (lineTag asid line) (s.lineFrom p) }

/-- The thread has its line: it is ready again, for a fetch, and after a reissue not before 16 cycles have gone by (R145, R146). -/
def fetchAgain (L : Nat) (k : Fin 16) : Act s₀ Unit := do
  let s ← now
  match s.fetch L (s.thread L k) with
  | .miss _ => pure ()
  | _ => modThread L k fun t => t.readyFrom (max t.nextIssue (s.cycle L + 1))

/-- A word of a held line, by its place in the line, is poisoned (R419). -/
def poisonCached (L : Nat) (asid : BitVec 16) (line : Word) (i : Nat) : Act s₀ Unit := do
  modPhys ((← now).physOf L) fun x => match look x.icache (lineTag asid line) with
    | some l => { x with icache := put x.icache (lineTag asid line) { l with poison := l.poison ||| (1#16 <<< i) } }
    | none => x

/-- The line of a fetch has come: a link that it came by may have spoiled a word of it (R132, R419, R455). -/
def lineCame (L : Nat) (k : Fin 16) (line : Word) (tg : Target) : Act s₀ Unit := do
  let t := (← now).thread L k
  fillCacheLine L t.asid line tg.place
  when_ t.spoiled do
    let i := (← freeValue) % 16
    if ← spoilOn L (line + w64 (8 * i)) tg.home false true then
      poisonCached L t.asid line i
      modThread L k fun t => { t with spoiled := false }
    else pure ()
  dropLines (.fetch L k)
  fetchAgain L k

/-- A fill that a thread waits for lands, or its translation fails (R132, R245, R408, R409). It delivers the words as they stand when it
lands, those too that were stored since it began (R18, R131, log 23). A line of another module whose walk needs software is held there,
and its thread waits in state 2 (R245, log 87); one that finds no held-request entry is asked for again later (R415). -/
def fillFetch (L : Nat) (k : Fin 16) : Act s₀ Unit := do
  let s ← now
  let t := s.thread L k
  let gap := max 1 (t.nextIssue - s.cycle L)
  when_ (t.run = .waiting .fill && !t.woken && (s.core L).status = .active && !s.isWaiter (.thread L k) && t.again ≤ s.ctl.now) do
    match s.fetch L t with
    | .miss line =>
      let ga := (t.seg.get 7).base + t.pc
      if !isShared line then
        if s.reachable (gaCore line) then lineCame L k line (localTarget line) else rouse (gaCore line)
      else
        let m := gaModule line
        let other := decide (m ≠ moduleOf L)
        let R := if other then s.receiver (moduleOf L) line else L
        let die := if other then dieOf R else s.dieAt L
        let fails (c : Byte) : Act s₀ Unit := do
          dropLines (.fetch L k)
          fetchTrap L k gap c ga
        match ← resolveShared (if other then none else some (s.clusterAt L)) die t.asid line .fetch false false with
        | .target tg =>
          if ← granted (.fetch L k) other (s.physOf R) tg then
            touch tg false
            lineCame L k line tg
          else pure ()
        | .wait => pure ()
        | .trap c => fails c
        | .walk f =>
          let f := { f with ga := if lineAt ga = line then ga else line }
          if s.faultsFatal m L then fails Cause.pageFatal
          else if other then
            if s.mayHold m die then raiseFault (m * 8 + die) 6 t.asid f L k (.thread L k)
            else modThread L k fun t => { t with again := s.ctl.now + 1024 }
          else parkFault L k 2 t.asid f
    | _ => fetchAgain L k

/-! Positions (R137 to R143). -/

/-- What the present position of a core is used for. -/
inductive Position
  | issue (k : Fin 16)
  | mse (forced : Bool)
  | unused
  deriving DecidableEq, Repr

/-- The slot that owns the present position. -/
def State.owner (s : State) (L : Nat) : Fin 16 := Fin.ofNat 16 (s.cycle L)

/-- A walk of an ASID for other modules still reads its entries at a die, `module * 8 + die` (R243, R245). -/
def State.walking (s : State) (die : Nat) (asid : BitVec 16) : Bool :=
  s.reqs.any fun (_, q) => match q.op, q.stage with
    | .line _, .performed _ => false
    | .line (.walk d none a _), _ => d = die && a = asid
    | _, _ => false

/-- The message engine of a core has work that it can do now. While a message that it has sent on to its home core is being performed
there, it takes no other item, unless that core's context is not resident (R453). -/
def State.msePending (s : State) (L : Nat) : Bool :=
  (s.core L).status ≠ .saved && match (s.core L).mse with
  | [] => false
  | .reissue _ :: _ => true
  | .remote id :: _ =>
    match look s.reqs id with
    | none => true
    | some r =>
      match r.stage with
      | .forwarded => (s.core (gaCore r.ga)).status ≠ .active
      | .atHome => gaCore r.ga = L
      | .queued =>
        !(r.foreign && isShared r.ga && s.walking (moduleOf L * 8 + dieOf L) r.asid) &&
          (r.op ≠ .decrement || gaCore r.ga ≠ L || (s.core L).split.isNone)
      | .translated | .missing _ | .merged | .replying _ | .room => false
      | _ => true

def State.position (s : State) (L : Nat) : Position :=
  let c := s.core L
  let t := s.thread L (s.owner L)
  if s.msePending L && 64 ≤ c.starved then .mse true
  else if c.status = .active && t.run = .ready && t.nextIssue ≤ s.cycle L then .issue (s.owner L)
  else if s.msePending L then .mse false
  else .unused

/-- A port message, by its name, reaches a core (R176, R421): while its context is frozen, one that had left before. -/
def State.landsAt (s : State) (id L : Nat) : Bool :=
  ((s.core L).status = .active || ((s.core L).status = .frozen && id < (s.core L).freezeFrom)) &&
    !(s.physCore (s.physOf L)).gated && !(s.module (moduleOf L)).halyard.heldInReset

/-- A port entry or credit for a core is due and has not arrived. -/
def State.portDue (s : State) (L : Nat) : Bool := s.ports.any fun (id, m) => m.core = L && m.due ≤ s.ctl.now && s.landsAt id L

/-- The limit of a thread's wait is over at an active core that has come to that cycle, and nothing has ended the wait before (R172, R187,
R211). -/
def State.waitOver (s : State) (L : Nat) (k : Fin 16) : Bool :=
  let t := s.thread L k
  let p := s.physCore (s.physOf L)
  (s.core L).status = .active && !p.gated && p.next ≤ s.ctl.now && !t.woken && match t.run with
  | .waiting (.port _ _) => expired t.portWait (s.cycle L)
  | .waiting (.word _ _ _) => !t.withdrawing && expired t.wordWait (s.cycle L)
  | .waiting .taskpop => t.assigned.isNone && t.popEnded.isNone && expired t.wordWait (s.cycle L)
  | _ => false

/-- A held start of a slot is due: the cycle after the one in which the slot became idle or halted has been used (R153, R159). -/
def State.startDue (s : State) (L : Nat) (k : Fin 16) : Bool :=
  let t := s.thread L k
  (s.core L).status = .active && t.startable && ((s.core L).firstHeld k).isSome && t.freedAt + 2 ≤ s.cycle L

/-- The core has come to its next cycle, and what was due by then has happened: port entries and credits have arrived (R170, R434), the
limits of waits have ended them (R172, R187, R211), and held starts are made (R159). -/
def State.positionReady (s : State) (L : Nat) : Bool :=
  let p := s.physCore (s.physOf L)
  !p.gated && p.next ≤ s.ctl.now && !s.portDue L && !(List.finRange 16).any fun k => s.waitOver L k || s.startDue L k

/-- The end of a position: the next cycle, and the count of R141. -/
def endPosition (L : Nat) (given pending : Bool) : Act s₀ Unit := do
  let s ← now
  modPhys (s.physOf L) fun p => { p with cycle := p.cycle + 1, next := p.next + 2 ^ p.divider.val }
  let n := (s.core L).starved
  let n' := if given || !pending then 0 else n + 1
  when_ (n ≠ n') (modCore L fun c => { c with starved := n' })

/-- The message engine reissues a woken thread's instruction, or takes the trap that ended its wait: whatever it then waits for, the slot
does not issue within 16 cycles (R145). -/
def reissue (L : Nat) (k : Fin 16) : Act s₀ Unit := do
  let s ← now
  let t := s.thread L k
  match t.run with
  | .waiting _ => when_ t.woken do
      match t.pendingTrap with
      | some (c, v) => if t.parked.isNone then fetchTrap L k 16 c v else trapThread L k 16 c v
      | none =>
        let t := { t with woken := false, nextIssue := s.cycle L + 16 }
        if t.parked.isNone then setThread L k { t with run := .waiting .fill }
        else
          setThread L k t
          resume L k 16
  | _ => pure ()

/-- One item of the message engine. What it has sent on to a home, and is answered, leaves the queue (R453). -/
def mseItem (L : Nat) : Act s₀ Unit := do
  match ((← now).core L).mse with
  | [] => pure ()
  | x :: rest =>
    modCore L fun c => { c with mse := rest }
    match x with
    | .reissue k => when_ (((← now).core L).status = .active) (reissue L k)
    | .remote id =>
      match look (← now).reqs id with
      | some r =>
        match r.stage with
        | .queued =>
          if moduleOf r.core = moduleOf L then performRequest id r (localTarget r.ga) else performMessage id r L
        | .atHome => performRequest id r (localTarget r.ga)
        | .forwarded => emit (.req id (some { r with stage := .held, requeued := true }))
        | _ => pure ()
      | none => pure ()

/-- A position that is the message engine's. -/
def msePosition (L : Nat) : Act s₀ Unit := do
  mseItem L
  endPosition L true true

/-- A position that the message engine takes, when it is one of a kind and its first item is one of a kind. -/
def mseEvent (L : Nat) (forced : Bool) (item : MseItem → Bool) : Act s₀ Unit := do
  let s ← now
  match (s.core L).mse with
  | x :: _ => when_ (s.positionReady L && s.position L = .mse forced && item x) (msePosition L)
  | [] => pure ()

def MseItem.isReissue (x : MseItem) : Bool :=
  match x with
  | .reissue _ => true
  | .remote _ => false

/-- An active message is performed by its receiving core's message engine, or a held one goes on (R453). -/
def messageEvent (id : Nat) : Act s₀ Unit := do
  let s ← now
  match look s.reqs id with
  | none => pure ()
  | some r => when_ r.foreign do
      if r.stage = .held then goOnHeld id
      else
        let M := r.via.getD (s.destination r)
        mseEvent M ((s.position M) = .mse true) fun x => x = .remote id

/-- A `bar` that has to arrive, or to complete, by now (R198, R457). -/
def State.barLate (s : State) (L : Nat) (t : Thread) : Bool :=
  (s.core L).status = .active && match t.run with
  | .waiting (.barArrive scope) => t.barAt + s.nominal L (s.barCycles scope L) ≤ s.ctl.now
  | .waiting (.barReleased _) => t.barAt ≤ s.ctl.now
  | _ => false

/-- The nominal clock advances once every core that has a context has used its cycle, what is due at ports has arrived, no `bar` is
late, and the requests that meet in the Shroud have combined (R1, R170, R198, R264, R434). -/
def State.clockReady (s : State) : Bool :=
  (s.phys.all fun (_, p) => p.gated || s.ctl.now < p.next) &&
    (s.threads.all fun (key, t) => (look s.phys (s.physOf (key / 16))).isSome && !s.barLate (key / 16) t) &&
    (s.cores.all fun (L, _) => (look s.phys (s.physOf L)).isSome) &&
    (s.ports.all fun (id, m) => s.ctl.now < m.due || !s.landsAt id m.core) && s.pairs.isEmpty

/-- The next cycle of the nominal clock, in which every switch of the Shroud passes on what it can (R263). -/
def clockTick : Act s₀ Unit := do
  when_ (← now).clockReady do
    passNets
    emit (.ctl { (← now).ctl with now := (← now).ctl.now + 1 })

/-- A position in which no instruction is executed: a failed fetch, a miss, an instruction that is none (R48), the message
engine's, or an unused one. -/
def otherPosition (L : Nat) : Act s₀ Unit := do
  let s ← now
  let pending := s.msePending L
  match s.position L with
  | .mse _ => msePosition L
  | .unused => endPosition L false pending
  | .issue k =>
    let t := s.thread L k
    match s.fetch L t with
    | .trap c v => fetchTrap L k 1 c v
    | .miss _ => modThread L k fun t => t.wait .fill none []
    | .word w =>
      modThread L k fun t => { t with entering := false }
      trapThread L k 1 Cause.illegalInsn (w.zeroExtend 64)
    endPosition L false pending

/-- The instruction that the present position of a core issues, and its slot. -/
def State.issues (s : State) (L : Nat) : Option (Fin 16 × Sys2Proof.Instr) :=
  match s.position L with
  | .issue k =>
    match s.fetch L (s.thread L k) with
    | .word w =>
      match decodeWord w with
      | .ok i => some (k, i)
      | .error _ => none
    | _ => none
  | _ => none

/-- Before the instruction: the running slot, and the first fetch of a handler has been made. -/
def beginIssue (L : Nat) (k : Fin 16) : Act s₀ Unit := do
  emit (.ctl { (← now).ctl with core := L, slot := k })
  when_ ((← now).thread L k).entering (modThread L k fun t => { t with entering := false })

/-! Turns (log 1): the parts of a step. -/

/-- The agent that moves next: the one fixed from outside, or the schedule's. -/
def State.turn (s : State) : Turn := s.ctl.turn.getD (Config.schedule s.ctl.steps)

/-- Counts the step and uses up a turn fixed from outside. -/
def takeTurn : Act s₀ Unit := do
  let c := (← now).ctl
  emit (.ctl { c with turn := none, steps := c.steps + 1 })

/-- The state whose turn has been taken. -/
def State.turnTaken (s : State) : State := afterAct s takeTurn

/-- The state in which a slot's instruction runs. -/
def State.begun (s : State) (L : Nat) (k : Fin 16) : State := afterAct s (beginIssue L k)

/-- What follows an outcome that goes on. -/
def followed (o : Host.Outcome State Fault Refusal) (a : (s : State) → Act s Unit) : Host.Outcome State Fault Refusal :=
  match o with
  | .next s => act s (a s)
  | o => o

/-- The place from which the next position of core 0 fetches: the PC of its owner, if an instruction in the local store can stand
there, else 0. -/
def State.fetchOffset (s : State) : Nat :=
  let pc := (s.thread 0 (s.owner 0)).pc.toNat
  if pc % 4 = 0 ∧ pc < 0x1F0000 then pc else 0

/-- Makes the next position of core 0 run a word: the slot that owns it stands ready at the word, which lies in the local store and
in the instruction cache, and the next turn is that position. -/
def placeWord (word : Nat) : Act s₀ Unit := do
  let s ← now
  let k := s.owner 0
  let off := s.fetchOffset
  let P := s.physOf 0
  pokeLs 0 off (toBytes 4 word)
  emit (.poison (lsKey P off / 8) false)
  modThread 0 k fun t => { (t.readyFrom 0) with
    pc := w64 off, seg := vset t.seg 7 { base := 0, word := BitVec.ofNat 47 (2 ^ 42 + 2 ^ 28) }, entering := false }
  modCore 0 fun c => { c with status := .active, starved := 0 }
  modPhys P fun p => { p with gated := false, waking := none, next := min p.next s.ctl.now }
  each s.ports fun (id, m) => when_ (m.core = 0 && m.due ≤ s.ctl.now) do emit (.port id (some { m with due := s.ctl.now + 1 }))
  fillCacheLine 0 (s.thread 0 k).asid (w64 (off / 128 * 128)) (.win 0 (off / 128 * 128))
  emit (.ctl { (← now).ctl with turn := some (.position 0) })

/-- A fill lands. (R132) -/
def execIcacheFill (core : Nat) (slot : Fin 16) (st : State) : Host.Outcome State Fault Refusal := act st (fillFetch core slot)

/-- The message engine performs an incoming operation in a vacant position. (R140) -/
def execMseRemoteOp (core : Nat) (st : State) : Host.Outcome State Fault Refusal := act st (mseEvent core false (fun x => !x.isReissue))

/-- The message engine reissues an instruction in a vacant position. (R145) -/
def execMseReissue (core : Nat) (st : State) : Host.Outcome State Fault Refusal := act st (mseEvent core false MseItem.isReissue)

/-- The message engine takes a position after 64 cycles without one. (R141) -/
def execMseForcedPosition (core : Nat) (st : State) : Host.Outcome State Fault Refusal := act st (mseEvent core true (fun _ => true))

/-- An active message is performed, or a held one goes on. (R453) -/
def execActiveMessage (id : Nat) (st : State) : Host.Outcome State Fault Refusal := act st (messageEvent id)

end Sys2Proof.Machine
end

