-- ==== Sys2Proof/Machine/Waits.lean ====
section
/-! DEFINITION. Port entries and credits that arrive (R166 to R176), the ends of waits by their limits (R172, R187), tickets and
turnover at homes (R186), barriers (R196 to R199), and launches at a core (R158, R159). -/

namespace Sys2Proof.Machine

variable {s₀ : State}

/-! Ports. -/

/-- A message of the same kind to the same port that was sent earlier has still to arrive. -/
def State.portBehind (s : State) (id : Nat) (m : PortMsg) : Bool :=
  s.ports.any fun (j, x) => j < id && x.isCredit = m.isCredit && x.core = m.core && x.slot = m.slot && x.port = m.port

/-- A port entry joins its queue, or is discarded at an idle or halted slot with its credit returned (R170, R174). -/
def landEntry (id : Nat) (m : PortMsg) : Act s₀ Unit := do
  emit (.port id none)
  let t := (← now).thread m.core m.slot
  if t.startable then returnCredit m.core m.slot m.port m.fromCore m.fromSlot
  else
    setThread m.core m.slot { t with
      queues := vset t.queues m.port.index (t.queues.get m.port.index ++ [(m.value, m.fromCore, m.fromSlot)]) }
    when_ (t.run = .waiting (.port m.port false)) (wake m.core m.slot)

/-- A credit reaches the slot that pushed (R167). -/
def landCredit (id : Nat) (m : PortMsg) : Act s₀ Unit := do
  emit (.port id none)
  let t := (← now).thread m.core m.slot
  setThread m.core m.slot { t with credits := vset t.credits m.port.index (t.credits.get m.port.index + 1) }
  when_ (t.run = .waiting (.port m.port true)) (wake m.core m.slot)

/-- A port message that is due arrives. -/
def portArrives (isCredit : Bool) (id : Nat) : Act s₀ Unit := do
  let s ← now
  match look s.ports id with
  | none => pure ()
  | some m => when_ (m.isCredit = isCredit && m.due ≤ s.ctl.now && s.landsAt id m.core && !s.portBehind id m) do
      if isCredit then landCredit id m else landEntry id m

/-- Ends a wait by a trap, which the message engine takes as a reissue (R145). -/
def endByTrap (L : Nat) (k : Fin 16) (cause : Byte) (v : Word) : Act s₀ Unit := do
  modThread L k fun t => { t with pendingTrap := some (cause, v) }
  wake L k

/-- The expiry of a port wait, after the entries and credits that are due by then (R172). -/
def portTimeout (L : Nat) (k : Fin 16) : Act s₀ Unit := do
  let s ← now
  let t := s.thread L k
  match t.run with
  | .waiting (.port p _) => when_ (s.waitOver L k && !s.portDue L) do
      endByTrap L k Cause.npTimeout (w64 (Port.operandCode p))
  | _ => pure ()

/-! Homes. -/

/-- A home that is a core's local store performs nothing while the core's context is not resident (R421). -/
def State.homeActive (s : State) (home : Nat) : Bool := 2 ^ 40 ≤ home || (s.core home).status = .active

/-- A freed entry is kept for the ticket that is served next, whose holder is woken if it still waits on a word there (R186). -/
def serveTicket (home : Nat) : Act s₀ Unit := do
  let s ← now
  let h := s.home home
  when_ (s.homeActive home && h.hasEntry && h.nowServing.toNat < h.nextTicket.toNat) do
    let n := h.nowServing.toNat
    match h.tickets.find? fun x => x.1 = n with
    | some (_, L, k) => do
      emit (.home home { h with
        nowServing := h.nowServing + 1, kept := h.kept ++ [n], tickets := h.tickets.filter fun x => x.1 ≠ n })
      match (s.thread L k).run with
      | .waiting (.word g _ _) => when_ (g = home) (wake L k)
      | _ => pure ()
    | none => emit (.home home { h with nowServing := h.nowServing + 1 })

/-- Nominal cycles that a number of cycles of a home takes: at a core's local store, of that core's clock (R434). -/
def State.homeCycles (s : State) (home n : Nat) : Nat := if home < 2 ^ 40 then s.nominal home n else n

/-- Turnover of the oldest entry (R186). -/
def turnOver (home : Nat) : Act s₀ Unit := do
  let s ← now
  let h := s.home home
  match h.monitors with
  | m :: rest => when_ (s.homeActive home && !h.tickets.isEmpty && h.lastTurn + s.homeCycles home 1024 ≤ s.ctl.now) do
      emit (.home home { h with monitors := rest, lastTurn := s.ctl.now })
      wake m.core m.slot
  | [] => pure ()

/-- The expiry of a word wait: a withdrawal is sent; at the own local store the home performs it in that cycle (R187). -/
def wordTimeout (L : Nat) (k : Fin 16) : Act s₀ Unit := do
  let s ← now
  let t := s.thread L k
  match t.run with
  | .waiting (.word h ga _) => when_ (s.waitOver L k) do
      if h = L then
        withdraw L k h
        endByTrap L k Cause.feTimeout ga
      else setThread L k { t with withdrawing := true }
  | _ => pure ()

/-- The home of a word wait takes a withdrawal: a slice, or a core that messages reach (R421, R435). -/
def State.homeReached (s : State) (home : Nat) : Bool := 2 ^ 40 ≤ home || s.reachable home

/-- The home performs a withdrawal, unless it has performed a wake before (R187); one to a gated core's home wakes the core (R435). -/
def performWithdrawal (L : Nat) (k : Fin 16) : Act s₀ Unit := do
  let s ← now
  let t := s.thread L k
  match t.run with
  | .waiting (.word h ga _) => when_ t.withdrawing do
      if s.homeReached h then
        setThread L k { t with withdrawing := false }
        when_ (!t.woken) do
          withdraw L k h
          endByTrap L k Cause.feTimeout ga
      else rouse h
  | _ => pure ()

/-! Barriers. -/

/-- An arrival (R197). -/
def arrive (L : Nat) (k : Fin 16) : Act s₀ Unit := do
  let s ← now
  match (s.thread L k).run with
  | .waiting (.barArrive scope) => when_ ((s.core L).status = .active) do
      let key := groupKey scope (s.groupOf scope L)
      let g := s.group key
      modThread L k fun t => { t with run := .waiting (.barWait scope) }
      settleGroup scope key { g with a := g.a + 1, waiting := g.waiting ++ [(L, k)], last := max g.last (s.thread L k).barAt }
  | _ => pure ()

/-- A release reaches a core, and the `bar` completes there (R196); a restored slot issues no earlier than its restore allows, and fetches its
footprint again (R425, R426). -/
def completeBar (L : Nat) (k : Fin 16) : Act s₀ Unit := do
  let s ← now
  match (s.thread L k).run with
  | .waiting (.barReleased _) => when_ ((s.core L).status = .active) do
      modThread L k fun t =>
        let t := (continueAt t .seq).readyFrom (max t.nextIssue (s.cycle L + 1))
        if t.refetches then { t with run := .waiting .footprint } else t
  | _ => pure ()

/-! Launches. -/

/-- The wake of a host's launch has left service core 0 (R467). -/
def hostLaunched (m flood : Nat) : Act s₀ Unit := do
  when_ (((← now).module m).window.launching = some flood) do
    modWindow m fun w => { w with launchBusy := false, launching := none }
    raiseHirq m 2

/-- The wake of a flood has left its core, and is performed at a core of a module that has it, which it has not reached, after the wakes of the
same thread's earlier launches, when a launch entry is free (R158, R159, R456). -/
def launchAt (flood core : Nat) : Act s₀ Unit := do
  let s ← now
  match look s.floods flood with
  | none => pure ()
  | some f =>
    let due (x : Flood) : Bool := s.inScope x.scope x.fromCore core && !x.reached.contains core
    let behind := s.floods.any fun (j, x) => j < flood && x.fromCore = f.fromCore && x.fromSlot = f.fromSlot && due x
    hostLaunched (moduleOf f.fromCore) flood
    when_ (due f && !behind && s.reachable core && f.modules.contains (moduleOf core)) do
      match (s.core core).freeEntry with
      | none => pure ()
      | some e =>
        let order ← freshId
        takeLaunch core e order f.launch
        let reached := f.reached ++ [core]
        let all := ((s.spans f.scope f.fromCore).map fun x => x.2).foldr (fun a b => a + b) 0
        emit (.flood flood (if all ≤ reached.length then none else some { f with reached := reached }))

/-- A held start is performed, in the cycle after the one in which its slot became free (R159). -/
def startHeld (L : Nat) (k : Fin 16) : Act s₀ Unit := do
  let s ← now
  when_ (s.startDue L k) do
    match (s.core L).firstHeld k with
    | none => pure ()
    | some (e, x) =>
      let m : BitVec 16 := 1#16 <<< k.val
      modCore L fun c => { c with
        entries := vset c.entries e (some { x with held := x.held &&& ~~~m, running := x.running ||| m }) }
      startAt L k (launched x.launch (s.thread L k) L k e) (s.cycle L - 1)

/-- A port entry arrives. (R170, R174) -/
def execPortEntryArrives (id : Nat) (st : State) : Host.Outcome State Fault Refusal := act st (portArrives false id)

/-- A credit arrives. (R167, R170) -/
def execPortCreditReturn (id : Nat) (st : State) : Host.Outcome State Fault Refusal := act st (portArrives true id)

/-- A port wait expires. (R172) -/
def execNpTimeout (core : Nat) (slot : Fin 16) (st : State) : Host.Outcome State Fault Refusal := act st (portTimeout core slot)

/-- A ticket is served. (R186) -/
def execTicketServed (home : Nat) (st : State) : Host.Outcome State Fault Refusal := act st (serveTicket home)

/-- The oldest monitor entry is turned over. (R186) -/
def execMonitorTurnover (home : Nat) (st : State) : Host.Outcome State Fault Refusal := act st (turnOver home)

/-- A word wait expires. (R187) -/
def execWaitlimExpiry (core : Nat) (slot : Fin 16) (st : State) : Host.Outcome State Fault Refusal := act st (wordTimeout core slot)

/-- The home performs a withdrawal. (R187) -/
def execWithdrawal (core : Nat) (slot : Fin 16) (st : State) : Host.Outcome State Fault Refusal := act st (performWithdrawal core slot)

/-- A `bar` arrives. (R197) -/
def execBarArrival (core : Nat) (slot : Fin 16) (st : State) : Host.Outcome State Fault Refusal := act st (arrive core slot)

/-- A release reaches a `bar`. (R196) -/
def execBarRelease (core : Nat) (slot : Fin 16) (st : State) : Host.Outcome State Fault Refusal := act st (completeBar core slot)

/-- A launch wake is performed at a core. (R158, R159) -/
def execLaunchWake (flood core : Nat) (st : State) : Host.Outcome State Fault Refusal := act st (launchAt flood core)

/-- A held start is performed. (R159) -/
def execHeldStart (core : Nat) (slot : Fin 16) (st : State) : Host.Outcome State Fault Refusal := act st (startHeld core slot)

end Sys2Proof.Machine
end

