-- ==== Sys2Proof/Machine/TaskEvents.lean ====
section
/-! DEFINITION. The task unit's events (R210 to R224): timeouts of `taskpop`, footprint fetches, increments and decrements of
successors, steals, firings, and held work. -/

namespace Sys2Proof.Machine

variable {s₀ : State}

/-- A slot waits in `taskpop`, and nothing has ended its wait (R211). -/
def Thread.pops (t : Thread) : Bool := t.run = .waiting .taskpop && t.assigned.isNone && t.popEnded.isNone

/-- The wait of a `taskpop` has lasted its limit, and nothing has been assigned (R211): a packet that comes in the same cycle is
still assigned. When no slot waits any more, the stealing stops (R215). -/
def popTimeout (L : Nat) (k : Fin 16) : Act s₀ Unit := do
  let s ← now
  let t := s.thread L k
  when_ (s.waitOver L k && t.run = .waiting .taskpop) do
    setThread L k { t with popEnded := some (s.cycle L) }
    wake L k
    let s ← now
    when_ (!(List.finRange 16).any fun j => (s.thread L j).pops) (stopStealing L)

/-! Footprints (R217). -/

/-- The assigned packet is discarded, and its thread takes a trap at its `taskpop` (R415). -/
def discardFootprint (L : Nat) (k : Fin 16) (cause : Byte) (ga : Word) : Act s₀ Unit := do
  dropLines (.footprint L k)
  modThread L k fun t => { t with assigned := none, fetched := 0, pin := none, spoiled := false }
  endByTrap L k cause ga

/-- A footprint fetch ends with `PAGE_FATAL`, which is an event (R415, R487). -/
def footprintFatal (L : Nat) (k : Fin 16) (ga : Word) : Act s₀ Unit := do
  let s ← now
  raiseEvent (moduleOf L) (w64 L) 3 (w64 (s.cycle L)) (w64 k.val) ga 0
  discardFootprint L k Cause.pageFatal ga

/-- One word of a footprint, with its mark, which a link that it came by may have given it (R419). -/
def copyFootprintWord (L : Nat) (k : Fin 16) (off : Nat) (ga : Word) (tg : Target) : Act s₀ Unit := do
  let s ← now
  let spoiled ← spoilOn L ga tg.home false (s.thread L k).spoiled
  writeAs (s.writer L k) { place := .win L off, home := L, pin := none, sum := none } 8 (s.readPlace tg.place 8)
    (some (s.placePoison tg.place || spoiled)) none
  modThread L k fun t => { t with fetched := t.fetched + 1, spoiled := t.spoiled && !spoiled }

/-- Copies the next word of a packet's footprint, once no other slot has pinned bytes of its range; after the last one the
`taskpop` is reissued (R217), or a restored slot issues (R426). A poisoned word is written poisoned, as R217 and R420 say, and
does not discard the packet with DATA_POISON, as R224's row has it (log 74). Lines of shared space come through the Shroud (R263); a word of
another module that finds no held-request entry is asked for again later (R415). -/
def fetchFootprint (L : Nat) (k : Fin 16) : Act s₀ Unit := do
  let s ← now
  let t := s.thread L k
  match t.assigned with
  | none => pure ()
  | some x =>
    let (dst, len) := Packet.range x
    let src := w64 (Packet.word x (fpOffset (Packet.word x 0)))
    when_ (t.run = .waiting .footprint && !t.woken && (s.core L).status = .active && !s.pinned L k (dst, len) &&
        t.again ≤ s.ctl.now) do
      setThread L k { t with pin := some (dst, len) }
      let ga := src + w64 (8 * t.fetched)
      let m := gaModule ga
      let other := decide (m ≠ moduleOf L)
      if len ≤ 8 * t.fetched then
        if t.parked.isSome then wake L k
        else modThread L k fun t => { (t.readyFrom (max t.nextIssue (s.cycle L + 1))) with assigned := none, fetched := 0 }
      else if !s.exists_ ga then footprintFatal L k ga
      else if !isShared ga then
        if !(gaOff ga < 2 ^ 28 && windowAccepts (gaOff ga) 8 .load) then discardFootprint L k Cause.protection ga
        else if !s.reachable (gaCore ga) then rouse (gaCore ga)
        else
          copyFootprintWord L k (dst + 8 * t.fetched) ga (localTarget ga)
      else
        let R := if other then s.receiver (moduleOf L) ga else L
        let die := if other then dieOf R else s.dieAt L
        match ← resolveShared (if other then none else some (s.clusterAt L)) die t.asid ga .read false false with
        | .target tg =>
          if ← granted (.footprint L k) other (s.physOf R) tg then
            touch tg false
            copyFootprintWord L k (dst + 8 * t.fetched) ga tg
            when_ (lineOf (ga.toNat + 8) ≠ lineOf ga.toNat || len ≤ 8 * t.fetched + 8) (dropLines (.footprint L k))
          else pure ()
        | .wait => pure ()
        | .trap c => discardFootprint L k c ga
        | .walk f =>
          if s.faultsFatal m L then footprintFatal L k ga
          else if other && !s.mayHold m die then modThread L k fun t => { t with again := s.ctl.now + 1024 }
          else
            raiseFault (m * 8 + die) (if other then 6 else 5) t.asid f L k (.footprint L k)
            modThread L k fun t => { t with run := .waiting (.fault (s.cycle L)) }

/-! Successors (R210, R213, R221). -/

/-- The core to which a task message goes. -/
def TaskMsg.target (m : TaskMsg) : Nat :=
  match m with
  | .increment h _ => gaCore h
  | .firing L _ _ _ _ => L

/-- The core, or the home, from which it goes. -/
def TaskMsg.source (m : TaskMsg) : Nat :=
  match m with
  | .increment _ L => L
  | .firing _ _ _ _ home => home

/-- An earlier task message from the same core or home to the same core is left (R150, R223). -/
def State.taskBehind (s : State) (id : Nat) (m : TaskMsg) : Bool :=
  s.tasks.any fun (j, x) => j < id && x.source = m.source && x.target = m.target

/-- An increment of a split is performed at the home of its pending packet, after what its core sent there before it (R150, R213). -/
def performIncrement (id : Nat) : Act s₀ Unit := do
  let s ← now
  match look s.tasks id with
  | some (.increment h L) =>
    let m := TaskMsg.increment h L
    let R := s.receiver (moduleOf L) h
    let foreign := s.handleOk h && gaModule h ≠ moduleOf L
    when_ (!s.taskBehind id m && !s.legBehind id (s.legOfTask m) && (!s.handleOk h || s.reachable (gaCore h)) &&
        (!foreign || s.reachable R)) do
      emit (.task id none)
      when_ foreign (countMessage R)
      incrementWait h
      match ((← now).core L).split with
      | some x =>
        let left := x.left.erase id
        modCore L fun c => { c with split := some { x with left := left } }
        when_ left.isEmpty (finishSplit L)
      | none => pure ()
  | _ => pure ()

/-- A decrement is performed by the task unit of the core that its handle names, after what was sent there by its way before it (R150, R213,
R279, R290). -/
def performDecrement (id : Nat) : Act s₀ Unit := do
  let s ← now
  match look s.reqs id with
  | none => pure ()
  | some r =>
    let M := gaCore r.ga
    when_ (r.op = .decrement && ((r.stage = .sent && !r.foreign) || r.stage = .forwarded) && !s.legBehind (r.order id) (s.leg r) &&
        s.reachable M && (s.core M).split.isNone) do
      let done ← decrementWait id r.ga r.core (some id)
      modReq id fun r => { r with stage := if done then .performed .done else .room, answered := s.ctl.steps }

/-- A firing reaches its bound core, after the earlier ones of its home (R220, R223). -/
def performFiring (id : Nat) : Act s₀ Unit := do
  let s ← now
  match look s.tasks id with
  | some (.firing L e ga v home) =>
    when_ (!s.taskBehind id (.firing L e ga v home) && s.reachable L && (s.core L).split.isNone) do
      emit (.task id none)
      let p : Packet := s.packetAt L (triggerOff e)
      let at_ := trigOffset (p.word 0)
      let p := Packet.setWord (p.setWord at_ ga.toNat) (at_ + 8) v.toNat
      if ← placeOrHold L { order := id, packet := p, trigger := some e, owner := none } then
        freeTrigger L e
        entered L
      else pure ()
  | _ => pure ()

/-- The first held packet whose deque has room is placed (R221). -/
def placeHeld (L : Nat) : Act s₀ Unit := do
  let s ← now
  let room (x : HeldTask) : Bool := !s.dequeFull L (hdrUrgent (Packet.word x.packet 0))
  match (s.core L).heldTasks.find? room with
  | none => pure ()
  | some x => when_ (s.reachable L && (s.core L).split.isNone) do
      modCore L fun c => { c with heldTasks := c.heldTasks.erase x }
      pushBottom L (hdrUrgent (Packet.word x.packet 0)) x.packet
      match x.trigger with
      | some e => freeTrigger L e
      | none => pure ()
      decrementDone x.owner
      entered L

/-! Steals (R215, R216). -/

/-- A core steals: a slot waits in `taskpop`, every slot that is not idle does, and both deques are empty. -/
def State.steals (s : State) (L : Nat) : Bool :=
  let c := s.core L
  c.normal.count = 0 && c.urgent.count = 0 && c.status = .active && c.split.isNone &&
    (List.finRange 16).any (fun k => (s.thread L k).pops) &&
    (List.finRange 16).all fun k => (s.thread L k).run = .idle || (s.thread L k).pops

/-- The victim of a place in a round, with the offset of the cluster's stage and the steal state after its draw. -/
def victimAt (L : Nat) (g : Word) (stage j offset : Nat) : Nat × Nat × Word :=
  let m := moduleOf L
  let d := dieOf L
  let i := L % 1024
  if stage = 0 then
    let g' := if j = 0 then nextRand g else g
    let o := if j = 0 then g'.toNat % 15 else offset
    (L / 16 * 16 + (colOf L + 1 + (o + j) % 15) % 16, o, g')
  else
    let g := nextRand g
    if stage = 1 then (m * 8192 + d * 1024 + (i + 1 + g.toNat % 1023) % 1024, 0, g)
    else
      let v := g.toNat % 7168
      (m * 8192 + (d + 1 + v / 1024) % 8 * 1024 + v % 1024, 0, g)

/-- Asks the victim of a place. -/
def askVictim (L stage j offset : Nat) : Act s₀ Unit :=
  modCore L fun c =>
    let (v, o, g) := victimAt L c.g stage j offset
    { c with g := g, steal := .asking stage j o v }

/-- A core begins to steal (R215). -/
def beginSteal (L : Nat) : Act s₀ Unit := do
  let s ← now
  when_ ((s.core L).steal = .off && s.steals L) (askVictim L 0 0 0)

/-- A request is performed at its victim's task unit (R216). -/
def performSteal (L : Nat) : Act s₀ Unit := do
  let s ← now
  match (s.core L).steal with
  | .asking stage j o v =>
    let x := s.core v
    let reply (p : Option Packet) : Act s₀ Unit := modCore L fun c => { c with steal := .answered stage j o p }
    if x.split.any fun y => y.target = .steal L then pure ()
    else if x.status ≠ .active then reply none
    else if (s.physCore (s.physOf v)).gated then rouse v
    else when_ x.split.isNone do
      let p := s.packetAt v (dequeOff false x.normal 0)
      if x.normal.count = 0 then reply none
      else if p.splits then
        let (lo, hi) := p.halves
        let left ← splitIncrements v p p.handles
        if left.isEmpty then
          writePacket v (dequeOff false x.normal 0) lo
          reply (some hi)
        else modCore v fun c => { c with
          split := some { lower := lo, upper := hi, urgent := false, target := .steal L, left := left } }
      else
        setDeque v false { top := (x.normal.top + 1) % dequeCap false, count := x.normal.count - 1 }
        roomFreed v false
        entered v
        reply (some p)
  | _ => pure ()

/-- A reply reaches the thief (R215, R216); a stolen packet that finds no free entry is held like a release (log 75). -/
def stealAnswer (L : Nat) : Act s₀ Unit := do
  let s ← now
  match (s.core L).steal with
  | .answered stage j o reply => when_ ((s.core L).status ≠ .saved && (reply.isNone || (s.core L).split.isNone)) do
      modCore L fun c => { c with steal := .off }
      match reply with
      | some p =>
        let _ ← placeOrHold L { order := ← freshId, packet := p, trigger := none, owner := none }
        entered L
      | none => when_ (s.steals L) do
          let count := if stage = 0 then 15 else 16
          if stage = 3 then pure ()
          else if j + 1 < count then askVictim L stage (j + 1) o
          else if stage < 2 then askVictim L (stage + 1) 0 0
          else modCore L fun c => { c with steal := .paused (s.cycle L + 256) }
  | _ => pure ()

/-- The pause between two rounds ends (R215). -/
def endPause (L : Nat) : Act s₀ Unit := do
  let s ← now
  match (s.core L).steal with
  | .paused until_ => when_ (until_ ≤ s.cycle L) do
      if s.steals L then askVictim L 0 0 0 else modCore L fun c => { c with steal := .off }
  | _ => pure ()

/-- The wait of a `taskpop` ends. (R211) -/
def execTaskpopTimeout (core : Nat) (slot : Fin 16) (st : State) : Host.Outcome State Fault Refusal := act st (popTimeout core slot)

/-- A word of a footprint is fetched. (R217) -/
def execFootprintFetch (core : Nat) (slot : Fin 16) (st : State) : Host.Outcome State Fault Refusal := act st (fetchFootprint core slot)

/-- An increment of a split is performed. (R210) -/
def execSplitIncrement (id : Nat) (st : State) : Host.Outcome State Fault Refusal := act st (performIncrement id)

/-- A decrement is performed. (R213) -/
def execSuccessorDecrement (id : Nat) (st : State) : Host.Outcome State Fault Refusal := act st (performDecrement id)

/-- A core begins to steal. (R215) -/
def execStealStart (core : Nat) (st : State) : Host.Outcome State Fault Refusal := act st (beginSteal core)

/-- A steal request is performed. (R216) -/
def execStealRequest (core : Nat) (st : State) : Host.Outcome State Fault Refusal := act st (performSteal core)

/-- A reply reaches the thief. (R216) -/
def execStealReply (core : Nat) (st : State) : Host.Outcome State Fault Refusal := act st (stealAnswer core)

/-- The pause between rounds ends. (R215) -/
def execStealPauseEnd (core : Nat) (st : State) : Host.Outcome State Fault Refusal := act st (endPause core)

/-- A firing reaches its bound core. (R220) -/
def execTriggerFiring (id : Nat) (st : State) : Host.Outcome State Fault Refusal := act st (performFiring id)

/-- A held packet is placed. (R221) -/
def execHeldTaskPlacement (core : Nat) (st : State) : Host.Outcome State Fault Refusal := act st (placeHeld core)

end Sys2Proof.Machine
end

