-- ==== Sys2Proof/Machine/FaultEvents.lean ====
section
/-! DEFINITION. The fault tables of the dies, the records they write and the release of their waiters (R409 to R416), and the
acknowledgements of `tlbinv` (R250, R251). A die is numbered `module * 8 + die`. -/

namespace Sys2Proof.Machine

variable {s₀ : State}

/-- The four words of a fault record (R411). -/
def recordWords (p : PendingFault) (entry : Nat) (gen : BitVec 20) : List Word :=
  let f := p.fault
  [w64 (f.cause.toNat * 2 ^ 40 + f.level * 2 ^ 37 + p.kind * 2 ^ 34 + p.die % 8 * 2 ^ 29 + entry * 2 ^ 20 + gen.toNat), f.ga,
    w64 (p.asid.toNat + p.core * 2 ^ 16 + p.slot.val * 2 ^ 49), w64 f.epa]

/-- The fault is of the page that an entry is keyed by (R414). -/
def FaultEntry.keyed (e : FaultEntry) (p : PendingFault) : Bool :=
  e.isOpen && e.asid = p.asid && e.page = gaVa p.fault.ga / 16384

/-- The entries of a die's table that are not open. -/
def Die.freeEntries (d : Die) : List Nat :=
  (List.range 512).filter fun i => !((look d.faults i).map fun e => e.isOpen).getD false

/-- A failed walk joins the open entry of its page, or opens a free one and has a record written; with none free it waits (R414).
Which free entry opens is left open. -/
def openFault (id : Nat) : Act s₀ Unit := do
  let s ← now
  match look s.faults id with
  | none => pure ()
  | some p =>
    let m := p.die / 8
    let d := p.die % 8
    let x := (s.module m).die d
    match x.faults.find? fun e => e.2.keyed p with
    | some (i, e) =>
      emit (.fault id none)
      modDie m d fun y => { y with faults := put y.faults i { e with waiters := e.waiters ++ [p.waiter] } }
    | none => when_ (!x.freeEntries.isEmpty) do
        let n ← freeValue
        let i := x.freeEntries.getD (n % x.freeEntries.length) 0
        let gen := ((look x.faults i).map fun e => e.gen).getD 0 + 1
        emit (.fault id none)
        modDie m d fun y => { y with
          faults := put y.faults i {
            isOpen := true, gen := gen, asid := p.asid, page := gaVa p.fault.ga / 16384, ga := p.fault.ga
            waiters := [p.waiter] }
          records := y.records ++ [{ words := recordWords p i gen, index := none, retryAt := 0 }] }

/-! Records (R412). -/

/-- Writes a word at a physical address of a module as a write at its home, whose line is there. -/
def writePa (m a : Nat) (v : Word) : Act s₀ Unit := writeData 0 0 (paTarget m a) 8 v.toNat

/-- The physical address of the record with a ring index (R411). -/
def State.recordAt (s : State) (m r : Nat) : Nat := s.sysBlock m 0 % 2 ^ 44 + 32 * (r % 2 ^ (s.sysBlock m 8 % 32))

/-- Changes the first record that a die has to write. -/
def modRecord (m d : Nat) (f : PendingRecord → Option PendingRecord) : Act s₀ Unit :=
  modDie m d fun y => match y.records with
    | [] => y
    | r :: rest => match f r with
      | some r => { y with records := r :: rest }
      | none => { y with records := rest }

/-- Writes the record with its claimed index, once its line is there, if word 0 is empty, and tells the host (R267, R412, R474). -/
def tryRecord (m d : Nat) (r : PendingRecord) (index : Nat) : Act s₀ Unit := do
  let a := (← now).recordAt m index
  let ready ← lineReady (paTarget m a)
  let s ← now
  if !ready then modRecord m d fun x => some { x with index := some index, retryAt := s.ctl.now }
  else if s.faultQueueOn m && !s.placeFull (.pa m a) then
    each (r.words.zipIdx) fun (w, i) => writePa m (a + 8 * i) w
    setFull (paTarget m a).home (.pa m a) true
    modRecord m d fun _ => none
    modWindow m fun w => { w with fqmir := w64 (s.sysBlock m 0x10) }
    raiseHirq m 3
  else modRecord m d fun x => some { x with index := some index, retryAt := s.ctl.now + 256 }

/-- A die claims the next ring index for its first record, and tries to write it (R412). -/
def writeRecord (die : Nat) : Act s₀ Unit := do
  let s ← now
  let m := die / 8
  let d := die % 8
  match ((s.module m).die d).records with
  | r :: _ => when_ r.index.isNone do
      let index := s.sysBlock m 0x10
      if ← lineReady (paTarget m 0x82010) then
        writePa m 0x82010 (w64 (index + 1))
        tryRecord m d r index
      else pure ()
  | [] => pure ()

/-- A die tries again to write its first record (R412). -/
def retryRecord (die : Nat) : Act s₀ Unit := do
  let s ← now
  let m := die / 8
  let d := die % 8
  match ((s.module m).die d).records with
  | r :: _ =>
    match r.index with
    | some index => when_ (r.retryAt ≤ s.ctl.now) (tryRecord m d r index)
    | none => pure ()
  | [] => pure ()

/-! Release (R415, R416). -/

/-- The limits of a thread's waits do not run in state 6 (R409). -/
def Thread.afterFault (t : Thread) (gap : Nat) : Thread :=
  { t with
    portWait := t.portWait.map fun (c, n) => (c + gap, n)
    wordWait := t.wordWait.map fun (c, n) => (c + gap, n) }

/-- Releases a thread's instruction or fetch. -/
def releaseThread (L : Nat) (k : Fin 16) (fatal : Bool) (ga : Word) : Act s₀ Unit := do
  let s ← now
  match (s.thread L k).run with
  | .waiting (.fault since) => do
    modThread L k fun t => t.afterFault (s.cycle L - since)
    if fatal then endByTrap L k Cause.pageFatal ga else wake L k
  | .waiting .fill => when_ fatal (endByTrap L k Cause.pageFatal ga)
  | _ => pure ()

/-- Releases an engine's command, which makes its access again or stops: one parked at its signal with error 0x05 (R316). -/
def releaseEngine (L : Nat) (e : Engine) (fatal : Bool) : Act s₀ Unit :=
  modEngine L e fun u => { u with
    wait := .none
    running := u.running.map fun (c, p) => (c, if fatal then { p with error := some (if p.written then 5 else 3) } else p) }

/-- The word at which the fetch of a thread's footprint stands (R217). -/
def Thread.footprintWord (t : Thread) : Word :=
  match t.assigned with
  | some x => w64 (Packet.word x (fpOffset (Packet.word x 0)) + 8 * t.fetched)
  | none => 0

/-- Releases a footprint fetch. One that ends is named by its own failing word (R487). -/
def releaseFootprint (L : Nat) (k : Fin 16) (fatal : Bool) : Act s₀ Unit := do
  let ga := ((← now).thread L k).footprintWord
  modThread L k fun t => { t with run := .waiting .footprint }
  when_ fatal (footprintFatal L k ga)

/-- Releases a held request of another module: it is translated again, or ends as R245 says for `PAGE_FATAL`. -/
def releaseRequest (id : Nat) (fatal : Bool) : Act s₀ Unit := do
  match look (← now).reqs id with
  | none => pure ()
  | some r => when_ fatal (answerRequest id (.trap Cause.pageFatal r.ga))

def releaseWaiter (fatal : Bool) (ga : Word) (w : Waiter) : Act s₀ Unit :=
  match w with
  | .thread L k => releaseThread L k fatal ga
  | .engine L e => releaseEngine L e fatal
  | .footprint L k => releaseFootprint L k fatal
  | .request id => releaseRequest id fatal

/-- A `wake` at its fault table (R416), and its reply. -/
def wakeTable (L : Nat) (k : Fin 16) : Act s₀ Unit := do
  let s ← now
  match (s.thread L k).run with
  | .waiting (.table h) => when_ ((s.core L).status ≠ .saved) do
      let m := moduleOf L
      let d := field h 29 3
      let i := field h 20 9
      match look ((s.module m).die d).faults i with
      | some e => when_ (e.isOpen && e.gen.toNat = field h 0 20) do
          modDie m d fun y => { y with faults := put y.faults i { e with isOpen := false, waiters := [] } }
          each e.waiters (releaseWaiter (bit h 32) e.ga)
      | none => pure ()
      land L k .done 1
  | _ => pure ()

/-! Translations dropped (R250, R251). -/

/-- A `tlbinv` with operands `a` and `d` drops an entry. -/
def TlbEntry.dropped (a d : Word) (e : TlbEntry) : Bool :=
  e.asid = BitVec.ofNat 16 d.toNat && (bit d 16 || e.covers e.asid (gaVa a))

/-- A request of an ASID that a die of a module has translated, alone or combined with another, and its home has not yet performed; or a word
of a store that a thread has had translated and has not sent (R136). -/
def State.translating (s : State) (m die : Nat) (asid : BitVec 16) : Bool :=
  (s.reqs.any fun (_, r) => r.ofCore && r.target.isSome && (r.stage = .sent || r.stage = .translated || r.stage = .merged) &&
    r.asid = asid && gaModule r.ga = m &&
    (if moduleOf r.core = m then s.dieAt r.core else dieOf (r.via.getD (s.destination r))) = die) ||
  s.threads.any fun (key, t) => moduleOf (key / 16) = m && s.dieAt (key / 16) = die && t.asid = asid &&
    t.taken.any fun x => match x with
      | .target _ => true
      | _ => false

/-- A die and its cluster ports drop the translations; they acknowledge once what they translated before is performed. -/
def dropTranslations (L : Nat) (k : Fin 16) : Act s₀ Unit := do
  let s ← now
  match (s.thread L k).run with
  | .waiting (.acks a d left) => when_ ((s.core L).status ≠ .saved) do
      let n ← freeValue
      let m := moduleOf L
      let die := left.getD (n % left.length) 0
      let keep (xs : List TlbEntry) : List TlbEntry := xs.filter fun e => !e.dropped a d
      modModule m fun x => { x with
        dies := put x.dies die { x.die die with tlb := keep (x.die die).tlb }
        clusterTlbs := x.clusterTlbs.map fun (c, xs) => (c, if c / 64 % 8 = die then keep xs else xs) }
      when_ (!s.translating m die (BitVec.ofNat 16 d.toNat)) do
        let left := left.erase die
        modThread L k fun t => { t with run := .waiting (.acks a d left) }
        when_ left.isEmpty (land L k .done 1)
  | _ => pure ()

/-- A failed walk joins or opens an entry of a fault table. (R414) -/
def execFaultEntryOpen (id : Nat) (st : State) : Host.Outcome State Fault Refusal := act st (openFault id)

/-- A die claims an index for a record and writes it, or waits. (R411, R412) -/
def execFaultRecordWrite (die : Nat) (st : State) : Host.Outcome State Fault Refusal := act st (writeRecord die)

/-- A `wake` releases the waiters of an open entry. (R415, R416) -/
def execFaultTableRelease (core : Nat) (slot : Fin 16) (st : State) : Host.Outcome State Fault Refusal := act st (wakeTable core slot)

/-- A die acknowledges a `tlbinv`. (R250, R251) -/
def execTlbinvAck (core : Nat) (slot : Fin 16) (st : State) : Host.Outcome State Fault Refusal := act st (dropTranslations core slot)

/-- A die that waits for word 0 of its record to be empty tries again. (R412) -/
def execFaultRecordRetry (die : Nat) (st : State) : Host.Outcome State Fault Refusal := act st (retryRecord die)

end Sys2Proof.Machine
end

