-- ==== Sys2Proof/Machine/EngineEvents.lean ====
section
/-! DEFINITION. The engines' own events: commands that start, go on and complete (R315, R316, R318), gating of sub-arrays (R321),
transfers to other modules (R454), and reductions with their draining identifiers (R372, R459, R461). -/

namespace Sys2Proof.Machine

variable {s₀ : State}

/-- The units of an engine's commands. -/
def unitOf (e : Engine) : UnitFn s₀ :=
  match e with
  | .mxe => mxUnit
  | .vxe => vxUnit
  | .cpe => cpUnit
  | .slu => slUnit

/-- The unit that a command makes next, which for a `cp.red` is its contribution until that is sent. -/
def nextUnit (e : Engine) (p : Prog) : UnitFn s₀ := fun c =>
  if e = .cpe && c.cmd = 7 && !p.sent then redSend c else unitOf e c

/-- The sub-arrays that a command of an engine needs (R336). -/
def needsArray (e : Engine) (c : Cmd) (s : Fin 4) : Bool := e = .mxe && mxNeeds c s.val

/-- Marks the sub-arrays of a set. -/
def arrayMask (p : Fin 4 → Bool) : BitVec 4 := BitVec.ofNat 4 ((List.finRange 4).foldr (fun s n => n + if p s then 2 ^ s.val else 0) 0)

/-- The head of the queue starts; an MXE command wakes the gated sub-arrays that it needs (R315, R321). -/
def startCommand (L : Nat) (e : Engine) : Act s₀ Unit := do
  let s ← now
  match (s.engine L e).queue with
  | c :: rest => when_ (s.mayStart L e) do
      modEngine L e fun u => { u with queue := rest, running := some (c, Prog.start c.st), wait := .none }
      modCore L fun x => { x with gated := x.gated &&& ~~~arrayMask (needsArray e c) }
  | [] => pure ()

/-- A command that has completed leaves the sub-arrays that it needed idle (R321). -/
def leaveArrays (L : Nat) (e : Engine) (before : Option (Cmd × Prog)) : Act s₀ Unit := do
  let s ← now
  match before with
  | some (c, _) => when_ (e = .mxe && (s.engine L e).running.isNone) do
      modCore L fun x => { x with
        idleSince := Vector.ofFn fun i => if needsArray e c i then s.cycle L else x.idleSince.get i }
  | none => pure ()

/-- A running `cp.red` and its progress. -/
def State.reducing (s : State) (L : Nat) : Option (Cmd × Prog) :=
  match (s.engine L .cpe).running with
  | some (c, p) => if c.cmd = 7 then some (c, p) else none
  | none => none

/-- A member that has written its result, or stopped, no longer holds its group (R461). -/
def leaveReduction (L : Nat) : Act s₀ Unit := do
  let s ← now
  let done := match s.reducing L with
    | some (_, p) => p.written || p.error.isSome
    | none => true
  match s.resultFor L with
  | some (id, r) => when_ done do
      let pending := r.pending.erase L
      emit (.reduction id (if pending.isEmpty then none else some { r with pending := pending }))
  | none => pure ()

/-- Runs units of a running command that waits for nothing. -/
def runCommand (L : Nat) (e : Engine) (unit : UnitFn s₀) (n : Nat) (ends : Bool) : Act s₀ Unit := do
  let u := (← now).engine L e
  when_ (u.wait = .none) do
    advanceCommand unit L e n ends
    leaveArrays L e u.running
    when_ (e = .cpe) (leaveReduction L)

/-- An engine starts a command if it runs none, and makes up to a number of its units (R315, R336). -/
def engineGoesOn (L : Nat) (e : Engine) (n : Nat) : Act s₀ Unit := do
  let s ← now
  when_ ((s.core L).status = .active) do
    startCommand L e
    runCommand L e (unitOf e) n false

/-- An engine makes the last unit of its command and completes it (R315). -/
def engineEnds (L : Nat) (e : Engine) : Act s₀ Unit := do
  let s ← now
  when_ ((s.core L).status = .active) (runCommand L e (unitOf e) 1 true)

/-- A sub-array that has been idle for `MXGATE` cycles is gated (R321). -/
def gateArray (L : Nat) (i : Fin 4) : Act s₀ Unit := do
  let s ← now
  let x := s.core L
  let busy := match (s.engine L .mxe).running with
    | some (c, _) => mxNeeds c i.val
    | none => false
  when_ (x.mxgate ≠ 0 && !busy && x.idleSince.get i + x.mxgate.toNat ≤ s.cycle L) do
    modCore L fun x => { x with gated := x.gated ||| (1#4 <<< i.val) }

/-- A transfer may be performed: one that was returned, once it is sent again (R415, R454). -/
def EngWait.transfers (w : EngWait) (now : Nat) : Bool :=
  match w with
  | .transfer _ => true
  | .returned t => t ≤ now
  | _ => false

/-- A bulk transfer is performed at the home module, and the command goes on with the unit that waited for it (R454), in a freeze too:
until it stands at a restartable point (R424). -/
def transfer (L : Nat) (e : Engine) : Act s₀ Unit := do
  let s ← now
  let u := s.engine L e
  match u.running with
  | some (_, p) => when_ ((s.core L).status ≠ .saved && u.wait.transfers s.ctl.now) do
      modEngine L e fun u => { u with wait := .none, transferred := true }
      runCommand L e (nextUnit e p) 1 true
  | none => pure ()

/-- The contribution of a `cp.red` is accepted (R372, R459 to R461). -/
def sendContribution (L : Nat) : Act s₀ Unit := do
  let s ← now
  match s.reducing L with
  | some (_, p) => when_ ((s.core L).status = .active && !p.sent) (runCommand L .cpe redSend 1 false)
  | none => pure ()

/-- The result of a full group is written to a member's destination, and its command completes (R372). -/
def takeResult (L : Nat) : Act s₀ Unit := do
  let s ← now
  match s.reducing L, s.resultFor L with
  | some (c, p), some _ => when_ ((s.core L).status = .active && p.sent) (runCommand L .cpe cpUnit (cpCount c.rig 0 + 1) true)
  | _, _ => pure ()

/-- A full group of an identifier has members in a module that have still to write (R461). -/
def State.stillDrains (s : State) (m gid : Nat) : Bool :=
  s.reductions.any fun (_, r) => r.gid = gid && r.result.isSome && r.pending.any fun L => moduleOf L = m

/-- An identifier's drain ends in a module, and the threads that wait for it are woken (R201, R461). -/
def endDrain (m gid : Nat) : Act s₀ Unit := do
  let s ← now
  when_ ((s.module m).draining.contains gid && !s.stillDrains m gid) do
    modModule m fun x => { x with draining := x.draining.filter fun g => g ≠ gid }
    each (← now).threads fun (key, t) => when_ (moduleOf (key / 16) = m && t.run = .waiting (.gidDrain gid)) do
      wake (key / 16) (Fin.ofNat 16 key)

/-- A command starts, or goes on. (R315, R321, R336) -/
def execEngineCommandStart (core : Nat) (eng : Engine) (units : Nat) (st : State) : Host.Outcome State Fault Refusal := act st (engineGoesOn core eng units)

/-- A command completes. (R315, R316, R318) -/
def execEngineCommandComplete (core : Nat) (eng : Engine) (st : State) : Host.Outcome State Fault Refusal := act st (engineEnds core eng)

/-- A sub-array is gated. (R321) -/
def execMxSubarrayGate (core : Nat) (sub : Fin 4) (st : State) : Host.Outcome State Fault Refusal := act st (gateArray core sub)

/-- A bulk transfer is performed. (R454) -/
def execBulkTransfer (core : Nat) (eng : Engine) (st : State) : Host.Outcome State Fault Refusal := act st (transfer core eng)

/-- A contribution is accepted. (R372, R459) -/
def execReductionContribution (core : Nat) (st : State) : Host.Outcome State Fault Refusal := act st (sendContribution core)

/-- A result is written. (R372, R486) -/
def execReductionResult (core : Nat) (st : State) : Host.Outcome State Fault Refusal := act st (takeResult core)

/-- A drain ends. (R201, R461) -/
def execGidDrainComplete (module gid : Nat) (st : State) : Host.Outcome State Fault Refusal := act st (endDrain module gid)

end Sys2Proof.Machine
end

