-- ==== Sys2Proof/Machine/Contexts.lean ====
section
/-! DEFINITION. Freezing a core, the core context save record, save and restore, and thermal migration (R188, R193, R199, R421 to
R433, R438). A freeze is made by repeated steps of the module's freeze controller until every slot, engine and queue of the core
stands where R423 wants it. -/

namespace Sys2Proof.Machine

variable {s₀ : State}

/-! Freezing (R421, R423, R424). -/

/-- Takes a waiter out of every list of every fault table, and out of the walks that have not joined one. -/
def unlink (w : Waiter) : Act s₀ Unit := do
  let s ← now
  each s.faults fun (id, f) => when_ (f.waiter = w) (emit (.fault id none))
  each s.modules fun (m, x) => each x.dies fun (d, y) =>
    when_ (y.faults.any fun (_, e) => e.waiters.contains w) do
      modDie m d fun y => { y with
        faults := y.faults.map fun (i, e) => (i, { e with waiters := e.waiters.filter fun v => v ≠ w }) }

/-- A request is withdrawn by a freeze: it is held at its source or its home, or stands between two attempts (R423 step 2). -/
def State.withdrawable (s : State) (r : Req) : Bool :=
  r.awaited && match r.stage with
    | .sent => !r.ownShared && (s.core (s.destination r)).status ≠ .active
    | .held | .returned _ | .failed _ => true
    | _ => false

/-- An assigned packet of a slot goes back to its deque (R223). R223 says no more than that the slot is saved unassigned: the packet goes
to the bottom of the deque that its PRIO names, or is held for it as a release is (log 69). That of a slot whose footprint was to be
fetched again is the packet in service, whose pin stands. -/
def unassign (L : Nat) (k : Fin 16) : Act s₀ Unit := do
  let t := (← now).thread L k
  match t.assigned with
  | none => pure ()
  | some p =>
    setThread L k { t with assigned := none, fetched := 0, pin := if t.inService then t.pin else none }
    when_ (!t.inService) do
      let _ ← placeOrHold L { order := ← freshId, packet := p, trigger := none, owner := none }

/-- A slot that waits gives up what it waits with, and its instruction is to be issued again (R423 step 2). A save ends its waits on
ports and words, and gives up the ticket or the kept entry that it has at a home (R188; log 70 for a port wait); a migration does not. -/
def giveUp (L : Nat) (moves : Bool) (k : Fin 16) : Act s₀ Unit := do
  unlink (.thread L k)
  dropLines (.fetch L k)
  when_ (!moves) do
    unlink (.footprint L k)
    dropLines (.footprint L k)
    match ((← now).thread L k).ticket with
    | some (h, _) => withdraw L k h
    | none => pure ()
    unassign L k
  modThread L k fun t => { (if moves then t.againFrom 0 else t.readyFrom 0) with run := .waiting .drain, spoiled := false }

/-- A slot that waits for a reply gives up its request (R188, R423). -/
def giveUpRequest (L : Nat) (moves : Bool) (k : Fin 16) (id : Nat) (r : Req) : Act s₀ Unit := do
  emit (.req id none)
  unlink (.request id)
  dropBinding r.op
  giveUp L moves k

/-- Brings a slot to a point at which it has no operation in progress (R423 step 2). `moves` says that the core migrates: what is parked
then stays in place, what is woken keeps what it is to be reissued with, and a footprint goes on where it stood (R187, R188). -/
def stopSlot (L : Nat) (moves : Bool) (k : Fin 16) : Act s₀ Unit := do
  let s ← now
  let t := s.thread L k
  match t.run with
  | .waiting w => when_ (!(moves && t.woken)) do
    match w with
    | .barWait _ | .barReleased _ | .acks _ _ _ | .table _ => pure ()
    | .reply id =>
      match look s.reqs id with
      | some r => when_ (s.withdrawable r) (giveUpRequest L moves k id r)
      | none => giveUp L moves k
    | .word h _ _ => when_ (!moves) do
        withdraw L k h
        giveUp L moves k
    | .controller => do
      modModule (moduleOf L) fun m => { m with freezeQueue := m.freezeQueue.filter fun r => !(r.core = L ∧ r.slot = k) }
      giveUp L moves k
    | .taskpop => when_ (!moves) do
        modCore L fun c => { c with poppers := c.poppers.filter fun j => j ≠ k }
        giveUp L moves k
    | .port _ _ | .engineQueue _ | .engineDone _ | .dequeRoom _ | .triggerRoom | .bindingRoom _ | .gidDrain _ | .taskUnit | .footprint =>
      when_ (!moves) (giveUp L moves k)
    | .fault _ =>
      if moves && t.assigned.isSome then
        unlink (.footprint L k)
        setThread L k { t with run := .waiting .footprint }
      else giveUp L moves k
    | .drain | .fill | .barArrive _ => giveUp L moves k
  | _ => pure ()

/-- The slot waits for something that a freeze awaits. -/
def RunState.awaited (r : RunState) : Bool :=
  match r with
  | .waiting (.reply _) | .waiting (.acks _ _ _) | .waiting (.table _) => true
  | _ => false

/-- A running command stands at a restartable point (R337, R360, R380, R397). -/
def restartable (e : Engine) (c : Cmd) (p : Prog) : Bool :=
  match e with
  | .mxe => mxRestartable c p
  | .vxe => vxRestartable c p
  | .cpe => p.row.isEmpty && p.out.isEmpty
  | .slu => if c.cmd = 0 then p.n = 0 && p.m = 0 else p.out.isEmpty && !(c.cmd = 2 || c.cmd = 3 || c.cmd = 5)

/-- The next access of a running command is to a core whose context is not resident (R421). -/
def State.engineAway (s : State) (L : Nat) (e : Engine) : Bool :=
  match (s.engine L e).running with
  | none => false
  | some (c, p) =>
    let next : EngM s Unit := if p.written || p.error.isSome then sendSignal else do
      let _ ← unitOf e c
      pure ()
    match (next.run.run { run := Run.start s, core := L, eng := e, cmd := c, prog := p }).1 with
    | .error .away => true
    | _ => false

/-- A message of an engine has not been performed, and stands where a freeze withdraws it: held at its source or its home, or returned
(R421, R423, R454). -/
def State.messageHeld (s : State) (r : Req) : Bool :=
  match r.stage with
  | .sent => !s.reachable (s.destination r)
  | .held | .returned _ => true
  | _ => false

/-- Brings an engine to a restartable point, unit by unit; answers whether it stands at one, parked for a fault, at its signal or with
nothing to run, or cannot go on without a core that is not resident (R423 step 4, R424). A transfer or a message that is under way is
awaited; one that is held is withdrawn (R454). -/
def stopEngine (L : Nat) (e : Engine) : Act s₀ Bool := do
  let s ← now
  let u := s.engine L e
  match u.running with
  | none => return true
  | some (c, p) =>
    let ends := p.written || p.error.isSome
    match u.wait with
    | .fault | .returned _ => return true
    | .transfer _ => return false
    | .message id =>
      match look s.reqs id with
      | some r =>
        if s.messageHeld r then
          emit (.req id none)
          unlink (.request id)
          modEngine L e fun u => { u with wait := .none }
          return true
        else return false
      | none => return true
    | .none =>
      if !ends && u.reply.isNone && restartable e c p then return true
      else
        runCommand L e (unitOf e) 1 true
        let s ← now
        let v := s.engine L e
        let stays := v.wait = .none && v.running = u.running && s.engineAway L e && (e ≠ .slu || restartable e c p)
        return v.running.isNone || v.wait = .fault || (stays && !(ends && c.rel && !s.replicasDone L e c))

/-- The freeze begins: no slot issues again, and what is sent to the core from now on is held (R421, R423). -/
def beginFreeze (L : Nat) : Act s₀ Unit := do
  let s ← now
  modCore L fun c => { c with
    status := .frozen, freezeFrom := s.ctl.nextId, unbound := 0
    codes := w64 ((List.finRange 16).foldr (fun k n => (s.thread L k).run.code + 16 * n) 0) }

/-- The reservations of a core's threads are cleared, and their waiters woken (R193, R194). -/
def dropReservations (L : Nat) : Act s₀ Unit :=
  each (List.finRange 16) fun k => do
    dropReservation L k
    match ((← now).thread L k).run with
    | .waiting (.word h _ .reservation) => do
      withdraw L k h
      wake L k
    | _ => pure ()

/-- Port messages that left for a core before its freeze have still to land (R176). -/
def State.portsToLand (s : State) (L : Nat) : Bool := s.ports.any fun (id, m) => m.core = L && id < (s.core L).freezeFrom

/-- One step of a freeze; answers whether the core is at rest. -/
def freezeStep (L : Nat) (moves : Bool) : Act s₀ Bool := do
  each (List.finRange 16) (stopSlot L moves)
  dropReservations L
  modCore L fun c => { c with
    mse := c.mse.filter fun x => !x.isReissue
    steal := match c.steal with
      | .paused n => if moves then .paused n else .off
      | x => x }
  let a ← stopEngine L .mxe
  let b ← stopEngine L .vxe
  let c ← stopEngine L .cpe
  let d ← stopEngine L .slu
  let s ← now
  let x := s.core L
  let quiet := match x.steal with
    | .off | .paused _ => true
    | _ => false
  return a && b && c && d && x.mse.isEmpty && x.split.isNone && quiet && (moves || !s.portsToLand L) &&
    (List.finRange 16).all fun k => !(s.thread L k).run.awaited

/-- The running commands that wait stand at their restartable points, out of every fault list (R424). -/
def unlinkEngines (L : Nat) : Act s₀ Unit := do
  dropLines (.copy L true)
  dropLines (.copy L false)
  each [Engine.mxe, .vxe, .cpe, .slu] fun e => do
    unlink (.engine L e)
    dropLines (.engine L e)
    modEngine L e fun u => { u with wait := .none, transferred := false, reply := none, spoiled := false }

/-! The record as words (R427 to R432). -/

/-- A list of words of a fixed length, filled with zeros. -/
def pad (n : Nat) (ws : List Word) : List Word := ws.take n ++ List.replicate (n - ws.length) 0

/-- `PORTOCC` layout (R116). -/
def portFields (f : Port → Nat) : Word := w64 (allPorts.foldr (fun p n => f p + 8 * n) 0)

/-- The bits of a list, the first lowest. -/
def bitsOf (bs : List Bool) : Nat := bs.foldr (fun b n => b.toNat + 2 * n) 0

/-- A command image (R430). -/
def commandWords (e : Engine) (c : Cmd) : List Word :=
  pad 8 [
    w64 (c.cmd + 2 ^ 7 * c.acq.toNat + 2 ^ 8 * c.rel.toNat + 2 ^ 9 * c.scope.code + 2 ^ 12 * c.sig.toNat + 2 ^ 13 * e.code +
      2 ^ 16 * c.slot.val + 2 ^ 20), c.a, c.b, w64 (8 * c.sigaddr.toNat),
    w64 (c.seq.toNat + 2 ^ 32 * c.asid.toNat + 2 ^ 48 * c.mxpromo.toNat)] ++ c.rig.toList

/-- The system registers of a slot record, in its order (R429). -/
def recordRegisters : List Nat :=
  [0x000, 0x003, 0x010, 0x011, 0x012, 0x013, 0x020, 0x021, 0x022, 0x023, 0x024, 0x026, 0x027, 0x030, 0x031, 0x032, 0x042,
    0x050, 0x051, 0x052, 0x053, 0x054, 0x055, 0x056, 0x057]

/-- The scope of a `bar` that arrived, and whether its release is held. -/
def RunState.bar (r : RunState) : Option (Scope × Bool) :=
  match r with
  | .waiting (.barWait x) => some (x, false)
  | .waiting (.barReleased x) => some (x, true)
  | _ => none

/-- A slot record (R429). -/
def State.slotWords (s : State) (L : Nat) (k : Fin 16) : List Word :=
  let t := s.thread L k
  let code := if t.startable then t.run.code else field (s.core L).codes (4 * k.val) 4
  let bar := match t.run.bar with
    | some (x, released) => 2 ^ 5 + 2 ^ 6 * released.toNat + 2 ^ 8 * x.code
    | none => 0
  let first := w64 (code + 2 ^ 4 * t.inService.toNat + bar + 2 ^ 11 * t.deferred.isSome.toNat)
  let queue (p : Port) : List Word := pad 4 ((t.queues.get p.index).map fun x => x.1)
  let pin := match t.pin with
    | some (dst, len) => w64 (2 ^ 32 * dst + len)
    | none => 0
  let queued (e : Engine) : List Word :=
    pad 80 (((s.engine L e).queue.filter fun c => c.slot = k).flatMap (commandWords e))
  pad 1024 (
    pad 256 (
      [first, t.pc] ++ t.s.toList ++ t.a.toList ++ t.seg.toList.flatMap (fun d => [d.base, d.word.zeroExtend 64]) ++
      recordRegisters.map (s.sysRead L k) ++
      [w64 ((t.deferred.map fun x => x.1.toNat).getD 0), (t.deferred.map fun x => x.2).getD 0] ++
      allPorts.flatMap queue ++
      [portFields fun p => (t.queues.get p.index).length, portFields fun p => t.credits.get p.index, pin] ++
      [Engine.mxe, .vxe, .cpe, .slu].flatMap fun e => saveWords (t.engThread e)) ++
    [Engine.mxe, .vxe, .cpe, .slu].flatMap queued)

/-- The header (R428). -/
def State.headerWords (s : State) (L : Nat) (lsinc : Bool) : List Word :=
  let c := s.core L
  pad 512 (
    pad 16 [
      w64 (1 + 2 ^ 16 * lsinc.toNat), w64 L, w64 (s.cycle L), c.energy,
      w64 (c.normal.top + 2 ^ 8 * c.normal.count + 2 ^ 16 * c.urgent.top + 2 ^ 24 * c.urgent.count),
      c.triggers.zeroExtend 64, c.mxgate.zeroExtend 64] ++
    c.entries.toList.map fun e => match e with
      | some x => w64 (x.held.toNat + 2 ^ 16 * x.running.toNat + 2 ^ 32)
      | none => 0)

/-- A wide accumulator in R306's layout, in 48 bytes. -/
def accWords (x : Acc) : List Word := ((List.range 5).map fun i => wInt (x.w / 2 ^ (64 * i))) ++ [w64 x.nan.toNat]

/-- The format flags that the record of a running command holds; the rest have gone to the thread. -/
def recordFlags (e : Engine) : FmtFlags :=
  match e with
  | .mxe => 0x0F
  | .vxe => 0x10
  | _ => 0

/-- The command has made every write (R424). -/
def allWritten (e : Engine) (p : Prog) : Bool := p.written || p.error.isSome || (e = .vxe && p.sent)

/-- k of a vector command: a `vx.quant` that has written elements of its block stands at the next one, and any other at its block
(R360, R424, log 35). -/
def Prog.vxPlace (p : Prog) (cmd : Nat) : Nat := if cmd = 8 && 2 ≤ p.n then 32 * p.w + (p.n - 1) else p.w

/-- The progress of a running command from offset 0x140 of its control region (R431). An `mx.igemm` at an output element has w = NW
(log 94). -/
def progressWords (e : Engine) (c : Cmd) (p : Prog) : List Word :=
  if allWritten e p then [w64 (2 ^ 64 - 1)]
  else match e with
    | .mxe =>
      let next := if c.cmd ≤ 1 then p.c else p.m
      [w64 (1 + 2 * (p.flags.toNat % 16) + 2 ^ 16 * next + 2 ^ 32 * p.w),
        w64 (p.m + 2 ^ 16 * p.n + 2 ^ 32 * p.atElement.toNat + 2 ^ 33 * p.g)]
    | .vxe =>
      pad 24 [w64 (1 + 2 * (bit p.flags 4).toNat + 2 ^ 16 * p.m + 2 ^ 32 * p.vxPlace c.cmd)] ++
        (List.range 32).map fun j => wInt ((p.lanes.getD j none).getD 0)
    | .cpe => [w64 (1 + 2 * p.sent.toNat)] ++ pad 6 (p.idx.map w64) ++ [p.st]
    | .slu => [w64 (1 + 2 ^ 32 * (if c.cmd = 0 then 0 else p.w))]

/-- A control region of `n` words (R431). -/
def controlWords (n : Nat) (e : Engine) (running : Option (Cmd × Prog)) : List Word :=
  match running with
  | some (c, p) => pad n (commandWords e c ++ progressWords e c p)
  | none => List.replicate n 0

/-- An entry of the home tables: its word, and the local-store offset of what it names (R432). -/
def homeEntry (awaits core slot off : Nat) : List Word := [w64 (core + 2 ^ 33 * slot + 2 ^ 37 * awaits + 2 ^ 39), w64 (off % 2 ^ 30)]

def Awaits.code (a : Awaits) : Nat :=
  match a with
  | .full => 0
  | .empty => 1
  | .reservation => 2

/-- The home tables of a core's local store (R432). -/
def homeWords (h : Home) : List Word :=
  pad 512 (
    pad 128 (h.monitors.flatMap fun m => homeEntry m.awaits.code m.core m.slot.val (8 * m.word)) ++
    [h.nextTicket.zeroExtend 64, h.nowServing.zeroExtend 64] ++
    pad 128 (h.reservations.flatMap fun r => homeEntry 0 r.core r.slot.val (64 * r.block)) ++
    pad 128 (h.bindings.flatMap fun b => homeEntry 0 b.core b.entry.val (8 * b.word)))

/-- Bits of the words of a core's local store, 64 to a word in the layout of R115. -/
def State.wordBits (s : State) (L : Nat) (f : Nat → Bool) : List Word :=
  let key := lsKey (s.physOf L) 0 / 8
  (List.range 4096).map fun i => w64 (bitsOf ((List.range 64).map fun j => f (key + 64 * i + j)))

/-- The record up to offset 0x04_8000. -/
def State.recordPart (s : State) (L : Nat) (lsinc : Bool) : List Word :=
  let c := s.core L
  let mxe := (s.engine L .mxe).running
  let acc (i : Nat) : Acc := match mxe with
    | some (_, p) => accOf p i
    | none => { w := 0, nan := false, run := 0 }
  s.headerWords L lsinc ++ (List.finRange 16).flatMap (s.slotWords L) ++
  (List.range 1024).flatMap (fun i => accWords (acc i)) ++
  (List.range 512).map (fun i => w64 ((acc (2 * i)).run.toNat + 2 ^ 32 * (acc (2 * i + 1)).run.toNat)) ++
  controlWords 1024 .mxe mxe ++ controlWords 512 .vxe (s.engine L .vxe).running ++
  controlWords 512 .cpe (s.engine L .cpe).running ++ controlWords 512 .slu (s.engine L .slu).running ++
  c.topk.toList.flatMap (fun t => pad 512 t.words) ++ wordsOf (s.lsBytes L 0x1F0000 0x10000) ++ homeWords (s.home L)

/-- Bytes of the record for its LSINC (R427). -/
def recordBytes (lsinc : Bool) : Nat := if lsinc then 0x280000 else 0x48000

/-- The save slot of a request (R410). -/
def State.saveSlot (s : State) (m : Nat) (v : Word) : Nat := (s.sysBlock m 0x18 + 2 ^ 22 * field v 52 12) % 2 ^ 44

/-- Copies the bytes of a range, which is first cleared. -/
def copyBytes (src dst n : Nat) : Act s₀ Unit := do
  let s ← now
  each (s.mem.cells.filter fun c => dst ≤ c.1 && c.1 < dst + n) fun c => emit (.poke c.1 unreadByte)
  each (s.mem.cells.filter fun c => src ≤ c.1 && c.1 < src + n) fun c => emit (.poke (c.1 - src + dst) c.2)

/-- Stores words from a key over bytes that are clear. -/
def pokeWords (key : Nat) : List Word → Act s₀ Unit
  | [] => pure ()
  | w :: rest => do
    when_ (w ≠ 0) (pokeBytes key (toBytes 8 w.toNat))
    pokeWords (key + 8) rest

/-- Every word of a range of a module's memory is written: its marks are cleared, and the reservations on it. -/
def clearRange (m a n : Nat) : Act s₀ Unit := do
  let s ← now
  let key := paKey m a
  each (s.mem.cells.filter fun c => key ≤ c.1 && c.1 < key + n) fun c => emit (.poke c.1 unreadByte)
  each (s.mem.poisons.filter fun c => key / 8 ≤ c.1 && c.1 < (key + n) / 8) fun c => emit (.poison c.1 false)
  each s.homes fun (h, x) => each x.reservations fun r =>
    when_ (key / 64 ≤ r.block && r.block < (key + n) / 64) (clearReservations h r.block)

/-- The lines of a record have come through the port of a core's cluster (R422, R423). -/
def recordLines (L m a n : Nat) : Act s₀ Bool := do
  allGranted (.record L) false ((← now).physOf L) ((List.range (lineOf (a + n - 1) + 1 - lineOf a)).map fun i => paTarget m (128 * (lineOf a + i)))

/-- Writes the record of a core, at the homes of its words (R259, R423 step 5, R427); false while its lines are on their way. -/
def writeRecordAt (L m a : Nat) (lsinc : Bool) : Act s₀ Bool := do
  if ← recordLines L m a (recordBytes lsinc) then
    let s ← now
    each (List.range (recordBytes lsinc / 128)) fun i => touch (paTarget m (a + 128 * i)) true
    clearRange m a (recordBytes lsinc)
    pokeWords (paKey m a) (s.recordPart L lsinc)
    when_ lsinc do
      pokeWords (paKey m (a + 0x48000)) (s.wordBits L s.mem.full)
      pokeWords (paKey m (a + 0x50000)) (s.wordBits L s.mem.poisoned)
      copyBytes (lsKey (s.physOf L) 0) (paKey m (a + 0x80000)) 0x1F0000
    dropLines (.record L)
    return true
  else return false

/-! Save (R422, R423). -/

/-- The controller's first operation is done: it leaves the queue, and its thread goes on (R422). -/
def finishControl (m : Nat) (r : FreezeReq) (t : Token) : Act s₀ Unit := do
  modModule m fun x => { x with freezeQueue := x.freezeQueue.tail }
  when_ (((← now).thread r.core r.slot).run = .waiting .controller) (land r.core r.slot t 1)

/-- `ILLEGAL_OPERAND` at the waiting `preempt`. -/
def refuseControl (m : Nat) (r : FreezeReq) : Act s₀ Unit := do
  let w := (((← now).thread r.core r.slot).parked).getD 0
  finishControl m r (.trap Cause.illegalOperand (w.zeroExtend 64))

/-- The meter of the cluster of a physical core, which has counted a free amount of energy since it was last read (R437). -/
def readMeter (P : Nat) : Act s₀ Word := do
  let n ← freeValue
  let s ← now
  let meter := (look (s.module (moduleOf P)).meters (P / 16)).getD 0 + w64 n
  modModule (moduleOf P) fun x => { x with meters := put x.meters (P / 16) meter }
  return meter

/-- The energy since the context entered its cluster is added to it (R438). -/
def chargeEnergy (L : Nat) : Act s₀ Unit := do
  let s ← now
  let meter ← readMeter (s.physOf L)
  modCore L fun c => { c with energy := c.energy + (meter - c.meterBase), meterBase := meter }

/-- Flags that the record has no place for go to the issuing thread: of a command whose writes are made, all of them (R318, R424). -/
def foldFlags (L : Nat) (e : Engine) : Act s₀ Unit := do
  let s ← now
  match (s.engine L e).running with
  | some (c, p) =>
    let keep := if allWritten e p then 0 else recordFlags e
    when_ (s.issuerLives L c) (modEngThread L c.slot e fun x => { x with flags := x.flags ||| (p.flags &&& ~~~keep) })
    modEngine L e fun u => { u with running := some (c, { p with flags := p.flags &&& keep }) }
  | none => pure ()

/-- One step of a save (R422, R423). -/
def saveStep (m : Nat) : Act s₀ Unit := do
  let s ← now
  let x := s.module m
  match x.freezeQueue with
  | r :: _ => when_ (field r.value 50 2 = 0 && x.migrating.isNone) do
      let L := field r.value 0 33
      match (s.core L).status with
      | .saved => refuseControl m r
      | .active => beginFreeze L
      | .frozen =>
        if ← freezeStep L false then
          unlinkEngines L
          each [Engine.mxe, .vxe, .cpe, .slu] (foldFlags L)
          chargeEnergy L
          if ← writeRecordAt L m ((← now).saveSlot m r.value) (bit r.value 49) then
            modCore L fun c => { c with status := .saved, saved := c.entries }
            finishControl m r .done
          else pure ()
        else pure ()
  | [] => pure ()

/-! Restore (R422, R425, R426). -/

/-- A word of a record. -/
abbrev RecordFn := Nat → Word

/-- The engine thread states of a record hold no reserved bit (R320, R422). -/
def recordOk (f : RecordFn) : Bool :=
  (List.range 16).all fun k => (List.range 4).all fun e =>
    saveWordsOk ((List.range 34).map fun i => f (0x1000 + 0x2000 * k + 0x300 + 0x110 * e + 8 * i))

/-- The scope of a code; code 7 names none, and is read as `thread`. -/
def scopeAt (n : Nat) : Scope :=
  match Scope.ofCode n with
  | .ok x => x
  | .error _ => .thread

def engineAt (i : Fin 4) : Engine := if i = 0 then .mxe else if i = 1 then .vxe else if i = 2 then .cpe else .slu

/-- The system registers of a record, written whole. -/
def restoreRegister (f : Nat → Word) (t : Thread) (i : Nat) : Thread :=
  let v := f i
  match recordRegisters.getD i 0 with
  | 0x000 => { t with status := legalStatus (BitVec.ofNat 17 (field v 4 13 * 2 ^ 4 + field v 0 2)) }
  | 0x012 => { t with trapcause := v.truncate 8 }
  | 0x013 => { t with trapval := v }
  | 0x023 => { t with pendb := v.truncate 32 }
  | n => sysWrite t n v

/-- What a restored command goes on with of its slot: what the thread has retired and is not performed, and the slot's starts. -/
abbrev SlotMarks := Fin 16 → List Nat × Nat

/-- A command image with V set, with the descriptors and the order that the core kept of it. -/
def commandOf (f : RecordFn) (off : Nat) (kept : List Cmd) (marks : SlotMarks) : Option Cmd :=
  let w := f off
  if !bit w 20 then none
  else
    let slot := Fin.ofNat 16 (field w 16 4)
    let x := f (off + 0x20)
    let old := kept.find? fun c => c.slot = slot && c.seq = BitVec.ofNat 32 x.toNat
    some {
      cmd := field w 0 7, slot := slot, a := f (off + 8), b := f (off + 16)
      rig := Vector.ofFn fun i => f (off + 0x40 + 8 * i.val)
      seg := (old.map fun c => c.seg).getD Seg.zero, seg2 := (old.map fun c => c.seg2).getD Seg.zero
      asid := BitVec.ofNat 16 (field x 32 16), acq := bit w 7, rel := bit w 8, scope := scopeAt (field w 9 3), sig := bit w 12
      sigaddr := BitVec.ofNat 61 ((f (off + 0x18)).toNat / 8), seq := BitVec.ofNat 32 x.toNat
      mxpromo := BitVec.ofNat 7 (field x 48 7), st := (old.map fun c => c.st).getD 0, earlier := (marks slot).1
      order := (old.map fun c => c.order).getD 0, gen := (old.map fun c => c.gen).getD (marks slot).2 }

/-- An F26 value as it is loaded (R304). -/
def loadF26 (x : Nat) : BitVec 26 :=
  let b := BitVec.ofNat 26 x
  if field b 17 8 = 0 then BitVec.ofNat 26 (x / 2 ^ 25 % 2 * 2 ^ 25)
  else if field b 17 8 = 255 && field b 0 17 ≠ 0 then 0x1FF0000
  else b

/-- A wide accumulator as it is loaded (R306). -/
def loadAcc (f : RecordFn) (i : Nat) : Acc :=
  let w (j : Nat) : Nat := (f (0x21000 + 48 * i + 8 * j)).toNat
  { w := signed 272 ((List.range 5).foldr (fun j n => w j + 2 ^ 64 * n) 0)
    nan := w 5 % 2 = 1
    run := loadF26 ((f (0x2D000 + 4 * i / 8 * 8)).toNat / 2 ^ (32 * (i % 2)) % 2 ^ 32) }

/-- The accumulators of a record that hold something. -/
def loadAccs (f : RecordFn) : Map Acc :=
  ((List.range 1024).map fun i => (i, loadAcc f i)).filter fun x => x.2 ≠ { w := 0, nan := false, run := 0 }

/-- A lane partial of `vx.red` from its 8 bytes: FP32 bits, or an integer, which is not negative for an unsigned type or for squares. -/
def lanePartial (g : VGeom) (v : Word) : Int :=
  if vtFloat g.xt || !IntTy.isSigned (vtIntTy g.xt) || g.fn = 3 then (v.toNat : Int) else v.toInt

/-- The progress that a control region holds (R431). What its fields have no place for is taken from what the core kept of the command, where
that stands at the same point: a lane partial of more than 64 bits, a `vx.quant` inside its block, the trits of `cp.tern` in a shared byte
(R360, R380, log 35). -/
def progressOf (f : RecordFn) (e : Engine) (off : Nat) (c : Cmd) (old : Option Prog) : Prog :=
  let p := Prog.start c.st
  let w := f (off + 0x140)
  let x := f (off + 0x148)
  if w = w64 (2 ^ 64 - 1) then { p with written := true }
  else match e with
    | .mxe =>
      let next := field w 16 16
      let p := { p with
        flags := BitVec.ofNat 5 (field w 1 4), w := field w 32 32, atElement := bit x 32, n := field x 16 16
        g := field x 33 16, acc := loadAccs f }
      if c.cmd ≤ 1 then { p with c := next, m := field x 0 16 } else { p with m := next }
    | .vxe =>
      let k := field w 32 32
      let same := old.filter fun o => o.m = field w 16 16 && o.vxPlace c.cmd = k
      let inside := same.any fun o => c.cmd = 8 && 2 ≤ o.n
      let lane (j : Nat) : Int :=
        let v := f (off + 0x200 + 8 * j)
        match same.bind fun o => o.lanes.getD j none with
        | some x => if wInt x = v then x else lanePartial (vGeom c.rig) v
        | none => lanePartial (vGeom c.rig) v
      { p with
        flags := BitVec.ofNat 5 (16 * (bit w 1).toNat), m := field w 16 16
        w := if inside then k / 32 else k, n := if inside then k % 32 + 1 else 0
        lanes := (List.range 32).map fun j => if j < k then some (lane j) else none }
    | .cpe =>
      let idx := (List.range 6).map fun i => (f (off + 0x148 + 8 * i)).toNat
      { p with
        sent := bit w 1, idx := idx, st := f (off + 0x178)
        c := match old with
          | some o => if c.cmd = 4 && o.idx = idx then o.c else 0
          | none => 0 }
    | .slu => { p with w := field w 32 32 }

/-- Offset of an engine's control region. -/
def controlOff (e : Engine) : Nat :=
  match e with
  | .mxe => 0x2E000
  | .vxe => 0x30000
  | .cpe => 0x31000
  | .slu => 0x32000

/-- Engine `e` of a restored core: its running command goes on, and its queue stands in order (R425). -/
def engineOf (f : RecordFn) (e : Engine) (old : EngineUnit) (marks : SlotMarks) : EngineUnit :=
  let kept := old.queue ++ (old.running.map fun x => x.1).toList
  let queued := (List.range 16).flatMap fun k => (List.range 2).filterMap fun j =>
    commandOf f (0x1000 + 0x2000 * k + 0x800 + 0x280 * e.code + 0x140 * j) kept marks
  let place (c : Cmd) : Nat := old.queue.findIdx fun d => d.slot = c.slot && d.seq = c.seq
  let put_ (c : Cmd) (xs : List Cmd) : List Cmd :=
    (xs.filter fun d => place d ≤ place c) ++ [c] ++ xs.filter fun d => place c < place d
  { queue := queued.foldl (fun xs c => put_ c xs) []
    running := (commandOf f (controlOff e) kept marks).map fun c =>
      (c, progressOf f e (controlOff e) c (old.running.bind fun (d, p) => if d.slot = c.slot && d.seq = c.seq then some p else none))
    wait := .none
    transferred := false
    reply := none
    spoiled := false }

/-- Where a restored slot stands (R425, R426): its arrived `bar` waits on, and then its footprint is fetched again; any other slot waits
for `PENDB` and for its footprint, and issues from a `CYCLE` on. -/
def resumed (t : Thread) (code : Nat) (bar : Option (Scope × Bool)) (refetch : Option (List Byte)) (cycle : Nat) : Thread :=
  let t := t.readyFrom cycle
  match code, bar with
  | 0, _ => { t with run := .idle }
  | 7, _ => { t with run := .halted }
  | _, some (x, released) => { t with run := .waiting (if released then .barReleased x else .barWait x), assigned := refetch }
  | _, none => { t with assigned := refetch }.goesOn cycle

/-- Launch entry `e` of a record: whether it is in use, its held starts, and the slots that run its threads (R428). -/
def entryAt (f : RecordFn) (e : Fin 16) : Option (BitVec 16 × BitVec 16) :=
  let w := f (0x80 + 8 * e.val)
  if bit w 32 then some (BitVec.ofNat 16 (field w 0 16), BitVec.ofNat 16 (field w 16 16)) else none

/-- A slot of a restored context (R425, R429). The entries of a queue came from the port's peer. The record has no field for a handler's
first fetch that was still to come (R28): the mark stays as the slot last had it (log 71). -/
def threadOf (f : RecordFn) (L : Nat) (k : Fin 16) (old : Thread) (lsinc : Bool) (buffer : List Byte) (cycle : Nat) : Thread :=
  let at_ (off : Nat) : Word := f (0x1000 + 0x2000 * k.val + off)
  let first := at_ 0
  let t : Thread := { old with
    s := Vector.ofFn fun i => at_ (0x10 + 8 * i.val)
    a := Vector.ofFn fun i => at_ (0x90 + 8 * i.val)
    seg := Vector.ofFn fun i => { base := at_ (0xD0 + 16 * i.val), word := BitVec.ofNat 47 (at_ (0xD8 + 16 * i.val)).toNat }
    pc := at_ 8 }
  let t := (List.range 25).foldl (restoreRegister fun i => at_ (0x150 + 8 * i)) t
  let from_ (p : Port) : Nat × Fin 16 := match peer L k p with
    | some (M, j, _) => (M, j)
    | none => (L, k)
  let counts := at_ 0x2E8
  let queue (i : Fin 6) : List (Word × Nat × Fin 16) :=
    (List.range (min 4 (field counts (3 * i.val) 3))).map fun e =>
      (at_ (0x228 + 32 * i.val + 8 * e), (from_ (Port.ofIndex i.val)).1, (from_ (Port.ofIndex i.val)).2)
  let pin := at_ 0x2F8
  let inService := bit first 4
  let t := { t with
    eng := Vector.ofFn fun i => loadSave (old.eng.get i) ((List.range 34).map fun j => at_ (0x300 + 0x110 * i.val + 8 * j))
    queues := Vector.ofFn queue
    credits := Vector.ofFn fun i => field (at_ 0x2F0) (3 * i.val) 3
    freedAt := 0
    deferred := if bit first 11 then some (BitVec.ofNat 8 (at_ 0x218).toNat, at_ 0x220) else none
    reservation := none
    inService := inService
    assigned := none
    entry := (List.finRange 16).find? fun e => (entryAt f e).any fun (_, running) => bit running k.val
    pin := if pin = 0 then none else some (field pin 32 32, field pin 0 32)
    fetched := 0 }
  let held := match old.run.bar with
    | some (_, released) => released
    | none => false
  let bar := if bit first 5 then some (scopeAt (field first 8 3), bit first 6 || held) else none
  resumed t (field first 0 4) bar (if pin ≠ 0 && !lsinc && inService then some buffer else none) cycle

/-- An entry of the home tables of a record, with the offset that it names (R432). -/
def homeEntryAt (f : RecordFn) (off : Nat) : Option (Nat × Fin 16 × Nat) :=
  let w := f off
  if bit w 39 then some (field w 0 33, Fin.ofNat 16 (field w 33 4), (f (off + 8)).toNat % 2 ^ 30) else none

/-- Wakes a thread if it waits on a word of a home. -/
def wakeAt (home L : Nat) (k : Fin 16) : Act s₀ Unit := do
  match ((← now).thread L k).run with
  | .waiting (.word h _ _) => when_ (h = home) (wake L k)
  | _ => pure ()

/-- The tables of a restored local store: every monitor entry and ticket holder is woken once, and every reservation is cleared
(R426, R432). -/
def restoreHome (C : Nat) (f : RecordFn) : Act s₀ Unit := do
  let old := (← now).home C
  let monitors := (List.range 64).filterMap fun i => homeEntryAt f (0x47000 + 16 * i)
  let binding (i : Nat) : Option Binding := (homeEntryAt f (0x47810 + 16 * i)).map fun (L, e, off) =>
    { word := (C * 2 ^ 30 + off) / 8, ga := w64 (C * 2 ^ 30 + off), core := L, entry := e }
  emit (.home C { old with
    monitors := [], reservations := []
    nextTicket := BitVec.ofNat 48 (f 0x47400).toNat, nowServing := BitVec.ofNat 48 (f 0x47408).toNat
    bindings := (List.range 64).filterMap binding })
  each monitors fun (L, k, _) => wakeAt C L k
  each old.tickets fun (_, L, k) => wakeAt C L k

/-- The full-empty bits and marks of a physical core's local store as a record gives them (R427). -/
def restoreBits (P : Nat) (f : RecordFn) : Act s₀ Unit := do
  let s ← now
  let key := lsKey P 0 / 8
  each (s.mem.empties.filter fun c => key ≤ c.1 && c.1 < key + 2 ^ 18) fun c => emit (.fe c.1 true)
  each (s.mem.poisons.filter fun c => key ≤ c.1 && c.1 < key + 2 ^ 18) fun c => emit (.poison c.1 false)
  each (List.range 4096) fun i => do
    let full := f (0x48000 + 8 * i)
    let bad := f (0x50000 + 8 * i)
    when_ (full ≠ w64 (2 ^ 64 - 1)) (each (List.range 64) fun j => when_ (!bit full j) (emit (.fe (key + 64 * i + j) false)))
    when_ (bad ≠ 0) (each (List.range 64) fun j => when_ (bit bad j) (emit (.poison (key + 64 * i + j) true)))

/-- The local store of a physical core after a restore (R426). -/
def restoreStore (P m a : Nat) (lsinc : Bool) (f : RecordFn) : Act s₀ Unit := do
  when_ lsinc do
    copyBytes (paKey m (a + 0x80000)) (lsKey P 0) 0x1F0000
    restoreBits P f
  copyBytes (paKey m (a + 0x37000)) (lsKey P 0x1F0000) 0x10000
  let s ← now
  let key := lsKey P 0x1F0000 / 8
  when_ (!lsinc) do
    each (s.mem.poisons.filter fun c => key ≤ c.1 && c.1 < key + 2 ^ 13) fun c => emit (.poison c.1 false)

/-- The image of a top-k list (R392). -/
def topkOf (f : RecordFn) (off : Nat) : TopK :=
  let h := f off
  { k := field h 9 9
    dir := bit h 18
    pairs := (List.range (min 256 (field h 0 9))).map fun i =>
      let w := f (off + 8 + 8 * i)
      (BitVec.ofNat 32 w.toNat, BitVec.ofNat 32 (w.toNat / 2 ^ 32)) }

/-- A launch with a packet, whose other values the record does not hold and the core has not kept: free ones, the parts of one free number
(log 12). -/
def freeLaunch (packet : List Byte) (n : Nat) : Launch where
  packet := packet
  mask := 0
  seg := Vector.ofFn fun i => { base := w64 (n / 2 ^ (128 * i.val)), word := BitVec.ofNat 47 (n / 2 ^ (128 * i.val + 64)) }
  asid := BitVec.ofNat 16 (n / 2 ^ 1024)
  trapvec := BitVec.ofNat 62 (n / 2 ^ 1040)
  enroll := BitVec.ofNat 6 (n / 2 ^ 1102)
  source := n / 2 ^ 1108

/-- The core's own fields from a record. Each launch entry comes back as the record has it; what a held start needs of its launch stands with
the core, as its entries or those of its last save have it (R428, log 12). -/
def coreOf (f : RecordFn) (old : Core) (cycle : Nat) (meter : Word) (marks : SlotMarks) (packet : Fin 16 → List Byte) (free : Nat) : Core :=
  let d := f 0x20
  let entry (e : Fin 16) : Option LaunchEntry := (entryAt f e).map fun (held, running) =>
    let x := ((old.entries.get e).or (old.saved.get e)).getD { order := e.val, held := 0, running := 0, launch := freeLaunch (packet e) free }
    { x with held := held, running := running }
  { old with
    status := .active
    mxgate := BitVec.ofNat 16 (f 0x30).toNat, mxgateAt := 0
    mse := [], starved := 0, split := none, poppers := [], steal := .off, gated := 0
    idleSince := Vector.replicate 4 cycle
    normal := { top := field d 0 8, count := field d 8 8 }
    urgent := { top := field d 16 8, count := field d 24 8 }
    entries := Vector.ofFn entry
    triggers := BitVec.ofNat 16 (f 0x28).toNat &&& ~~~old.unbound, unbound := 0
    engines := Vector.ofFn fun i => engineOf f (engineAt i) (old.engines.get i) marks
    topk := Vector.ofFn fun i => topkOf f (0x33000 + 0x1000 * i.val)
    energy := f 0x18
    meterBase := meter }

/-- A physical core takes in a context: it is not gated, and its instruction cache holds nothing (R131, R435, log 23). -/
def takeOver (P : Nat) : Act s₀ Unit := do
  let s ← now
  modPhys P fun p => { (if p.gated then { p with gated := false, waking := none, next := s.ctl.now } else p) with icache := [] }

/-- Loads a record into the physical core P for the context of C (R422, R425, R426). -/
def loadRecord (m a C P : Nat) (lsinc : Bool) (f : RecordFn) : Act s₀ Unit := do
  each (List.range (recordBytes lsinc / 128)) fun i => touch (paTarget m (a + 128 * i)) false
  restoreStore P m a lsinc f
  restoreHome C f
  let meter ← readMeter P
  let free ← freeValue
  let s ← now
  let cycle := (s.physCore P).cycle.toNat + 16
  emit (.core C (coreOf f (s.core C) cycle meter (fun k => (s.retiredBy C k, (s.thread C k).gen)) (fun e => s.packetAt C (launchEntryOff e)) free))
  each (List.finRange 16) fun k =>
    setThread C k (threadOf f C k (s.thread C k) lsinc (s.packetAt C (bufferOff k)) cycle)

/-- A restore that reaches its checks: it is refused, waits for its lines, or loads the record (R422). -/
def tryRestore (m : Nat) (r : FreezeReq) (L a : Nat) : Act s₀ Unit := do
  let s ← now
  let f : RecordFn := fun off => w64 (s.readPlace (.pa m (a + off)) 8)
  let bad (n : Nat) : Option Nat := (List.range (n / 8)).find? fun i => s.placePoison (.pa m (a + 8 * i))
  let refuse : Act s₀ Unit := do
    dropLines (.record L)
    refuseControl m r
  let poisoned (i : Nat) : Act s₀ Unit := do
    raiseEvent m (w64 r.core) 0x20 (w64 (s.cycle r.core)) (w64 (field r.value 52 12)) (w64 (a + 8 * i)) 0
    refuse
  let C := field (f 8) 0 33
  let lsinc := bit (f 0) 16
  match bad 16 with
  | some i => poisoned i
  | none =>
    if field (f 0) 0 16 ≠ 1 || moduleOf C ≠ m || (s.core C).status ≠ .saved || (L ≠ C && (s.core L).status ≠ .saved) then refuse
    else if ← recordLines L m a (recordBytes lsinc) then
      match bad (recordBytes lsinc) with
      | some i => poisoned i
      | none =>
        if !recordOk f then refuse
        else
          let P := s.physOf L
          let Q := s.physOf C
          dropLines (.record L)
          modModule m fun x => { x with table := if L = C then x.table else put (put x.table C P) L Q }
          takeOver P
          loadRecord m a C P lsinc f
          finishControl m r .done
    else pure ()

/-- The restore of a module's freeze controller, which reads the header first (R422). -/
def restoreStep (m : Nat) : Act s₀ Unit := do
  let s ← now
  let x := s.module m
  match x.freezeQueue with
  | r :: _ => when_ (field r.value 50 2 = 1 && x.migrating.isNone) do
      let L := field r.value 0 33
      let a := s.saveSlot m r.value
      if ← granted (.record L) false (s.physOf L) (paTarget m a) then tryRestore m r L a else pure ()
  | [] => pure ()

/-! Thermal migration (R433). -/

/-- Physical cores of a module that are free: the core of a saved context (R421). -/
def State.freeCores (s : State) (m : Nat) : List Nat :=
  (s.cores.filter fun (L, c) => c.status = .saved && moduleOf L = m).map fun (L, _) => s.physOf L

/-- Die-link hops between two dies (R446). -/
def dieHops (d e : Nat) : Nat := (max (d % 2) (e % 2) - min (d % 2) (e % 2)) + (max (d / 2) (e / 2) - min (d / 2) (e / 2))

/-- The free cores that a migration from a physical core may take: at least 15 degrees below the limit, on the nearest die that
has one (R433). -/
def State.coolCores (s : State) (m P : Nat) : List Nat :=
  let cool := (s.freeCores m).filter fun Q => (s.physCore Q).temp + 15 ≤ ((s.module m).halyard.tlimit : Int)
  let near := (cool.map fun Q => dieHops (dieOf P) (dieOf Q)).foldl min 8
  cool.filter fun Q => dieHops (dieOf P) (dieOf Q) = near

/-- No save of the module has begun. -/
def State.controllerFree (s : State) (m : Nat) : Bool :=
  (s.module m).migrating.isNone &&
  match (s.module m).freezeQueue with
  | r :: _ => field r.value 50 2 ≠ 0 || (s.core (field r.value 0 33)).status ≠ .frozen
  | [] => true

/-- A count of cycles carried from one core's counter to another's. -/
def carry (old new n : Nat) : Nat := if n ≤ old then new - (old - n) else new + (n - old)

/-- The slots of a migrated core: what is parked stays parked, and the rest issues again (R188, R433). -/
def movedThread (t : Thread) (old new : Nat) : Thread :=
  let t := { t with
    portWait := t.portWait.map fun (c, n) => (carry old new c, n)
    wordWait := t.wordWait.map fun (c, n) => (carry old new c, n)
    popEnded := t.popEnded.map (carry old new), freedAt := 0 }
  match t.run with
  | .ready => t.againFrom (new + 16)
  | .waiting .drain => t.goesOn (new + 16)
  | _ => t

/-- Entries and credits in flight to a migrated core are forwarded: they arrive later by what the new place adds to the latency (R170,
R177). `before` is the state before the exchange. -/
def forwardPorts (before : State) (L : Nat) : Act s₀ Unit := do
  let s ← now
  each s.ports fun (id, x) => when_ (x.core = L) do
    let more := s.portLatency x.fromCore L - before.portLatency x.fromCore L
    emit (.port id (some { x with due := x.due + s.nominal x.fromCore more }))

/-- Copies a context to a free physical core, exchanges the two logical cores and resumes (R433 steps 2 to 4, R438). -/
def moveContext (L Q : Nat) : Act s₀ Unit := do
  unlinkEngines L
  chargeEnergy L
  let s ← now
  let m := moduleOf L
  let P := s.physOf L
  let a := lsKey P 0
  let b := lsKey Q 0
  copyBytes a b (2 ^ 21)
  each (s.mem.empties.filter fun c => b / 8 ≤ c.1 && c.1 < b / 8 + 2 ^ 18) fun c => emit (.fe c.1 true)
  each (s.mem.empties.filter fun c => a / 8 ≤ c.1 && c.1 < a / 8 + 2 ^ 18) fun c => emit (.fe (c.1 - a / 8 + b / 8) false)
  each (s.mem.poisons.filter fun c => b / 8 ≤ c.1 && c.1 < b / 8 + 2 ^ 18) fun c => emit (.poison c.1 false)
  each (s.mem.poisons.filter fun c => a / 8 ≤ c.1 && c.1 < a / 8 + 2 ^ 18) fun c => emit (.poison (c.1 - a / 8 + b / 8) true)
  let other := (s.cores.find? fun (M, c) => c.status = .saved && moduleOf M = m && s.physOf M = Q).map fun x => x.1
  takeOver Q
  let old := s.cycle L
  let new := ((← now).physCore Q).cycle.toNat
  modModule m fun x => { x with
    migrating := none
    table := match other with
      | some M => put (put x.table L Q) M P
      | none => x.table }
  let meter ← readMeter Q
  modCore L fun c => { c with
    status := .active, meterBase := meter, starved := 0, mxgateAt := 0
    idleSince := c.idleSince.map (carry old new)
    steal := match c.steal with
      | .paused n => .paused (carry old new n)
      | x => x }
  forwardPorts s L
  each (List.finRange 16) fun k => do
    modThread L k fun t => movedThread t old new
    when_ ((← now).thread L k).woken (modCore L fun c => { c with mse := c.mse ++ [.reissue k] })

/-- Requests of a core have still to come out of the Shroud: what it sends from its new place would go by another input (R279, R292). -/
def State.inShroud (s : State) (L : Nat) : Bool :=
  s.reqs.any fun (_, r) => r.core = L && r.ofCore && r.target.isSome && (r.stage = .translated || r.stage = .merged)

/-- A core past its limit is migrated to a free core, or slowed with an event when none qualifies (R433, R487). -/
def migrationStep (L Q : Nat) : Act s₀ Unit := do
  let s ← now
  let m := moduleOf L
  let P := s.physOf L
  match (s.module m).migrating with
  | some (M, R) => when_ (M = L && R = Q) do
      if ← freezeStep L true then when_ (!(← now).inShroud L) (moveContext L Q) else pure ()
  | none =>
    let temp := (s.physCore P).temp
    when_ (((s.module m).halyard.tlimit : Int) < temp && (s.core L).status = .active && s.controllerFree m) do
      let cool := s.coolCores m P
      if cool.isEmpty then
        when_ (!(s.physCore P).hot) do
          modPhys P fun p => { p with hot := true, divider := 3 }
          raiseEvent m (w64 L) 0x21 (w64 (s.cycle L)) (wInt temp) 0 0
      else when_ (cool.contains Q) do
        modModule m fun x => { x with migrating := some (L, Q) }
        beginFreeze L

/-- The freeze controller saves a context. (R422 to R424, R427 to R432) -/
def execContextSave (module : Nat) (st : State) : Host.Outcome State Fault Refusal := act st (saveStep module)

/-- The freeze controller restores a context. (R422, R425, R426) -/
def execContextRestore (module : Nat) (st : State) : Host.Outcome State Fault Refusal := act st (restoreStep module)

/-- A hot core is migrated or slowed. (R433) -/
def execThermalMigration (core dest : Nat) (st : State) : Host.Outcome State Fault Refusal := act st (migrationStep core dest)

end Sys2Proof.Machine
end

