-- ==== Sys2Proof/Machine/Power.lean ====
section
/-! DEFINITION. Clock dividers, voltage rails and power gates (R433 to R436). A divider is held as its log2, so that a greater one is
slower; a rail's level is the log2 of the fastest divider that it serves. -/

namespace Sys2Proof.Machine

variable {s₀ : State}

/-- The level of a cluster's rail; at reset it serves divider 1. -/
def State.rail (s : State) (cluster : Nat) : Nat := (look (s.module (cluster / 512)).rails cluster).getD 0

/-- The divider that a physical core is to run at: 8 while it is too hot (R433). -/
def Phys.goal (p : Phys) : Fin 4 := if p.hot then 3 else p.wanted

/-- The level that a cluster needs for the dividers its cores are to run at (R436). -/
def State.needed (s : State) (cluster : Nat) : Nat :=
  ((List.range 16).map fun i => (s.physCore (16 * cluster + i)).goal.val).foldl min 3

/-- A nominal time that is counted in a core's cycles, once the core goes from one divider to another: the cycles that are left of it take as
long as the new divider says (R434). -/
def Phys.rescale (p : Phys) (old new : Fin 4) (due : Nat) : Nat :=
  if due ≤ p.next then due else p.next + ceilDiv (due - p.next) (2 ^ old.val) * 2 ^ new.val

/-- A core goes to the divider it is to run at: at once when that is slower or its rail serves it, else when the rail has risen
(R436). What it has sent to ports and the attempts that it repeats are counted in its cycles (R184, R434). -/
def applyDivider (P : Nat) : Act s₀ Unit := do
  let s ← now
  let p := s.physCore P
  when_ (p.divider ≠ p.goal && (p.divider ≤ p.goal || s.rail (P / 16) ≤ p.goal.val)) do
    modPhys P fun p => { p with divider := p.goal }
    each s.ports fun (id, m) => when_ (m.fromPhys = P) (emit (.port id (some { m with due := p.rescale p.divider p.goal m.due })))
    each s.reqs fun (id, r) => match r.stage with
      | .failed t => when_ (s.physOf r.core = P && r.target.any fun x => x.home < 2 ^ 40)
          (emit (.req id (some { r with stage := .failed (p.rescale p.divider p.goal t) })))
      | _ => pure ()

/-- A divider is asked for a core (R434). -/
def askDivider (P : Nat) (d : Fin 4) : Act s₀ Unit := do
  modPhys P fun p => { p with wanted := d }
  applyDivider P

/-- The rail of a cluster comes to the level that its cores need, and the dividers that waited take effect (R436). -/
def moveRail (cluster : Nat) : Act s₀ Unit := do
  let s ← now
  let level := s.needed cluster
  modModule (cluster / 512) fun x => { x with rails := put x.rails cluster level }
  each (List.range 16) fun i => when_ ((look s.phys (16 * cluster + i)).isSome) (applyDivider (16 * cluster + i))

/-- A slowed core has cooled (R433). -/
def endSlowdown (L : Nat) : Act s₀ Unit := do
  let s ← now
  let P := s.physOf L
  let p := s.physCore P
  when_ (p.hot && p.temp + 15 ≤ ((s.module (moduleOf L)).halyard.tlimit : Int)) do
    modPhys P fun p => { p with hot := false }
    applyDivider P

/-! Power gates (R435). -/

/-- The logical core that stands on a physical core (R151). -/
def State.logicalOf (s : State) (P : Nat) : Nat :=
  match (s.module (moduleOf P)).table.find? fun (_, Q) => Q = P with
  | some (L, _) => L
  | none => P

/-- A steal request to a core is on its way (R215). -/
def Steal.asks (x : Steal) (L : Nat) : Bool :=
  match x with
  | .asking _ _ _ v => v = L
  | _ => false

/-- A withdrawal to a home is on its way (R187). -/
def Thread.withdraws (t : Thread) (home : Nat) : Bool :=
  t.withdrawing && match t.run with
  | .waiting (.word h _ _) => h = home
  | _ => false

/-- Something addressed to a core is on its way (R435). -/
def State.arrives (s : State) (L : Nat) : Bool :=
  !(s.core L).mse.isEmpty || (s.reqs.any fun (_, r) =>
    match r.stage with
    | .sent | .queued | .held | .forwarded => !r.ownShared && (s.destination r = L || (!isShared r.ga && gaCore r.ga = L))
    | _ => false) ||
  (s.ports.any fun (_, m) => m.core = L) || (s.tasks.any fun (_, m) => m.target = L) || (s.cores.any fun (_, c) => c.steal.asks L) ||
  (s.threads.any fun (_, t) => t.withdraws L) ||
  s.floods.any fun (_, f) => s.inScope f.scope f.fromCore L && f.modules.contains (moduleOf L) && !f.reached.contains L

/-- The conditions of a power gate (R435). -/
def State.mayGate (s : State) (L : Nat) : Bool :=
  let c := s.core L
  (List.finRange 16).all (fun k => let t := s.thread L k; t.startable && t.pendb = 0) &&
  ([Engine.mxe, .vxe, .cpe, .slu].all fun e => (s.engine L e).queue.isEmpty && (s.engine L e).running.isNone) &&
  c.normal.count = 0 && c.urgent.count = 0 && (c.entries.toList.all fun e => e.isNone) && c.mse.isEmpty && c.heldTasks.isEmpty &&
  c.split.isNone && !(s.reqs.any fun (_, r) => r.core = L && r.ofCore) && !s.arrives L

/-- A gating request: the core goes off, or the request is refused (R435). -/
def gate (P : Nat) : Act s₀ Unit := do
  let s ← now
  let L := s.logicalOf P
  when_ ((s.core L).status = .saved || s.mayGate L) (modPhys P fun p => { p with gated := true, waking := none })

/-- An arrival wakes a gated core, which runs 1 microsecond later (R435). -/
def wakeGated (P : Nat) : Act s₀ Unit := do
  let s ← now
  let p := s.physCore P
  when_ p.gated do
    match p.waking with
    | none => when_ (s.arrives (s.logicalOf P)) (modPhys P fun p => { p with waking := some (s.ctl.now + 2000) })
    | some t => when_ (t ≤ s.ctl.now) (modPhys P fun p => { p with gated := false, waking := none, next := s.ctl.now })

/-- A slowed core leaves divider 8. (R433) -/
def execThermalSlowdownEnd (core : Nat) (st : State) : Host.Outcome State Fault Refusal := act st (endSlowdown core)

/-- A divider changes between two positions. (R434, R436) -/
def execDividerChange (phys : Nat) (log2 : Fin 4) (st : State) : Host.Outcome State Fault Refusal := act st (askDivider phys log2)

/-- A rail has risen, or is lowered. (R436) -/
def execRailRiseComplete (cluster : Nat) (st : State) : Host.Outcome State Fault Refusal := act st (moveRail cluster)

/-- A power gate is asked for. (R435) -/
def execPowerGate (phys : Nat) (st : State) : Host.Outcome State Fault Refusal := act st (gate phys)

/-- A gated core wakes. (R435) -/
def execPowerGateWake (phys : Nat) (st : State) : Host.Outcome State Fault Refusal := act st (wakeGated phys)

end Sys2Proof.Machine
end

