-- ==== Sys2Proof/Machine/Errors.lean ====
section
/-! DEFINITION. Errors in memory (R419), failed links (R455) and failed expanders (R472), with their events (R487). -/

namespace Sys2Proof.Machine

variable {s₀ : State}

/-- The LPDDR 6 channel of a physical address of window 0 (R270). -/
def channelOf (a : Nat) : Nat :=
  let l := lineOf a
  (l % 64 ^^^ l / 2 ^ 6 % 64) ^^^ (l / 2 ^ 12 % 64 ^^^ l / 2 ^ 18 % 64) ^^^ (l / 2 ^ 24 % 64 ^^^ l / 2 ^ 30 % 64)

/-- The units that may find an error in a word of memory (R270, R419, R487): the die of its slice, and the tier behind it. -/
def findersOf (a : Nat) : List Nat :=
  [0x100 + (sliceOf a true 0).1, if a / 2 ^ 41 = 0 then 0x230 + channelOf a else 0x220 + a / 2 ^ 41 - 1]

/-- The operation's answer carries data of the word. -/
def HomeOp.readsData (op : HomeOp) : Bool :=
  match op with
  | .load _ | .packet | .ldfe | .ldff | .lr | .cas _ _ | .amo _ _ => true
  | _ => false

/-- The operation carries data to the word. -/
def HomeOp.writesData (op : HomeOp) : Bool :=
  match op with
  | .store _ _ | .stef _ | .stsf _ | .sc _ | .cas _ _ | .amo _ _ => true
  | _ => false

/-- A request has still to reach its home. -/
def Stage.outward (x : Stage) : Bool :=
  match x with
  | .sent | .forwarded | .translated => true
  | _ => false

/-- A data beat of a message is spoiled (R419, R455): an answer is delivered as that of a poisoned word, data on their way are written
poisoned, a walker reads a poisoned entry, and a copy of a REP store writes a poisoned word. -/
def poisonBeat (id : Nat) : Act s₀ Unit := do
  let s ← now
  match look s.reqs id, look s.copies id with
  | some r, _ =>
    let word := w64 (r.ga.toNat / 8 * 8)
    let home := (r.target.map fun t => t.home).getD (gaCore r.ga)
    let spoil : Act s₀ Unit := emit (.req id (some { r with spoiled := true }))
    match r.op, r.stage with
    | .line (.walk d _ _ _), _ =>
      match r.target.bind fun t => t.place.physical with
      | some (m, a) => when_ (!r.spoiled && dieOfSlice home ≠ d) do
          spoil
          raiseEvent m (unitSource (0x100 + d % 8)) 0x11 (w64 s.ctl.now) (w64 (a / 8 * 8)) 0 0
      | none => pure ()
    | op, .performed (.val _) => when_ (r.awaited && op.readsData) do
        if ← spoilOn r.core word home false true then
          emit (.req id (some { r with stage := .performed (.trap Cause.dataPoison word) }))
        else pure ()
    | op, stage => when_ (stage.outward && op.writesData && !r.spoiled) do
        if ← spoilOn r.core word home true true then spoil else pure ()
  | none, some x => when_ (!x.poison) do
      emit (.copy id (some { x with poison := true }))
      raiseEvent x.module (unitSource (0x100 + x.die)) 0x11 (w64 s.ctl.now) (w64 x.addr) 0 0
  | none, none => pure ()

/-- An error that cannot be corrected marks its word, and a new mark is an event (R419); one of a beat that is still to cross a link does so
there. -/
def poisonPlace (p : ErrorPlace) : Act s₀ Unit := do
  let s ← now
  match p with
  | .beat id => poisonBeat id
  | .engine L e => do
    when_ (s.engine L e).running.isSome (modEngine L e fun u => { u with spoiled := true })
  | .fetch L k => do
    when_ ((s.thread L k).run = .waiting .fill || (s.thread L k).run = .waiting .footprint)
      (modThread L k fun t => { t with spoiled := true })
  | .localStore P off =>
    let key := lsKey P (off / 8 * 8) / 8
    let L := s.logicalOf P
    when_ (off < 2 ^ 21 && !s.mem.poisoned key) do
      emit (.poison key true)
      raiseEvent (moduleOf L) (w64 L) 0x11 (w64 (s.cycle L)) (w64 (L * 2 ^ 30 + off / 8 * 8)) 1 0
  | .memory m a =>
    let key := paKey m (a / 8 * 8) / 8
    when_ (a < 2 ^ 44 && m < s.nmod && !s.mem.poisoned key) do
      let n ← freeValue
      emit (.poison key true)
      raiseEvent m (unitSource ((findersOf a).getD (n % (findersOf a).length) 0)) 0x11 (w64 s.ctl.now) (w64 (a / 8 * 8)) 0 0

/-- A message from a module to an address travels over a link of a module (R450, R452). -/
def State.linkTo (s : State) (m : Nat) (x : Link) (S : Nat) (ga : Word) : Bool :=
  let D := gaModule ga
  D ≠ S && match x, s.pathOf S ga with
    | .plane p, .fabric => s.planeOf S D = p.val && (S = m || D = m)
    | .stay p, .stay0 => (S = m && p = 0) || (D = m && p = 1)
    | .stay p, .stay1 => (S = m && p = 1) || (D = m && p = 0)
    | _, _ => false

/-- A message, or the answer to one, is on its way over a link of a module. -/
def State.uses (s : State) (m : Nat) (x : Link) (r : Req) : Bool :=
  s.linkTo m x (moduleOf r.core) r.ga && match r.stage with
  | .sent | .performed _ => true
  | _ => false

/-- A message that a link has lost ends as R245 says for a module that does not exist: with that answer, or as a deferred error (R246, R455).
A launch's wake has none. -/
def loseMessage (id : Nat) (r : Req) : Act s₀ Unit :=
  emit (.req id (match r.op with
    | .wake _ => none
    | _ => some { r with stage := .performed (.trap Cause.pageFatal r.ga) }))

/-- Delivers an accepted message to its receiving core, or an answer to its core, or reports it lost (R455). Which is left open; one whose
receiving core is not resident is lost. Answers whether it is lost. -/
def settleMessage (id : Nat) (r : Req) : Act s₀ Bool := do
  let s ← now
  let R := s.destination r
  let n ← freeValue
  match r.stage with
  | .sent =>
    if n % 2 = 0 && s.reachable R then
      emit (.req id (some { r with stage := .queued, via := some R, arrived := if r.via.isNone then s.ctl.steps else r.arrived }))
      modCore R fun c => { c with mse := c.mse ++ [.remote id] }
      return false
    else
      loseMessage id r
      return true
  | _ =>
    when_ (n % 2 ≠ 0) (loseMessage id r)
    return n % 2 ≠ 0

/-- Settles the messages of a list in order, and counts those lost. -/
def settleMessages : List (Nat × Req) → Act s₀ Nat
  | [] => pure 0
  | (id, r) :: rest => do
    let lost ← settleMessage id r
    return lost.toNat + (← settleMessages rest)

/-- Settles an increment of a split: it is performed, or lost, and the split does not wait for it (R455). -/
def settleIncrement (id L : Nat) : Act s₀ Bool := do
  let n ← freeValue
  when_ (n % 2 = 0) (performIncrement id)
  if (look (← now).tasks id).isNone then return false
  else
    emit (.task id none)
    match ((← now).core L).split with
    | some x =>
      modCore L fun c => { c with split := some { x with left := x.left.erase id } }
      when_ (x.left.erase id).isEmpty (finishSplit L)
    | none => pure ()
    return true

/-- Settles the increments of a list that go over a link of a module, in order, and counts those lost. -/
def settleIncrements (m : Nat) (x : Link) : List (Nat × TaskMsg) → Act s₀ Nat
  | [] => pure 0
  | (id, .increment h L) :: rest => do
    let s ← now
    let lost ← if s.handleNamed h && s.linkTo m x (moduleOf L) h then settleIncrement id L else pure false
    return lost.toNat + (← settleIncrements m x rest)
  | _ :: rest => settleIncrements m x rest

/-- Settles a bulk transfer of an engine over a link of a module: it is left to be performed, or lost, which stops the command as `PAGE_FATAL`
does (R318, R454, R455). -/
def settleTransfer (m : Nat) (x : Link) (L : Nat) (e : Engine) : Act s₀ Nat := do
  let s ← now
  match (s.engine L e).wait with
  | .transfer ga =>
    if s.linkTo m x (moduleOf L) ga then
      let n ← freeValue
      when_ (n % 2 ≠ 0) (modEngine L e fun u => { u with
        wait := .none, running := u.running.map fun (c, p) => (c, { p with error := some (p.error.getD 3) }) })
      return n % 2
    else return 0
  | _ => return 0

/-- Settles the bulk transfers of the cores of a list, and counts those lost. -/
def settleTransfers (m : Nat) (x : Link) : List Nat → Act s₀ Nat
  | [] => pure 0
  | L :: rest => do
    let a ← settleTransfer m x L .mxe
    let b ← settleTransfer m x L .vxe
    let c ← settleTransfer m x L .cpe
    let d ← settleTransfer m x L .slu
    return a + b + c + d + (← settleTransfers m x rest)

/-- A plane or a Stay port of a module fails: what it has accepted is settled, and its pairs move (R455). What already stands at the receiving
core that a pair used is performed before what it sends to its new one. -/
def failLink (m : Nat) (x : Link) : Act s₀ Unit := do
  let s ← now
  let down := match x with
    | .plane p => bit (s.module m).planesDown p.val
    | .stay p => bit (s.module m).staysDown p.val
  when_ (!down && m < s.nmod) do
    let a ← settleMessages (s.reqs.filter fun (_, r) => s.uses m x r)
    let b ← settleIncrements m x s.tasks
    let c ← settleTransfers m x (s.cores.map fun (L, _) => L)
    let lost := a + b + c
    match x with
    | .plane p => do
      modModule m fun y => { y with planesDown := y.planesDown ||| (1#8 <<< p.val) }
      raiseEvent m (unitSource (0x200 + p.val)) 0x40 (w64 s.ctl.now) (w64 lost) 0 0
    | .stay p => do
      modModule m fun y => { y with staysDown := y.staysDown ||| (1#2 <<< p.val) }
      raiseEvent m (unitSource (0x210 + p.val)) 0x40 (w64 s.ctl.now) (w64 lost) 0 0

/-- A running expander fails: its words read as poisoned and writes to it are discarded (R472). -/
def failExpander (m : Nat) (x : Fin 6) : Act s₀ Unit := do
  let s ← now
  when_ (!bit (s.module m).failed (x.val + 1) && m < s.nmod) do
    modModule m fun y => { y with failed := y.failed ||| (1#7 <<< (x.val + 1)) }
    raiseEvent m (unitSource (0x220 + x.val)) 0x31 (w64 s.ctl.now) 0 0 0

/-- A word is poisoned. (R419) -/
def execUncorrectableError (place : ErrorPlace) (st : State) : Host.Outcome State Fault Refusal := act st (poisonPlace place)

/-- A link fails. (R455) -/
def execLinkFailure (module : Nat) (link : Link) (st : State) : Host.Outcome State Fault Refusal := act st (failLink module link)

/-- An expander fails. (R472) -/
def execCxlExpanderFailure (module : Nat) (port : Fin 6) (st : State) : Host.Outcome State Fault Refusal := act st (failExpander module port)

/-- A soft error is corrected and counted. (R419) -/
def execCorrectableError (module : Nat) (_place : ErrorPlace) (st : State) : Host.Outcome State Fault Refusal :=
  act st (modHalyard module fun h => { h with softErrors := h.softErrors + 1 })

end Sys2Proof.Machine
end

