-- ==== Sys2Proof/Machine/Halyard.lean ====
section
/-! DEFINITION. Halyard (R473 to R480): sensors and power, the event arbiter, Canvas's sandbox, module reset (R26), boot with its
measurements, and loss of power. -/

namespace Sys2Proof.Machine

variable {s₀ : State}

/-! Module reset (R26). -/

/-- The entries of a table whose numbers fail a condition. -/
def keep {α : Type} (p : Nat → Bool) (m : Map α) : Map α := m.filter fun x => p x.1

/-- What a module keeps through a reset: the flash, the fuses, the numbering of events (R474, R476, R480), the configuration of
its memory and links, and the events that the arbiter has not seen. -/
def Halyard.afterReset (h : Halyard) : Halyard :=
  { Halyard.reset with
    seqNum := h.seqNum, log := h.log, events := h.events, mast := h.mast, image := h.image, imageValid := h.imageValid
    vendorHash := h.vendorHash, fusedVersion := h.fusedVersion, secret := h.secret, certificate := h.certificate, heldInReset := h.heldInReset
    sample := h.sample, lastSample := h.lastSample, softErrors := h.softErrors, canvasRestarts := h.canvasRestarts }

def Module.afterReset (x : Module) (time : Nat) : Module :=
  { Module.reset with
    since := time, backed := x.backed, failed := x.failed, halyard := x.halyard.afterReset
    planesDown := x.planesDown, staysDown := x.staysDown, meters := x.meters, chargedToHalyard := x.chargedToHalyard }

/-- The group lies in a module (R147, R148). -/
def groupIn (m key : Nat) : Bool :=
  let n := key % 2 ^ 40
  match key / 2 ^ 40 with
  | 1 => n / 8192 = m
  | 2 => n / 512 = m
  | 3 => n / 8 = m
  | 4 => n = m
  | _ => false

/-- A home lies in a module. -/
def homeIn (m h : Nat) : Bool := if h < 2 ^ 40 then moduleOf h = m else (h - 2 ^ 40) / 1024 = m

/-- Deletes the listed entries of a table. -/
def clear {α : Type} (m : Map α) (p : Nat → Bool) (f : Nat → Op) : Act s₀ Unit := each m fun (k, _) => when_ (p k) (emit (f k))

/-- Threads of a module that are enrolled in a group of `ring` or `system` scope. -/
def State.enrolledIn (s : State) (m key : Nat) (scope : Scope) (i : Nat) : Nat :=
  s.threads.countP fun (k, t) =>
    moduleOf (k / 16) = m && !t.startable && bit t.enroll i && groupKey scope (s.groupOf scope (k / 16)) = key

/-- Enrolments and arrivals of a module's threads leave the groups that they share with other modules, whose episodes may then be complete
(R197). -/
def leaveGroups (m : Nat) : Act s₀ Unit := do
  let s ← now
  each s.groups fun (key, g) =>
    if groupIn m key then emit (.group key { e := 0, a := 0, waiting := [], last := 0 })
    else
      let (scope, i) := if key / 2 ^ 40 = Scope.code .ring then (Scope.ring, 4) else (Scope.system, 5)
      let left := s.enrolledIn m key scope i
      let gone := (g.waiting.filter fun (L, _) => moduleOf L = m).length
      when_ (left ≠ 0 || gone ≠ 0) do
        changeGroup scope key { g with
          e := g.e - left, a := g.a - gone, waiting := g.waiting.filter fun (L, _) => moduleOf L ≠ m }

/-- What other modules keep of a request when a module is reset. What the module itself sent is gone. What it had taken in and not performed
is lost, as R245 says for a module that does not exist, with what was combined into a request that is gone. -/
def afterModuleReset (m : Nat) (reqs : Map Req) (id : Nat) (r : Req) : Option Req :=
  let lost := some { r with stage := .performed (.trap Cause.pageFatal r.ga), combined := [] }
  let gone (q : Req) : Bool := moduleOf q.core = m
  if gone r then none
  else if reqs.any fun (_, q) => gone q && q.combined.any fun c => c.1 = id then lost
  else if gaModule r.ga ≠ m then some r
  else match r.op, r.stage with
    | _, .sent | _, .returned _ | _, .performed _ => some r
    | .line _, _ | .wake _, _ => none
    | _, .replying t => some { r with stage := .performed t, combined := [] }
    | _, _ => lost

/-- The lines of a network without some requests. -/
def without (gone : List Nat) (queues : Map (List Nat)) : Map (List Nat) :=
  (queues.map fun (k, ids) => (k, ids.filter fun id => !gone.contains id)).filter fun x => !x.2.isEmpty

/-- What other modules and the fabric hold for a module that is reset: its own messages end, and those that it had taken in and not
performed are lost. -/
def dropMessages (m : Nat) : Act s₀ Unit := do
  let s ← now
  let gone := s.reqs.filterMap fun (id, r) => if moduleOf r.core = m then some id else none
  each s.reqs fun (id, r) => emit (.req id (afterModuleReset m s.reqs id r))
  when_ (!gone.isEmpty) (each s.nets fun (d, n) =>
    emit (.net d { n with queues := without gone n.queues, replies := without gone n.replies }))
  each s.ports fun (id, x) => when_ (moduleOf x.core = m) (emit (.port id none))
  each s.tasks fun (id, x) => when_ (moduleOf x.target = m || homeIn m x.source) (emit (.task id none))
  each s.floods fun (id, x) =>
    if moduleOf x.fromCore = m then emit (.flood id none)
    else when_ (x.modules.contains m) do
      let cores := ((List.range 8192).map fun i => m * 8192 + i).filter fun L => s.inScope x.scope x.fromCore L && !x.reached.contains L
      emit (.flood id (some { x with reached := x.reached ++ cores }))
  each s.faults fun (id, x) => when_ (x.die / 8 = m || moduleOf x.core = m) (emit (.fault id none))
  each s.copies fun (id, x) => when_ (x.module = m) (emit (.copy id none))
  each s.replicas fun (k, _) => when_ (k * 8 / 2 ^ 44 / 8 = m) (emit (.replica k none))
  each s.reductions fun (id, x) =>
    let y := { x with
      got := if x.result.isNone then x.got.filter fun c => moduleOf c.core ≠ m else x.got
      pending := x.pending.filter fun L => moduleOf L ≠ m }
    emit (.reduction id (if y.got.isEmpty || (y.result.isSome && y.pending.isEmpty) then none else some y))

/-- A word, by its key, lies in a module: in a core's local store or in its physical memory. -/
def wordIn (m w : Nat) : Bool :=
  if 8 * w < 2 ^ 63 then 8 * w / 2 ^ 30 / 8192 = m else (8 * w - 2 ^ 63) / 2 ^ 44 = m

/-- Contexts, tables and tags of a module at their reset values, and every full-empty bit 1 (R13, R15, R23, R24, R26, R178, R382, R421).
The bytes of memory and their marks stand. -/
def resetContexts (m : Nat) : Act s₀ Unit := do
  let s ← now
  each s.threads fun (key, _) => when_ (moduleOf (key / 16) = m) (emit (.thread key Thread.reset))
  each s.cores fun (L, _) => when_ (moduleOf L = m) (emit (.core L (Core.reset L)))
  each s.phys fun (P, _) => when_ (moduleOf P = m) (emit (.phys P (Phys.reset s.ctl.now s.ctl.now)))
  each s.homes fun (h, _) => when_ (homeIn m h) (emit (.home h Home.reset))
  each s.slices fun (h, _) => when_ (homeIn m h) (emit (.slice h Slice.reset))
  each s.nets fun (d, _) => when_ (d / 8 = m) (emit (.net d Net.reset))
  clear s.mem.empties (wordIn m) fun w => .fe w true
  modModule m fun x => x.afterReset s.ctl.now

/-- A module reset (R26). -/
def resetModule (m : Nat) : Act s₀ Unit := do
  leaveGroups m
  dropMessages m
  resetContexts m

/-! Sensors and power (R473). -/

/-- The sum of the powers sampled in the last millisecond; their mean is this over their number. -/
def total (xs : List Nat) : Nat := xs.foldr (fun a b => a + b) 0

/-- The clusters of a module that a sample lists, hottest first. -/
def hottest (x : Sample) : List Nat :=
  let place (y : Nat × Int) : List (Nat × Int) → List (Nat × Int) :=
    fun ys => ys.filter (fun z => y.2 ≤ z.2) ++ [y] ++ ys.filter fun z => z.2 < y.2
  ((x.temps.foldl (fun ys y => place y ys) []).map fun y => y.1 / 16).eraseDups

/-- One divider step for every core of a cluster. -/
def stepCluster (cluster : Nat) (slower : Bool) : Act s₀ Unit :=
  each (List.range 16) fun i => do
    let d := ((← now).physCore (16 * cluster + i)).wanted
    askDivider (16 * cluster + i) (if slower then Fin.ofNat 4 (min 3 (d.val + 1)) else Fin.ofNat 4 (d.val - 1))

/-- The hottest cluster that can be slower, or a cluster that is slow. -/
def State.pickCluster (s : State) (x : Sample) (slower : Bool) : Option Nat :=
  (hottest x).find? fun c => (List.range 16).any fun i =>
    let d := (s.physCore (16 * c + i)).wanted.val
    if slower then d < 3 else 0 < d

/-- Power capping: at most one change in a millisecond (R473). -/
def capPower (m : Nat) (x : Sample) : Act s₀ Unit := do
  let s ← now
  let h := (s.module m).halyard
  let above := h.pcap * h.powers.length < total h.powers
  let low := 100 * total h.powers ≤ 95 * h.pcap * h.powers.length
  modHalyard m fun h => { h with lowSince := if low then some (h.lowSince.getD s.ctl.now) else none }
  let slack := match h.lowSince with
    | some t => low && t + 20000000 ≤ s.ctl.now
    | none => false
  when_ ((above || slack) && h.lastDivider + 2000000 ≤ s.ctl.now) do
    match s.pickCluster x above with
    | some c => do
      modHalyard m fun h => { h with lastDivider := s.ctl.now }
      stepCluster c above
    | none => pure ()

/-- The reasons to hold a module in reset (R473, R487). -/
def holdReasons (x : Sample) : Nat :=
  (x.temps.any fun y => 110 < y.2).toNat + 2 * (decide (45 < x.inlet)).toNat + 4 * (decide (100 ≤ x.noFlowMs)).toNat

/-- One sampling, 100 microseconds after the one before (R473); the energy charged to no cluster has grown by a free amount (R437). -/
def sampleSensors (m : Nat) (x : Sample) : Act s₀ Unit := do
  let s ← now
  let h := (s.module m).halyard
  when_ (h.lastSample + 200000 ≤ s.ctl.now && m < s.nmod) do
    let n ← freeValue
    modModule m fun x => { x with chargedToHalyard := x.chargedToHalyard + w64 n }
    modHalyard m fun h => { h with
      sample := some x, lastSample := s.ctl.now, powers := (x.power :: h.powers).take 10 }
    each x.temps fun (P, t) => when_ (moduleOf P = m) (modPhys P fun p => { p with temp := t })
    let why := holdReasons x
    if why ≠ 0 then
      when_ (!h.heldInReset) do
        resetModule m
        modHalyard m fun h => { h with heldInReset := true }
        raiseEvent m (unitSource 0) 0x51 (w64 s.ctl.now) (w64 why) 0 0
    else
      modHalyard m fun h => { h with heldInReset := false }
      capPower m x

/-! Events (R474, R475). -/

/-- The eight words of an entry. -/
def entryWords (seq : Word) (e : Event) : List Word := [seq, e.source, w64 e.code, e.stamp, e.d0, e.d1, e.d2, 0]

/-- Events that no earlier one of their source stands before. -/
def firstEvents : List Event → List Word → Nat → List Nat
  | [], _, _ => []
  | e :: rest, seen, i => (if seen.contains e.source then [] else [i]) ++ firstEvents rest (e.source :: seen) (i + 1)

/-- The arbiter numbers an event and writes it to the flash log and the ring (R474). -/
def enterEvent (m : Nat) : Act s₀ Unit := do
  let s ← now
  let h := (s.module m).halyard
  let heads := firstEvents h.events [] 0
  when_ (!heads.isEmpty) do
    let n ← freeValue
    let i := heads.getD (n % heads.length) 0
    match h.events[i]? with
    | none => pure ()
    | some e =>
      let ws := entryWords h.seqNum e
      modHalyard m fun h => { h with
        seqNum := h.seqNum + 1, log := (ws :: h.log).take 262144, events := h.events.eraseIdx i }
      when_ (e.code ≠ 0x51) do
        modWindow m fun w =>
          if w.evtail + 1 = w.evhead then { w with evlost := w.evlost + 1 }
          else { w with evring := put w.evring w.evtail.toNat ws, evtail := w.evtail + 1 }
        raiseHirq m 0

/-- A Canvas access outside its rights (R476, R487). -/
def refuseCanvas (m : Nat) (a : Word) : Act s₀ Unit := do
  let s ← now
  modHalyard m fun h => { h with canvasRestarts := h.canvasRestarts + 1 }
  raiseEvent m (unitSource 1) 0x50 (w64 s.ctl.now) a 0 0

/-! Boot (R477, R478). -/

/-- MEAS after an extend with data. -/
def extend_ (old data : List Byte) : List Byte := Config.shake256 (old ++ Config.shake256 data 64) 64

def measure (m : Nat) (i : Fin 8) (data : List Byte) : Act s₀ Unit :=
  modHalyard m fun h => { h with meas := vset h.meas i (extend_ (h.meas.get i) data) }

/-- The text "AIHUS-ID". -/
def idText : List Byte := [0x41, 0x49, 0x48, 0x55, 0x53, 0x2D, 0x49, 0x44]

/-- Writes zeros to a range of a module's memory. -/
def zeroRange (m a n : Nat) : Act s₀ Unit := do
  let s ← now
  let key := paKey m a
  each (s.mem.cells.filter fun c => key ≤ c.1 && c.1 < key + n) fun c => emit (.poke c.1 unreadByte)

def pokePa (m a : Nat) (v : Nat) : Act s₀ Unit := pokeBytes (paKey m a) (toBytes 8 v)

/-- SVCi as a configuration gives it: V and a logical core (R410, log 98). -/
def serviceField (config : List Byte) (i : Nat) : Nat :=
  let v := ofBytes ((config.drop (8 * i)).take 8)
  v % 2 ^ 33 + v / 2 ^ 63 % 2 * 2 ^ 63

/-- Mast's tables, system block and fabric block, which routing latches (R236, R410, R448, R477 step 6). -/
def writeTables (m : Nat) (x : BootInput) : Act s₀ Unit := do
  zeroRange m 0 0x82000
  zeroRange m 0x82000 0xC0
  each (List.range 16) fun i => pokePa m (0x82040 + 8 * i) (serviceField x.configBytes i)
  zeroRange m 0x82300 0x40
  pokePa m 0x82300 (x.modid % 2 ^ 20)
  pokePa m 0x82308 (x.nmod % 2 ^ 21)
  pokePa m 0x82310 (x.ringid % 2 ^ 20 + x.rlen % 2 ^ 7 * 2 ^ 20 + x.rpos % 2 ^ 6 * 2 ^ 27)
  let peer (p : Option Nat) : Nat := match p with
    | some n => 2 ^ 63 + n % 2 ^ 20
    | none => 0
  pokePa m 0x82318 (peer x.peer0)
  pokePa m 0x82320 (peer x.peer1)
  emit (.fabric m { nmod := x.nmod, ringid := x.ringid, rlen := x.rlen, rpos := x.rpos, peer0 := x.peer0, peer1 := x.peer1 })
  emit (.nmod x.nmod)

/-- Every full-empty bit is set and every mark cleared, in every tier (R477 step 7). -/
def fillBits (m : Nat) : Act s₀ Unit := do
  let s ← now
  clear s.mem.empties (wordIn m) fun w => .fe w true
  clear s.mem.poisons (wordIn m) fun w => .poison w false

/-- An expander of a number of bytes is brought up, of which 1/32 is kept for metadata (R262), or a device of another type is left untrained
with an event that names it (R472, R487). -/
def trainPort (m : Nat) (i : Nat) (d : CxlDevice) : Act s₀ Unit := do
  let s ← now
  let back (n : Nat) : Act s₀ Unit := modModule m fun x => { x with
    backed := x.backed.setIfInBounds (i + 1) n, failed := x.failed &&& ~~~(1#7 <<< (i + 1)) }
  match d with
  | .absent => back 0
  | .expander n => back (min (n - n / 32) (2 ^ 41))
  | .other t => do
    back 0
    raiseEvent m (unitSource (0x220 + i)) 0x30 (w64 s.ctl.now) (w64 t) 0 0

/-- Step 5: the CXL ports, the Stay ports and the fabric planes are trained (R455, R472, R477). -/
def trainLinks (m : Nat) (x : BootInput) : Act s₀ Unit := do
  each (x.expanders.take 6).zipIdx fun (d, i) => trainPort m i d
  modModule m fun y => { y with planesDown := x.planesDown, staysDown := x.staysDown }

/-- An image passes step 3: its key's hash is the fused one, its signature verifies, and its security version is not below the fused one
(R477). -/
def Halyard.accepts (h : Halyard) (image : List Byte) (verified : Bool) (version : BitVec 32) : Bool :=
  Config.keyHash image = h.vendorHash && verified && h.fusedVersion ≤ version

/-- The image in flash: its bytes, whether its signature verifies, and its versions. The shipped one is as the boot finds it (log 3). -/
def Halyard.flashed (h : Halyard) (x : BootInput) : List Byte × Bool × BitVec 32 × BitVec 32 :=
  if h.image.isEmpty then (x.imageBytes, x.imageOk, x.imageVersion, h.fusedVersion)
  else (h.image, Config.imageVerifies h.image, Config.imageVersions h.image)

/-- The image in flash passes step 3 (R477, R480). -/
def Halyard.imagePasses (h : Halyard) (x : BootInput) : Bool :=
  let (image, verified, _, version) := h.flashed x
  h.imageValid && h.accepts image verified version

/-- Mast's recovery loader runs (R477). -/
def recover (m : Nat) : Act s₀ Unit := modWindow m fun w => { w with recovery := true }

/-- The launch that Canvas makes at a core (R157, R477 step 9). -/
def bootLaunch (y : BootStart) : Launch where
  packet := y.packet
  mask := y.mask
  seg := Vector.ofFn fun i => match y.segs[i.val]? with
    | some d => { base := d.1, word := d.2 }
    | none => Seg.zero
  asid := y.asid
  trapvec := y.trapvec
  enroll := y.enroll
  source := y.core

/-- Canvas places its software in the module's memory and launches its threads, on cores of the module (R26, R477 step 9): each launch is
flooded at scope `core` and checked as `launch` checks it (log 99). -/
def startSoftware (m : Nat) (x : BootInput) : Act s₀ Unit := do
  each x.loads fun c => when_ (wordIn m (c.1 / 8)) do emit (.poke c.1 c.2)
  each x.starts fun y => when_ (moduleOf y.core = m && Packet.valid .launch y.packet && y.packet.length = 16 * hdrLen (Packet.word y.packet 0)) do
    sendFlood .core y.core none (bootLaunch y)

/-- A boot of a module after its reset (R477, R478). -/
def bootModule (m : Nat) (x : BootInput) : Act s₀ Unit := do
  let s ← now
  let w := (s.module m).window
  let h := (s.module m).halyard
  when_ (!w.isReady && !w.recovery && !h.heldInReset && x.modid = m && m < x.nmod && x.nmod ≤ 2 ^ 20) do
    measure m 0 h.mast
    modHalyard m fun h => { h with
      identitySeed := Config.shake256 (h.secret ++ idText ++ h.meas.get 0) 96, modidAtBoot := x.modid }
    if !h.imagePasses x then recover m
    else
      let (image, _, version, security) := h.flashed x
      measure m 1 image
      measure m 2 x.configBytes
      modHalyard m fun h => { h with fusedVersion := security }
      trainLinks m x
      if serviceField x.configBytes 0 < 2 ^ 63 then recover m
      else
        writeTables m x
        fillBits m
        startSoftware m x
        modWindow m fun w => { w with isReady := true, version := version }

/-- The power of a module is lost, and its memory with it; an image that is being written is left without its marker (R480). -/
def losePower (m : Nat) : Act s₀ Unit := do
  let s ← now
  when_ (m < s.nmod) do
    resetModule m
    let s ← now
    let inside (k : Nat) : Bool := if k < 2 ^ 63 then k / 2 ^ 30 / 8192 = m else (k - 2 ^ 63) / 2 ^ 44 = m
    clear s.mem.cells inside fun k => .poke k unreadByte
    fillBits m

/-- A sampling. (R473) -/
def execSensorSample (module : Nat) (sample : Sample) (st : State) : Host.Outcome State Fault Refusal := act st (sampleSensors module sample)

/-- An event is numbered and logged. (R474, R475) -/
def execEventEntry (module : Nat) (st : State) : Host.Outcome State Fault Refusal := act st (enterEvent module)

/-- A Canvas access is refused. (R476) -/
def execCanvasSandboxFault (module : Nat) (address : Word) (st : State) : Host.Outcome State Fault Refusal := act st (refuseCanvas module address)

/-- A module reset. (R26) -/
def execModuleReset (module : Nat) (st : State) : Host.Outcome State Fault Refusal := act st (resetModule module)

/-- A boot. (R477) -/
def execBoot (module : Nat) (input : BootInput) (st : State) : Host.Outcome State Fault Refusal := act st (bootModule module input)

/-- A loss of power. (R480) -/
def execPowerLoss (module : Nat) (st : State) : Host.Outcome State Fault Refusal := act st (losePower module)

end Sys2Proof.Machine
end

