-- ==== Sys2Proof/Machine/HostWindow.lean ====
section
/-! DEFINITION. The host's control window (R465 to R471), the mailbox commands, attestation (R479) and update (R480). -/

namespace Sys2Proof.Machine

variable {s₀ : State}

/-! The window's registers (R465, R466). -/

/-- A host write of ones clears interrupt bits. -/
def clearHirq (m : Nat) (v : Word) : Act s₀ Unit := modWindow m fun w => { w with hirq := w.hirq &&& ~~~(BitVec.ofNat 4 v.toNat) }

/-- A host write of the interrupt enables; a bit that becomes set beside its interrupt raises its vector. -/
def writeHien (m : Nat) (v : Word) : Act s₀ Unit :=
  modWindow m fun w =>
    let e := BitVec.ofNat 4 v.toNat
    { w with
      hien := e
      msix := w.msix ++ (List.finRange 4).filter fun b => bit w.hirq b.val && bit e b.val && !bit w.hien b.val }

/-- The one form of access that every register accepts: naturally aligned, of 8 bytes (R465). -/
def windowAccess (off size : Nat) : Bool := size = 8 && off % 8 = 0

/-- A host write to a register of the window without a row of its own (R465 to R467). -/
def writeWindow (m off size : Nat) (v : Word) : Act s₀ Unit := do
  let w := ((← now).module m).window
  when_ (windowAccess off size && m < (← now).nmod) do
    if 0x1000 ≤ off ∧ off < 0x1198 then
      if w.launchBusy then modWindow m fun w => { w with drop := true }
      else modWindow m fun w =>
        if off < 0x1100 then { w with lpkt := w.lpkt.setIfInBounds ((off - 0x1000) / 8) v }
        else if off < 0x1180 then { w with lseg := w.lseg.setIfInBounds ((off - 0x1100) / 8) v }
        else if off = 0x1180 then { w with lasid := BitVec.ofNat 16 v.toNat }
        else if off = 0x1188 then { w with ltvec := BitVec.ofNat 62 (v.toNat / 4) }
        else { w with lenrol := BitVec.ofNat 6 (v.toNat / 2) }
    else if 0x2000 ≤ off ∧ off < 0x3000 then
      modWindow m fun w => { w with mbreq := put w.mbreq ((off - 0x2000) / 8) v }
    else if off = 0x5000 then modWindow m fun w => { w with evhead := BitVec.ofNat 10 v.toNat }
    else pure ()

/-- What a host read at an aligned offset of the window gives; 0 where no register is named (R465, R466, R475). -/
def State.windowWord (s : State) (m off : Nat) : Word :=
  let w := (s.module m).window
  if off = 0x0000 then w64 (w.recovery.toNat + 2 * w.isReady.toNat + 2 ^ 32 * w.version.toNat)
  else if off = 0x0008 then w64 w.hirq.toNat
  else if off = 0x0010 then w64 w.hien.toNat
  else if 0x1000 ≤ off ∧ off < 0x1100 then w.lpkt.toList.getD ((off - 0x1000) / 8) 0
  else if 0x1100 ≤ off ∧ off < 0x1180 then w.lseg.toList.getD ((off - 0x1100) / 8) 0
  else if off = 0x1180 then w64 w.lasid.toNat
  else if off = 0x1188 then w64 (4 * w.ltvec.toNat)
  else if off = 0x1190 then w64 (2 * w.lenrol.toNat)
  else if off = 0x11A0 then w64 (w.launchBusy.toNat + 2 * w.rej.toNat + 4 * w.drop.toNat)
  else if 0x2000 ≤ off ∧ off < 0x3000 then (look w.mbreq ((off - 0x2000) / 8)).getD 0
  else if 0x3000 ≤ off ∧ off < 0x4000 then w64 (ofBytes ((w.mbrep.drop (off - 0x3000)).take 8))
  else if off = 0x4008 then w64 (w.mbBusy.toNat + 2 ^ 8 * w.mbStatus.toNat + 2 ^ 32 * w.mbLen)
  else if off = 0x5000 then w64 w.evhead.toNat
  else if off = 0x5008 then w64 w.evtail.toNat
  else if off = 0x5010 then w.evlost
  else if off = 0x5018 then w.fqmir
  else if 0x8000 ≤ off ∧ off < 0x18000 then ((look w.evring ((off - 0x8000) / 64)).getD []).getD (off / 8 % 8) 0
  else 0

/-- What a host read gives, or none for Unsupported Request (R465). -/
def State.windowValue (s : State) (m off size : Nat) : Option Word := if windowAccess off size then some (s.windowWord m off) else none

/-! The launch doorbell (R467, R468). -/

/-- A descriptor of the window is one that `segld` would take (R249). -/
def hostSegOk (base w : Word) : Bool :=
  field w 47 17 = 0 && field w 45 2 < 2 && (field w 45 2 = 0 || (!bit base 63 && base.toNat % 8 = 0))

/-- The launch that the window and a doorbell value ask for; none where a field is out of range. -/
def Window.launch (w : Window) (v : Word) (source : Nat) : Option (Scope × Launch) :=
  let all := w.lpkt.toList.flatMap fun x => toBytes 8 x.toNat
  let p : Packet := all.take (16 * hdrLen (w.lpkt.get 0).toNat)
  let base (i : Fin 8) : Word := w.lseg.toList.getD (2 * i.val) 0
  let word (i : Fin 8) : Word := w.lseg.toList.getD (2 * i.val + 1) 0
  let scope := scopeAt (field v 0 3)
  if scope = .thread || !headerValid .launch (w.lpkt.get 0).toNat (w.lpkt.get 1).toNat || !p.valid .launch ||
      !(List.finRange 8).all fun i => hostSegOk (base i) (word i) then none
  else
    some (scope, {
      packet := p, mask := BitVec.ofNat 16 (field v 16 16)
      seg := Vector.ofFn fun i => { base := base i, word := BitVec.ofNat 47 (word i).toNat }
      asid := w.lasid, trapvec := w.ltvec, enroll := w.lenrol, source := source })

/-- A write to `LDOOR` (R467). `BUSY` returns to 0 when the wake has left service core 0. -/
def ringDoor (m : Nat) (v : Word) : Act s₀ Unit := do
  let s ← now
  let w := (s.module m).window
  when_ (m < s.nmod) do
    if w.launchBusy then modWindow m fun w => { w with drop := true }
    else
      let reject : Act s₀ Unit := do
        modWindow m fun w => { w with rej := true }
        raiseHirq m 2
      match s.service m 0 with
      | none => reject
      | some L =>
        match w.launch v L with
        | none => reject
        | some (scope, x) =>
          modWindow m fun w => { w with launchBusy := true, launching := some s.ctl.nextId }
          sendFlood scope L none x

/-! The mailbox (R469, R470). -/

/-- A word of the request. -/
def Window.request (w : Window) (i : Nat) : Word := (look w.mbreq i).getD 0

def Window.command (w : Window) : Nat := field (w.request 0) 0 16
def Window.bodyLength (w : Window) : Nat := field (w.request 0) 32 16

/-- Bytes of the request's body. -/
def Window.body (w : Window) : List Byte :=
  ((List.range 510).flatMap fun i => toBytes 8 (w.request (i + 2)).toNat).take w.bodyLength

def mailboxCodes : List Nat := [0x0001, 0x0002, 0x0010, 0x0011, 0x0012, 0x0020, 0x0030, 0x0031, 0x0040, 0x0041]

/-- Posts a reply: its header with the tag, its body, the status; `BUSY` ends, and the host is told (R466, R469). -/
def postReply (m : Nat) (tag : Word) (body : List Byte) (status : Byte) : Act s₀ Unit := do
  modWindow m fun w => { w with
    mbrep := toBytes 8 (w.command + 2 ^ 32 * body.length) ++ toBytes 8 tag.toNat ++ body
    mbStatus := status, mbLen := body.length, mbBusy := false, mbDone := 0, mbBad := [] }
  raiseHirq m 1

/-- Posts the reply of the request in service. -/
def reply (m : Nat) (body : List Byte) (status : Byte) : Act s₀ Unit := do
  postReply m (((← now).module m).window.request 1) body status

/-- A write to `MBDOOR` (R469). -/
def submit (m : Nat) : Act s₀ Unit := do
  let s ← now
  let w := (s.module m).window
  when_ (m < s.nmod && !w.mbBusy) do
    modWindow m fun w => { w with mbBusy := true, mbDone := 0, mbBad := [] }
    when_ (!mailboxCodes.contains w.command) (reply m [] 0x01)

/-- The command of a code is in service. -/
def State.serves (s : State) (m code : Nat) : Bool :=
  let w := (s.module m).window
  w.mbBusy && w.command = code && m < s.nmod

/-- Serves a command of Canvas, or one of Mast's that recovery refuses (R470, R480). -/
def serve (m code : Nat) (f : Window → Act s₀ Unit) : Act s₀ Unit := do
  let s ← now
  let w := (s.module m).window
  when_ (s.serves m code) (if w.recovery then reply m [] 0x03 else f w)

/-- A range of bytes lies in the tables of R236. -/
def inTables (a n : Nat) : Bool := a < 0x82000 && 0 < n

/-- A range lies in the staging area (R237). -/
def inStaging (a n : Nat) : Bool := 0x100000000 ≤ a && a + n ≤ 0x110000000

/-- The bytes of one word from a position of a range to its end or the word's. -/
def pieceLength (a n done : Nat) : Nat := min (n - done) (8 - (a + done) % 8)

/-- MEMRD: one word a step, at its home, once the line is there (R267, R470, R471). -/
def memoryRead (m : Nat) (w : Window) : Act s₀ Unit := do
  let a := (w.request 2).toNat
  let n := (w.request 3).toNat
  if w.bodyLength ≠ 16 || n = 0 || 4032 < n || 2 ^ 44 < a + n then reply m [] 0x02
  else if inTables a n then reply m [] 0x03
  else
    let k := pieceLength a n w.mbDone
    let at_ := a + w.mbDone
    if ← useLine m at_ false then
      let s ← now
      let word := at_ / 8 * 8
      let bad := s.placePoison (.pa m at_)
      let bytes := if bad then List.replicate k 0 else toBytes k (s.readPlace (.pa m at_) k)
      let got := (if w.mbDone = 0 then [] else w.mbrep) ++ bytes
      let marks := if bad then w.mbBad ++ [word] else w.mbBad
      if w.mbDone + k < n then modWindow m fun w => { w with mbDone := w.mbDone + k, mbBad := marks, mbrep := got }
      else if marks.isEmpty then reply m got 0
      else reply m (got ++ toBytes 8 marks.length ++ (marks.take 5).flatMap (toBytes 8)) 0x04
    else pure ()

/-- MEMWR: one word a step, at its home, once the line is there (R267, R470, R471). -/
def memoryWrite (m : Nat) (w : Window) : Act s₀ Unit := do
  let a := (w.request 2).toNat
  let n := w.bodyLength - 8
  if w.bodyLength < 9 || 4024 < w.bodyLength || 2 ^ 44 < a + n then reply m [] 0x02
  else if inTables a n || (w.recovery && !inStaging a n) then reply m [] 0x03
  else
    let k := pieceLength a n w.mbDone
    let at_ := a + w.mbDone
    if ← useLine m at_ true then
      writeData 0 0 (paTarget m at_) k (ofBytes ((w.body.drop (8 + w.mbDone)).take k))
      if w.mbDone + k < n then modWindow m fun w => { w with mbDone := w.mbDone + k } else reply m [] 0
    else pure ()

/-- PCAP (R470). -/
def setPowerCap (m : Nat) (w : Window) : Act s₀ Unit := do
  let v := (w.request 2).toNat
  if w.bodyLength ≠ 8 || v < 1200 || 2400 < v then reply m [] 0x02
  else
    modHalyard m fun h => { h with pcap := v }
    reply m [] 0

/-- TLIMIT (R433, R470). -/
def setLimit (m : Nat) (w : Window) : Act s₀ Unit := do
  let v := (w.request 2).toNat
  if w.bodyLength ≠ 8 || v < 70 || 105 < v then reply m [] 0x02
  else
    modHalyard m fun h => { h with tlimit := v }
    reply m [] 0

/-- The report of R479. -/
def Halyard.reportFor (h : Halyard) (version : BitVec 32) (nonce : List Byte) : List Byte :=
  let text := nonce ++ h.meas.toList.flatten ++ toBytes 8 version.toNat ++ toBytes 8 h.fusedVersion.toNat ++ toBytes 8 h.modidAtBoot
  text ++ (Config.sign h.identitySeed text).take 49856

/-- The 13 parts of a report. -/
def reportParts (r : List Byte) : List (List Byte) := (List.range 13).map fun i => (r.drop (4080 * i)).take 4080

/-- ATTEST: a new report, whose first part is the reply; then each further part, once the host has read the reply before it, which it says
by clearing `HIRQ` bit 1 (R479, log 96). -/
def attestReport (m : Nat) : Act s₀ Unit := do
  let s ← now
  let w := (s.module m).window
  let h := (s.module m).halyard
  if s.serves m 0x30 then
    if w.bodyLength ≠ 32 then reply m [] 0x02
    else
      let parts := reportParts (h.reportFor w.version w.body)
      modHalyard m fun h => { h with report := parts.tail }
      postReply m 0 (parts.headD []) 0
  else match h.report with
    | part :: rest => when_ (!w.mbBusy && !bit w.hirq 1) do
        modHalyard m fun h => { h with report := rest }
        postReply m (w64 (12 - rest.length)) part 0
    | [] => pure ()

/-- A command without a body, which is malformed with one (R470, log 46). -/
def bare (m : Nat) (w : Window) (f : Act s₀ Unit) : Act s₀ Unit := if w.bodyLength = 0 then f else reply m [] 0x02

/-- SENSE (R470, R473). -/
def sendSensors (m : Nat) (w : Window) : Act s₀ Unit := do
  let s ← now
  bare m w (reply m ((Config.senseReply (s.module m).halyard.sample).take 4080) 0)

/-- The entries of the flash log with the sequence numbers asked for, in that order, as far as a reply holds them (R470, R474, R475). -/
def Halyard.entries (h : Halyard) (asked : List Word) : List Byte :=
  let found := asked.filterMap fun n => h.log.find? fun ws => ws.head? = some n
  (found.take 63).flatMap fun ws => ws.flatMap fun v => toBytes 8 v.toNat

/-- EVLOG (R470). -/
def sendLog (m : Nat) (w : Window) : Act s₀ Unit := do
  let s ← now
  match Config.evlogAsked w.body with
  | some asked => reply m ((s.module m).halyard.entries asked) 0
  | none => reply m [] 0x02

/-- IDCERT (R470, R478). -/
def sendCertificate (m : Nat) (w : Window) : Act s₀ Unit := do
  let s ← now
  bare m w (reply m ((s.module m).halyard.certificate.take 4080) 0)

/-- The bytes that the copy of a staged image is to have, from what it has of it (R237, R480). -/
def copyLength (a : Nat) (copy : List Byte) : Nat :=
  min (0x110000000 - a) (if copy.length < 4096 then 4096 else Config.imageLength (copy.take 4096))

/-- UPDATE: Mast copies the staged image, one word a step, once its line is there; verifies its copy as boot step 3 does; and erases the
marker before it is written; or an image that was being written is whole, and its marker is written (R480). R237 lets Mast overwrite any byte
of the staging area meanwhile; here it overwrites none (log 72). -/
def updateImage (m : Nat) : Act s₀ Unit := do
  let s ← now
  let w := (s.module m).window
  let h := (s.module m).halyard
  if s.serves m 0x40 then
    let a := (w.request 2).toNat
    let copy := if w.mbDone = 0 then [] else h.staged
    let size := copyLength a copy
    if w.bodyLength ≠ 8 || !inStaging a 1 then reply m [] 0x02
    else if h.writing.isSome then reply m [] 0x03
    else if copy.length < size then
      if ← useLine m (a + copy.length) false then
        let n := min (pieceLength a size copy.length) (size - copy.length)
        modHalyard m fun h => { h with staged := copy ++ s.bytesAt (paKey m (a + copy.length)) n }
        modWindow m fun w => { w with mbDone := copy.length + n }
      else pure ()
    else
      let image := copy.take size
      modHalyard m fun h => { h with staged := [] }
      if h.accepts image (Config.imageVerifies image) (Config.imageVersions image).2 then
        modHalyard m fun h => { h with imageValid := false, writing := some image }
        reply m [] 0
      else reply m [] 0x05
  else match h.writing with
    | some image => modHalyard m fun h => { h with image := image, imageValid := true, writing := none }
    | none => pure ()

/-- A write to `LDOOR`. (R467, R468) -/
def execLdoor (module : Nat) (value : Word) (st : State) : Host.Outcome State Fault Refusal := act st (ringDoor module value)

/-- A write to `HIRQ`. (R466) -/
def execHirq (module : Nat) (value : Word) (st : State) : Host.Outcome State Fault Refusal := act st (clearHirq module value)

/-- A write to `HIEN`. (R466) -/
def execHien (module : Nat) (value : Word) (st : State) : Host.Outcome State Fault Refusal := act st (writeHien module value)

/-- A read of `LSTAT` clears REJ and DROP. (R466) -/
def execLstat (module : Nat) (st : State) : Host.Outcome State Fault Refusal :=
  act st (modWindow module fun w => { w with rej := false, drop := false })

/-- A read of `EVLOST` clears it. (R466) -/
def execEvlost (module : Nat) (st : State) : Host.Outcome State Fault Refusal := act st (modWindow module fun w => { w with evlost := 0 })

/-- A write to another register. (R465, R466) -/
def execHostRegisterWrite (module : Nat) (access : HostAccess) (value : Word) (st : State) : Host.Outcome State Fault Refusal :=
  act st (writeWindow module access.offset access.size value)

/-- MEMRD. (R470, R471) -/
def execMemrd (module : Nat) (st : State) : Host.Outcome State Fault Refusal := act st (serve module 0x01 (memoryRead module))

/-- MEMWR, which Mast serves in recovery. (R470, R471, R480) -/
def execMemwr (module : Nat) (st : State) : Host.Outcome State Fault Refusal :=
  act st (when_ (st.serves module 0x02) (memoryWrite module (st.module module).window))

/-- SENSE. (R470, R473) -/
def execSense (module : Nat) (st : State) : Host.Outcome State Fault Refusal :=
  act st (serve module 0x10 (sendSensors module))

/-- PCAP. (R470) -/
def execPcap (module : Nat) (st : State) : Host.Outcome State Fault Refusal := act st (serve module 0x11 (setPowerCap module))

/-- TLIMIT. (R470) -/
def execTlimit (module : Nat) (st : State) : Host.Outcome State Fault Refusal := act st (serve module 0x12 (setLimit module))

/-- EVLOG. (R470) -/
def execEvlog (module : Nat) (st : State) : Host.Outcome State Fault Refusal :=
  act st (serve module 0x20 (sendLog module))

/-- ATTEST, or a further part of its report. (R479) -/
def execAttest (module : Nat) (st : State) : Host.Outcome State Fault Refusal := act st (attestReport module)

/-- IDCERT. (R470) -/
def execIdcert (module : Nat) (st : State) : Host.Outcome State Fault Refusal := act st (serve module 0x31 (sendCertificate module))

/-- UPDATE, or the end of its write. (R480) -/
def execUpdate (module : Nat) (st : State) : Host.Outcome State Fault Refusal := act st (updateImage module)

/-- RESET. (R470) -/
def execReset (module : Nat) (st : State) : Host.Outcome State Fault Refusal := act st (when_ (st.serves module 0x41) (bare module (st.module module).window (resetModule module)))

/-- A write to `MBDOOR`. (R469, R470) -/
def execMbdoor (module : Nat) (_value : Word) (st : State) : Host.Outcome State Fault Refusal := act st (submit module)

end Sys2Proof.Machine
end

