-- ==== Sys2Proof/Machine/Dispatch.lean ====
section
/-! DEFINITION. The meaning of every row of the opcode table: one arm for each constructor. -/

namespace Sys2Proof.Machine

/-- The outcome of an instruction, or of a hardware event, in a state. -/
def exec (i : Instr) (s : State) : Host.Outcome State Fault Refusal :=
  match i with
  | .add d a b => Sys2Proof.Machine.execAdd d a b s
  | .sub d a b => Sys2Proof.Machine.execSub d a b s
  | .and d a b => Sys2Proof.Machine.execAnd d a b s
  | .or d a b => Sys2Proof.Machine.execOr d a b s
  | .xor d a b => Sys2Proof.Machine.execXor d a b s
  | .andn d a b => Sys2Proof.Machine.execAndn d a b s
  | .shl d a b => Sys2Proof.Machine.execShl d a b s
  | .shr d a b => Sys2Proof.Machine.execShr d a b s
  | .sar d a b => Sys2Proof.Machine.execSar d a b s
  | .rot d a b => Sys2Proof.Machine.execRot d a b s
  | .min d a b => Sys2Proof.Machine.execMin d a b s
  | .max d a b => Sys2Proof.Machine.execMax d a b s
  | .minn d a b => Sys2Proof.Machine.execMinn d a b s
  | .maxn d a b => Sys2Proof.Machine.execMaxn d a b s
  | .slt d a b => Sys2Proof.Machine.execSlt d a b s
  | .sltn d a b => Sys2Proof.Machine.execSltn d a b s
  | .seq d a b => Sys2Proof.Machine.execSeq d a b s
  | .mul d a b => Sys2Proof.Machine.execMul d a b s
  | .mulh d a b => Sys2Proof.Machine.execMulh d a b s
  | .mulhn d a b => Sys2Proof.Machine.execMulhn d a b s
  | .div d a b => Sys2Proof.Machine.execDiv d a b s
  | .divn d a b => Sys2Proof.Machine.execDivn d a b s
  | .rem d a b => Sys2Proof.Machine.execRem d a b s
  | .remn d a b => Sys2Proof.Machine.execRemn d a b s
  | .clz d a => Sys2Proof.Machine.execClz d a s
  | .ctz d a => Sys2Proof.Machine.execCtz d a s
  | .popc d a => Sys2Proof.Machine.execPopc d a s
  | .bswapH d a => Sys2Proof.Machine.execBswapH d a s
  | .bswapS d a => Sys2Proof.Machine.execBswapS d a s
  | .bswapW d a => Sys2Proof.Machine.execBswapW d a s
  | .sextB d a => Sys2Proof.Machine.execSextB d a s
  | .sextH d a => Sys2Proof.Machine.execSextH d a s
  | .sextS d a => Sys2Proof.Machine.execSextS d a s
  | .zextB d a => Sys2Proof.Machine.execZextB d a s
  | .zextH d a => Sys2Proof.Machine.execZextH d a s
  | .zextS d a => Sys2Proof.Machine.execZextS d a s
  | .sel d a b c => Sys2Proof.Machine.execSel d a b c s
  | .addi d a imm => Sys2Proof.Machine.execAddi d a imm s
  | .andi d a imm => Sys2Proof.Machine.execAndi d a imm s
  | .ori d a imm => Sys2Proof.Machine.execOri d a imm s
  | .xori d a imm => Sys2Proof.Machine.execXori d a imm s
  | .slti d a imm => Sys2Proof.Machine.execSlti d a imm s
  | .shli d a n => Sys2Proof.Machine.execShli d a n s
  | .shri d a n => Sys2Proof.Machine.execShri d a n s
  | .sari d a n => Sys2Proof.Machine.execSari d a n s
  | .roti d a n => Sys2Proof.Machine.execRoti d a n s
  | .bfx d a pos len1 => Sys2Proof.Machine.execBfx d a pos len1 s
  | .bfxs d a pos len1 => Sys2Proof.Machine.execBfxs d a pos len1 s
  | .bfi d a pos len1 => Sys2Proof.Machine.execBfi d a pos len1 s
  | .li d imm => Sys2Proof.Machine.execLi d imm s
  | .lhi d imm => Sys2Proof.Machine.execLhi d imm s
  | .fadd d a b f rm => Sys2Proof.Machine.execFadd d a b f rm s
  | .fsub d a b f rm => Sys2Proof.Machine.execFsub d a b f rm s
  | .fmul d a b f rm => Sys2Proof.Machine.execFmul d a b f rm s
  | .fdiv d a b f rm => Sys2Proof.Machine.execFdiv d a b f rm s
  | .fmin d a b f => Sys2Proof.Machine.execFmin d a b f s
  | .fmax d a b f => Sys2Proof.Machine.execFmax d a b f s
  | .feq d a b f => Sys2Proof.Machine.execFeq d a b f s
  | .flt d a b f => Sys2Proof.Machine.execFlt d a b f s
  | .fle d a b f => Sys2Proof.Machine.execFle d a b f s
  | .fsgn d a b f => Sys2Proof.Machine.execFsgn d a b f s
  | .fsqrt d a f rm => Sys2Proof.Machine.execFsqrt d a f rm s
  | .fclass d a f => Sys2Proof.Machine.execFclass d a f s
  | .fround d a f rm => Sys2Proof.Machine.execFround d a f rm s
  | .fma d a b c f rm => Sys2Proof.Machine.execFma d a b c f rm s
  | .fnma d a b c f rm => Sys2Proof.Machine.execFnma d a b c f rm s
  | .fcvt d a dt st rm => Sys2Proof.Machine.execFcvt d a dt st rm s
  | .ld d k sz mod disp => Sys2Proof.Machine.execLd d k sz mod disp s
  | .ldn d k sz mod disp => Sys2Proof.Machine.execLdn d k sz mod disp s
  | .st d k sz mod disp => Sys2Proof.Machine.execSt d k sz mod disp s
  | .pf hint k mod disp => Sys2Proof.Machine.execPf hint k mod disp s
  | .ldfe d k mod disp => Sys2Proof.Machine.execLdfe d k mod disp s
  | .ldff d k mod disp => Sys2Proof.Machine.execLdff d k mod disp s
  | .stef d k mod disp => Sys2Proof.Machine.execStef d k mod disp s
  | .stsf d k mod disp => Sys2Proof.Machine.execStsf d k mod disp s
  | .fempty k => Sys2Proof.Machine.execFempty k s
  | .fstate d k => Sys2Proof.Machine.execFstate d k s
  | .lr d k => Sys2Proof.Machine.execLr d k s
  | .sc d b k => Sys2Proof.Machine.execSc d b k s
  | .cas d b k => Sys2Proof.Machine.execCas d b k s
  | .waitrs => Sys2Proof.Machine.execWaitrs s
  | .amoAdd d b k => Sys2Proof.Machine.execAmoAdd d b k s
  | .amoAnd d b k => Sys2Proof.Machine.execAmoAnd d b k s
  | .amoOr d b k => Sys2Proof.Machine.execAmoOr d b k s
  | .amoXor d b k => Sys2Proof.Machine.execAmoXor d b k s
  | .amoMin d b k => Sys2Proof.Machine.execAmoMin d b k s
  | .amoMax d b k => Sys2Proof.Machine.execAmoMax d b k s
  | .amoMinn d b k => Sys2Proof.Machine.execAmoMinn d b k s
  | .amoMaxn d b k => Sys2Proof.Machine.execAmoMaxn d b k s
  | .amoSwap d b k => Sys2Proof.Machine.execAmoSwap d b k s
  | .amoFadd d b k => Sys2Proof.Machine.execAmoFadd d b k s
  | .fence kind scope => Sys2Proof.Machine.execFence kind scope s
  | .fenceFlag kind scope k => Sys2Proof.Machine.execFenceFlag kind scope k s
  | .bar scope => Sys2Proof.Machine.execBar scope s
  | .beq a b disp => Sys2Proof.Machine.execBeq a b disp s
  | .bne a b disp => Sys2Proof.Machine.execBne a b disp s
  | .blt a b disp => Sys2Proof.Machine.execBlt a b disp s
  | .bge a b disp => Sys2Proof.Machine.execBge a b disp s
  | .bltn a b disp => Sys2Proof.Machine.execBltn a b disp s
  | .bgen a b disp => Sys2Proof.Machine.execBgen a b disp s
  | .bz a disp => Sys2Proof.Machine.execBz a disp s
  | .bnz a disp => Sys2Proof.Machine.execBnz a disp s
  | .jmp disp => Sys2Proof.Machine.execJmp disp s
  | .call disp => Sys2Proof.Machine.execCall disp s
  | .jr a => Sys2Proof.Machine.execJr a s
  | .loop a disp => Sys2Proof.Machine.execLoop a disp s
  | .setp k a => Sys2Proof.Machine.execSetp k a s
  | .getp d k => Sys2Proof.Machine.execGetp d k s
  | .setm k a => Sys2Proof.Machine.execSetm k a s
  | .segq d k second => Sys2Proof.Machine.execSegq d k second s
  | .segld k a b => Sys2Proof.Machine.execSegld k a b s
  | .npcount d a => Sys2Proof.Machine.execNpcount d a s
  | .spawn a b => Sys2Proof.Machine.execSpawn a b s
  | .texit => Sys2Proof.Machine.execTexit s
  | .yield => Sys2Proof.Machine.execYield s
  | .launch scope a b => Sys2Proof.Machine.execLaunch scope a b s
  | .taskpush a => Sys2Proof.Machine.execTaskpush a s
  | .taskpop d => Sys2Proof.Machine.execTaskpop d s
  | .taskdone a => Sys2Proof.Machine.execTaskdone a s
  | .trigset k b => Sys2Proof.Machine.execTrigset k b s
  | .trigclr k => Sys2Proof.Machine.execTrigclr k s
  | .gidget d => Sys2Proof.Machine.execGidget d s
  | .gidput a => Sys2Proof.Machine.execGidput a s
  | .mxTgemm x => Sys2Proof.Machine.execMxTgemm x s
  | .mxIgemm x => Sys2Proof.Machine.execMxIgemm x s
  | .mxPromo x => Sys2Proof.Machine.execMxPromo x s
  | .mxClr x => Sys2Proof.Machine.execMxClr x s
  | .vxAdd x => Sys2Proof.Machine.execVxAdd x s
  | .vxSub x => Sys2Proof.Machine.execVxSub x s
  | .vxMul x => Sys2Proof.Machine.execVxMul x s
  | .vxFma x => Sys2Proof.Machine.execVxFma x s
  | .vxMin x => Sys2Proof.Machine.execVxMin x s
  | .vxMax x => Sys2Proof.Machine.execVxMax x s
  | .vxAbs x => Sys2Proof.Machine.execVxAbs x s
  | .vxCvt x => Sys2Proof.Machine.execVxCvt x s
  | .vxQuant x => Sys2Proof.Machine.execVxQuant x s
  | .vxRed x => Sys2Proof.Machine.execVxRed x s
  | .vxExp x => Sys2Proof.Machine.execVxExp x s
  | .vxRsq x => Sys2Proof.Machine.execVxRsq x s
  | .vxSmax x => Sys2Proof.Machine.execVxSmax x s
  | .vxDist x => Sys2Proof.Machine.execVxDist x s
  | .vxCmp x => Sys2Proof.Machine.execVxCmp x s
  | .vxSel x => Sys2Proof.Machine.execVxSel x s
  | .vxFill x => Sys2Proof.Machine.execVxFill x s
  | .cpCopy x => Sys2Proof.Machine.execCpCopy x s
  | .cpMcast x => Sys2Proof.Machine.execCpMcast x s
  | .cpGath x => Sys2Proof.Machine.execCpGath x s
  | .cpScat x => Sys2Proof.Machine.execCpScat x s
  | .cpTern x => Sys2Proof.Machine.execCpTern x s
  | .cpPack x => Sys2Proof.Machine.execCpPack x s
  | .cpPf x => Sys2Proof.Machine.execCpPf x s
  | .cpRed x => Sys2Proof.Machine.execCpRed x s
  | .cpFill x => Sys2Proof.Machine.execCpFill x s
  | .slBound x => Sys2Proof.Machine.execSlBound x s
  | .slScore x => Sys2Proof.Machine.execSlScore x s
  | .slKinit x => Sys2Proof.Machine.execSlKinit x s
  | .slKins x => Sys2Proof.Machine.execSlKins x s
  | .slKmerge x => Sys2Proof.Machine.execSlKmerge x s
  | .slKread x => Sys2Proof.Machine.execSlKread x s
  | .slResum x => Sys2Proof.Machine.execSlResum x s
  | .engset eng n a => Sys2Proof.Machine.execEngset eng n a s
  | .engget d eng n => Sys2Proof.Machine.execEngget d eng n s
  | .engwait eng => Sys2Proof.Machine.execEngwait eng s
  | .engstat d eng => Sys2Proof.Machine.execEngstat d eng s
  | .engsave eng a => Sys2Proof.Machine.execEngsave eng a s
  | .engload eng a => Sys2Proof.Machine.execEngload eng a s
  | .mfsys d sys => Sys2Proof.Machine.execMfsys d sys s
  | .mtsys sys a => Sys2Proof.Machine.execMtsys sys a s
  | .trap n => Sys2Proof.Machine.execTrap n s
  | .tret => Sys2Proof.Machine.execTret s
  | .brk => Sys2Proof.Machine.execBrk s
  | .rand d => Sys2Proof.Machine.execRand d s
  | .iinv => Sys2Proof.Machine.execIinv s
  | .wake a => Sys2Proof.Machine.execWake a s
  | .preempt a => Sys2Proof.Machine.execPreempt a s
  | .tlbinv d a => Sys2Proof.Machine.execTlbinv d a s
  | .icacheFill core slot => Sys2Proof.Machine.execIcacheFill core slot s
  | .remoteReplyLands id => Sys2Proof.Machine.execRemoteReplyLands id s
  | .storeAccepted id => Sys2Proof.Machine.execStoreAccepted id s
  | .storeAck id => Sys2Proof.Machine.execStoreAck id s
  | .pendbDrainResume core slot => Sys2Proof.Machine.execPendbDrainResume core slot s
  | .mseRemoteOp core => Sys2Proof.Machine.execMseRemoteOp core s
  | .mseReissue core => Sys2Proof.Machine.execMseReissue core s
  | .mseForcedPosition core => Sys2Proof.Machine.execMseForcedPosition core s
  | .portEntryArrives id => Sys2Proof.Machine.execPortEntryArrives id s
  | .portCreditReturn id => Sys2Proof.Machine.execPortCreditReturn id s
  | .npTimeout core slot => Sys2Proof.Machine.execNpTimeout core slot s
  | .feRetry id => Sys2Proof.Machine.execFeRetry id s
  | .homeAttempt id => Sys2Proof.Machine.execHomeAttempt id s
  | .ticketServed home => Sys2Proof.Machine.execTicketServed home s
  | .monitorTurnover home => Sys2Proof.Machine.execMonitorTurnover home s
  | .waitlimExpiry core slot => Sys2Proof.Machine.execWaitlimExpiry core slot s
  | .withdrawal core slot => Sys2Proof.Machine.execWithdrawal core slot s
  | .barArrival core slot => Sys2Proof.Machine.execBarArrival core slot s
  | .barRelease core slot => Sys2Proof.Machine.execBarRelease core slot s
  | .launchWake flood core => Sys2Proof.Machine.execLaunchWake flood core s
  | .heldStart core slot => Sys2Proof.Machine.execHeldStart core slot s
  | .taskpopTimeout core slot => Sys2Proof.Machine.execTaskpopTimeout core slot s
  | .footprintFetch core slot => Sys2Proof.Machine.execFootprintFetch core slot s
  | .splitIncrement id => Sys2Proof.Machine.execSplitIncrement id s
  | .successorDecrement id => Sys2Proof.Machine.execSuccessorDecrement id s
  | .stealStart core => Sys2Proof.Machine.execStealStart core s
  | .stealRequest core => Sys2Proof.Machine.execStealRequest core s
  | .stealReply core => Sys2Proof.Machine.execStealReply core s
  | .stealPauseEnd core => Sys2Proof.Machine.execStealPauseEnd core s
  | .triggerBind id => Sys2Proof.Machine.execTriggerBind id s
  | .triggerUnbind id => Sys2Proof.Machine.execTriggerUnbind id s
  | .triggerFiring id => Sys2Proof.Machine.execTriggerFiring id s
  | .heldTaskPlacement core => Sys2Proof.Machine.execHeldTaskPlacement core s
  | .translationWalk id => Sys2Proof.Machine.execTranslationWalk id s
  | .faultEntryOpen id => Sys2Proof.Machine.execFaultEntryOpen id s
  | .faultRecordWrite die => Sys2Proof.Machine.execFaultRecordWrite die s
  | .faultTableRelease core slot => Sys2Proof.Machine.execFaultTableRelease core slot s
  | .heldRequestResend id => Sys2Proof.Machine.execHeldRequestResend id s
  | .tlbinvAck core slot => Sys2Proof.Machine.execTlbinvAck core slot s
  | .engineCommandStart core eng units => Sys2Proof.Machine.execEngineCommandStart core eng units s
  | .engineCommandComplete core eng => Sys2Proof.Machine.execEngineCommandComplete core eng s
  | .mxSubarrayGate core sub => Sys2Proof.Machine.execMxSubarrayGate core sub s
  | .bulkTransfer core eng => Sys2Proof.Machine.execBulkTransfer core eng s
  | .reductionContribution core => Sys2Proof.Machine.execReductionContribution core s
  | .reductionResult core => Sys2Proof.Machine.execReductionResult core s
  | .gidDrainComplete module gid => Sys2Proof.Machine.execGidDrainComplete module gid s
  | .shroudCombine first second => Sys2Proof.Machine.execShroudCombine first second s
  | .sliceRequest id => Sys2Proof.Machine.execSliceRequest id s
  | .missFill slice line => Sys2Proof.Machine.execMissFill slice line s
  | .writeback slice => Sys2Proof.Machine.execWriteback slice s
  | .repReplicaCopy id => Sys2Proof.Machine.execRepReplicaCopy id s
  | .activeMessage id => Sys2Proof.Machine.execActiveMessage id s
  | .contextSave module => Sys2Proof.Machine.execContextSave module s
  | .contextRestore module => Sys2Proof.Machine.execContextRestore module s
  | .thermalMigration core dest => Sys2Proof.Machine.execThermalMigration core dest s
  | .thermalSlowdownEnd core => Sys2Proof.Machine.execThermalSlowdownEnd core s
  | .dividerChange phys log2 => Sys2Proof.Machine.execDividerChange phys log2 s
  | .railRiseComplete cluster => Sys2Proof.Machine.execRailRiseComplete cluster s
  | .powerGate phys => Sys2Proof.Machine.execPowerGate phys s
  | .powerGateWake phys => Sys2Proof.Machine.execPowerGateWake phys s
  | .uncorrectableError place => Sys2Proof.Machine.execUncorrectableError place s
  | .linkFailure module link => Sys2Proof.Machine.execLinkFailure module link s
  | .cxlExpanderFailure module port => Sys2Proof.Machine.execCxlExpanderFailure module port s
  | .sensorSample module sample => Sys2Proof.Machine.execSensorSample module sample s
  | .eventEntry module => Sys2Proof.Machine.execEventEntry module s
  | .canvasSandboxFault module address => Sys2Proof.Machine.execCanvasSandboxFault module address s
  | .moduleReset module => Sys2Proof.Machine.execModuleReset module s
  | .boot module input => Sys2Proof.Machine.execBoot module input s
  | .powerLoss module => Sys2Proof.Machine.execPowerLoss module s
  | .ldoor module value => Sys2Proof.Machine.execLdoor module value s
  | .hirq module value => Sys2Proof.Machine.execHirq module value s
  | .hien module value => Sys2Proof.Machine.execHien module value s
  | .lstat module => Sys2Proof.Machine.execLstat module s
  | .evlost module => Sys2Proof.Machine.execEvlost module s
  | .hostRegisterWrite module access value => Sys2Proof.Machine.execHostRegisterWrite module access value s
  | .memrd module => Sys2Proof.Machine.execMemrd module s
  | .memwr module => Sys2Proof.Machine.execMemwr module s
  | .sense module => Sys2Proof.Machine.execSense module s
  | .pcap module => Sys2Proof.Machine.execPcap module s
  | .tlimit module => Sys2Proof.Machine.execTlimit module s
  | .evlog module => Sys2Proof.Machine.execEvlog module s
  | .attest module => Sys2Proof.Machine.execAttest module s
  | .idcert module => Sys2Proof.Machine.execIdcert module s
  | .update module => Sys2Proof.Machine.execUpdate module s
  | .reset module => Sys2Proof.Machine.execReset module s
  | .faultRecordRetry die => Sys2Proof.Machine.execFaultRecordRetry die s
  | .mbdoor module value => Sys2Proof.Machine.execMbdoor module value s
  | .correctableError module place => Sys2Proof.Machine.execCorrectableError module place s

end Sys2Proof.Machine
end

