-- ==== Sys2Proof/Machine/Step.lean ====
section
/-! DEFINITION. One step of the machine: the agent whose turn it is moves (R137, R138, log 1), and an instruction word placed
where a core's next position fetches. -/

namespace Sys2Proof.Machine

/-- One step. A core's turn is one issue position: it issues the instruction its owner stands at, or does what a position
without an instruction does; a core that cannot have its next position yet, and a turn that names an instruction instead of a
hardware event, leave everything as it is. -/
def step (s : State) : Host.Outcome State Fault Refusal :=
  let s' := s.turnTaken
  match s.turn with
  | .position L =>
    if s.nmod ≤ moduleOf L then .fault .noSuchModule
    else if !s'.positionReady L then .next s'
    else
      match s'.issues L with
      | some (k, i) => followed (exec i (s'.begun L k)) (fun _ => endPosition L false (s'.msePending L))
      | none => act s' (otherPosition L)
  | .clock => act s' clockTick
  | .deliver id => act s' (deliverRequest id)
  | .event i => if Instr.isEvent i then exec i s' else .next s'

/-- The state in which core 0's next position fetches and runs the instruction with the given bits. -/
def State.withFetchWord (s : State) (nbits w : Nat) : State := afterAct s (placeWord (w % 2 ^ nbits))

end Sys2Proof.Machine
end

