-- ==== Sys2Proof/Safety.lean ====
section
/-! DEFINITION. The words in which statements about the machine are made: the canonical form that every step keeps, how an
attempt of an instruction goes and what it leaves, what taking a trap does, and the rules of the instruction families as tables. -/

namespace Sys2Proof.Machine

/-! The invariant. -/

/-- The canonical form of a state: memory's (log 2) and that of every table. -/
def State.wf (s : State) : Bool :=
  s.mem.wf && rising s.threads && rising s.cores && rising s.phys && rising s.homes && rising s.slices && rising s.nets &&
    rising s.modules && rising s.fabrics && rising s.groups && rising s.reqs && rising s.ports && rising s.tasks && rising s.floods &&
    rising s.faults && rising s.copies && rising s.replicas && rising s.reductions

/-! Attempts. -/

/-- The thread whose instruction `exec` runs. -/
def State.me (s : State) : Thread := s.thread s.ctl.core s.ctl.slot

/-- The working copy with which an attempt of its instruction begins. -/
def State.begins (s : State) (i : Instr) : Ctx s := Ctx.start i s.ctl.core s.ctl.slot (Run.start s)

/-- A part of an attempt answers a value and leaves a working copy. -/
def Answers {s : State} {α : Type} (x : Att s α) (c : Ctx s) (v : α) (c' : Ctx s) : Prop := x.run c = .ok (v, c')

/-- The thread of a working copy. -/
def Ctx.me {s : State} (c : Ctx s) : Thread := c.run.s.thread c.core c.slot

/-- The state that a completed attempt leaves (R84, R128). -/
def Ctx.retired {s : State} (c : Ctx s) (n : Next) : State := ((complete s.ctl.core s.ctl.slot 1 n).run c.run).2.s

/-- The state that an attempt stopped before any effect leaves: what it says is done to the state from which it began (R9, R144). -/
def State.stopped (s : State) (i : Instr) (x : Stop) : State :=
  afterAct s (settle s.ctl.core s.ctl.slot (encode i) 1 x [])

/-- The checks that precede every operand use (R49, R50, R51, R165) pass. -/
def State.admits (s : State) (i : Instr) : Bool :=
  (!Instr.supervisor i || s.me.mode) && ((Instr.fields i).all fun (o, a) => a.ok o) &&
    (edgePort s.ctl.core s.ctl.slot (Instr.fields i)).isNone

/-- The owner of the present position of a core issues in it (R137): the core is active, the owner is ready, and no message has waited
so long that the message engine takes the position (R141). -/
structure State.issuesFrom (s : State) (L : Nat) : Prop where
  active : (s.core L).status = .active
  unforced : (s.core L).mse = [] ∨ (s.core L).starved < 64
  ready : (s.thread L (s.owner L)).run = .ready
  due : (s.thread L (s.owner L)).nextIssue ≤ s.cycle L

/-! Frames. -/

/-- The registers of a thread but for its PC, its scalar registers and STATUS are unchanged. -/
structure SameButScalars (t u : Thread) : Prop where
  pointers : u.a = t.a
  modes : u.m = t.m
  segments : u.seg = t.seg
  asid : u.asid = t.asid
  trapvec : u.trapvec = t.trapvec
  trappc : u.trappc = t.trappc
  trapcause : u.trapcause = t.trapcause
  trapval : u.trapval = t.trapval
  waitlim : u.waitlim = t.waitlim
  feretry : u.feretry = t.feretry
  nplim : u.nplim = t.nplim
  pendb : u.pendb = t.pendb
  seed : u.seed = t.seed
  sigaddr : u.sigaddr = t.sigaddr
  enroll : u.enroll = t.enroll
  lstart : u.lstart = t.lstart
  lend : u.lend = t.lend
  mxpromo : u.mxpromo = t.mxpromo
  engines : u.eng = t.eng
  queues : u.queues = t.queues
  credits : u.credits = t.credits

/-- What taking a precise trap writes, and what it leaves (R133): the trap registers, PMODE from MODE, MODE 1, the PC from TRAPVEC,
and nothing else of the thread's registers, of other threads and of memory. -/
structure TrapTaken (s t : State) (L : Nat) (k : Fin 16) (cause : Byte) (val : Word) : Prop where
  trappc : (t.thread L k).trappc = BitVec.ofNat 62 ((s.thread L k).pc.toNat / 4)
  trapcause : (t.thread L k).trapcause = cause
  trapval : (t.thread L k).trapval = val
  pmode : (t.thread L k).pmode = (s.thread L k).mode
  mode : (t.thread L k).mode = true
  statusRest : (t.thread L k).status.toNat / 4 = (s.thread L k).status.toNat / 4
  pc : (t.thread L k).pc = w64 (4 * (s.thread L k).trapvec.toNat)
  ready : (t.thread L k).run = .ready
  scalars : (t.thread L k).s = (s.thread L k).s
  pointers : (t.thread L k).a = (s.thread L k).a
  modes : (t.thread L k).m = (s.thread L k).m
  segments : (t.thread L k).seg = (s.thread L k).seg
  asid : (t.thread L k).asid = (s.thread L k).asid
  trapvec : (t.thread L k).trapvec = (s.thread L k).trapvec
  loop : (t.thread L k).lcount = (s.thread L k).lcount
  pendb : (t.thread L k).pendb = (s.thread L k).pendb
  seed : (t.thread L k).seed = (s.thread L k).seed
  engines : (t.thread L k).eng = (s.thread L k).eng
  queues : (t.thread L k).queues = (s.thread L k).queues
  credits : (t.thread L k).credits = (s.thread L k).credits
  others : ∀ L' k', (L', k') ≠ (L, k) → t.thread L' k' = s.thread L' k'
  memory : t.mem = s.mem

/-! Rules of the instruction families. -/

/-- The uses of several operands as sources, in order (R81). -/
def useAll {s : State} : List Operand → Att s (List Word)
  | [] => pure []
  | o :: rest => do
    let v ← use o
    return v :: (← useAll rest)

/-- A truth value as a result. -/
def truth (p : Prop) [Decidable p] : Word := if p then 1 else 0

/-- The two-operand table of R86: D, A, B and the function. -/
def binaryRule (i : Instr) : Option (Operand × Operand × Operand × (Word → Word → Word)) :=
  match i with
  | .add d a b => some (d, a, b, fun x y => x + y)
  | .sub d a b => some (d, a, b, fun x y => x - y)
  | .and d a b => some (d, a, b, fun x y => x &&& y)
  | .or d a b => some (d, a, b, fun x y => x ||| y)
  | .xor d a b => some (d, a, b, fun x y => x ^^^ y)
  | .andn d a b => some (d, a, b, fun x y => x &&& ~~~y)
  | .shl d a b => some (d, a, b, fun x y => x <<< (y.toNat % 64))
  | .shr d a b => some (d, a, b, fun x y => x >>> (y.toNat % 64))
  | .sar d a b => some (d, a, b, fun x y => x.sshiftRight (y.toNat % 64))
  | .rot d a b => some (d, a, b, fun x y => x.rotateRight (y.toNat % 64))
  | .min d a b => some (d, a, b, fun x y => if y.toInt < x.toInt then y else x)
  | .max d a b => some (d, a, b, fun x y => if x.toInt < y.toInt then y else x)
  | .minn d a b => some (d, a, b, fun x y => if y.toNat < x.toNat then y else x)
  | .maxn d a b => some (d, a, b, fun x y => if x.toNat < y.toNat then y else x)
  | .slt d a b => some (d, a, b, fun x y => truth (x.toInt < y.toInt))
  | .sltn d a b => some (d, a, b, fun x y => truth (x.toNat < y.toNat))
  | .seq d a b => some (d, a, b, fun x y => truth (x = y))
  | .mul d a b => some (d, a, b, fun x y => x * y)
  | .mulh d a b => some (d, a, b, fun x y => wInt (x.toInt * y.toInt / 2 ^ 64))
  | .mulhn d a b => some (d, a, b, fun x y => w64 (x.toNat * y.toNat / 2 ^ 64))
  | .div d a b => some (d, a, b, fun x y => if y = 0 then -1 else wInt (x.toInt.tdiv y.toInt))
  | .divn d a b => some (d, a, b, fun x y => if y = 0 then -1 else w64 (x.toNat / y.toNat))
  | .rem d a b => some (d, a, b, fun x y => if y = 0 then x else wInt (x.toInt.tmod y.toInt))
  | .remn d a b => some (d, a, b, fun x y => if y = 0 then x else w64 (x.toNat % y.toNat))
  | _ => none

/-- The one-operand table of R87, and the immediate forms of R89 to R91: D, A and the function. -/
def unaryRule (i : Instr) : Option (Operand × Operand × (Word → Word)) :=
  match i with
  | .clz d a => some (d, a, aluClz)
  | .ctz d a => some (d, a, aluCtz)
  | .popc d a => some (d, a, fun x => w64 ((List.range 64).filter fun j => x.getLsbD j).length)
  | .bswapH d a => some (d, a, fun x => w64 (ofBytes (toBytes 2 x.toNat).reverse))
  | .bswapS d a => some (d, a, fun x => w64 (ofBytes (toBytes 4 x.toNat).reverse))
  | .bswapW d a => some (d, a, fun x => w64 (ofBytes (toBytes 8 x.toNat).reverse))
  | .sextB d a => some (d, a, fun x => (x.truncate 8).signExtend 64)
  | .sextH d a => some (d, a, fun x => (x.truncate 16).signExtend 64)
  | .sextS d a => some (d, a, fun x => (x.truncate 32).signExtend 64)
  | .zextB d a => some (d, a, fun x => (x.truncate 8).zeroExtend 64)
  | .zextH d a => some (d, a, fun x => (x.truncate 16).zeroExtend 64)
  | .zextS d a => some (d, a, fun x => (x.truncate 32).zeroExtend 64)
  | .addi d a imm => some (d, a, fun x => x + imm.signExtend 64)
  | .andi d a imm => some (d, a, fun x => x &&& imm.zeroExtend 64)
  | .ori d a imm => some (d, a, fun x => x ||| imm.zeroExtend 64)
  | .xori d a imm => some (d, a, fun x => x ^^^ imm.zeroExtend 64)
  | .slti d a imm => some (d, a, fun x => truth (x.toInt < imm.toInt))
  | .shli d a n => some (d, a, fun x => x <<< n.toNat)
  | .shri d a n => some (d, a, fun x => x >>> n.toNat)
  | .sari d a n => some (d, a, fun x => x.sshiftRight n.toNat)
  | .roti d a n => some (d, a, fun x => x.rotateRight n.toNat)
  | .bfx d a pos len1 => some (d, a, fun x => w64 (x.toNat / 2 ^ pos.toNat % 2 ^ (len1.toNat + 1)))
  | .bfxs d a pos len1 => some (d, a, fun x => wInt (signed (len1.toNat + 1) (x.toNat / 2 ^ pos.toNat)))
  | _ => none

/-- Floating-point instructions (R96 to R104): D, the sources in order, and the result with its exceptions from the rounding mode
in force and the source values. -/
def floatRule (i : Instr) : Option (Operand × List Operand × Rm × (Nat → List Word → Word × Exc)) :=
  let low (f : Fmt) (x : Word) : Nat := x.toNat % 2 ^ (fpOf f).width
  let two (f : Fmt) (g : Nat → Nat → Nat → FpRes) (rm : Nat) (xs : List Word) : Word × Exc :=
    fpWord (g rm (low f (xs.getD 0 0)) (low f (xs.getD 1 0)))
  let one (f : Fmt) (g : Nat → Nat → FpRes) (rm : Nat) (xs : List Word) : Word × Exc := fpWord (g rm (low f (xs.getD 0 0)))
  let three (f : Fmt) (neg : Bool) (rm : Nat) (xs : List Word) : Word × Exc :=
    fpWord ((fpOf f).fma rm neg (low f (xs.getD 0 0)) (low f (xs.getD 1 0)) (low f (xs.getD 2 0)))
  match i with
  | .fadd d a b f rm => some (d, [a, b], rm, two f (fpOf f).add)
  | .fsub d a b f rm => some (d, [a, b], rm, two f (fpOf f).sub)
  | .fmul d a b f rm => some (d, [a, b], rm, two f (fpOf f).mul)
  | .fdiv d a b f rm => some (d, [a, b], rm, two f (fpOf f).div)
  | .fmin d a b f => some (d, [a, b], .rne, two f fun _ x y => (fpOf f).minmax false x y)
  | .fmax d a b f => some (d, [a, b], .rne, two f fun _ x y => (fpOf f).minmax true x y)
  | .feq d a b f => some (d, [a, b], .rne, two f fun _ x y => (fpOf f).compare false (fun o => o = .eq) x y)
  | .flt d a b f => some (d, [a, b], .rne, two f fun _ x y => (fpOf f).compare true (fun o => o = .lt) x y)
  | .fle d a b f => some (d, [a, b], .rne, two f fun _ x y => (fpOf f).compare true (fun o => o ≠ .gt) x y)
  | .fsgn d a b f => some (d, [a, b], .rne, two f fun _ x y => (fpOf f).copySign x y)
  | .fsqrt d a f rm => some (d, [a], rm, one f (fpOf f).sqrt)
  | .fclass d a f => some (d, [a], .rne, one f fun _ x => ((fpOf f).classify x, Exc.none))
  | .fround d a f rm => some (d, [a], rm, one f (fpOf f).roundIntegral)
  | .fma d a b c f rm => some (d, [a, b, c], rm, three f false)
  | .fnma d a b c f rm => some (d, [a, b, c], rm, three f true)
  | .fcvt d a dt src rm => some (d, [a], rm, fun m xs => convert dt src m (xs.getD 0 0))
  | _ => none

/-- Conditional branches (R125): the sources, the condition and the displacement. -/
def branchRule (i : Instr) : Option (List Operand × (List Word → Bool) × BitVec 16) :=
  match i with
  | .beq a b disp => some ([a, b], fun xs => xs.getD 0 0 = xs.getD 1 0, disp)
  | .bne a b disp => some ([a, b], fun xs => xs.getD 0 0 ≠ xs.getD 1 0, disp)
  | .blt a b disp => some ([a, b], fun xs => (xs.getD 0 0).toInt < (xs.getD 1 0).toInt, disp)
  | .bge a b disp => some ([a, b], fun xs => (xs.getD 1 0).toInt ≤ (xs.getD 0 0).toInt, disp)
  | .bltn a b disp => some ([a, b], fun xs => (xs.getD 0 0).toNat < (xs.getD 1 0).toNat, disp)
  | .bgen a b disp => some ([a, b], fun xs => (xs.getD 1 0).toNat ≤ (xs.getD 0 0).toNat, disp)
  | .bz a disp => some ([a], fun xs => xs.getD 0 0 = 0, disp)
  | .bnz a disp => some ([a], fun xs => xs.getD 0 0 ≠ 0, disp)
  | _ => none

/-- The address of the instruction a displacement counts from `pc` (R125 to R127). -/
def pcTarget {w : Nat} (pc : Word) (disp : BitVec w) : Word := wInt ((pc.toNat : Int) + 4 * disp.toInt)

/-- The scalar registers after a value is written to a code of the set 0 to 15 and 31. -/
def destination (r : Vector Word 16) (d : Operand) (v : Word) : Vector Word 16 :=
  match d with
  | .s i => vset r i v
  | _ => r

/-- The value of a code of that set as a source. -/
def sourceValue (r : Vector Word 16) (o : Operand) : Word :=
  match o with
  | .s i => r.get i
  | _ => 0

/-- `n` bytes of a core's raw local store. -/
def State.localWord (s : State) (L off n : Nat) : Word := w64 (ofBytes (s.lsBytes L off n))

/-- The key of a byte of a core's raw local store. -/
def State.localKey (s : State) (L off : Nat) : Nat := lsKey (s.physOf L) off

/-- The running thread's synchronising access through `a`K passes its checks and lies in the raw local store of its own core. -/
structure LocalSync (s : State) (k : Fin 8) (disp : Int) (n : Nat) (ga : Word) : Prop where
  passes : segCheck (s.me.seg.get k) ((s.me.a.get k).toNat + disp) n .s = .ok ga
  own : isOwn s.ctl.core ga = true
  raw : gaOff ga + n ≤ 0x1F2000
  given : s.me.taken = []

/-- Atomics of R189 and R190: their function number, D, B and pointer. -/
def atomicRule (i : Instr) : Option (Nat × Operand × Operand × Fin 8) :=
  match i with
  | .amoAdd d b k => some (0, d, b, k)
  | .amoAnd d b k => some (1, d, b, k)
  | .amoOr d b k => some (2, d, b, k)
  | .amoXor d b k => some (3, d, b, k)
  | .amoMin d b k => some (4, d, b, k)
  | .amoMax d b k => some (5, d, b, k)
  | .amoMinn d b k => some (6, d, b, k)
  | .amoMaxn d b k => some (7, d, b, k)
  | .amoSwap d b k => some (8, d, b, k)
  | .amoFadd d b k => some (9, d, b, k)
  | _ => none

/-- The new value of an atomic's word or, for `amo.fadd`, of its four bytes (R189, R190). -/
def atomicValue (fn : Nat) (old b : Word) : Word :=
  match fn with
  | 0 => old + b
  | 1 => old &&& b
  | 2 => old ||| b
  | 3 => old ^^^ b
  | 4 => if old.toInt ≤ b.toInt then old else b
  | 5 => if b.toInt ≤ old.toInt then old else b
  | 6 => if old.toNat ≤ b.toNat then old else b
  | 7 => if b.toNat ≤ old.toNat then old else b
  | 8 => b
  | _ => faddAtomic old b

/-- Operations whose value the home answers (R183, R278): the operation, its displacement, pointer, MOD and destination. -/
def awaitedRule (t : Thread) (i : Instr) : Option (HomeOp × Fin 8 × Int × Bool × Operand) :=
  let value := sourceValue t.s
  match i with
  | .ldfe d k mod disp => some (.ldfe, k, disp.toInt, mod, d)
  | .ldff d k mod disp => some (.ldff, k, disp.toInt, mod, d)
  | .stef b k mod disp => some (.stef (value b), k, disp.toInt, mod, .z)
  | .fstate d k => some (.fstate, k, 0, false, d)
  | .lr d k => some (.lr, k, 0, false, d)
  | .sc d b k => some (.sc (value b), k, 0, false, d)
  | .cas d b k => some (.cas (value d) (value b), k, 0, false, d)
  | i =>
    match atomicRule i with
    | some (_, .z, _, _) => none
    | some (fn, d, b, k) => some (.amo fn (value b), k, 0, false, d)
    | none => none

/-- Operations that retire without a reply (R183, R278): the operation, its displacement, pointer and MOD. -/
def retiredRule (t : Thread) (i : Instr) : Option (HomeOp × Fin 8 × Int × Bool) :=
  let value := sourceValue t.s
  match i with
  | .stsf b k mod disp => some (.stsf (value b), k, disp.toInt, mod)
  | .fempty k => some (.fempty, k, 0, false)
  | .trigclr k => some (.unbind, k, 0, false)
  | i =>
    match atomicRule i with
    | some (fn, .z, b, k) => some (.amo fn (value b), k, 0, false)
    | _ => none

/-- The pointers after an access with MOD. -/
def Thread.moved (t : Thread) (mod : Bool) (k : Fin 8) : Vector Word 8 :=
  if mod then vset t.a k (advanced (t.a.get k) (t.m.get k) (t.seg.get k).limit) else t.a

/-- Bytes of memory change in a range of keys alone, where they become the low bytes of a value. -/
structure Stored (m m' : Memory) (key n : Nat) (v : Word) : Prop where
  bytes : ∀ i, i < n → m'.byte (key + i) = BitVec.ofNat 8 (v.toNat / 2 ^ (8 * i))
  others : ∀ j, j < key ∨ key + n ≤ j → m'.byte j = m.byte j

/-- Other threads stay as they were, but for wakes, with which a `waitrs` waiter gives up its ticket (R186, R194). -/
def OthersWoken (s t : State) : Prop :=
  ∀ L k, (L, k) ≠ (s.ctl.core, s.ctl.slot) →
    t.thread L k = s.thread L k ∨ t.thread L k = { s.thread L k with woken := true } ∨
      t.thread L k = { s.thread L k with woken := true, ticket := none }

/-- A home can perform an operation at a place now, and does not answer it with an error: the word is not poisoned where the operation reads
it, and is in the state that the operation awaits; what it writes lies in memory that has not failed, and in no key page. -/
def State.canPerform (s : State) (tg : Target) (op : HomeOp) : Prop :=
  let clean := s.placePoison tg.place = false
  s.failedPlace tg.place = false ∧ match op with
  | .load _ | .lr | .sc _ | .cas _ _ => clean
  | .store n _ => n ≤ 8
  | .ldfe | .ldff => clean ∧ s.placeFull tg.place = true
  | .stef _ => s.placeFull tg.place = false
  | .stsf _ | .fempty | .fstate => True
  | .amo fn _ => clean ∧ fn ≤ 9
  | _ => False

/-- What an operation of slot `k` of core `L` leaves at its home, and the answer that it gives: loads and stores (R119, R120), full-empty
operations (R180, R182), reservations (R192), `cas` (R191) and atomics (R189, R190). -/
def HomeEffect (s t : State) (L : Nat) (k : Fin 16) (op : HomeOp) (ga : Word) (tg : Target) (x : Token) : Prop :=
  let key := s.keyOf tg.place
  let read (n : Nat) : Word := w64 (s.readPlace tg.place n)
  let kept := ∀ j, t.mem.byte j = s.mem.byte j
  let full := t.placeFull tg.place
  let held := (s.home tg.home).reservations.any fun r => r.core = L ∧ r.slot = k ∧ r.block = tg.place.block
  match op with
  | .load n => x = .val (read n) ∧ t.mem = s.mem
  | .store n v => x = .done ∧ Stored s.mem t.mem key n v
  | .ldfe => x = .val (read 8) ∧ kept ∧ full = false
  | .ldff => x = .val (read 8) ∧ t.mem = s.mem
  | .stef v | .stsf v => x = .done ∧ Stored s.mem t.mem key 8 v ∧ full = true
  | .fempty => x = .done ∧ kept ∧ full = false
  | .fstate => x = .val (truth (s.placeFull tg.place = true)) ∧ t.mem = s.mem
  | .lr => x = .val (read 8) ∧ t.mem = s.mem ∧ (t.thread L k).reservation = some (ga, tg.home) ∧ t.holds L k = true
  | .sc v => x = .val (truth (held = true)) ∧ t.holds L k = false ∧ (t.thread L k).reservation = none ∧
      (held = true → Stored s.mem t.mem key 8 v) ∧ (held = false → t.mem = s.mem)
  | .cas c v => x = .val (read 8) ∧ (read 8 = c → Stored s.mem t.mem key 8 v) ∧ (read 8 ≠ c → t.mem = s.mem)
  | .amo fn b =>
    let n := if fn = 9 then 4 else 8
    x = .val (read n) ∧ Stored s.mem t.mem key n (atomicValue fn (read n) b)
  | _ => False

/-- What the thread's `PENDB` wait asks is over: the count is zero, no error is held, and at scope 4 and above no REP copy of the
thread's own stores is in flight (R246, R285). -/
def State.released (s : State) (scope : Scope) : Bool :=
  s.me.pendb = 0 && s.me.deferred.isNone &&
    (scope.code < 4 || !s.copies.any fun (_, x) => x.core = s.ctl.core ∧ x.slot = s.ctl.slot ∧ x.engine.isNone)

/-- Engine commands (R45): engine, command code, fields, and what the engine's chapter asks of the command at issue. -/
def engineRule (i : Instr) : Option (Engine × Nat × EngArgs × (State → Nat → Thread → EngSpec)) :=
  match i with
  | .mxTgemm x => some (.mxe, 0, x, mxSpec 0)
  | .mxIgemm x => some (.mxe, 1, x, mxSpec 1)
  | .mxPromo x => some (.mxe, 2, x, mxSpec 2)
  | .mxClr x => some (.mxe, 3, x, mxSpec 3)
  | .vxAdd x => some (.vxe, 0x00, x, vxSpec 0x00)
  | .vxSub x => some (.vxe, 0x01, x, vxSpec 0x01)
  | .vxMul x => some (.vxe, 0x02, x, vxSpec 0x02)
  | .vxFma x => some (.vxe, 0x03, x, vxSpec 0x03)
  | .vxMin x => some (.vxe, 0x04, x, vxSpec 0x04)
  | .vxMax x => some (.vxe, 0x05, x, vxSpec 0x05)
  | .vxAbs x => some (.vxe, 0x06, x, vxSpec 0x06)
  | .vxCvt x => some (.vxe, 0x07, x, vxSpec 0x07)
  | .vxQuant x => some (.vxe, 0x08, x, vxSpec 0x08)
  | .vxRed x => some (.vxe, 0x09, x, vxSpec 0x09)
  | .vxExp x => some (.vxe, 0x0A, x, vxSpec 0x0A)
  | .vxRsq x => some (.vxe, 0x0B, x, vxSpec 0x0B)
  | .vxSmax x => some (.vxe, 0x0C, x, vxSpec 0x0C)
  | .vxDist x => some (.vxe, 0x0D, x, vxSpec 0x0D)
  | .vxCmp x => some (.vxe, 0x0E, x, vxSpec 0x0E)
  | .vxSel x => some (.vxe, 0x0F, x, vxSpec 0x0F)
  | .vxFill x => some (.vxe, 0x10, x, vxSpec 0x10)
  | .cpCopy x => some (.cpe, 0x00, x, cpSpec 0x00)
  | .cpMcast x => some (.cpe, 0x01, x, cpSpec 0x01)
  | .cpGath x => some (.cpe, 0x02, x, cpSpec 0x02)
  | .cpScat x => some (.cpe, 0x03, x, cpSpec 0x03)
  | .cpTern x => some (.cpe, 0x04, x, cpSpec 0x04)
  | .cpPack x => some (.cpe, 0x05, x, cpSpec 0x05)
  | .cpPf x => some (.cpe, 0x06, x, cpSpec 0x06)
  | .cpRed x => some (.cpe, 0x07, x, cpSpec 0x07)
  | .cpFill x => some (.cpe, 0x08, x, cpSpec 0x08)
  | .slBound x => some (.slu, 0x00, x, slSpec 0x00)
  | .slScore x => some (.slu, 0x01, x, slSpec 0x01)
  | .slKinit x => some (.slu, 0x02, x, slSpec 0x02)
  | .slKins x => some (.slu, 0x03, x, slSpec 0x03)
  | .slKmerge x => some (.slu, 0x04, x, slSpec 0x04)
  | .slKread x => some (.slu, 0x05, x, slSpec 0x05)
  | .slResum x => some (.slu, 0x06, x, slSpec 0x06)
  | _ => none

/-- A descriptor of a launch as core `L` gets it: one whose BASE lies in the local space of the launching core has, under direct spread, the
bits [62:30] of its BASE replaced by the core's number, and under cluster-interleaved spread its bits [62:34] by the core's module, die and
row; any other is unchanged (R161). -/
structure Rebased (source L : Nat) (d d' : Seg) : Prop where
  word : d'.word = d.word
  other : isShared d.base = true ∨ gaCore d.base ≠ source → d' = d
  direct : isShared d.base = false → gaCore d.base = source → field d.word 45 2 ≠ 1 →
    d'.base = w64 (L * 2 ^ 30 + d.base.toNat % 2 ^ 30)
  cluster : isShared d.base = false → gaCore d.base = source → field d.word 45 2 = 1 →
    d'.base = w64 (L / 16 * 2 ^ 34 + d.base.toNat % 2 ^ 34)

/-- The state in which a launch starts slot `k` of core `L`, its packet copied to entry `e`, to issue from a cycle on (R27, R160, R161). -/
structure StartedByLaunch (x : Launch) (t : Thread) (L : Nat) (k e : Fin 16) (from_ : Nat) : Prop where
  s1 : t.s.get 1 = w64 L
  s2 : t.s.get 2 = w64 (0x1F0000 + 256 * e.val)
  s3 : t.s.get 3 = w64 k.val
  scalars : ∀ i : Fin 16, i ≠ 1 → i ≠ 2 → i ≠ 3 → t.s.get i = 0
  pointers : ∀ i : Fin 8, t.a.get i = 0 ∧ t.m.get i = 0
  segments : ∀ i : Fin 8, Rebased x.source L (x.seg.get i) (t.seg.get i)
  copied : t.asid = x.asid ∧ t.trapvec = x.trapvec ∧ t.enroll = x.enroll
  pc : t.pc = w64 (ofBytes ((x.packet.drop 8).take 8))
  status : t.status = 0
  loop : t.lstart = 0 ∧ t.lend = 0 ∧ t.lcount = 0
  limits : t.waitlim = 0 ∧ t.feretry = 8 ∧ t.nplim = 0 ∧ t.seed = 0 ∧ t.sigaddr = 0 ∧ t.mxpromo = 1
  pendb : t.pendb = 0
  trap : t.trappc = 0 ∧ t.trapcause = 0 ∧ t.trapval = 0
  engines : ∀ eng : Engine, let y := t.engThread eng
    (∀ i : Fin 32, y.rig.get i = 0) ∧ y.seq = 0 ∧ y.doneSeq = 0 ∧ y.flags = 0 ∧ y.err = none
  queues : ∀ p : Port, t.queues.get p.index = []
  ready : t.run = .ready
  issues : t.nextIssue = from_

/-- A group's list of arrivals names the slot. -/
def State.arrived (s : State) (L : Nat) (k : Fin 16) : Prop := ∃ key, (L, k) ∈ (s.group key).waiting

/-- A thread that completes gives back its ticket, and the monitor entry that the ticket's home keeps for it, if it holds one (R186). -/
def State.unkept (s : State) (t : Thread) : List Op :=
  match t.ticket with
  | some (h, n) => [.home h ((s.home h).without n)]
  | none => []

/-- The state in which the running thread has gone on to its next place, and nothing else has changed. -/
def State.wentOn (s : State) (t : Thread) (n : Next) : State :=
  applyAll (s.unkept t ++
    [.thread (tkey s.ctl.core s.ctl.slot) ((continueAt t n).readyFrom (s.cycle s.ctl.core + if n = .yielded then 17 else 1))]) s

/-- The state in which a waiting thread has gone on in sequence: it issues again from the next cycle on, or as late as its last reissue asks
(R145). -/
def State.goneOn (s : State) (L : Nat) (k : Fin 16) (t : Thread) : State :=
  applyAll (s.unkept t ++ [.thread (tkey L k) ((continueAt t .seq).readyFrom (s.cycle L + max 1 (t.nextIssue - s.cycle L)))]) s

/-- The state in which a waiting thread has become `t` and is woken, its reissue the last item of its core's message engine. -/
def State.reissued (s : State) (L : Nat) (k : Fin 16) (t : Thread) : State :=
  applyAll [.thread (tkey L k) { t with woken := true }, .core L { s.core L with mse := (s.core L).mse ++ [.reissue k] }] s

/-- The state with a module's control window replaced. -/
def State.withWindow (s : State) (m : Nat) (w : Window) : State := (Op.module m { s.module m with window := w }).apply s

/-- The state with a module's Halyard replaced. -/
def State.withHalyard (s : State) (m : Nat) (h : Halyard) : State := (Op.module m { s.module m with halyard := h }).apply s

/-- No message, no increment of a split and no bulk transfer is on its way over a link of a module. -/
def State.linkIdle (s : State) (m : Nat) (x : Link) : Prop :=
  (∀ id r, (id, r) ∈ s.reqs → s.uses m x r = false) ∧
  (∀ id h L, (id, TaskMsg.increment h L) ∈ s.tasks → s.handleNamed h = false ∨ s.linkTo m x (moduleOf L) h = false) ∧
  ∀ (L : Nat) (e : Engine) ga, (s.engine L e).wait = .transfer ga → s.linkTo m x (moduleOf L) ga = false

/-- The error that an answer carries. -/
def Token.error (t : Token) : Option (Byte × Word) :=
  match t with
  | .trap cause v => some (cause, v)
  | _ => none

/-- A packet that enters a deque of a core stays there: the deque has room, nothing is held before it, and no slot waits for it. -/
def State.hasRoom (s : State) (L : Nat) (urgent : Bool) : Bool :=
  (s.core L).poppers.isEmpty && !s.dequeFull L urgent &&
    !((s.core L).heldTasks.any fun x => hdrUrgent (Packet.word x.packet 0) = urgent)

/-- An element of an engine command lies in the raw local store of the engine's own core. -/
def State.ownRaw (s : State) (L : Nat) (ga : Word) (n : Nat) : Bool :=
  isOwn L ga && gaOff ga + n ≤ 0x1F2000 && s.exists_ ga

/-- The lines of the `n` bytes of a record at PA `a` of module `m` have come for core `L`: of each, the request that its freeze controller
made has been answered, and the slice has the line (R263, R267). -/
def State.recordCome (s : State) (L m a n : Nat) : Prop :=
  ∀ i, lineOf a ≤ i → i ≤ lineOf (a + n - 1) →
    let home := (paTarget m (128 * i)).home
    ((s.slice home).find i).isSome = true ∧
    ∃ id r x, r.stage = .performed x ∧
      (s.reqs.find? fun y => y.2.op = .line (.record L) && y.2.target.any fun t =>
        t.home = home && (t.place.physical.map fun p => lineOf p.2) = some i) = some (id, r)

/-- A thread waits at `preempt` with a register operand for the freeze controller. -/
def State.awaitsController (s : State) (L : Nat) (k : Fin 16) (j : Fin 16) : Prop :=
  (s.thread L k).run = .waiting .controller ∧ (s.thread L k).parked = some (encode (.preempt (.s j))) ∧
    (s.thread L k).mode = true ∧ (s.thread L k).taken = []

/-- The mailbox's reply to the request in service is posted: its status, its body, and the end of BUSY (R469). -/
structure Replied (t : State) (m : Nat) (status : Byte) (body : List Byte) : Prop where
  status : (t.module m).window.mbStatus = status
  length : (t.module m).window.mbLen = body.length
  body : (t.module m).window.mbrep.drop 16 = body
  done : (t.module m).window.mbBusy = false
  told : bit (t.module m).window.hirq 1 = true

/-! Units of engine commands. -/

/-- A command runs on an engine of an active core, waits for nothing, and has neither ended nor met an error (R315, R318). -/
structure State.runs (s : State) (L : Nat) (e : Engine) (c : Cmd) (p : Prog) : Prop where
  active : (s.core L).status = .active
  running : (s.engine L e).running = some (c, p)
  free : (s.engine L e).wait = .none
  unwritten : p.written = false
  sound : p.error = none
  canonical : s.mem.wf = true

/-- An element of `n` bytes lies in the raw local store of an engine's own core, with no poisoned word, and its bytes are a value. -/
structure State.elementIs (s : State) (L : Nat) (ga : Word) (n v : Nat) : Prop where
  own : s.ownRaw L ga n = true
  clean : s.placePoison (localTarget ga).place = false
  cleanEnd : s.placePoison (localTarget (ga + w64 (n - 1))).place = false
  value : (s.localWord L (gaOff ga) n).toNat = v

/-- The same of each byte of a run that begins at an address. -/
def State.bytesAre (s : State) (L base : Nat) (bs : List Byte) : Prop :=
  ∀ i, i < bs.length → s.elementIs L (w64 (base + i)) 1 (bs.getD i 0).toNat

/-- An engine makes units of a command, which then runs with a progress, and memory is as a relation says (R315). -/
def UnitsLeave (s : State) (L : Nat) (e : Engine) (n : Nat) (c : Cmd) (p : Prog) (mem : Memory → Prop) : Prop :=
  ∃ t, exec (.engineCommandStart L e n) s = .next t ∧ (t.engine L e).running = some (c, p) ∧ mem t.mem

/-- A unit that writes an element of the own local store and leaves every other byte. -/
def UnitWrites (s : State) (L : Nat) (e : Engine) (n : Nat) (c : Cmd) (p : Prog) (ga : Word) (size v : Nat) : Prop :=
  UnitsLeave s L e n c p fun m => Stored s.mem m (s.localKey L (gaOff ga)) size (w64 v)

/-- A unit that writes nothing. -/
def UnitKeeps (s : State) (L : Nat) (e : Engine) (n : Nat) (c : Cmd) (p : Prog) : Prop := UnitsLeave s L e n c p fun m => m = s.mem

/-- A unit that stops its command with an error. -/
def UnitStops (s : State) (L : Nat) (e : Engine) (c : Cmd) (p : Prog) (code : Byte) : Prop :=
  UnitKeeps s L e 1 c { p with error := some code }

/-- Flags with one more, if a condition holds. -/
def flagIf (b : Bool) (f : BitVec 5) : BitVec 5 := if b then f else 0

/-- A value is an infinity or a NaN. -/
def nonFinite (fmt bits : Nat) : Bool := !finiteBits fmt bits

/-! The matrix engine (R330 to R333). -/

/-- Address of the output element (m, n). -/
def mxOut (c : Cmd) (m n : Nat) : Word := w64 ((c.rig.get 4).toNat + m * hi32 (c.rig.get 7) + 4 * n)

/-- The next element of an M by N tile. -/
def Prog.nextOutput (p : Prog) (N : Nat) : Prog :=
  let q := { p with atElement := false, pending := none }
  if p.n + 1 < N then { q with n := p.n + 1 } else { q with n := 0, m := p.m + 1 }

/-- The operands of the present window, as they are held: its columns' weights and its rows' activations. -/
structure WindowHeld (c : Cmd) (p : Prog) (cols rows : List (List Byte × List Nat)) : Prop where
  weights : p.tiles.get (tileSlot (ceilDiv (mxK (c.rig.get 5)) 160) p.c p.w) = some { block := p.c, window := p.w, runs := cols }
  activations : p.rows = some { block := p.c, window := p.w, runs := rows }
  allColumns : cols.length = blockColumns (mxN (c.rig.get 5)) p.c
  allRows : rows.length = mxM (c.rig.get 5)

/-- The chain of R308 over blocks of one column and one row, from a running sum, in order, up to the first promotion that falls due: the
accumulator and the running sum, the flags that arise, and the group whose promotion it is. -/
def chainRule (K G P : Nat) (blk : Nat → Nat × Int) (scale : Nat → Num) : List Nat → Acc → BitVec 5 → Acc × BitVec 5 × Option Nat
  | [], a, f => (a, f, none)
  | b :: rest, a, f =>
    let (e, I) := blk b
    let a : Acc := if e = 255 then { a with nan := true } else { a with w := a.w + I * 2 ^ e }
    let g := 32 * b / G
    if 32 * b + min 32 (K - 32 * b) < min K ((g + 1) * G) then chainRule K G P blk scale rest a f
    else
      let v := rneF26 (if a.nan then .nan false else Num.ofInt a.w (-133) false)
      let prod := (Num.mul v.1 (scale g)).1
      let s := rneF26 prod
      let sum := (Num.add 0 (f26Num a.run) s.1).1
      let run := rneF26 sum
      let nv := a.nan || (scale g).isNan || (prod.isNan && !v.1.isNan && !(scale g).isNan) ||
        (sum.isNan && !(f26Num a.run).isNan && !s.1.isNan)
      let a : Acc := { w := 0, nan := false, run := f26Bits run.1 }
      let f := f ||| (v.2 ||| s.2 ||| run.2 ||| flagIf nv 8)
      if (g + 1) % P = 0 ∨ min K ((g + 1) * G) = K then (a, f, some g) else chainRule K G P blk scale rest a f

/-- A run of the matrix engine's units (R330 to R333). `mx.clr` writes an element; `mx.promo` reads an element and writes it, rounded once;
a window's operands are read run by run; `mx.igemm` adds an element's exact products of a window, and at the end of a block writes its
output; `mx.tgemm` goes on with an element's chain up to a promotion, reads the output, and writes it. -/
def MatrixUnits (s : State) (L : Nat) : Prop :=
  ∀ c p, s.runs L .mxe c p →
    let M := mxM (c.rig.get 5)
    let N := mxN (c.rig.get 5)
    let K := mxK (c.rig.get 5)
    let NW := ceilDiv K 160
    let at_ (n : Fin 32) (x : Nat) : Word := w64 ((c.rig.get n).toNat + x)
    let out := mxOut c p.m (32 * p.c + p.n)
    let cell := 32 * p.m + p.n
    (∀ v old, c.cmd = 3 → p.m < M → s.elementIs L (mxOut c p.m p.n) 4 old →
      (if bit (c.rig.get 11) 0 then s.elementIs L (at_ 14 (4 * p.n)) 4 v else v = 0) → p.pending = none →
      UnitWrites s L .mxe 1 c (p.nextOutput N) (mxOut c p.m p.n) 4 v) ∧
    (∀ i sc q old, c.cmd = 2 → p.m < M → p.pending = none →
      let mode := c.rig.get 10
      s.elementIs L (at_ 0 (p.m * hi32 (c.rig.get 6) + 4 * p.n)) 4 i → s.elementIs L (mxOut c p.m p.n) 4 old →
      (if bit mode 1 then s.elementIs L (at_ 12 (4 * p.m)) 4 sc else sc = 0x3F800000) →
      (if bit mode 2 then s.elementIs L (at_ 13 (4 * p.n)) 4 q else q = 0x3F800000) →
      let S := fp32.unpack sc
      let Q := fp32.unpack q
      let old := fp32.unpack old
      let x := (Num.mul (Num.mul (Num.ofInt (signed 32 i) 0 false) S).1 Q).1
      let y := if bit mode 0 then (Num.add 0 old x).1 else x
      let nv := S.isNan || Q.isNan || x.isNan || (bit mode 0 && !old.isNan && y.isNan)
      UnitWrites s L .mxe 2 c
        { p.nextOutput N with flags := p.flags ||| (flagIf nv 8 ||| flagIf ((fp32.pack 0 y).2 &&& Exc.of ≠ 0) 4) }
        (mxOut c p.m p.n) 4 (fp32.pack 0 y).1) ∧
    (∀ t bs scales, c.cmd ≤ 1 → p.c < ceilDiv N 32 → p.w < NW →
      let i := tileSlot NW p.c p.w
      heldTile (p.tiles.get i) p.c p.w = t → t.runs.length < blockColumns N p.c →
      let col := 32 * p.c + t.runs.length
      let G := mxGroup (c.rig.get 8)
      let n := min 160 (K - 160 * p.w)
      let base := (c.rig.get 2).toNat + col * lo32 (c.rig.get 7)
      (if c.cmd = 0 then s.bytesAre L (base + 32 * p.w) bs ∧ bs.length = ceilDiv (160 * p.w + n) 5 - 32 * p.w ∧
          scales.length = ceilDiv (160 * p.w + n) G - 160 * p.w / G ∧
          ∀ j, j < scales.length →
            s.elementIs L (at_ 3 (2 * (col * mxNscale (c.rig.get 8) + 160 * p.w / G + j))) 2 (scales.getD j 0)
        else s.bytesAre L (base + 160 * p.w) bs ∧ bs.length = n ∧ scales = []) →
      UnitKeeps s L .mxe 1 c { p with tiles := vset p.tiles i (some { t with runs := t.runs ++ [(bs, scales)] }) }) ∧
    (∀ cols t bs (es : List Byte), c.cmd ≤ 1 → p.c < ceilDiv N 32 → p.w < NW →
      p.tiles.get (tileSlot NW p.c p.w) = some { block := p.c, window := p.w, runs := cols } → cols.length = blockColumns N p.c →
      heldTile p.rows p.c p.w = t → t.runs.length < M →
      let m := t.runs.length
      let n := min 160 (K - 160 * p.w)
      s.bytesAre L ((c.rig.get 0).toNat + m * hi32 (c.rig.get 6) + 160 * p.w) bs → bs.length = n →
      (if c.cmd = 0 ∧ mxAfmt (c.rig.get 8) = true then
          s.bytesAre L ((c.rig.get 1).toNat + m * lo32 (c.rig.get 6) + 5 * p.w) es ∧ es.length = ceilDiv n 32
        else es = []) →
      let bad := c.cmd = 0 ∧ m + 1 = M ∧ ∃ run ∈ cols, ∃ b ∈ run.1, 243 ≤ b.toNat
      ∃ f, (bad → f = p.flags ||| 1) ∧ (¬bad → f = p.flags) ∧
        UnitKeeps s L .mxe 1 c { p with
          rows := some { t with runs := t.runs ++ [(bs, es.map fun b => b.toNat)] }, flags := f }) ∧
    (∀ cols rows, c.cmd = 1 → p.c < ceilDiv N 32 → p.w < NW → WindowHeld c p cols rows → p.m < M → p.n < blockColumns N p.c →
      let a := (rows.getD p.m ([], [])).1
      let b := (cols.getD p.n ([], [])).1
      let before := if p.w = 0 then 0 else (accOf p cell).w
      ∃ q, (∃ t, exec (.engineCommandStart L .mxe 1) s = .next t ∧ (t.engine L .mxe).running = some (c, q) ∧ t.mem = s.mem) ∧
        (accOf q cell).w = before +
          sumInt ((List.range (min a.length b.length)).map fun k => (a.getD k 0).toInt * (b.getD k 0).toInt) * 2 ^ 133) ∧
    (∀ old, c.cmd = 1 → p.c < ceilDiv N 32 → p.w = NW → p.pending = none → s.elementIs L out 4 old →
      let v := (accOf p cell).w / 2 ^ 133
      let q := nextElement M (blockColumns N p.c) (NW + 1) { p with atElement := false, pending := none }
      (bit (c.rig.get 9) 0 = false → UnitWrites s L .mxe 1 c q out 4 (v % 2 ^ 32).toNat) ∧
      (bit (c.rig.get 9) 0 = true → UnitWrites s L .mxe 2 c q out 4 ((old + v) % 2 ^ 32).toNat)) ∧
    (∀ cols rows, c.cmd = 0 → p.c < ceilDiv N 32 → p.w < NW → WindowHeld c p cols rows → p.m < M → p.n < blockColumns N p.c →
      let weights := cols.getD p.n ([], [])
      let row := rows.getD p.m ([], [])
      let G := mxGroup (c.rig.get 8)
      let blocks := (List.range (min (5 * p.w + 5) (ceilDiv K 32) - 5 * p.w)).map fun i => 5 * p.w + i
      let blk (b : Nat) : Nat × Int :=
        (if mxAfmt (c.rig.get 8) then row.2.getD (b - 5 * p.w) 0 else 133,
          dot ((row.1.drop (32 * b - 160 * p.w)).take (min 32 (K - 32 * b))) ((List.range (min 32 (K - 32 * b))).map fun i =>
            trit (weights.1.getD ((32 * b - 160 * p.w + i) / 5) 0) ((32 * b - 160 * p.w + i) % 5)))
      let scale (g : Nat) : Num := bf16.unpack (weights.2.getD (g - 160 * p.w / G) 0)
      let start : Acc := if p.w = 0 then { w := 0, nan := false, run := 0 } else accOf p cell
      (p.atElement = false →
        let r := chainRule K G c.mxpromo.toNat blk scale blocks start p.flags
        ∃ q, (∃ t, exec (.engineCommandStart L .mxe 1) s = .next t ∧ (t.engine L .mxe).running = some (c, q) ∧ t.mem = s.mem) ∧
          q.flags = r.2.1 ∧ (∀ g, r.2.2 = some g → q.atElement = true ∧ q.g = g ∧ q.m = p.m ∧ q.n = p.n ∧ accOf q cell = r.1) ∧
          (r.2.2 = none → q.atElement = false ∧ (p.w + 1 < NW → accOf q cell = r.1))) ∧
      (∀ old, p.atElement = true → p.pending = none → s.elementIs L out 4 old →
        let C := fp32.unpack old
        let run := f26Num (accOf p cell).run
        let sum := (Num.add 0 C run).1
        let f := if C.isNan then 0
          else flagIf (sum.isNan && !run.isNan) 8 ||| flagIf ((fp32.pack 0 sum).2 &&& Exc.of ≠ 0) 4
        UnitKeeps s L .mxe 1 c { p with pending := some ((fp32.pack 0 sum).1, f) }) ∧
      (∀ old bits f, p.atElement = true → p.pending = some (bits, f) → s.elementIs L out 4 old →
        ∃ t, exec (.engineCommandStart L .mxe 1) s = .next t ∧ Stored s.mem t.mem (s.localKey L (gaOff out)) 4 (w64 bits)))

/-! The vector engine (R346 to R356). -/

/-- The function of an elementwise command and its NONFIN (R347 to R352). -/
def vectorRule (cmd : Nat) (g : VGeom) (x y z : Nat) : Nat × Bool :=
  let f := vtFp g.xt
  let X := intVal g.xt x
  let Y := intVal g.xt y
  let Z := intVal g.xt z
  let num (bits : Nat) : Nat × Bool := (bits, nonFinite g.xt bits)
  let int (v : Int) : Nat × Bool := (intBits g.dt g.sat v, false)
  let pred (o : Ordering) : Bool :=
    match g.fn with
    | 0 => o = .eq
    | 1 => o = .lt || o = .gt
    | 2 => o = .lt
    | 3 => o = .lt || o = .eq
    | 4 => o = .gt
    | _ => o = .gt || o = .eq
  match cmd, vtFloat g.xt with
  | 0, true => num (f.add g.rm x y).1
  | 0, false => int (X + Y)
  | 1, true => num (f.sub g.rm x y).1
  | 1, false => int (X - Y)
  | 2, true => num (f.mul g.rm x y).1
  | 2, false => int (X * Y)
  | 3, true => num (f.fma g.rm false x y z).1
  | 3, false => int (X * Y + Z)
  | 4, true => num (f.minmax false x y).1
  | 4, false => int (min X Y)
  | 5, true => num (f.minmax true x y).1
  | 5, false => int (max X Y)
  | 6, true => num (if (f.unpack x).isNan then f.nan else x % 2 ^ (f.width - 1))
  | 6, false => int X.natAbs
  | 7, true =>
    if vtFloat g.dt then
      let v := ((vtFp g.dt).pack g.rm (f.unpack x)).1
      (v, nonFinite g.dt v)
    else (intBits g.dt false (toIntTy (vtIntTy g.dt) g.rm (f.unpack x)).1, nonFinite g.xt x)
  | 7, false =>
    if vtFloat g.dt then
      let v := ((vtFp g.dt).pack g.rm (Num.ofInt X 0 false)).1
      (v, nonFinite g.dt v)
    else int X
  | 0xA, _ => num (expFp g.xt g.fn g.rm x)
  | 0xB, _ => num (rsqFp g.xt g.rm x)
  | 0xE, true =>
    let a := f.unpack x
    let b := f.unpack y
    ((if a.isNan || b.isNan then decide (g.fn = 1) else pred (a.cmp b)).toNat, false)
  | 0xE, false => ((pred (compare X Y)).toNat, false)
  | 0xF, true => num (if z % 256 = 0 then y else x)
  | 0xF, false => (if z % 256 = 0 then y else x, false)
  | _, _ => (x, vtFloat g.dt && nonFinite g.dt x)

/-- floor(log2 |x|) of a finite value other than zero. -/
def Num.exponent (x : Num) : Option Int :=
  match x with
  | .fin _ sig exp => if sig = 0 then none else some (exp + bitLength sig - 1)
  | _ => none

/-- x × 2^(133 − e) rounded to an integer and clamped to INT8 (R353). -/
def quantised (rm : Nat) (e : Int) (x : Num) : Int :=
  match x with
  | .fin neg sig exp =>
    let q := exp + 133 - e
    max (-128) (min 127 (scaled neg (roundTo rm neg sig q (max q 0)).1 (max q 0) 0))
  | _ => 0

/-- A step of a lane or of a level of `vx.red` on FP32 partials or on integers (R354). -/
def partialRule (float : Bool) (fn rm : Nat) (a b : Int) : Int :=
  match float, fn with
  | true, 0 | true, 3 => (fp32.add rm a.toNat b.toNat).1
  | true, fn =>
    if (fp32.unpack a.toNat).isNan || (fp32.unpack b.toNat).isNan then fp32.nan else (fp32.minmax (fn = 2) a.toNat b.toNat).1
  | false, 1 => min a b
  | false, 2 => max a b
  | false, _ => a + b

/-- A lane's partial after a further element, given as FP32 bits or as an integer (R354). -/
def laneRule (float : Bool) (fn rm : Nat) (before : Option Int) (x : Int) : Int :=
  match float, fn, before with
  | true, 3, none => (fp32.mul rm x.toNat x.toNat).1
  | true, 3, some a => (fp32.fma rm false x.toNat x.toNat a.toNat).1
  | false, 3, none => x * x
  | false, 3, some a => a + x * x
  | _, _, none => x
  | fl, fn, some a => partialRule fl fn rm a x

/-- The levels of R354 over lanes of which some are absent, the first of them joining lanes j and j + 2^(h − 1). -/
def levelsRule (f : Int → Int → Int) : Nat → List (Option Int) → Option Int
  | 0, xs => xs.headD none
  | h + 1, xs => levelsRule f h ((List.range (2 ^ h)).map fun j =>
    match xs.getD j none, xs.getD (j + 2 ^ h) none with
    | some a, some b => some (f a b)
    | some a, none => some a
    | none, b => b)

/-- The row of `vx.smax` (R355). -/
def softmaxRule (g : VGeom) (sa : Word) (xs : List Nat) : List Nat :=
  let s : Num := if g.fn = 1 then fp32.unpack (sa.toNat % 2 ^ 32) else .fin false 1 0
  let t := xs.map fun x => (fp32.pack 0 (Num.mul ((vtFp g.xt).unpack x) s).1).1
  let low := fp32.signed true fp32.infBits
  let mx := (t.foldl (fun a b => partialRule true 2 0 a (b : Nat)) (low : Nat)).toNat
  if mx = low then xs.map fun _ => 0
  else
    let e := t.map fun x => expFp 0 0 0 (fp32.sub 0 x mx).1
    let lanes := e.zipIdx.foldl (fun ls (x, i) => ls.set (i % 32) (some (laneRule true 0 0 (ls.getD (i % 32) none) (x : Nat))))
      (List.replicate 32 none)
    let S := ((levelsRule (partialRule true 0 0) 5 lanes).getD 0).toNat
    e.map fun x => ((vtFp g.dt).pack 0 (Num.div (fp32.unpack x) (fp32.unpack S)).1).1

/-- A distance of `vx.dist` from the elements of a query and of a vector (R303, R356). -/
def distanceRule (binary : Bool) (fn len : Nat) (x y : Nat → Int) : Nat :=
  let sum (f : Nat → Int) : Int := sumInt ((List.range len).map f)
  let H : Nat := (List.range len).countP fun i => x i ≠ y i
  let i32 (v : Int) : Nat := (v % 2 ^ 32).toNat
  match fn, binary with
  | 0, _ => i32 (sum fun i => x i * y i)
  | 1, true => i32 (4 * H)
  | 1, false => i32 (sum fun i => (x i - y i) * (x i - y i))
  | 2, true => (fp32.pack 0 (Num.div (Num.ofInt (len - 2 * H) 0 false) (Num.ofInt len 0 false)).1).1
  | 2, false =>
    let xx := sum fun i => x i * x i
    let yy := sum fun i => y i * y i
    if xx = 0 ∨ yy = 0 then 0 else overSqrt (sum fun i => x i * y i) (xx * yy).toNat
  | _, _ => i32 H

/-- The next row of a command's walk. -/
def Prog.nextAt (p : Prog) (len : Nat) : Prog := if p.w + 1 < len then { p with w := p.w + 1 } else { p with w := 0, m := p.m + 1 }

/-- A run of the vector engine's units (R348 to R356): an element of an elementwise command; a read, the computation and the writes of a block
of `vx.quant` and of a row of `vx.smax`; an element and the result of a row of `vx.red`; an output of `vx.dist`; and the gather write of a
command whose NONFIN is set, after its last element. -/
def VectorUnits (s : State) (L : Nat) : Prop :=
  ∀ c p, s.runs L .vxe c p →
    let g := vGeom c.rig
    let at_ (n : Fin 32) (row byte : Nat) : Word := w64 ((c.rig.get n).toNat + row + byte)
    let nonfin (b : Bool) : BitVec 5 := p.flags ||| flagIf b 16
    let scalar (t : Nat) (v : Word) : Nat := v.toNat % 2 ^ (8 * vtSize t)
    (∀ x y z, vElementwise c.cmd = true → p.m < g.rows →
      let zt := if c.cmd = 0xF then 8 else g.xt
      let D := at_ 3 (p.m * g.drs) (p.w * vtSize g.dt)
      (if c.cmd = 0x10 then x = scalar g.dt c.a else s.elementIs L (at_ 0 (p.m * g.xrs) (p.w * vtSize g.xt)) (vtSize g.xt) x) →
      (if vHasY c.cmd = false then y = 0 else if g.bY then y = scalar g.xt c.a
        else s.elementIs L (at_ 1 (p.m * g.yrs) (p.w * vtSize g.xt)) (vtSize g.xt) y) →
      (if vHasZ c.cmd = false then z = 0 else if g.bz then z = scalar zt c.b
        else s.elementIs L (at_ 2 (p.m * g.zrs) (p.w * vtSize zt)) (vtSize zt) z) →
      s.ownRaw L D (vtSize g.dt) = true →
      let r := vectorRule c.cmd g x y z
      UnitWrites s L .vxe 1 c ({ p with flags := nonfin r.2 }.nextAt g.len) D (vtSize g.dt) r.1) ∧
    (c.cmd = 8 → p.m < g.rows →
      let n := min 32 (g.len - 32 * p.w)
      let xs := p.row.map (vtFp g.xt).unpack
      let finite := ∀ x ∈ xs, x.finite = true
      let next := { p with row := [], out := [], n := 0, flags := nonfin (nonFinite g.xt (p.row.getD (n - 1) 0)) }
      (∀ x, p.row.length < n →
        s.elementIs L (at_ 0 (p.m * g.xrs) ((32 * p.w + p.row.length) * vtSize g.xt)) (vtSize g.xt) x →
        UnitKeeps s L .vxe 1 c { p with row := p.row ++ [x] }) ∧
      (p.row.length = n → p.out = [] →
        (¬finite → UnitKeeps s L .vxe 1 c { p with out := 255 :: xs.map fun _ => 0 }) ∧
        (finite → (∀ x ∈ xs, x.exponent = none) → UnitKeeps s L .vxe 1 c { p with out := 0 :: xs.map fun _ => 0 }) ∧
        (∀ top, finite → (∃ x ∈ xs, x.exponent = some top) → (∀ x ∈ xs, ∀ y, x.exponent = some y → y ≤ top) →
          let e := min (max (top + 127) 0) 254
          UnitKeeps s L .vxe 1 c { p with out := e.toNat :: xs.map fun x => (quantised g.rm e x % 256).toNat })) ∧
      (p.row.length = n → p.out ≠ [] → p.n = 0 → s.ownRaw L (at_ 2 (p.m * g.zrs) p.w) 1 = true →
        UnitWrites s L .vxe 1 c { p with n := 1 } (at_ 2 (p.m * g.zrs) p.w) 1 (p.out.getD 0 0)) ∧
      (p.row.length = n → p.out ≠ [] → 1 ≤ p.n → p.n ≤ n →
        let D := at_ 3 (p.m * g.drs) (32 * p.w + (p.n - 1))
        s.ownRaw L D 1 = true →
        (p.n < n → UnitWrites s L .vxe 1 c { p with n := p.n + 1, flags := nonfin (nonFinite g.xt (p.row.getD (p.n - 1) 0)) } D 1
          (p.out.getD p.n 0)) ∧
        (p.n = n → UnitWrites s L .vxe 1 c
          (if 32 * (p.w + 1) < g.len then { next with w := p.w + 1 } else { next with w := 0, m := p.m + 1 }) D 1 (p.out.getD p.n 0)))) ∧
    (c.cmd = 9 → p.m < g.rows →
      let fl := vtFloat g.xt
      (∀ x, p.w < g.len → s.elementIs L (at_ 0 (p.m * g.xrs) (p.w * vtSize g.xt)) (vtSize g.xt) x →
        let v : Int := if fl then ((fp32.pack 0 ((vtFp g.xt).unpack x)).1 : Nat) else intVal g.xt x
        UnitKeeps s L .vxe 1 c { p with
          w := p.w + 1, lanes := p.lanes.set (p.w % 32) (some (laneRule fl g.fn g.rm (p.lanes.getD (p.w % 32) none) v)) }) ∧
      (g.len ≤ p.w → s.ownRaw L (at_ 3 (p.m * g.drs) 0) (vtSize g.dt) = true →
        let r := (levelsRule (partialRule fl g.fn g.rm) 5 p.lanes).getD 0
        let v := if fl then ((vtFp g.dt).pack g.rm (fp32.unpack r.toNat)).1 else intBits g.dt g.sat r
        UnitWrites s L .vxe 1 c
          { p with w := 0, m := p.m + 1, lanes := List.replicate 32 none, flags := nonfin (fl && nonFinite g.dt v) }
          (at_ 3 (p.m * g.drs) 0) (vtSize g.dt) v)) ∧
    (c.cmd = 0xC → p.m < g.rows →
      (∀ x, p.row.length < g.len → s.elementIs L (at_ 0 (p.m * g.xrs) (p.row.length * vtSize g.xt)) (vtSize g.xt) x →
        UnitKeeps s L .vxe 1 c { p with row := p.row ++ [x] }) ∧
      (g.len ≤ p.row.length → p.out = [] → UnitKeeps s L .vxe 1 c { p with out := softmaxRule g c.a p.row }) ∧
      (g.len ≤ p.row.length → p.out ≠ [] →
        let D := at_ 3 (p.m * g.drs) (p.n * vtSize g.dt)
        let q := { p with flags := nonfin (nonFinite g.dt (p.out.getD p.n 0)) }
        s.ownRaw L D (vtSize g.dt) = true →
        UnitWrites s L .vxe 1 c (if p.n + 1 < g.len then { q with n := p.n + 1 } else { q with row := [], out := [], n := 0, m := p.m + 1 })
          D (vtSize g.dt) (p.out.getD p.n 0))) ∧
    (∀ xs ys, c.cmd = 0xD → p.m < g.rows → xs.length = rowBytes g.xt g.len → ys.length = rowBytes g.xt g.len →
      s.bytesAre L ((c.rig.get 0).toNat + p.m * g.xrs) xs → s.bytesAre L ((c.rig.get 1).toNat + p.w * g.yrs) ys →
      s.ownRaw L (at_ 3 (p.m * g.drs) (4 * p.w)) 4 = true →
      UnitWrites s L .vxe 1 c (p.nextAt g.nv) (at_ 3 (p.m * g.drs) (4 * p.w)) 4
        (distanceRule (g.xt = 4) g.fn g.len (vecElem g.xt xs) (vecElem g.xt ys))) ∧
    (∀ old, g.rows ≤ p.m → g.nfg = true → bit p.flags 4 = true → p.sent = false → (c.rig.get 9).toNat % 8 = 0 →
      s.elementIs L (c.rig.get 9) 8 old →
      UnitWrites s L .vxe 1 c { p with sent := true } (c.rig.get 9) 8 (w64 old ||| c.rig.get 10).toNat)

/-! The copy engine (R367 to R371, R373). -/

/-- The cores of the issuing core's module that `cp.mcast` selects (R368). -/
def Cmd.selects (c : Cmd) (L M : Nat) : Prop :=
  ∃ d r col, d < 8 ∧ r < 64 ∧ col < 16 ∧ M = coreAt (moduleOf L) d r col ∧ bit (c.rig.get 17) (16 + d) = true ∧
    bit (c.rig.get 16) r = true ∧ bit (c.rig.get 17) col = true

/-- The sign of a number as a trit. -/
def signRule (x : Int) : Int := if 0 < x then 1 else if x = 0 then 0 else -1

/-- The PT5 byte of up to five trits, the others 0 (R62). -/
def pt5Rule (ts : List Int) : Nat := (sumInt ((List.range 5).map fun i => (ts.getD i 0 + 1) * 3 ^ i)).toNat

/-- The trits of a group with draws, and the stream state after them (R373). -/
inductive Draws (delta : Num) : Word → List Num → List Int → Word → Prop
  | done (st : Word) : Draws delta st [] [] st
  | keep {st st' : Word} {w : Num} {rest : List Num} {ts : List Int} :
    w.magnitude.cmp delta ≠ .lt → Draws delta st rest ts st' → Draws delta st (w :: rest) (w.trit :: ts) st'
  | zero {st st' : Word} {w : Num} {rest : List Num} {ts : List Int} :
    w.magnitude.cmp delta = .lt → w.trit = 0 → Draws delta st rest ts st' → Draws delta st (w :: rest) (0 :: ts) st'
  | draw {st st' : Word} {w : Num} {rest : List Num} {ts : List Int} :
    w.magnitude.cmp delta = .lt → w.trit ≠ 0 → Draws delta (nextRand st) rest ts st' →
    Draws delta st (w :: rest) ((if field (nextRand st) 40 24 < keepWeight w.magnitude delta then w.trit else 0) :: ts) st'

/-- The trits of a group by the threshold alone (R373). -/
def thresholdRule (delta : Num) (ws : List Num) : List Int := ws.map fun w => if w.magnitude.cmp delta = .gt then w.trit else 0

/-- The scale of a group of BF16 values: RNE_BF16(RNE_F32(S / cnt)), S exact in units of 2^-133 (R373). -/
def scaleRule (ws : List Num) : Nat :=
  let units (w : Num) : Nat := match w with
    | .fin _ sig exp => sig * 2 ^ (exp + 133).toNat
    | _ => 0
  let S : Num := .fin false ((ws.map units).foldr (fun a b => a + b) 0) (-133)
  (bf16.pack 0 (fp32.unpack (fp32.pack 0 (Num.div S (Num.ofInt ws.length 0 false)).1).1)).1

/-- What a part of an engine's unit gives, and what it leaves. -/
def Gives {s : State} {α : Type} (x : EngM s α) (c : EngCtx s) (v : α) (c' : EngCtx s) : Prop := x.run.run c = (.ok v, c')

/-- It stands in a core and a progress still. -/
def EngCtx.stands {s : State} (c : EngCtx s) (L : Nat) (p : Prog) : Prop := c.core = L ∧ c.prog = p

/-- What a unit of a command begins with. -/
def State.unitBegins (s : State) (L : Nat) (e : Engine) (c : Cmd) (p : Prog) : EngCtx s :=
  { run := Run.start s, core := L, eng := e, cmd := c, prog := p }

/-- A run of the copy engine's units (R367 to R371, R373): an element of `cp.copy`, of `cp.fill` and of `cp.mcast`, and a word of a META copy;
an element for another module's local store, which waits for its bulk transfer and is made by it (R454); an element of a piece, or the
error of a piece that its segment refuses; a byte of `cp.pack`; the line of an element of `cp.pf`; and a group of `cp.tern`, its error, its
bytes and its scale. -/
def CopyUnits (s : State) (L : Nat) : Prop :=
  ∀ c p, s.runs L .cpe c p →
    let mode := c.rig.get 2
    let e := cpEsz mode
    let dstW := dstWalk c.rig (cpNdim mode)
    let srcW := srcWalk c.rig (cpNdim mode)
    let dst := cpAddr c 1 (dstW.at_ p.idx)
    let src := cpAddr c 0 (srcW.at_ p.idx)
    let next := { p with idx := dstW.next p.idx }
    let K := cpCount c.rig 0
    let N := cpCount c.rig 1
    let j := p.idx.getD 0 0
    let i := p.idx.getD 1 0
    (∀ v, c.cmd = 0 ∨ c.cmd = 8 → dstW.done p.idx = false →
      (if c.cmd = 8 then v = c.a.toNat % 2 ^ (8 * e) else cpMeta mode = false ∧ s.elementIs L src e v) →
      (s.ownRaw L dst e = true → UnitWrites s L .cpe 1 c next dst e v) ∧
      (isShared dst = false → gaModule dst ≠ moduleOf L → gaModule dst < s.nmod → gaOff dst + e ≤ 0x1F2000 → gaOff dst % e = 0 →
        ((s.engine L .cpe).transferred = false →
          ∃ t, exec (.engineCommandStart L .cpe 1) s = .next t ∧ (t.engine L .cpe).running = some (c, p) ∧
            (t.engine L .cpe).wait = .transfer dst ∧ t.mem = s.mem) ∧
        (s.reachable (gaCore dst) = true →
          let u := { s.core L with engines := vset (s.core L).engines (engIx .cpe) { s.engine L .cpe with wait := .transfer dst } }
          let s' := (Op.core L u).apply s
          ∃ t, exec (.bulkTransfer L .cpe) s' = .next t ∧ (t.engine L .cpe).running = some (c, next) ∧ (t.engine L .cpe).wait = .none ∧
            Stored s.mem t.mem (s.localKey (gaCore dst) (gaOff dst)) e (w64 v)))) ∧
    (c.cmd = 0 → cpMeta mode = true → dstW.done p.idx = false → s.ownRaw L src 8 = true → s.ownRaw L dst 8 = true →
      gaOff src % 8 = 0 → gaOff dst % 8 = 0 →
      let from_ := s.localKey L (gaOff src) / 8
      let to_ := s.localKey L (gaOff dst)
      UnitsLeave s L .cpe 1 c next fun m => Stored s.mem m to_ 8 (s.localWord L (gaOff src) 8) ∧
        m.poisoned (to_ / 8) = s.mem.poisoned from_ ∧ m.full (to_ / 8) = s.mem.full from_) ∧
    (∀ v, c.cmd = 1 → dstW.done p.idx = false → (∀ M, c.selects L M → s.reachable M = true) → s.elementIs L src e v →
      gaOff dst + e ≤ 0x1F2000 →
      UnitsLeave s L .cpe 1 c next fun m =>
        (∀ M b, c.selects L M → b < e → m.byte (s.localKey M (gaOff dst) + b) = BitVec.ofNat 8 (v / 2 ^ (8 * b))) ∧
        ∀ x, (∀ M, c.selects L M → x < s.localKey M (gaOff dst) ∨ s.localKey M (gaOff dst) + e ≤ x) → m.byte x = s.mem.byte x) ∧
    (∀ o v, c.cmd = 2 ∨ c.cmd = 3 → p.idx = [j, i] ++ p.idx.drop 2 → i < N →
      let base := cpReg c.rig (if c.cmd = 2 then 0 else 1)
      let stride := if c.cmd = 2 then cpSstr c.rig 0 else cpDstr c.rig 0
      let fails := 2 ^ 61 ≤ (base - c.seg.base).toNat + o ∨ pieceFails c.seg (base.toNat + o) K stride e = true
      let from_ := cpAddr c 0 ((if c.cmd = 2 then (o : Int) else i * cpSstr c.rig 1) + j * cpSstr c.rig 0)
      let to_ := cpAddr c 1 ((if c.cmd = 2 then i * cpDstr c.rig 1 else (o : Int)) + j * cpDstr c.rig 0)
      let after := { p with idx := Walk.next [(K, 0), (N, 0)] p.idx }
      (if p.atElement then o = p.w
        else ∃ entry, s.elementIs L (cpAddr c 15 ((i : Int) * cpEntry mode)) (cpEntry mode) entry ∧ o = entry * 2 ^ field mode 16 5) →
      (p.atElement = false → fails → UnitStops s L .cpe c p 0x10) ∧
      (p.atElement = true ∨ ¬fails → s.elementIs L from_ e v → s.ownRaw L to_ e = true →
        UnitWrites s L .cpe 1 c (if j + 1 < K then { after with atElement := true, w := o } else { after with atElement := false, w := 0 })
          to_ e v)) ∧
    (c.cmd = 5 → i < N →
      let row (n : Nat) (x : Int) (k : Nat) : Word := cpAddr c n (i * x + k)
      let step (n : Nat) : Prog := { p with idx := (if j + n < K then [j + n, i] else [0, i + 1]) ++ p.idx.drop 2 }
      (∀ vs : List Int, bit mode 8 = false → vs.length = min 5 (K - j) →
        (∀ k, k < vs.length → s.elementIs L (row 0 (cpSstr c.rig 1) (j + k)) 1 (vs.getD k 0 % 256).toNat ∧ -128 ≤ vs.getD k 0 ∧
          vs.getD k 0 ≤ 127) →
        let D := row 1 (cpDstr c.rig 1) (j / 5)
        s.ownRaw L D 1 = true → UnitWrites s L .cpe 1 c (step 5) D 1 (pt5Rule (vs.map signRule))) ∧
      (∀ b, bit mode 8 = true → p.row = [] → s.elementIs L (row 0 (cpSstr c.rig 1) (j / 5)) 1 b →
        UnitKeeps s L .cpe 1 c { p with row := [b], flags := p.flags ||| flagIf (243 ≤ b) 1 }) ∧
      (∀ b rest, bit mode 8 = true → p.row = b :: rest → b < 256 →
        let D := row 1 (cpDstr c.rig 1) j
        let t : Int := if 243 ≤ b then 0 else (b / 3 ^ (j % 5) % 3 : Nat) - 1
        s.ownRaw L D 1 = true →
        UnitWrites s L .cpe 1 c { step 1 with row := if j % 5 = 4 ∨ j + 1 = K then [] else p.row } D 1 (t % 256).toNat)) ∧
    (c.cmd = 6 → srcW.done p.idx = false →
      let after := { p with idx := srcW.next p.idx }
      let who := LineFor.copy L (bit mode 7)
      ∀ tg c' m a, Gives (engResolve src .read false false) (s.unitBegins L .cpe c p) tg c' → c'.stands L p → tg.place.physical = some (m, a) →
        let other := decide (gaModule src ≠ moduleOf L)
        let x := (granted who other (s.physOf (if other then s.receiver (moduleOf L) src else L)) tg).run c'.run
        ((tg.home, lineOf a) ∈ p.lines → ∃ t, exec (.engineCommandStart L .cpe 1) s = .next t ∧ (t.engine L .cpe).running = some (c, after)) ∧
        ((tg.home, lineOf a) ∉ p.lines → x.1 = true →
          ∃ t, exec (.engineCommandStart L .cpe 1) s = .next t ∧
            (t.engine L .cpe).running = some (c, { after with lines := (tg.home, lineOf a) :: p.lines })) ∧
        ((tg.home, lineOf a) ∉ p.lines → x.1 = false →
          ∃ t, exec (.engineCommandStart L .cpe 1) s = .next t ∧ (t.engine L .cpe).running = some (c, p) ∧ t.reqs = x.2.s.reqs)) ∧
    (c.cmd = 4 → i < N →
      let G := cpGroup mode
      let NG := ceilDiv K G
      let k0 := j * G
      let shared := k0 % 5
      let cnt := min G (K - k0)
      let len := ceilDiv (shared + cnt) 5
      (∀ (ws : List Nat), p.out = [] → ws.length = cnt → (shared = 0 ∨ p.c ≠ 0) →
        (∀ k, k < cnt → s.elementIs L (cpAddr c 0 (i * cpSstr c.rig 1 + (2 * (k0 + k) : Nat))) 2 (ws.getD k 0)) →
        let xs := ws.map bf16.unpack
        ((∃ w ∈ xs, w.finite = false) → UnitStops s L .cpe c p 0x11) ∧
        ((∀ w ∈ xs, w.finite = true) →
          let delta := (Num.mul (bf16.unpack (field (c.rig.get 21) 0 16)) (bf16.unpack (scaleRule xs))).1
          ∀ ts st, (if bit mode 9 then Draws delta p.st xs ts st else ts = thresholdRule delta xs ∧ st = p.st) →
            let all := (if shared = 0 then [] else (List.range shared).map fun k => trit (BitVec.ofNat 8 (p.c - 1)) k) ++ ts
            UnitKeeps s L .cpe 1 c { p with
              w := 0
              out := ((List.range len).map fun b => pt5Rule ((all.drop (5 * b)).take 5)) ++ [scaleRule xs, st.toNat] })) ∧
      (p.out ≠ [] → p.w < len →
        let D := cpAddr c 1 (i * cpDstr c.rig 1 + (k0 / 5 + p.w : Nat))
        s.ownRaw L D 1 = true → UnitWrites s L .cpe 1 c { p with w := p.w + 1 } D 1 (p.out.getD p.w 0)) ∧
      (p.out ≠ [] → len ≤ p.w →
        let D := cpAddr c 20 (2 * (i * NG + j) : Nat)
        s.ownRaw L D 2 = true →
        UnitWrites s L .cpe 1 c { p with
          st := w64 (p.out.getD (len + 1) 0), out := [], w := 0
          c := if j + 1 < NG then p.out.getD (len - 1) 0 + 1 else 0
          idx := (if j + 1 < NG then [j + 1, i] else [0, i + 1]) ++ p.idx.drop 2 } D 2 (p.out.getD len 0)))

/-! The selection unit (R387 to R393). -/

/-- The score of an exact integer with two scales, and its flags (R387, R390, R394). -/
def scoreRule (x : Int) (a b : Nat) : Nat × BitVec 5 :=
  let s := fp32.mul 0 a b
  let v := fp32.pack 0 (Num.mul (Num.ofInt x 0 false) (fp32.unpack s.1)).1
  let infinite := match fp32.unpack v.1 with
    | .inf _ => true
    | _ => false
  (v.1, flagIf ((fp32.unpack a).isNan || (fp32.unpack b).isNan) 8 ||| flagIf (infinite && (s.2 ||| v.2) &&& Exc.of ≠ 0) 4)

/-- The exact sum of a bound over the channels (R387). -/
def boundRule (l2 : Bool) (q : List Byte) (r : Summary) : Int :=
  sumInt ((List.range (min q.length (min r.mins.length r.maxs.length))).map fun c =>
    let x := (q.getD c 0).toInt
    let lo := r.mins.getD c 0
    let hi := r.maxs.getD c 0
    if l2 then max (max (lo - x) (x - hi)) 0 * max (max (lo - x) (x - hi)) 0 else if 0 ≤ x then x * hi else x * lo)

/-- A bound stands before another in a gather list: a NaN before every number, else by value (R388). -/
def boundBefore (l2 : Bool) (x y : Nat) : Prop :=
  let a := fp32.unpack x
  let b := fp32.unpack y
  (a.isNan = true ∧ b.isNan = false) ∨ (a.isNan = false ∧ b.isNan = false ∧ a.cmp b = if l2 then .lt else .gt)

/-- The best pages of a query, and how many have qualified, with a further page (R388). -/
def PageKept (g : SGeom) (page bnd : Nat) (old new : List (Nat × Nat) × Nat) : Prop :=
  let a := fp32.unpack bnd
  let t := fp32.unpack g.thresh
  let empty := if g.l2 then fp32.infBits else fp32.signed true fp32.infBits
  let qualifies := bnd ≠ empty ∧ (g.sel = true → a.isNan = true ∨ (if g.l2 then a.cmp t ≠ .gt else a.cmp t ≠ .lt))
  (¬qualifies → new = old) ∧
  (qualifies → new.2 = old.2 + 1 ∧ ∃ before after, old.1 = before ++ after ∧ new.1 = (before ++ (page, bnd) :: after).take g.pcnt ∧
    (∀ y ∈ before, ¬boundBefore g.l2 bnd y.2) ∧ ∀ y ∈ after.head?, boundBefore g.l2 bnd y.2)

/-- The total order of pairs (R391). -/
def betterPair (dir : Bool) (x y : BitVec 32 × BitVec 32) : Prop :=
  let a := fp32.unpack x.1.toNat
  let b := fp32.unpack y.1.toNat
  (a.isNan = false ∧ b.isNan = true) ∨ (a.isNan = false ∧ b.isNan = false ∧ a.cmp b = if dir then .lt else .gt) ∨
    (((a.isNan = true ∧ b.isNan = true) ∨ (a.isNan = false ∧ b.isNan = false ∧ a.cmp b = .eq)) ∧
      (x.2.toNat < y.2.toNat ∨ x.2 = y.2 ∧ x.1.toNat < y.1.toNat))

/-- An insertion: the pair stands before the first pair that it is better than, and the list keeps its K best (R391). -/
def Inserted (x : BitVec 32 × BitVec 32) (old new : TopK) : Prop :=
  new.k = old.k ∧ new.dir = old.dir ∧ ∃ before after, old.pairs = before ++ after ∧ new.pairs = (before ++ x :: after).take old.k ∧
    (∀ y ∈ before, ¬betterPair old.dir x y) ∧ ∀ y ∈ after.head?, betterPair old.dir x y

/-- Insertions in order. -/
inductive InsertedAll : List (BitVec 32 × BitVec 32) → TopK → TopK → Prop
  | done (t : TopK) : InsertedAll [] t t
  | more {x : BitVec 32 × BitVec 32} {rest : List (BitVec 32 × BitVec 32)} {t u v : TopK} :
    Inserted x t u → InsertedAll rest u v → InsertedAll (x :: rest) t v

/-- A list of a core becomes another, and its other lists stay (R392). -/
def ListChanges (s t : State) (L : Nat) (tl : Fin 4) (f : TopK → TopK → Prop) : Prop :=
  f ((s.core L).topk.get tl) ((t.core L).topk.get tl) ∧ ∀ i, i ≠ tl → (t.core L).topk.get i = (s.core L).topk.get i

/-- The queries of a command with their scales: those that it has read, or their elements in the own local store (R387, R390). -/
def State.queriesAre (s : State) (L : Nat) (c : Cmd) (p : Prog) (ns : List Nat) (qs : List (List Byte × Nat)) : Prop :=
  let g := sGeom c.rig
  if p.queries = [] then qs.length = ns.length ∧ ∀ i, i < ns.length →
    let q := ns.getD i 0
    (qs.getD i ([], 0)).1.length = g.d ∧ s.bytesAre L ((c.rig.get 0).toNat + q * g.qrs) (qs.getD i ([], 0)).1 ∧
      s.elementIs L (w64 ((c.rig.get 1).toNat + 4 * q)) 4 (qs.getD i ([], 0)).2
  else qs = p.queries

/-- The count of a list or an image: the one that the command has read, or its word in the own local store. -/
def State.countIs (s : State) (L : Nat) (p : Prog) (ga : Word) (size : Nat) (count : Nat) (h : Nat) : Prop :=
  if p.n = 0 then s.elementIs L ga size h else p.n = count + 1

/-- A run of the selection unit's units (R387 to R393): a page of `sl.bound` and a word of its lists; an entry of `sl.score` and a score that it
writes; `sl.kinit` and `sl.kins`; an entry of `sl.kmerge`, a word of `sl.kread`; and a page of `sl.resum`. What keeps an entry, an image or a
page from being used stops the command with its error. -/
def SelectionUnits (s : State) (L : Nat) : Prop :=
  ∀ c p, s.runs L .slu c p →
    let g := sGeom c.rig
    let at_ (n : Fin 32) (x : Nat) : Word := w64 ((c.rig.get n).toNat + x)
    let from_ (p : Prog) : EngCtx s := s.unitBegins L .slu c p
    (∀ qs r c', c.cmd = 0 → p.w < g.np → s.queriesAre L c p (List.range g.nq) qs → qs.length = g.nq →
      p.picks = [] ∨ p.picks.length = g.nq → let q := { p with queries := qs }
      Gives (readSummary c (at_ 2 (g.rs * (g.p0 + p.w))) g) (from_ q) r c' → c'.stands L q →
      let picks := if p.picks = [] then List.replicate g.nq ([], 0) else p.picks
      let same := g.l2 = true → ∀ x ∈ qs, x.2 = r.pscale
      let bnd (x : List Byte × Nat) : Nat × BitVec 5 := scoreRule (boundRule g.l2 x.1 r) x.2 (if g.l2 then x.2 else r.pscale)
      (r.nonempty = false → ∃ t, exec (.engineCommandStart L .slu 1) s = .next t ∧
        (t.engine L .slu).running = some (c, { q with w := p.w + 1, picks := picks })) ∧
      (r.nonempty = true → ¬same → ∃ t, exec (.engineCommandStart L .slu 1) s = .next t ∧
        (t.engine L .slu).running = some (c, { q with error := some 0x11 })) ∧
      (r.nonempty = true → same → ∃ t new, exec (.engineCommandStart L .slu 1) s = .next t ∧
        (t.engine L .slu).running = some (c, { q with
          w := p.w + 1, picks := new, flags := qs.foldl (fun f x => f ||| (bnd x).2) p.flags }) ∧
        new.length = g.nq ∧ ∀ i, i < g.nq →
          PageKept g (g.p0 + p.w) (bnd (qs.getD i ([], 0))).1 (picks.getD i ([], 0)) (new.getD i ([], 0)))) ∧
    (c.cmd = 0 → g.np ≤ p.w → p.n < g.nq →
      let pages := (p.picks.getD p.n ([], 0)).1
      let D := at_ 4 (p.n * g.lrs + 4 * p.m)
      let v := if p.m = 0 then pages.length + (if g.pcnt < (p.picks.getD p.n ([], 0)).2 then 2 ^ 31 else 0)
        else (pages.getD (p.m - 1) (0, 0)).1
      s.ownRaw L D 4 = true → p.m ≤ pages.length →
      UnitWrites s L .slu 1 c (if p.m < pages.length then { p with m := p.m + 1 } else { p with m := 0, n := p.n + 1 }) D 4 v) ∧
    (∀ qs h count page, c.cmd = 1 → s.queriesAre L c p [g.qidx] qs → p.out = [] →
      let list := g.qidx * g.lrs
      s.countIs L p (at_ 4 list) 4 count h →
      let q := { p with queries := qs, n := count + 1 }
      let j := p.w
      (p.n = 0 → g.pcnt < h % 2 ^ 13 → UnitStops s L .slu c { p with queries := qs } 0x12) ∧
      ((p.n = 0 → count = h % 2 ^ 13 ∧ count ≤ g.pcnt) → j < count → s.elementIs L (at_ 4 (list + 4 + 4 * j)) 4 page →
        let ok := reached c.seg (c.rig.get 2) (g.rs * page) g.rs 64 false && reached c.seg2 (c.rig.get 3) (16384 * page) 16384 16384 false
        let ra := at_ 2 (g.rs * page)
        (ok = false → UnitStops s L .slu c q 0x13) ∧
        (ok = true → s.isRecord L c.asid ra g.dc = false → UnitStops s L .slu c q 0x10) ∧
        (∀ ps keys c1 c2, ok = true → s.isRecord L c.asid ra g.dc = true → Gives (engRead ra 4) (from_ q) ps c1 →
          c1.stands L q → let scale := (qs.headD ([], 0)).2
          (g.l2 = true → ps ≠ scale → ∃ t, exec (.engineCommandStart L .slu 1) s = .next t ∧
            (t.engine L .slu).running = some (c, { q with error := some 0x11 })) ∧
          (Gives (engBytes ((c.rig.get 3).toNat + 16384 * page) 16384) c1 keys c2 → c2.stands L q →
          let key (i : Nat) : List Byte := (keys.drop (i * g.d)).take g.d
          let sum (i : Nat) : Int := sumInt (((qs.headD ([], 0)).1.zip (key i)).map fun (a, b) =>
            if g.l2 then (a.toInt - b.toInt) * (a.toInt - b.toInt) else a.toInt * b.toInt)
          let score (i : Nat) : Nat × BitVec 5 := scoreRule (sum i) scale (if g.l2 then scale else ps)
          let flags := (List.range g.kpp).foldl (fun f i => f ||| (score i).2) p.flags
          (g.l2 = true → ps = scale) →
          ∃ t, exec (.engineCommandStart L .slu 1) s = .next t ∧
            (g.dense = true → (t.engine L .slu).running =
              some (c, { q with out := (List.range g.kpp).map fun i => (score i).1, flags := flags })) ∧
            (g.dense = false → (t.engine L .slu).running = some (c, { q with w := j + 1, flags := flags }) ∧
              ListChanges c2.run.s t L g.tl (InsertedAll ((List.range g.kpp).map fun i =>
                (BitVec.ofNat 32 (score i).1, BitVec.ofNat 32 (g.ido + page * g.kpp + i))))))))) ∧
    (∀ x rest, c.cmd = 1 → p.queries ≠ [] → p.n ≠ 0 → p.out = x :: rest →
      let D := at_ 5 (4 * (p.w * g.kpp + (g.kpp - p.out.length)))
      s.ownRaw L D 4 = true →
      UnitWrites s L .slu 1 c (if rest = [] then { p with out := [], w := p.w + 1 } else { p with out := rest }) D 4 x) ∧
    (c.cmd = 2 → p.w = 0 → ∃ t, exec (.engineCommandStart L .slu 1) s = .next t ∧
      (t.engine L .slu).running = some (c, { p with w := 1 }) ∧ t.mem = s.mem ∧
      ListChanges s t L g.tl fun _ new => new = { k := g.k, dir := g.dir, pairs := [] }) ∧
    (c.cmd = 3 → p.w = 0 → ∃ t, exec (.engineCommandStart L .slu 1) s = .next t ∧
      (t.engine L .slu).running = some (c, { p with w := 1 }) ∧ t.mem = s.mem ∧
      ListChanges s t L g.tl (Inserted (BitVec.ofNat 32 c.a.toNat, BitVec.ofNat 32 c.b.toNat))) ∧
    (∀ h count x, c.cmd = 4 → s.countIs L p (c.rig.get 6) 8 count h →
      let bad := 256 < h % 2 ^ 9 ∨ h / 2 ^ 19 ≠ 0
      let q := { p with n := count + 1 }
      let ok := reached c.seg (c.rig.get 6) (8 + 8 * p.w) 8 8 false
      (p.n = 0 → bad → UnitStops s L .slu c p 0x14) ∧
      ((p.n = 0 → ¬bad ∧ count = h % 2 ^ 9) → p.w < count →
        (ok = false → UnitStops s L .slu c q 0x14) ∧
        (ok = true → s.elementIs L (at_ 6 (8 + 8 * p.w)) 8 x →
          ∃ t, exec (.engineCommandStart L .slu 1) s = .next t ∧ (t.engine L .slu).running = some (c, { q with w := p.w + 1 }) ∧
            t.mem = s.mem ∧ ListChanges s t L g.tl (Inserted (BitVec.ofNat 32 x, BitVec.ofNat 32 (x / 2 ^ 32)))))) ∧
    (c.cmd = 5 →
      let tk := (s.core L).topk.get g.tl
      let entry := tk.pairs.getD (p.w - 1) (0, 0)
      let v := if p.w = 0 then tk.pairs.length + 2 ^ 9 * tk.k + (if tk.dir then 2 ^ 18 else 0) else entry.1.toNat + 2 ^ 32 * entry.2.toNat
      let ok := p.w = 0 ∨ reached c.seg (c.rig.get 5) (8 * p.w) 8 4 true = true
      p.w ≤ tk.pairs.length →
      (¬ok → UnitStops s L .slu c p 0x14) ∧
      (ok → s.ownRaw L (at_ 5 (8 * p.w)) 8 = true → UnitWrites s L .slu 1 c { p with w := p.w + 1 } (at_ 5 (8 * p.w)) 8 v)) ∧
    (c.cmd = 6 → p.w < g.np →
      let ga := at_ 3 (16384 * (g.p0 + p.w))
      let m := gaModule ga
      let other := decide (m ≠ moduleOf L)
      let die := if other then dieOf (s.receiver (moduleOf L) ga) else s.dieAt L
      let cluster := if other then none else some (s.clusterAt L)
      let found := (s.regionsAt L c.asid ga).1.find? fun r => r.holds (gaVa ga)
      (found = none → (s.regionsAt L c.asid ga).2 = none → UnitStops s L .slu c p 0x10) ∧
      (∀ region tg c1 m' a ps r2 r3, found = some region → isShared ga = true →
        Gives (engTarget ga .read false false) (from_ p) tg c1 → c1.stands L p → tg.place.physical = some (m', a) →
        let n := (gaVa ga - region.vbase) / 16384
        let d := 64 * 2 ^ region.dc
        let size := 64 + 2 * d
        (recordPieces m cluster die c.asid (region.sbase + size * n) size).run c1.run = (.ok ps, r2) →
        let sum : SumRef := { d := d, pieces := ps, off := 0 }
        let home := { tg with home := region.home m n }
        (allGranted (.engine L .slu) other (s.physOf (if other then s.receiver (moduleOf L) ga else L)) (stepLines home m a sum)).run r2
          = (true, r3) →
        (∀ i, i < size → s.placePoison (.pa m (pieceAddr ps i)) = false ∧ r3.s.failedPa m (pieceAddr ps i) = false) →
        (∀ i j, i < size → j < size → pieceAddr ps i = pieceAddr ps j → i = j) → r3.s.mem.wf = true →
        let rec_ (i : Nat) : Nat := paKey m (pieceAddr ps i)
        let low (ch k : Nat) : Int :=
          if r3.s.placePoison (.pa m (a + (k * d + ch))) then -128 else (r3.s.paByte m (a + (k * d + ch))).toInt
        let high (ch k : Nat) : Int :=
          if r3.s.placePoison (.pa m (a + (k * d + ch))) then 127 else (r3.s.paByte m (a + (k * d + ch))).toInt
        let flags := recNat r3.s m sum 4 4 / 4 * 4 + 1
        ∃ t, exec (.engineCommandStart L .slu 1) s = .next t ∧ (t.engine L .slu).running = some (c, { p with w := p.w + 1 }) ∧
          (∀ ch, ch < d →
            (∃ v : Int, t.mem.byte (rec_ (64 + ch)) = BitVec.ofInt 8 v ∧ (∀ k, k < 16384 / d → v ≤ low ch k) ∧
              ∃ k, k < 16384 / d ∧ v = low ch k) ∧
            (∃ v : Int, t.mem.byte (rec_ (64 + d + ch)) = BitVec.ofInt 8 v ∧ (∀ k, k < 16384 / d → high ch k ≤ v) ∧
              ∃ k, k < 16384 / d ∧ v = high ch k)) ∧
          (∀ i, i < 4 → t.mem.byte (rec_ (4 + i)) = BitVec.ofNat 8 (flags / 2 ^ (8 * i)) ∧
            t.mem.byte (rec_ (8 + i)) = BitVec.ofNat 8 (16384 / 2 ^ (8 * i))) ∧
          ∀ j, (∀ i, (4 ≤ i ∧ i < 12) ∨ (64 ≤ i ∧ i < size) → j ≠ rec_ i) → t.mem.byte j = r3.s.mem.byte j))

end Sys2Proof.Machine
end

