-- ==== Sys2Proof/Certificates/Slice0/Obligations.lean ====
section
/-! DEFINITION. The statements about the machine: encodings, steps, operands, the meaning of every instruction and of every
hardware event, what they leave unchanged, and where they trap or wait. Sentences of the spec that a statement formalises are quoted
in OBLIGATIONS.json. -/

open Sys2Proof Sys2Proof.Machine

/-! Encodings and steps. -/

/-- Every well-formed instruction, with every operand at every value its encoding admits, is decoded from its own word. -/
def Obligations.DecodeEncode : Prop := ∀ i : Instr, i.wf = true → decodeWord (encode i) = .ok i

/-- A word that decodes is the word of the well-formed instruction it decodes to: no word has a second meaning, and a word with a
reserved bit set has none (R29 to R48). -/
def Obligations.EncodeDecode : Prop :=
  ∀ (w : InsnWord) (i : Instr), decodeWord w = .ok i → i.wf = true ∧ encode i = w

/-- Six words written out from the encoding tables, of six families, decode to the instructions they stand for. -/
def Obligations.DecodeWords : Prop :=
  decodeWord 0x04221800#32 = .ok (.add (.s 1) (.s 2) (.s 3)) ∧
  decodeWord 0x68878000#32 = .ok (.st (.s 4) 1 .w true 0) ∧
  decodeWord 0x644C7FFC#32 = .ok (.ldn (.s 2) 3 .b false (-4)) ∧
  decodeWord 0x8022FFFD#32 = .ok (.beq (.s 1) (.s 2) (-3)) ∧
  decodeWord 0xC1042153#32 = .ok (.cpTern { a := .s 4, b := .s 5, acq := false, rel := true, scope := .core, sig := true }) ∧
  decodeWord 0xE0010241#32 = .ok (.mtsys 0x024 (.s 1))

/-- When the core may have its next position, and that position issues instruction `i` of slot `k`, the step is `exec` of `i` in
the state whose turn has been taken and whose running slot is `k`, and then the end of the position. -/
def Obligations.StepRunsDecoded : Prop :=
  ∀ (s : State) (L : Nat) (k : Fin 16) (i : Instr),
    s.turn = .position L → moduleOf L < s.nmod → s.turnTaken.positionReady L = true → s.turnTaken.issues L = some (k, i) →
    step s = followed (exec i (s.turnTaken.begun L k)) (fun _ => endPosition L false (s.turnTaken.msePending L))

/-- What a position issues is what the word at the owner's PC decodes to: the slot of number CYCLE mod 16, ready, with its line in
the instruction cache (R17, R137). A PC that is no multiple of 4 fails to be fetched with MISALIGNED, one within 4 of the limit or
beyond with SEG_LIMIT, and in user mode one of a segment without X with SEG_RIGHTS, each with the PC as its value (R17). In the
core's turn a fetch that fails takes its trap, but that of the first instruction of a handler halts the slot, with the trap registers
and memory as they were and its queues emptied (R28); and a fetched word that does not decode takes ILLEGAL_INSN with the word (R48). -/
def Obligations.PositionIssues : Prop :=
  (∀ (s : State) (L : Nat) (w : InsnWord) (i : Instr),
     s.issuesFrom L → s.fetch L (s.thread L (s.owner L)) = .word w → decodeWord w = .ok i → s.issues L = some (s.owner L, i)) ∧
  (∀ (s : State) (L : Nat) (u : Thread),
     (u.pc.toNat % 4 ≠ 0 → s.fetch L u = .trap 0x06 u.pc) ∧
     (u.pc.toNat % 4 = 0 → (u.seg.get 7).limit < u.pc.toNat + 4 → s.fetch L u = .trap 0x04 u.pc) ∧
     (u.pc.toNat % 4 = 0 → u.pc.toNat + 4 ≤ (u.seg.get 7).limit → u.mode = false → (u.seg.get 7).x = false →
       s.fetch L u = .trap 0x05 u.pc)) ∧
  (∀ (r : State) (L : Nat),
     let s := r.turnTaken
     let u := s.thread L (s.owner L)
     r.turn = .position L → moduleOf L < r.nmod → s.positionReady L = true → s.issuesFrom L →
     (∀ w n, s.fetch L u = .word w → decodeWord w = .error n →
       ∃ t, step r = .next t ∧ TrapTaken s t L (s.owner L) 0x01 (w.zeroExtend 64)) ∧
     (∀ cause v, s.fetch L u = .trap cause v →
       (u.entering = false → ∃ t, step r = .next t ∧ TrapTaken s t L (s.owner L) cause v) ∧
       (u.entering = true → ∃ t, step r = .next t ∧ t.mem = s.mem ∧
         let h := t.thread L (s.owner L)
         h.run = .halted ∧ h.trappc = u.trappc ∧ h.trapcause = u.trapcause ∧ h.trapval = u.trapval ∧ h.s = u.s ∧ h.reservation = none ∧
         ∀ p : Port, h.queues.get p.index = [])))

/-- The canonical form of memory and of every table is kept by every step, from any state that has it. -/
def Obligations.CanonicalKept : Prop := ∀ s t : State, s.wf = true → step s = .next t → t.wf = true

/-- The state after reset has the canonical form. -/
def Obligations.CanonicalAtReset : Prop := State.reset.wf = true

/-- No step is refused, and the only fault is a turn of a core in a module that does not exist. -/
def Obligations.StepNeverStops : Prop :=
  ∀ s : State,
    ((∀ L, s.turn = .position L → moduleOf L < s.nmod) → ∃ t, step s = .next t) ∧
    ∀ L, s.turn = .position L → s.nmod ≤ moduleOf L → step s = .fault .noSuchModule

/-- After reset every slot is idle, every queue is empty with four credits on every port, `s0` to `s15`, `a0` to `a7`, `m0` to
`m7`, the descriptors and the PC are zero, and every system register of R23 has the reset value of its row: the slot number, the
logical core, FERETRY 8, MXGATE 256, MXWAKE 40, MXPROMO 1, and 0 for every other. -/
def Obligations.ResetState : Prop :=
  ∀ (L : Nat) (k : Fin 16),
    let t := State.reset.thread L k
    t.run = .idle ∧ t.pc = 0 ∧ (∀ p : Port, t.queues.get p.index = [] ∧ t.credits.get p.index = 4) ∧
    (∀ i : Fin 16, t.s.get i = 0) ∧ (∀ i : Fin 8, t.a.get i = 0 ∧ t.m.get i = 0 ∧ t.seg.get i = Seg.zero) ∧
    ∀ n, sysKnown n = true → State.reset.sysRead L k n =
      if n = 0x001 then w64 k.val else if n = 0x002 then w64 L else if n = 0x021 then 8 else if n = 0x040 then 256
      else if n = 0x041 then 40 else if n = 0x042 then 1 else 0

/-! Operands. -/

/-- In any attempt, a use of `s`N gives the register and a use of `z` gives zero, with no effect; a write of `s`N changes that
register alone, and a write of `z` nothing (R19, R79). -/
def Obligations.RegisterOperands : Prop :=
  ∀ (s : State) (c : Ctx s) (i : Fin 16) (v : Word),
    Answers (use (.s i)) c (c.me.s.get i) c ∧ Answers (use .z) c 0 c ∧ Answers (write .z v) c () c ∧
    Answers (write (.s i) v) c ()
      { c with run := c.run.push (.thread (tkey c.core c.slot) { c.me with s := vset c.me.s i v }) }

/-- A use of a port as a source takes the head of its queue, and sends a credit back to the slot that pushed it; with an empty
queue the thread parks (R166, R167). A write to a port spends a credit and sends the value to the peer's queue; without a credit
the thread parks (R163, R167). -/
def Obligations.PortOperands : Prop :=
  (∀ (s : State) (c : Ctx s) (p : Port),
     (∀ v fl fk rest, c.me.queues.get p.index = (v, fl, fk) :: rest →
       ∃ c', Answers (use (.port p)) c v c' ∧ c'.me.queues = vset c.me.queues p.index rest ∧ c'.me.s = c.me.s ∧
         c'.me.credits = c.me.credits ∧ c'.run.s.mem = c.run.s.mem ∧
         (∀ L k q, peer c.core c.slot p = some (L, k, q) →
           ∃ m, look c'.run.s.ports c.run.s.ctl.nextId = some m ∧ m.isCredit = true ∧ m.core = fl ∧ m.slot = fk ∧ m.port = q)) ∧
     (c.me.queues.get p.index = [] → (use (.port p)).run c = .error (.park (.port p false), c.seen.reverse))) ∧
  (∀ (s : State) (c : Ctx s) (p : Port) (v : Word) (L : Nat) (k : Fin 16) (q : Port),
     peer c.core c.slot p = some (L, k, q) →
     (c.me.credits.get p.index ≠ 0 →
       ∃ c', Answers (write (.port p) v) c () c' ∧
         c'.me = { c.me with credits := vset c.me.credits p.index (c.me.credits.get p.index - 1) } ∧
         c'.run.s.mem = c.run.s.mem ∧
         ∃ m, look c'.run.s.ports c.run.s.ctl.nextId = some m ∧ m.isCredit = false ∧ m.core = L ∧ m.slot = k ∧ m.port = q ∧
           m.value = v) ∧
     (c.me.credits.get p.index = 0 → (write (.port p) v).run c = .error (.park (.port p true), c.seen.reverse)))

/-- A use of `m`K as a source at a byte of the own local store that is not poisoned gives the bytes there, extended as `m`K says,
and then advances `a`K; memory is unchanged (R14, R79, R109). A write to `m`K at a byte of the own local store advances `a`K and
stores the low bytes of the value there; every other byte of memory is unchanged (R14, R79, R183). -/
def Obligations.MemoryOperands : Prop :=
  (∀ (s : State) (c : Ctx s) (k : Fin 8) (ga : Word),
     let n := 2 ^ esz (c.me.m.get k)
     segCheck (c.me.seg.get k) (c.me.a.get k).toNat n .r = .ok ga → isOwn c.core ga = true → gaOff ga + n ≤ 0x1F2000 →
     c.left = [] → c.run.s.placePoison (.win c.core (gaOff ga)) = false →
     ∃ c', Answers (use (.mem k)) c
         (extend (sxBit (c.me.m.get k)) n (w64 (ofBytes (c.run.s.lsBytes c.core (gaOff ga) n)))) c' ∧
       c'.me = { c.me with a := vset c.me.a k (advanced (c.me.a.get k) (c.me.m.get k) (c.me.seg.get k).limit) } ∧
       c'.run.s.mem = c.run.s.mem) ∧
  (∀ (s : State) (c : Ctx s) (k : Fin 8) (ga v : Word),
     let n := 2 ^ esz (c.me.m.get k)
     let key := lsKey (c.run.s.physOf c.core) (gaOff ga)
     c.run.s.mem.wf = true →
     segCheck (c.me.seg.get k) (c.me.a.get k).toNat n .w = .ok ga → isOwn c.core ga = true → gaOff ga + n ≤ 0x1F2000 →
     ∃ c', Answers (write (.mem k) v) c () c' ∧
       c'.me.a = vset c.me.a k (advanced (c.me.a.get k) (c.me.m.get k) (c.me.seg.get k).limit) ∧ c'.me.s = c.me.s ∧
       (∀ i, i < n → c'.run.s.mem.byte (key + i) = BitVec.ofNat 8 (v.toNat / 2 ^ (8 * i))) ∧
       ∀ j, j < key ∨ key + n ≤ j → c'.run.s.mem.byte j = c.run.s.mem.byte j)

/-! Integer instructions. -/

/-- An instruction of the two-operand table (R86), in every operand form: with A and then B used and D written, it completes, and
D gets the table's function of the two values. -/
def Obligations.IntegerBinary : Prop :=
  ∀ (s : State) (i : Instr) (d a b : Operand) (f : Word → Word → Word) (x y : Word) (c c' : Ctx s),
    binaryRule i = some (d, a, b, f) → s.admits i = true → Answers (useAll [a, b]) (s.begins i) [x, y] c →
    Answers (write d (f x y)) c () c' → exec i s = .next (c'.retired .seq)

/-- An instruction of the one-operand table (R87) and of the immediate forms (R89 to R91), in every operand form: with A used and
D written, it completes, and D gets the function of A's value. The counts of R87: `clz` is 64 for zero and otherwise the number of
zeros above the highest one; `ctz` is 64 for zero and otherwise the place of the lowest one. -/
def Obligations.IntegerUnary : Prop :=
  (∀ (s : State) (i : Instr) (d a : Operand) (f : Word → Word) (x : Word) (c c' : Ctx s),
     unaryRule i = some (d, a, f) → s.admits i = true → Answers (use a) (s.begins i) x c →
     Answers (write d (f x)) c () c' → exec i s = .next (c'.retired .seq)) ∧
  (∀ x : Word,
     (aluClz 0 = 64 ∧ aluCtz 0 = 64) ∧
     (x ≠ 0 → ∃ n : Nat, n < 64 ∧ aluClz x = w64 n ∧ x.getLsbD (63 - n) = true ∧ ∀ j, 63 - n < j → x.getLsbD j = false) ∧
     (x ≠ 0 → ∃ n : Nat, n < 64 ∧ aluCtz x = w64 n ∧ x.getLsbD n = true ∧ ∀ j, j < n → x.getLsbD j = false))

/-- `sel` uses A, B and C and writes A if C is not zero, else B (R88); `bfi` replaces the field of D by the low bits of A (R91);
`li` writes the sign-extended immediate, and `lhi` shifts D left by 21 and appends the immediate (R92). Each completes in every
operand form. -/
def Obligations.SelectInsertConstant : Prop :=
  ∀ (s : State) (d a b e : Operand) (x y z : Word) (c c' : Ctx s) (pos len1 : BitVec 6) (imm : BitVec 21),
    (s.admits (.sel d a b e) = true → Answers (useAll [a, b, e]) (s.begins (.sel d a b e)) [x, y, z] c →
      Answers (write d (if z = 0 then y else x)) c () c' → exec (.sel d a b e) s = .next (c'.retired .seq)) ∧
    (s.admits (.bfi d a pos len1) = true → Answers (useAll [a, d]) (s.begins (.bfi d a pos len1)) [x, y] c →
      ∀ v : Word, (∀ j, v.getLsbD j =
        if pos.toNat ≤ j ∧ j < pos.toNat + len1.toNat + 1 ∧ j < 64 then x.getLsbD (j - pos.toNat) else y.getLsbD j) →
      Answers (write d v) c () c' → exec (.bfi d a pos len1) s = .next (c'.retired .seq)) ∧
    (s.admits (.li d imm) = true → Answers (write d (imm.signExtend 64)) (s.begins (.li d imm)) () c' →
      exec (.li d imm) s = .next (c'.retired .seq)) ∧
    (s.admits (.lhi d imm) = true → Answers (use d) (s.begins (.lhi d imm)) y c →
      Answers (write d (y <<< 21 ||| imm.zeroExtend 64)) c () c' → exec (.lhi d imm) s = .next (c'.retired .seq))

/-- A two-operand instruction on scalar registers: the destination register gets the function of the two register values, the PC
and loop count move as R128 says, the thread may issue again from the next cycle, a monitor entry kept for it is given back
(R186), and nothing else of the machine changes: no other register, flag, special register, pointer, queue, thread, core, message
or byte of memory. -/
def Obligations.IntegerRegisterFrame : Prop :=
  ∀ (s : State) (i : Instr) (d a b : Fin 16) (f : Word → Word → Word),
    binaryRule i = some (.s d, .s a, .s b, f) →
    exec i s = .next (s.wentOn { s.me with s := vset s.me.s d (f (s.me.s.get a) (s.me.s.get b)) } .seq)

/-! Floating point. -/

/-- A floating-point instruction (R96 to R104), in every operand form, whose raised exceptions are not enabled: D gets the result
in the rounding mode in force, and then the exceptions are added to FLAGS (R73, R76, R95). One on registers or `z` that raises an
enabled exception takes FP_ENABLED with the raised exceptions as its value, and writes neither its destination nor FLAGS (R77, R133). -/
def Obligations.FloatResult : Prop :=
  ∀ (s : State) (i : Instr) (d : Operand) (os : List Operand) (rm : Rm) (f : Nat → List Word → Word × Exc) (xs : List Word),
    floatRule i = some (d, os, rm, f) → s.admits i = true →
    (∀ c c' : Ctx s, Answers (useAll os) (s.begins i) xs c →
      (f (roundingMode c.me rm) xs).2 &&& BitVec.ofNat 5 c.me.enables = 0 →
      Answers (write d (f (roundingMode c.me rm) xs).1) c () c' →
      exec i s = .next (Ctx.retired
        { c' with run := c'.run.push (.thread (tkey c'.core c'.slot)
            { c'.me with status := raiseFlags c'.me.status (f (roundingMode c.me rm) xs).2 }) } .seq)) ∧
    (Answers (useAll os) (s.begins i) xs (s.begins i) →
      (f (roundingMode s.me rm) xs).2 &&& BitVec.ofNat 5 s.me.enables ≠ 0 →
      ∃ t, exec i s = .next t ∧
        TrapTaken s t s.ctl.core s.ctl.slot 0x07 ((f (roundingMode s.me rm) xs).2.zeroExtend 64))

/-! Loads, stores, pointers and segments. -/

/-- `ld` and `ldn` at a byte of the own local store whose word is not poisoned: the bytes, sign-extended or zero-extended, are
written to D after the pointer has advanced if MOD is 1; for a scalar register D the load completes, and memory is unchanged
(R119). `st` to the own local store from a scalar register: it completes, the bytes at the address are the low bytes of the
register, every other byte of memory is unchanged, the pointer has advanced if MOD is 1, and no other register changes (R120, R183). -/
def Obligations.LoadStoreLocal : Prop :=
  (∀ (s : State) (i : Instr) (sx : Bool) (d : Fin 16) (k : Fin 8) (sz : Size) (mod : Bool) (disp : BitVec 15) (ga : Word),
     i = (if sx then .ld (.s d) k sz mod disp else .ldn (.s d) k sz mod disp) → s.me.taken = [] → s.me.run = .ready →
     segCheck (s.me.seg.get k) ((s.me.a.get k).toNat + disp.toInt) (sizeBytes sz) .r = .ok ga →
     isOwn s.ctl.core ga = true → gaOff ga + sizeBytes sz ≤ 0x1F2000 →
     s.placePoison (.win s.ctl.core (gaOff ga)) = false →
     ∃ t, exec i s = .next t ∧ t.mem = s.mem ∧
       t.me.s = vset s.me.s d (extend sx (sizeBytes sz) (w64 (ofBytes (s.lsBytes s.ctl.core (gaOff ga) (sizeBytes sz))))) ∧
       t.me.a = (if mod then vset s.me.a k (advanced (s.me.a.get k) (s.me.m.get k) (s.me.seg.get k).limit) else s.me.a) ∧
       t.me.m = s.me.m ∧ t.me.seg = s.me.seg ∧ t.me.status = s.me.status ∧ t.me.run = .ready ∧
       ∀ L k', (L, k') ≠ (s.ctl.core, s.ctl.slot) → t.thread L k' = s.thread L k') ∧
  (∀ (s : State) (d : Fin 16) (k : Fin 8) (sz : Size) (mod : Bool) (disp : BitVec 15) (ga : Word),
     s.mem.wf = true →
     segCheck (s.me.seg.get k) ((s.me.a.get k).toNat + disp.toInt) (sizeBytes sz) .w = .ok ga →
     isOwn s.ctl.core ga = true → gaOff ga + sizeBytes sz ≤ 0x1F2000 →
     ∃ t, exec (.st (.s d) k sz mod disp) s = .next t ∧ t.me.s = s.me.s ∧
       t.me.a = (if mod then vset s.me.a k (advanced (s.me.a.get k) (s.me.m.get k) (s.me.seg.get k).limit) else s.me.a) ∧
       t.me.m = s.me.m ∧ t.me.seg = s.me.seg ∧ t.me.status = s.me.status ∧ t.me.run = .ready ∧
       (∀ i, i < sizeBytes sz →
         t.mem.byte (lsKey (s.physOf s.ctl.core) (gaOff ga) + i) = BitVec.ofNat 8 ((s.me.s.get d).toNat / 2 ^ (8 * i))) ∧
       ∀ j, j < lsKey (s.physOf s.ctl.core) (gaOff ga) ∨ lsKey (s.physOf s.ctl.core) (gaOff ga) + sizeBytes sz ≤ j →
         t.mem.byte j = s.mem.byte j)

/-- `ld` and `ldn` in every operand form and at every address: once the address passes `Seg`, the load answers and D is written,
the instruction completes with D written after the pointer's advance (R119). `st` in every operand form and at every address: once
the address passes `Seg` and its window, and its translation where D is memory or a port, D has been used after the pointer's
advance and the store is performed or accepted, the instruction completes (R120, R121, R136). `ldfe`, `ldff`, `stef`, `fstate`,
`lr`, `sc`, `cas` and every atomic with a destination, at every address: once its home has answered, it completes with the answer
in D and the pointer advanced if MOD is 1, and nothing else changes (R180, R182, R189 to R192). `stsf`, `fempty`, `trigclr` and
every atomic to `z`: to another core or module, with room in `PENDB`, it completes at once with one request on its way and the
request's bytes in `PENDB` (R183, R234); to shared space of the own module it completes once its port has accepted it (R244). A
load from shared space, or from another core's local store, of a module that exists sends one request and leaves its thread
waiting for the reply, with nothing else changed (R81, R146). -/
def Obligations.AccessCompletes : Prop :=
  (∀ (s : State) (i : Instr) (sx : Bool) (d : Operand) (k : Fin 8) (sz : Size) (mod : Bool) (disp : BitVec 15) (ga v : Word)
     (c1 c2 c3 : Ctx s),
     i = (if sx then .ld d k sz mod disp else .ldn d k sz mod disp) → s.admits i = true →
     segCheck (s.me.seg.get k) ((s.me.a.get k).toNat + disp.toInt) (sizeBytes sz) .r = .ok ga →
     Answers (load ga (sizeBytes sz)) (s.begins i) v c1 → Answers (advanceIf mod k) c1 () c2 →
     Answers (write d (extend sx (sizeBytes sz) v)) c2 () c3 → exec i s = .next (c3.retired .seq)) ∧
  (∀ (s : State) (d : Operand) (k : Fin 8) (sz : Size) (mod : Bool) (disp : BitVec 15) (ga v : Word) (c0 c1 c2 c3 : Ctx s),
     let i : Instr := .st d k sz mod disp
     s.admits i = true →
     segCheck (s.me.seg.get k) ((s.me.a.get k).toNat + disp.toInt) (sizeBytes sz) .w = .ok ga →
     (isShared ga = true ∨ windowAccepts (gaOff ga) (sizeBytes sz) .store = true) →
     Answers (addressFirst ga d) (s.begins i) () c0 → Answers (advanceIf mod k) c0 () c1 → Answers (use d) c1 v c2 → Answers (store ga (sizeBytes sz) v) c2 () c3 →
     exec i s = .next (c3.retired .seq)) ∧
  (∀ (s : State) (i : Instr) (sx : Bool) (d : Fin 16) (k : Fin 8) (sz : Size) (mod : Bool) (disp : BitVec 15) (ga : Word),
     i = (if sx then .ld (.s d) k sz mod disp else .ldn (.s d) k sz mod disp) → s.me.taken = [] →
     segCheck (s.me.seg.get k) ((s.me.a.get k).toNat + disp.toInt) (sizeBytes sz) .r = .ok ga →
     isOwn s.ctl.core ga = false → s.exists_ ga = true →
     (isShared ga = true ∨ windowAccepts (gaOff ga) (sizeBytes sz) .load = true) →
     ∃ t r, exec i s = .next t ∧ look t.reqs s.ctl.nextId = some r ∧ r.op = .load (sizeBytes sz) ∧ r.ga = ga ∧ r.core = s.ctl.core ∧
       r.slot = s.ctl.slot ∧ r.awaited = true ∧ r.stage = .sent ∧
       t.me = { s.me with run := .waiting (.reply s.ctl.nextId), parked := some (encode i), woken := false } ∧ t.mem = s.mem) ∧
  (∀ (s : State) (i : Instr) (op : HomeOp) (k : Fin 8) (disp : Int) (mod : Bool) (d : Operand) (ga v : Word),
     awaitedRule s.me i = some (op, k, disp, mod, d) → s.admits i = true → s.me.taken = [.val v] →
     segCheck (s.me.seg.get k) ((s.me.a.get k).toNat + disp) op.size .s = .ok ga →
     (isShared ga = true ∨ windowAccepts (gaOff ga) op.size .sync = true) →
     exec i s = .next (s.wentOn { s.me with a := s.me.moved mod k, s := destination s.me.s d v } .seq)) ∧
  (∀ (s : State) (i : Instr) (op : HomeOp) (k : Fin 8) (disp : Int) (mod : Bool) (ga : Word),
     let own := isShared ga = true ∧ gaModule ga = moduleOf s.ctl.core
     retiredRule s.me i = some (op, k, disp, mod) → s.admits i = true →
     segCheck (s.me.seg.get k) ((s.me.a.get k).toNat + disp) op.size .s = .ok ga → isOwn s.ctl.core ga = false →
     (isShared ga = true ∨ windowAccepts (gaOff ga) op.size .sync = true) →
     (¬own → s.exists_ ga = true → s.me.pendb.toNat + op.size < 2 ^ 32 →
       ∃ t r, exec i s = .next t ∧ look t.reqs s.ctl.nextId = some r ∧ r.op = op ∧ r.ga = ga ∧ r.core = s.ctl.core ∧
         r.slot = s.ctl.slot ∧ r.bytes = op.size ∧ r.retired = true ∧ r.awaited = false ∧ r.stage = .sent ∧ t.me.run = .ready ∧
         t.me.pendb = s.me.pendb + BitVec.ofNat 32 op.size ∧ t.me.a = s.me.moved mod k ∧ t.me.s = s.me.s ∧ t.mem = s.mem) ∧
     (own → s.me.taken = [.done] → exec i s = .next (s.wentOn { s.me with a := s.me.moved mod k } .seq)))

/-- An access of `ld`, `ldn` or `st` that `Seg` refuses takes the trap of its first failed check with the offset as its value:
beyond the limit or below zero SEG_LIMIT, without the right SEG_RIGHTS, not aligned to its size MISALIGNED; nothing else changes
(R109, R110, R133). -/
def Obligations.SegmentTrap : Prop :=
  ∀ (s : State) (i : Instr) (k : Fin 8) (sz : Size) (mod : Bool) (disp : BitVec 15) (d : Operand) (need : Right),
    let off : Int := (s.me.a.get k).toNat + disp.toInt
    let seg := s.me.seg.get k
    let n := sizeBytes sz
    ((need = .r ∧ (i = .ld d k sz mod disp ∨ i = .ldn d k sz mod disp)) ∨ (need = .w ∧ i = .st d k sz mod disp)) →
    s.admits i = true →
    ((off < 0 ∨ (seg.limit : Int) < off + n) →
      ∃ t, exec i s = .next t ∧ TrapTaken s t s.ctl.core s.ctl.slot 0x04 (wInt off)) ∧
    (0 ≤ off → off + n ≤ (seg.limit : Int) → seg.has need = false →
      ∃ t, exec i s = .next t ∧ TrapTaken s t s.ctl.core s.ctl.slot 0x05 (wInt off)) ∧
    (0 ≤ off → off + n ≤ (seg.limit : Int) → seg.has need = true → (seg.form off.toNat).toNat % n ≠ 0 →
      ∃ t, exec i s = .next t ∧ TrapTaken s t s.ctl.core s.ctl.slot 0x06 (wInt off))

/-- `pf` completes at every address and in every form: it never traps, parks or waits, changes no byte of memory, and no register
of its thread but the pointer that MOD advances; at an address of shared space of a module that exists, which passes `Seg`, it
sends one request for the line, and at any other none (R122). `setp`, `getp`, `setm`, `segq` and `npcount`, in every operand form,
complete with the transfer that R123 and R173 give: a pointer or the low 20 bits of a mode register set from A, a pointer or a
word of a descriptor read before D is written, and the entries of a port's queue in bits [7:0] with its credits in bits [15:8],
both 0 at the edge of the mesh. `segld` in supervisor mode, in every operand form: with no reserved bit, SPREAD 0 or 1, and under
spread a local base that is a multiple of 8, the descriptor takes both words; otherwise ILLEGAL_OPERAND is taken (R249). -/
def Obligations.PointersAndSegments : Prop :=
  (∀ (s : State) (h : Hint) (k : Fin 8) (mod : Bool) (disp : BitVec 15),
     let address := segCheck (s.me.seg.get k) ((s.me.a.get k).toNat + disp.toInt) 1 .r
     ∃ t, exec (.pf h k mod disp) s = .next t ∧ t.mem = s.mem ∧
       t.me = (continueAt { s.me with a := s.me.moved mod k } .seq).readyFrom (s.cycle s.ctl.core + 1) ∧
       (∀ L k', (L, k') ≠ (s.ctl.core, s.ctl.slot) → t.thread L k' = s.thread L k') ∧
       (∀ ga, address = .ok ga → isShared ga = true → s.exists_ ga = true →
         ∃ r, look t.reqs s.ctl.nextId = some r ∧ r.op = .prefetch (h = .nt) ∧ r.ga = ga ∧ r.core = s.ctl.core ∧ r.awaited = false ∧
           r.bytes = 0 ∧ r.stage = .sent) ∧
       ((∀ ga, address = .ok ga → isShared ga = false ∨ s.exists_ ga = false) → t.reqs = s.reqs)) ∧
  (∀ (s : State) (k : Fin 8) (o : Operand) (p : Port) (second : Bool) (v : Word) (c c' : Ctx s),
     (s.admits (.setp k o) = true → Answers (use o) (s.begins (.setp k o)) v c →
       exec (.setp k o) s = .next (Ctx.retired
         { c with run := c.run.push (.thread (tkey c.core c.slot) { c.me with a := vset c.me.a k v }) } .seq)) ∧
     (s.admits (.setm k o) = true → Answers (use o) (s.begins (.setm k o)) v c →
       exec (.setm k o) s = .next (Ctx.retired
         { c with run := c.run.push (.thread (tkey c.core c.slot) { c.me with m := vset c.me.m k (v.truncate 20) }) } .seq)) ∧
     (s.admits (.getp o k) = true → Answers (write o (s.me.a.get k)) (s.begins (.getp o k)) () c' →
       exec (.getp o k) s = .next (c'.retired .seq)) ∧
     (s.admits (.segq o k second) = true →
       Answers (write o (if second then (s.me.seg.get k).word.zeroExtend 64 else (s.me.seg.get k).base)) (s.begins (.segq o k second)) ()
         c' → exec (.segq o k second) s = .next (c'.retired .seq)) ∧
     (s.admits (.npcount o (.port p)) = true →
       Answers (write o (w64 (if (peer s.ctl.core s.ctl.slot p).isNone then 0
         else 256 * s.me.credits.get p.index + (s.me.queues.get p.index).length))) (s.begins (.npcount o (.port p))) () c' →
       exec (.npcount o (.port p)) s = .next (c'.retired .seq))) ∧
  (∀ (s : State) (k : Fin 8) (a b : Operand) (base w : Word) (c : Ctx s),
     s.admits (.segld k a b) = true → Answers (useAll [a, b]) (s.begins (.segld k a b)) [base, w] c →
     ((w.toNat < 2 ^ 45 ∨ (w.toNat / 2 ^ 45 = 1 ∧ base.toNat < 2 ^ 63 ∧ base.toNat % 8 = 0)) →
       exec (.segld k a b) s = .next (Ctx.retired
         { c with run := c.run.push (.thread (tkey c.core c.slot)
             { c.me with seg := vset c.me.seg k { base := base, word := w.truncate 47 } }) } .seq)) ∧
     (¬(w.toNat < 2 ^ 45 ∨ (w.toNat / 2 ^ 45 = 1 ∧ base.toNat < 2 ^ 63 ∧ base.toNat % 8 = 0)) → c = s.begins (.segld k a b) →
       ∃ t, exec (.segld k a b) s = .next t ∧
         TrapTaken s t s.ctl.core s.ctl.slot 0x02 ((encode (.segld k a b)).zeroExtend 64)))

/-! Synchronisation. -/

/-- `ldfe` and `ldff` on a full word of the own local store that is not poisoned: D gets the word, `ldfe` sets it empty and `ldff`
leaves it full, no byte of memory changes, and the instruction completes (R180). `stef` on an empty word, and `stsf` on any word,
of the own local store: the word gets the value of D and is full, no other byte of memory changes, and the instruction completes;
`fempty` sets a word empty and changes no byte (R180, R182). `fstate` on a word of the own local store writes its full-empty bit
to D and changes no memory (R182). `ldfe` and `ldff` on an empty word of the own local store, and `stef` on a full one, leave the
thread parked on the word in the step of the failed attempt, where the home has a free entry that no ticket awaits; nothing is
read or written (R180, R184, R185, R186). -/
def Obligations.FullEmptyLocal : Prop :=
  (∀ (s : State) (takes : Bool) (d : Operand) (k : Fin 8) (mod : Bool) (disp : BitVec 15) (ga : Word),
     let i : Instr := if takes then .ldfe d k mod disp else .ldff d k mod disp
     let w := s.localKey s.ctl.core (gaOff ga) / 8
     s.admits i = true → LocalSync s k disp.toInt 8 ga → s.mem.full w = true → s.mem.poisoned w = false →
     ∃ t, exec i s = .next t ∧ t.me.s = destination s.me.s d (s.localWord s.ctl.core (gaOff ga) 8) ∧ t.me.run = .ready ∧
       t.mem.full w = !takes ∧ (∀ w', w' ≠ w → s.mem.wf = true → t.mem.full w' = s.mem.full w') ∧
       (∀ j, t.mem.byte j = s.mem.byte j) ∧ t.me.status = s.me.status ∧ OthersWoken s t) ∧
  (∀ (s : State) (d : Operand) (k : Fin 8) (mod : Bool) (disp : BitVec 15) (ga : Word),
     let key := s.localKey s.ctl.core (gaOff ga)
     s.mem.wf = true → LocalSync s k disp.toInt 8 ga →
     (∀ i : Instr, (i = .stef d k mod disp ∧ s.mem.full (key / 8) = false) ∨ i = .stsf d k mod disp → s.admits i = true →
       ∃ t, exec i s = .next t ∧ Stored s.mem t.mem key 8 (sourceValue s.me.s d) ∧ t.mem.full (key / 8) = true ∧
         t.me.s = s.me.s ∧ t.me.run = .ready ∧ OthersWoken s t) ∧
     (disp = 0 → ∃ t, exec (.fempty k) s = .next t ∧ t.mem.full (key / 8) = false ∧ (∀ j, t.mem.byte j = s.mem.byte j) ∧
       t.me.s = s.me.s ∧ t.me.run = .ready ∧ OthersWoken s t)) ∧
  (∀ (s : State) (d : Operand) (k : Fin 8) (ga : Word),
     s.admits (.fstate d k) = true → LocalSync s k 0 8 ga →
     exec (.fstate d k) s = .next (s.wentOn { s.me with
       s := destination s.me.s d (truth (s.mem.full (s.localKey s.ctl.core (gaOff ga) / 8) = true)) } .seq)) ∧
  (∀ (s : State) (i : Instr) (d : Operand) (k : Fin 8) (mod : Bool) (disp : BitVec 15) (ga : Word) (awaits : Awaits),
     let w := s.localKey s.ctl.core (gaOff ga) / 8
     ((awaits = .full ∧ (i = .ldfe d k mod disp ∨ i = .ldff d k mod disp) ∧ s.mem.full w = false) ∨
       (awaits = .empty ∧ i = .stef d k mod disp ∧ s.mem.full w = true)) →
     s.admits i = true → LocalSync s k disp.toInt 8 ga → s.me.wordWait = none → s.me.ticket = none →
     (s.home s.ctl.core).hasEntry = true → (s.home s.ctl.core).nowServing = (s.home s.ctl.core).nextTicket →
     ∃ t, exec i s = .next t ∧ t.me.run = .waiting (.word s.ctl.core ga awaits) ∧ t.me.parked = some (encode i) ∧
       t.me.s = s.me.s ∧ t.me.a = s.me.a ∧ t.me.pc = s.me.pc ∧ t.mem = s.mem ∧
       (t.home s.ctl.core).monitors = (s.home s.ctl.core).monitors ++
         [{ core := s.ctl.core, slot := s.ctl.slot, ga := ga, word := (Place.win s.ctl.core (gaOff ga)).word, awaits := awaits }])

/-- An atomic on a word of the own local store that is not poisoned: the word becomes the function of its old value and B (four
bytes for `amo.fadd`), D gets the old value unless it is `z`, no other byte changes, and the instruction completes (R189, R190).
`cas` on a word of the own local store that is not poisoned: if the word equals D it becomes B, else no byte changes; D gets the
old value in either case, and the instruction completes (R191). `lr` on a word of the own local store that is not poisoned gives
the word and leaves the thread holding a reservation there; `sc` on the own local store stores B and answers 1 if the thread holds
a reservation on the word's block at the home, and otherwise stores nothing and answers 0, and in either case holds none
afterwards; `waitrs` without a reservation completes with no effect, and with one at the own local store parks, where the home has
a free entry that no ticket awaits (R192, R194). -/
def Obligations.AtomicLocal : Prop :=
  (∀ (s : State) (i : Instr) (fn : Nat) (d b : Operand) (k : Fin 8) (ga : Word),
     let n := if fn = 9 then 4 else 8
     let key := s.localKey s.ctl.core (gaOff ga)
     let old := s.localWord s.ctl.core (gaOff ga) n
     atomicRule i = some (fn, d, b, k) → s.admits i = true → LocalSync s k 0 n ga → s.mem.wf = true →
     s.mem.poisoned (key / 8) = false →
     ∃ t, exec i s = .next t ∧ Stored s.mem t.mem key n (atomicValue fn old (sourceValue s.me.s b)) ∧
       t.me.s = destination s.me.s d old ∧ t.me.run = .ready ∧ t.me.status = s.me.status ∧ OthersWoken s t) ∧
  (∀ (s : State) (d b : Operand) (k : Fin 8) (ga : Word),
     let key := s.localKey s.ctl.core (gaOff ga)
     let old := s.localWord s.ctl.core (gaOff ga) 8
     s.admits (.cas d b k) = true → LocalSync s k 0 8 ga → s.mem.wf = true → s.mem.poisoned (key / 8) = false →
     ∃ t, exec (.cas d b k) s = .next t ∧ t.me.s = destination s.me.s d old ∧ t.me.run = .ready ∧
       (old = sourceValue s.me.s d → Stored s.mem t.mem key 8 (sourceValue s.me.s b)) ∧
       (old ≠ sourceValue s.me.s d → t.mem = s.mem)) ∧
  (∀ (s : State) (d b : Operand) (k : Fin 8) (ga : Word),
     let key := s.localKey s.ctl.core (gaOff ga)
     let place := Place.win s.ctl.core (gaOff ga)
     let held := (s.home s.ctl.core).reservations.any fun r => r.core = s.ctl.core ∧ r.slot = s.ctl.slot ∧ r.block = place.block
     s.mem.wf = true → s.mem.poisoned (key / 8) = false → LocalSync s k 0 8 ga →
     (s.admits (.lr d k) = true → ∃ t, exec (.lr d k) s = .next t ∧ t.me.run = .ready ∧ t.mem = s.mem ∧
       t.me.s = destination s.me.s d (s.localWord s.ctl.core (gaOff ga) 8) ∧ t.me.reservation = some (ga, s.ctl.core) ∧
       t.holds s.ctl.core s.ctl.slot = true) ∧
     (s.admits (.sc d b k) = true → ∃ t, exec (.sc d b k) s = .next t ∧ t.me.run = .ready ∧ t.me.reservation = none ∧
       t.me.s = destination s.me.s d (truth (held = true)) ∧ t.holds s.ctl.core s.ctl.slot = false ∧
       (held = true → Stored s.mem t.mem key 8 (sourceValue s.me.s b)) ∧ (held = false → t.mem = s.mem)) ∧
     (s.holds s.ctl.core s.ctl.slot = false → exec .waitrs s = .next (s.wentOn s.me .seq)) ∧
     (s.holds s.ctl.core s.ctl.slot = true → s.me.reservation = some (ga, s.ctl.core) → s.me.wordWait = none → s.me.ticket = none →
       (s.home s.ctl.core).hasEntry = true → (s.home s.ctl.core).nowServing = (s.home s.ctl.core).nextTicket →
       ∃ t, exec .waitrs s = .next t ∧ t.me.run = .waiting (.word s.ctl.core ga .reservation) ∧ t.me.parked = some (encode .waitrs) ∧
         t.me.s = s.me.s ∧ t.me.pc = s.me.pc ∧ t.mem = s.mem))

/-- A fence whose waits are over completes with no other effect: at once for `acq` and for scope `thread`, else when `PENDB` is
zero, no error is held and, at scope 4 and above, no REP copy of the thread's own stores is in flight. While `PENDB` is not zero a
fence of another kind and scope leaves its thread waiting, with nothing else changed (R284, R285). A fence with a flag in the own
local store, when its waits are over, writes 1 to the flag's word and sets it full, and completes (R285, R286). -/
def Obligations.Fences : Prop :=
  (∀ (s : State) (kind : FenceKind) (scope : Scope),
     (kind = .acq ∨ scope = .thread ∨ s.released scope = true →
       exec (.fence kind scope) s = .next (s.wentOn s.me .seq)) ∧
     (kind ≠ .acq → scope ≠ .thread → s.me.pendb ≠ 0 →
       exec (.fence kind scope) s = .next ((Op.thread (tkey s.ctl.core s.ctl.slot) { s.me with
         run := .waiting .drain, parked := some (encode (.fence kind scope)), taken := [], woken := false
         barAt := s.ctl.now }).apply s))) ∧
  (∀ (s : State) (kind : FenceKind) (scope : Scope) (k : Fin 8) (ga : Word),
     let key := s.localKey s.ctl.core (gaOff ga)
     LocalSync s k 0 8 ga → s.mem.wf = true → kind = .acq ∨ scope = .thread ∨ s.released scope = true →
     ∃ t, exec (.fenceFlag kind scope k) s = .next t ∧ Stored s.mem t.mem key 8 1 ∧ t.mem.full (key / 8) = true ∧
       t.me.run = .ready ∧ t.me.s = s.me.s ∧ OthersWoken s t)

/-- `gidget` sends one request to its module's pool and waits, and with the pool's answer given it writes the answer to D and
completes; `gidput`, in every operand form, uses A, sends its request to the byte of the identifier's bit, and completes without waiting; a
value of A that names no identifier sends nothing (R200, R458). -/
def Obligations.GroupIdentifiers : Prop :=
  ∀ (s : State) (d a : Operand) (v g : Word) (c : Ctx s),
    (s.admits (.gidget d) = true → s.me.taken = [] →
      ∃ t r, exec (.gidget d) s = .next t ∧ t.me.run = .waiting (.reply s.ctl.nextId) ∧ look t.reqs s.ctl.nextId = some r ∧
        r.op = .gidget ∧ r.awaited = true ∧ r.target = some (paTarget (moduleOf s.ctl.core) 0x82100) ∧ r.stage = .sent ∧ t.mem = s.mem) ∧
    (s.admits (.gidget d) = true → s.me.taken = [.val v] →
      exec (.gidget d) s = .next (s.wentOn { s.me with s := destination s.me.s d v } .seq)) ∧
    (s.admits (.gidput a) = true → Answers (use a) (s.begins (.gidput a)) g c →
      (1 ≤ g.toNat → g.toNat ≤ 4095 →
        ∃ c' : Ctx s, exec (.gidput a) s = .next (c'.retired .seq) ∧ c'.me = c.me ∧ c'.run.s.mem = c.run.s.mem ∧
          ∃ r, look c'.run.s.reqs c.run.s.ctl.nextId = some r ∧ r.op = .gidput g.toNat ∧ r.awaited = false ∧ r.stage = .sent ∧
            r.target = some (paTarget (moduleOf s.ctl.core) (0x82100 + g.toNat / 8))) ∧
      (g = 0 ∨ 4095 < g.toNat → exec (.gidput a) s = .next (c.retired .seq)))

/-! Control transfers and system registers. -/

/-- The loop check of R128 after an instruction that goes on in sequence: at LEND with LCOUNT not 0 the count falls by one, and
the PC goes to LSTART unless it fell to zero; otherwise the PC rises by 4. No other register changes. A conditional branch, in
every operand form: it completes, going to the PC plus four times its displacement if its condition holds, and in sequence
otherwise (R125). `jmp` goes to the PC plus four times its displacement; `call` does so with PC + 4 in `s15`; neither changes any
other register, thread or byte of memory (R126). `jr` goes to A if that is a multiple of 4, and takes MISALIGNED with A as its
value otherwise (R126). `loop` sets LSTART to the next instruction, LEND to its target and LCOUNT to A; a count of 0 goes on past
LEND, and any other in sequence without the loop check (R127, R128). -/
def Obligations.ControlTransfers : Prop :=
  (∀ t : Thread,
     (t.pc = w64 (4 * t.lend.toNat) → t.lcount ≠ 0 → t.lcount ≠ 1 →
       continueAt t .seq = { t with lcount := t.lcount - 1, pc := w64 (4 * t.lstart.toNat) }) ∧
     (t.pc = w64 (4 * t.lend.toNat) → t.lcount = 1 → continueAt t .seq = { t with lcount := 0, pc := t.pc + 4 }) ∧
     (t.pc ≠ w64 (4 * t.lend.toNat) ∨ t.lcount = 0 → continueAt t .seq = { t with pc := t.pc + 4 })) ∧
  (∀ (s : State) (i : Instr) (os : List Operand) (cond : List Word → Bool) (disp : BitVec 16) (xs : List Word) (c : Ctx s),
     branchRule i = some (os, cond, disp) → s.admits i = true → Answers (useAll os) (s.begins i) xs c →
     exec i s = .next (c.retired (if cond xs then .jump (pcTarget c.me.pc disp) else .seq))) ∧
  (∀ (s : State) (disp : BitVec 26),
     exec (.jmp disp) s = .next (s.wentOn s.me (.jump (pcTarget s.me.pc disp))) ∧
     exec (.call disp) s = .next (s.wentOn { s.me with s := vset s.me.s 15 (s.me.pc + 4) } (.jump (pcTarget s.me.pc disp)))) ∧
  (∀ (s : State) (a : Operand) (v : Word) (c : Ctx s),
     s.admits (.jr a) = true → Answers (use a) (s.begins (.jr a)) v c →
     (v.toNat % 4 = 0 → exec (.jr a) s = .next (c.retired (.jump v))) ∧
     (v.toNat % 4 ≠ 0 → c = s.begins (.jr a) →
       ∃ t, exec (.jr a) s = .next t ∧ TrapTaken s t s.ctl.core s.ctl.slot 0x06 v)) ∧
  (∀ (s : State) (a : Operand) (disp : BitVec 16) (n : Word) (c : Ctx s),
     s.admits (.loop a disp) = true → Answers (use a) (s.begins (.loop a disp)) n c →
     exec (.loop a disp) s = .next (Ctx.retired
       { c with run := c.run.push (.thread (tkey c.core c.slot) { c.me with
           lstart := BitVec.ofNat 62 ((c.me.pc + 4).toNat / 4), lend := BitVec.ofNat 62 ((pcTarget c.me.pc disp).toNat / 4)
           lcount := n }) } (if n = 0 then .jump (pcTarget c.me.pc disp + 4) else .seqNoLoop)))

/-- `mfsys` of a register that the mode may read, in every operand form of D: it completes with the value that the register had at
its issue written to D (R22, R23, R129). `mtsys` of a register that the mode may write, from a scalar register: it completes, the
register then reads as the written value with its unlisted bits zero, and no scalar register, pointer, descriptor, bit of STATUS
or byte of memory changes; MXGATE takes the low 16 bits, unless a later-issued write has been performed (the model's choice, log
63); a write to a read-only register completes and changes nothing; MXPROMO refuses 0 and 65 to 127 with ILLEGAL_OPERAND (R23,
R129). `mtsys` of STATUS from a scalar register: a rounding mode above 4 takes ILLEGAL_OPERAND; otherwise EN, FLAGS and RM take
the written bits, PMODE takes its bit in supervisor mode alone, MODE never changes, and bits [3:2] read as zero (R24, R129). `mfsys` and
`mtsys` of a number that the table of registers does not list take ILLEGAL_OPERAND with the instruction word, in either mode and in
every operand form that its operand's code admits (R22). -/
def Obligations.SystemRegisters : Prop :=
  (∀ (s : State) (i : Instr) (o : Operand) (n : BitVec 12), i = .mfsys o n ∨ i = .mtsys n o → s.admits i = true →
     sysKnown n.toNat = false → ∃ t, exec i s = .next t ∧ TrapTaken s t s.ctl.core s.ctl.slot 0x02 ((encode i).zeroExtend 64)) ∧
  (∀ (s : State) (d : Operand) (sys : BitVec 12) (v : Word) (rest : List Token) (c : Ctx s),
     s.admits (.mfsys d sys) = true → sysKnown sys.toNat = true → (s.me.mode = true ∨ ¬(0x10 ≤ sys.toNat ∧ sys.toNat ≤ 0x13)) →
     ((s.me.taken = [] ∧ rest = [] ∧ v = s.sysRead s.ctl.core s.ctl.slot sys.toNat) ∨ s.me.taken = .val v :: rest) →
     Answers (write d v) { s.begins (.mfsys d sys) with left := rest, seen := [.val v] } () c →
     exec (.mfsys d sys) s = .next (c.retired .seq)) ∧
  (∀ (s : State) (a : Fin 16) (n : Nat) (mask : Nat),
     let i : Instr := .mtsys (BitVec.ofNat 12 n) (.s a)
     let v := s.me.s.get a
     (n ∈ [0x001, 0x002, 0x023, 0x025, 0x041] → exec i s = .next (s.wentOn s.me .seq)) ∧
     (n = 0x042 → ¬(1 ≤ v.toNat % 128 ∧ v.toNat % 128 ≤ 64) →
       ∃ t, exec i s = .next t ∧ TrapTaken s t s.ctl.core s.ctl.slot 0x02 ((encode i).zeroExtend 64)) ∧
     ((n, mask) ∈ [(0x020, 2 ^ 32 - 1), (0x021, 2 ^ 8 - 1), (0x022, 2 ^ 32 - 1), (0x024, 2 ^ 64 - 1), (0x026, 2 ^ 64 - 8),
       (0x030, 2 ^ 64 - 4), (0x031, 2 ^ 64 - 4), (0x032, 2 ^ 64 - 1)] ++
       (List.range 8).map (fun k => (0x050 + k, 2 ^ 20 - 1)) ++
       (if 1 ≤ v.toNat % 128 ∧ v.toNat % 128 ≤ 64 then [(0x042, 2 ^ 7 - 1)] else []) ++
       (if s.me.mode then [(0x003, 2 ^ 16 - 1), (0x010, 2 ^ 64 - 4), (0x011, 2 ^ 64 - 4), (0x012, 2 ^ 8 - 1), (0x013, 2 ^ 64 - 1),
         (0x027, 0x7E)] else []) →
     ∃ t, exec i s = .next t ∧ t.sysRead s.ctl.core s.ctl.slot n = v &&& w64 mask ∧ t.me.s = s.me.s ∧ t.me.a = s.me.a ∧
       t.me.seg = s.me.seg ∧ t.me.status = s.me.status ∧ t.mem = s.mem) ∧
     (n = 0x040 → s.me.mode = true → s.me.taken = [] →
       ∃ t, exec i s = .next t ∧ t.me.s = s.me.s ∧ t.me.status = s.me.status ∧ t.mem = s.mem ∧
         (t.core s.ctl.core).mxgate =
           if (s.core s.ctl.core).mxgateAt ≤ s.cycle s.ctl.core then v.truncate 16 else (s.core s.ctl.core).mxgate)) ∧
  (∀ (s : State) (a : Fin 16),
     let i : Instr := .mtsys 0 (.s a)
     let v := s.me.s.get a
     (5 ≤ v.toNat / 2 ^ 4 % 8 → ∃ t, exec i s = .next t ∧ TrapTaken s t s.ctl.core s.ctl.slot 0x02 ((encode i).zeroExtend 64)) ∧
     (v.toNat / 2 ^ 4 % 8 < 5 → ∃ t, exec i s = .next t ∧ t.me.mode = s.me.mode ∧
       t.me.pmode = (if s.me.mode then v.getLsbD 1 else s.me.pmode) ∧ t.me.status.toNat / 2 ^ 4 = v.toNat / 2 ^ 4 % 2 ^ 13 ∧
       t.me.status.toNat / 2 ^ 2 % 4 = 0 ∧ t.me.s = s.me.s ∧ t.mem = s.mem))

/-- `trap` takes TRAP_INSN with its number, and `brk` takes BREAK with 0, at their own PC; taking it writes what R133 names and
leaves every other register, thread and byte of memory (R133, R134). `tret` in supervisor mode: MODE takes PMODE, the PC takes
TRAPPC without a loop check, PMODE is unchanged, and nothing else changes; in user mode it takes PRIVILEGE with its word (R49,
R134). -/
def Obligations.TrapAndReturn : Prop :=
  (∀ (s : State) (n : BitVec 12),
     (∃ t, exec (.trap n) s = .next t ∧ TrapTaken s t s.ctl.core s.ctl.slot 0x09 (n.zeroExtend 64)) ∧
     ∃ t, exec .brk s = .next t ∧ TrapTaken s t s.ctl.core s.ctl.slot 0x0A 0) ∧
  (∀ s : State, s.me.mode = false →
     ∃ t, exec .tret s = .next t ∧ TrapTaken s t s.ctl.core s.ctl.slot 0x03 ((encode .tret).zeroExtend 64)) ∧
  (∀ s : State, s.me.mode = true →
     ∃ t, exec .tret s = .next t ∧ t.me.mode = s.me.pmode ∧ t.me.pmode = s.me.pmode ∧
       t.me.pc = w64 (4 * s.me.trappc.toNat) ∧ t.me.status.toNat / 4 = s.me.status.toNat / 4 ∧ t.me.s = s.me.s ∧
       t.me.lcount = s.me.lcount ∧ SameButScalars s.me t.me ∧ t.me.run = .ready ∧ t.mem = s.mem ∧
       ∀ L k, (L, k) ≠ (s.ctl.core, s.ctl.slot) → t.thread L k = s.thread L k)

/-- In user mode `segld`, `tret`, `wake`, `preempt` and `tlbinv` take PRIVILEGE with the instruction word, before any operand is
used; so do reads and writes of TRAPVEC, TRAPPC, TRAPCAUSE and TRAPVAL, and writes of ASID, ENROLL and MXGATE (R22, R49, R51). An
operand field with a code its instruction does not accept takes ILLEGAL_OPERAND with the instruction word, and otherwise a port
without a peer takes NP_EDGE with the code of the first such operand, in either case before any operand is used (R45, R50, R51,
R165). For `mfsys` and `mtsys` of a register that is not listed, or that user mode does not reach, that NP_EDGE comes first is the
model's reading (log 76, DEDUCED). -/
def Obligations.PrecheckTraps : Prop :=
  (∀ (s : State) (i : Instr), s.me.mode = false →
     (Instr.supervisor i = true ∨
       (∃ d n, i = .mfsys d n ∧ s.admits i = true ∧ 0x10 ≤ n.toNat ∧ n.toNat ≤ 0x13) ∨
       ∃ n a, i = .mtsys n a ∧ s.admits i = true ∧ (n.toNat ∈ [0x03, 0x10, 0x11, 0x12, 0x13, 0x27, 0x40])) →
     ∃ t, exec i s = .next t ∧ TrapTaken s t s.ctl.core s.ctl.slot 0x03 ((encode i).zeroExtend 64)) ∧
  (∀ (s : State) (i : Instr), Instr.supervisor i = false ∨ s.me.mode = true →
     ((Instr.fields i).all (fun (o, a) => a.ok o) = false →
       ∃ t, exec i s = .next t ∧ TrapTaken s t s.ctl.core s.ctl.slot 0x02 ((encode i).zeroExtend 64)) ∧
     ((Instr.fields i).all (fun (o, a) => a.ok o) = true → ∀ p, edgePort s.ctl.core s.ctl.slot (Instr.fields i) = some p →
       ∃ t, exec i s = .next t ∧ TrapTaken s t s.ctl.core s.ctl.slot 0x12 (w64 (24 + p.index.val))))

/-- `rand` steps SEED by the shifts of R8 and then writes it to D, in every operand form; on a full D port it parks, with SEED and
every other register as they were, so that the reissue makes the same step; `iinv`, once the thread's `PENDB` is zero and no error
is held, empties the instruction cache of its core and completes (R130, R131). -/
def Obligations.RandomAndCache : Prop :=
  ∀ (s : State) (d : Operand) (c : Ctx s),
    let x1 := s.me.seed ^^^ s.me.seed <<< 13
    let x2 := x1 ^^^ x1 >>> 7
    let x3 := x2 ^^^ x2 <<< 17
    (s.admits (.rand d) = true →
      Answers (write d x3) { s.begins (.rand d) with
        run := (s.begins (.rand d)).run.push (.thread (tkey s.ctl.core s.ctl.slot) { s.me with seed := x3 }) } () c →
      exec (.rand d) s = .next (c.retired .seq)) ∧
    (∀ p : Port, d = .port p → s.admits (.rand d) = true → s.me.credits.get p.index = 0 → s.me.portWait = none →
      ∃ t, exec (.rand d) s = .next t ∧ t.me.run = .waiting (.port p true) ∧ t.me.parked = some (encode (.rand d)) ∧
        t.me.seed = s.me.seed ∧ t.me.s = s.me.s ∧ t.me.pc = s.me.pc ∧ SameButScalars s.me t.me ∧ t.mem = s.mem) ∧
    (s.me.pendb = 0 → s.me.deferred = none →
      ∃ t, exec .iinv s = .next t ∧ (t.physCore (t.physOf s.ctl.core)).icache = [] ∧ t.me.run = .ready ∧ t.me.s = s.me.s ∧
        t.mem = s.mem)

/-! Threads and tasks. -/

/-- `spawn` of a slot number up to 15 that is idle or halted, in every operand form: it completes, and the slot is ready with the
state of R27, its first issue 16 cycles away or more; of any other slot, its own included, it completes and changes nothing but
its own thread; a slot number above 15 takes ILLEGAL_OPERAND (R27, R153). -/
def Obligations.Spawn : Prop :=
  ∀ (s : State) (a b : Operand) (n e : Word) (c : Ctx s),
    let i : Instr := .spawn a b
    let k := Fin.ofNat 16 n.toNat
    s.admits i = true → Answers (useAll [a, b]) (s.begins i) [n, e] c → c.core = s.ctl.core → c.slot = s.ctl.slot →
    (n.toNat ≤ 15 → (c.run.s.thread s.ctl.core k).startable = true → ¬c.run.s.arrived s.ctl.core k →
      ∃ c' : Ctx s, exec i s = .next (c'.retired .seq) ∧
        let u := c'.run.s.thread s.ctl.core k
        u.run = .ready ∧ u.nextIssue = c.run.s.cycle s.ctl.core + 16 ∧ u.pc = e ∧ (∀ j, u.s.get j = 0 ∧ u.eng = Thread.reset.eng) ∧
        (∀ j, u.a.get j = 0 ∧ u.m.get j = 0) ∧ u.seg = c.me.seg ∧ u.asid = c.me.asid ∧ u.trapvec = c.me.trapvec ∧
        u.enroll = c.me.enroll ∧ u.status = 0 ∧ u.waitlim = c.me.waitlim ∧ u.feretry = c.me.feretry ∧ u.nplim = c.me.nplim ∧
        u.seed = c.me.seed ∧ u.sigaddr = c.me.sigaddr ∧ u.mxpromo = c.me.mxpromo ∧ u.pendb = 0 ∧ u.lstart = 0 ∧
        u.lend = 0 ∧ u.lcount = 0 ∧ u.trappc = 0 ∧ u.trapcause = 0 ∧ u.trapval = 0 ∧ u.queues = Thread.reset.queues) ∧
    (n.toNat ≤ 15 → (c.run.s.thread s.ctl.core k).startable = false → exec i s = .next (c.retired .seq)) ∧
    (15 < n.toNat → c = s.begins i →
      ∃ t, exec i s = .next t ∧ TrapTaken s t s.ctl.core s.ctl.slot 0x02 ((encode i).zeroExtend 64))

/-- `yield` changes no state but its own place, and its thread cannot issue at its next own position: 16 cycles later it is still
before its next issue (R155). `texit` with no packet in service, `PENDB` zero and every command of the thread complete makes the
slot idle, with its queues empty, its reservation, its deferred error and the errors of its commands gone; otherwise, with `PENDB`
not zero or a command outstanding, the thread waits (R156). -/
def Obligations.YieldAndExit : Prop :=
  (∀ s : State, exec .yield s = .next (s.wentOn s.me .yielded)) ∧
  (∀ s : State, s.me.inService = false →
     let busy := s.me.pendb ≠ 0 ∨ ∃ e, s.outstanding s.ctl.core s.ctl.slot e ≠ 0
     (¬busy → ∃ t, exec .texit s = .next t ∧ t.me.run = .idle ∧ t.me.deferred = none ∧ t.me.reservation = none ∧
       (∀ p : Port, t.me.queues.get p.index = []) ∧ t.me.entry = none ∧ ∀ e, (t.me.engThread e).err = none) ∧
     (busy → ∃ t, exec .texit s = .next t ∧ t.me.run = .waiting .drain ∧ t.me.pc = s.me.pc ∧ t.mem = s.mem))

/-- `launch`, in every operand form: once its packet is valid and its release waits are over, it completes and one flood is on its
way with the packet, the low 16 bits of the mask and the thread's descriptors, ASID, TRAPVEC and ENROLL, having reached no core
yet (R157, R158). -/
def Obligations.Launch : Prop :=
  ∀ (s : State) (scope : Scope) (a b : Operand) (p mask : Word) (pkt : Packet) (c c1 : Ctx s),
    let i : Instr := .launch scope a b
    s.admits i = true → Answers (useAll [a, b]) (s.begins i) [p, mask] c → Answers (launchPacket scope p) c pkt c1 →
    Answers (release scope) c1 () c1 →
    ∃ (c' : Ctx s) (f : Flood), exec i s = .next (c'.retired .seq) ∧ look c'.run.s.floods c1.run.s.ctl.nextId = some f ∧
      f.scope = scope ∧ f.reached = [] ∧ f.launch.packet = pkt ∧ f.launch.mask = mask.truncate 16 ∧ f.launch.seg = c1.me.seg ∧
      f.launch.asid = c1.me.asid ∧ f.launch.trapvec = c1.me.trapvec ∧ f.launch.enroll = c1.me.enroll ∧ c'.run.s.mem = c1.run.s.mem

/-- `taskpush`, in every operand form: once its packet is valid, no split is under way, its deque has room and nothing is held for
it, it completes; where no slot waits for a packet, the deque has one packet more. With the deque full, or with a packet held for
it, the thread parks in state 5 (R207, R209, R221). `taskpop`: with a packet assigned whose footprint, if any, has been fetched,
it copies the packet to the slot's buffer, writes the buffer's offset to D and completes with the packet in service; when its wait
has ended without a packet it writes 0 and completes; with both deques empty it parks in state 8 as the last of the slots that
wait (R210, R211). `taskdone` of the slot's own buffer with a packet in service, its release waits at scope `system` over and no
split under way, completes with no packet in service and no pin; for a successor handle that names another core it sends one
decrement, whose 8 bytes `PENDB` then holds, whatever the poison marks of the words it reads (the model's choice, log 89); without a packet in
service, or of another buffer, it takes ILLEGAL_OPERAND (R212). -/
def Obligations.Tasks : Prop :=
  (∀ (s : State) (a : Operand) (p : Word) (pkt : Packet) (c c1 : Ctx s),
     let i : Instr := .taskpush a
     let urgent := hdrUrgent (pkt.word 0)
     s.admits i = true → Answers (use a) (s.begins i) p c → Answers (readTask .push p) c pkt c1 → c1.core = s.ctl.core →
     (c1.run.s.core s.ctl.core).split = none →
     let full := c1.run.s.dequeFull s.ctl.core urgent ||
       (c1.run.s.core s.ctl.core).heldTasks.any fun x => hdrUrgent (Packet.word x.packet 0) = urgent
     (full = false →
       ∃ c' : Ctx s, exec i s = .next (c'.retired .seq) ∧ ((c1.run.s.core s.ctl.core).poppers = [] →
         ((c'.run.s.core s.ctl.core).deque urgent).count = ((c1.run.s.core s.ctl.core).deque urgent).count + 1)) ∧
     (full = true →
       ∃ t, exec i s = .next t ∧ t.me.run = .waiting (.dequeRoom urgent) ∧ t.me.pc = s.me.pc ∧ t.me.s = s.me.s ∧ t.mem = s.mem)) ∧
  (∀ (s : State) (d : Fin 16),
     let i : Instr := .taskpop (.s d)
     s.me.inService = false →
     (∀ x, s.me.assigned = some x → (hdrFp (Packet.word x 0) = false ∨ (Packet.range x).2 ≤ 8 * s.me.fetched) →
       ∃ t, exec i s = .next t ∧ t.me.s = vset s.me.s d (w64 (0x1F1000 + 256 * s.ctl.slot.val)) ∧ t.me.inService = true ∧
         t.me.assigned = none ∧ t.me.run = .ready ∧ (x.length ≤ 256 → s.mem.wf = true → ∀ j, j < x.length / 8 * 8 →
           t.mem.byte (lsKey (s.physOf s.ctl.core) (0x1F1000 + 256 * s.ctl.slot.val + j)) = x.getD j 0)) ∧
     (s.me.assigned = none → s.me.popEnded.isSome = true →
       exec i s = .next (State.wentOn ((Op.core s.ctl.core { s.core s.ctl.core with
         poppers := (s.core s.ctl.core).poppers.filter fun j => j ≠ s.ctl.slot }).apply s) { s.me with s := vset s.me.s d 0 } .seq)) ∧
     (s.me.assigned = none → s.me.popEnded = none → (s.core s.ctl.core).split = none →
       (s.core s.ctl.core).urgent.count = 0 → (s.core s.ctl.core).normal.count = 0 →
       ∃ t, exec i s = .next t ∧ t.me.run = .waiting .taskpop ∧ t.mem = s.mem ∧
         (t.core s.ctl.core).poppers = (s.core s.ctl.core).poppers ++ [s.ctl.slot])) ∧
  (∀ (s : State) (a : Operand) (v : Word) (c : Ctx s),
     let i : Instr := .taskdone a
     s.admits i = true → Answers (use a) (s.begins i) v c → c.core = s.ctl.core → c.slot = s.ctl.slot →
     (c.me.inService = true → v = w64 (0x1F1000 + 256 * s.ctl.slot.val) → Answers (release .system) c () c →
       (c.run.s.core s.ctl.core).split = none →
       ∃ c' : Ctx s, exec i s = .next (c'.retired .seq) ∧ (c'.run.s.thread s.ctl.core s.ctl.slot).inService = false ∧
         (c'.run.s.thread s.ctl.core s.ctl.slot).pin = none ∧
         ∀ n, Packet.handles (c.run.s.packetAt s.ctl.core (0x1F1000 + 256 * s.ctl.slot.val)) = [n] → isShared (w64 n) = false →
           gaModule (w64 n) < c.run.s.nmod → gaCore (w64 n) ≠ s.ctl.core →
           (c'.run.s.thread s.ctl.core s.ctl.slot).pendb = c.me.pendb + 8 ∧
           ∃ r, look c'.run.s.reqs c.run.s.ctl.nextId = some r ∧ r.op = .decrement ∧ r.ga = w64 n ∧ r.core = s.ctl.core ∧
             r.slot = s.ctl.slot ∧ r.bytes = 8 ∧ r.retired = true ∧ r.awaited = false ∧ r.stage = .sent) ∧
     (c.me.inService = false ∨ v ≠ w64 (0x1F1000 + 256 * s.ctl.slot.val) → c = s.begins i →
       ∃ t, exec i s = .next t ∧ TrapTaken s t s.ctl.core s.ctl.slot 0x02 ((encode i).zeroExtend 64)))

/-- `trigset` on a word of the own local store, with a valid packet, no split under way, a free trigger entry and room in the
home's binding table: it completes with the entry in use, and where the word is empty the word is bound to it; `trigclr` there
completes and leaves the word unbound (R218, R219). -/
def Obligations.TriggersLocal : Prop :=
  ∀ (s : State) (k : Fin 8) (b : Operand) (ga p : Word) (pkt : Packet) (c c1 : Ctx s) (e : Fin 16),
    let i : Instr := .trigset k b
    let place := Place.win s.ctl.core (gaOff ga)
    LocalSync s k 0 8 ga →
    (s.admits i = true → Answers (use b) (s.begins i) p c → Answers (readTask .trigger p) c pkt c1 → c1.left = [] →
      c1.core = s.ctl.core → (c1.run.s.core s.ctl.core).split = none →
      ((List.finRange 16).find? fun e => !bit (c1.run.s.core s.ctl.core).triggers e.val) = some e →
      (c1.run.s.home s.ctl.core).bindings.length < 64 → (c1.run.s.home s.ctl.core).bindings.all (fun x => x.word ≠ place.word) = true →
      ∃ c' : Ctx s, exec i s = .next (c'.retired .seq) ∧ bit (c'.run.s.core s.ctl.core).triggers e.val = true ∧
        (c1.run.s.placeFull place = false →
          { word := place.word, ga := ga, core := s.ctl.core, entry := e } ∈ (c'.run.s.home s.ctl.core).bindings)) ∧
    (∃ t, exec (.trigclr k) s = .next t ∧ t.me.run = .ready ∧ t.me.s = s.me.s ∧ t.mem = s.mem ∧
      (t.home s.ctl.core).bindings.all (fun x => x.word ≠ place.word) = true)

/-! Engines. -/

/-- Every engine command: when nothing rejects it, its group identifier if any is not draining, and the thread has fewer than two
commands outstanding on the engine, it completes; the engine's queue has one command more, with the instruction's fields, the
thread's rigging registers with address parameters as global addresses, and a sequence number one greater than the last; SEED
steps if the command draws, and no scalar register, pointer, bit of STATUS or byte of memory changes (R312, R313, R430). A rejected
command takes ENG_REJECT with the engine's code and the reason, and no command is issued; a third command of a thread on an engine
parks in state 5 with nothing changed (R313, R314). -/
def Obligations.EngineIssue : Prop :=
  ∀ (s : State) (i : Instr) (eng : Engine) (cmd : Nat) (x : EngArgs) (spec : State → Nat → Thread → EngSpec),
    let L := s.ctl.core
    let sp := spec s L s.me
    let reason := rejectReason s.me (s.me.engThread eng).rig sp
    let drains := ∃ g, sp.gid = some g ∧ g ∈ (s.module (moduleOf L)).draining
    engineRule i = some (eng, cmd, x, spec) → s.admits i = true →
    (∀ r, reason = some r → ∃ t, exec i s = .next t ∧ TrapTaken s t L s.ctl.slot 0x18 (w64 (256 * eng.code + r)) ∧ t.cores = s.cores) ∧
    (reason = none → ¬drains → 2 ≤ s.outstanding L s.ctl.slot eng →
      ∃ t, exec i s = .next t ∧ t.me.run = .waiting (.engineQueue eng) ∧ t.me.parked = some (encode i) ∧ t.cores = s.cores ∧
        t.mem = s.mem ∧ t.me.eng = s.me.eng) ∧
    (reason = none → ¬drains → s.outstanding L s.ctl.slot eng < 2 →
    ∃ t c, exec i s = .next t ∧ (t.engine L eng).queue = (s.engine L eng).queue ++ [c] ∧
      (t.engine L eng).running = (s.engine L eng).running ∧ c.cmd = cmd ∧ c.slot = s.ctl.slot ∧ c.a = sourceValue s.me.s x.a ∧
      c.b = sourceValue s.me.s x.b ∧ c.acq = x.acq ∧ c.rel = x.rel ∧ c.scope = x.scope ∧ c.sig = x.sig ∧ c.asid = s.me.asid ∧
      c.sigaddr = s.me.sigaddr ∧ c.rig = snapshot s.me (s.me.engThread eng).rig sp.params ∧
      c.seq = (s.me.engThread eng).seq + 1 ∧ (t.me.engThread eng).seq = (s.me.engThread eng).seq + 1 ∧
      t.me.seed = (if sp.draws then nextRand s.me.seed else s.me.seed) ∧ t.me.s = s.me.s ∧ t.me.a = s.me.a ∧
      t.me.status = s.me.status ∧ t.me.pendb = s.me.pendb ∧ t.me.run = .ready ∧ t.mem = s.mem)

/-- `engset` writes A to a rigging register and `engget` writes one to D, in every operand form; `engstat`, in every operand form,
writes to D the status word of R319 (commands outstanding, whether an error is recorded, the format flags and DONESEQ) and clears
the flags it returned; `engwait` with no command outstanding, no write of one on its way to a replica, and no error completes with
no effect, and with an error empties the record and takes ENG_ERROR with its code (R317, R319). -/
def Obligations.EngineInterface : Prop :=
  ∀ (s : State) (eng : Engine) (n : Fin 32) (o : Operand) (d : Fin 16) (v : Word) (c : Ctx s),
    let L := s.ctl.core
    let x := s.me.engThread eng
    let quiet := s.outstanding L s.ctl.slot eng = 0 ∧ s.engineCopies L s.ctl.slot eng = false
    let status := statusWord x (s.outstanding L s.ctl.slot eng)
    (s.admits (.engset eng n o) = true → Answers (use o) (s.begins (.engset eng n o)) v c →
      exec (.engset eng n o) s = .next (Ctx.retired { c with run := c.run.push (.thread (tkey c.core c.slot) { c.me with
        eng := vset c.me.eng (engIx eng) { c.me.engThread eng with rig := vset (c.me.engThread eng).rig n v } }) } .seq)) ∧
    (s.admits (.engget o eng n) = true → Answers (write o (x.rig.get n)) (s.begins (.engget o eng n)) () c →
      exec (.engget o eng n) s = .next (c.retired .seq)) ∧
    (s.admits (.engstat o eng) = true → s.me.taken = [] →
      Answers (write o status) { s.begins (.engstat o eng) with
        seen := [.val status]
        run := (s.begins (.engstat o eng)).run.push (.thread (tkey L s.ctl.slot) { s.me with
          eng := vset s.me.eng (engIx eng) { x with flags := x.flags &&& ~~~(BitVec.ofNat 5 (field status 8 5)) } }) } () c →
      exec (.engstat o eng) s = .next (c.retired .seq)) ∧
    (s.outstanding L s.ctl.slot eng ≤ 2 → s.me.taken = [] →
      exec (.engstat (.s d) eng) s = .next (s.wentOn { s.me with
        eng := vset s.me.eng (engIx eng) { x with flags := 0 }
        s := vset s.me.s d (w64 (2 ^ 32 * x.doneSeq.toNat + 2 ^ 8 * x.flags.toNat + 4 * x.err.isSome.toNat
          + s.outstanding L s.ctl.slot eng)) } .seq)) ∧
    (quiet → x.err = none → exec (.engwait eng) s = .next (s.wentOn s.me .seq)) ∧
    (∀ code, quiet → x.err = some code →
      ∃ t, exec (.engwait eng) s = .next t ∧ t.me.trapcause = 0x19 ∧ t.me.trapval = w64 (256 * eng.code + code.toNat) ∧
        (t.me.engThread eng).err = none ∧ t.me.mode = true ∧ t.me.pc = w64 (4 * s.me.trapvec.toNat) ∧ t.mem = s.mem) ∧
    (s.outstanding L s.ctl.slot eng ≠ 0 ∨ s.engineCopies L s.ctl.slot eng = true →
      ∃ t, exec (.engwait eng) s = .next t ∧ t.me.run = .waiting (.engineDone eng) ∧ t.me.pc = s.me.pc ∧ t.mem = s.mem)

/-- `engsave` and `engload`, in every operand form, once the thread's commands are complete: `engsave` checks the 272-byte area
and stores the rigging registers and the words of R320, at their targets, once every word of the area is translated and `PENDB` has
room for it;
`engload` reads them and, with no reserved bit set, sets the thread's state for the engine from them (R320). A save area written
by `engsave` is read back by `engload` as the state it was written from, but for DONESEQ, which stays. -/
def Obligations.EngineSaveLoad : Prop :=
  (∀ (s : State) (eng : Engine) (a : Operand) (p : Word) (d : Seg) (off : Nat) (bs : List Byte) (tgs : List (Option Target))
     (c c0 c1 c2 : Ctx s),
     (s.admits (.engsave eng a) = true → Answers (use a) (s.begins (.engsave eng a)) p c → Answers (engineWaitFirst eng) c () c →
       Answers (saveArea p .w) c (d, off) c → Answers (windowWords d off 34) c () c →
       Answers (checkWords d off 34) c tgs c0 → c0.me.pendb.toNat + 272 < 2 ^ 32 →
       Answers (storeWords d off ((saveWords (c0.me.engThread eng)).zip tgs)) c0 () c1 → exec (.engsave eng a) s = .next (c1.retired .seq)) ∧
     (s.admits (.engload eng a) = true → Answers (use a) (s.begins (.engload eng a)) p c → Answers (engineWaitFirst eng) c () c →
       Answers (saveArea p .r) c (d, off) c → Answers (readWords d off 34) c bs c2 → saveWordsOk (wordsOf bs) = true →
       exec (.engload eng a) s = .next (Ctx.retired { c2 with run := c2.run.push (.thread (tkey c2.core c2.slot) { c2.me with
         eng := vset c2.me.eng (engIx eng) (loadSave (c2.me.engThread eng) (wordsOf bs)) }) } .seq))) ∧
  (∀ x y : EngThread, saveWordsOk (saveWords x) = true ∧
     loadSave y (saveWords x) = { x with doneSeq := y.doneSeq })

/-! System instructions. -/

/-- `wake`, `preempt` and `tlbinv` in supervisor mode, in every operand form and with their release waits over: each leaves its
thread waiting for the unit that performs it, in state 2, with memory unchanged; `preempt` is last in the controller's queue, and
`tlbinv` awaits every die (R250, R416, R422). `wake`, `preempt` and `tlbinv`, given the answer of the unit that performs them,
complete (R250, R416, R422). -/
def Obligations.SystemRequests : Prop :=
  (∀ (s : State) (a d : Operand) (h : Word) (c : Ctx s), s.me.mode = true → s.me.taken = [] →
     (s.admits (.wake a) = true → Answers (use a) (s.begins (.wake a)) h c → c.left = [] → h.toNat < 2 ^ 33 →
       Answers (release .package) c () c →
       ∃ t, exec (.wake a) s = .next t ∧ t.me.run = .waiting (.table h) ∧ t.me.parked = some (encode (.wake a)) ∧ t.mem = s.mem) ∧
     (s.admits (.preempt a) = true → Answers (use a) (s.begins (.preempt a)) h c → c.left = [] →
       field h 33 16 = 0 → field h 50 2 < 2 → field h 52 12 < s.sysBlock (moduleOf s.ctl.core) 0x20 % 2 ^ 13 →
       moduleOf (field h 0 33) = moduleOf s.ctl.core → field h 0 33 ≠ s.ctl.core → s.isService (field h 0 33) = false →
       ∃ t, exec (.preempt a) s = .next t ∧ t.me.run = .waiting .controller ∧
         (t.module (moduleOf s.ctl.core)).freezeQueue = (s.module (moduleOf s.ctl.core)).freezeQueue ++
           [{ core := s.ctl.core, slot := s.ctl.slot, value := h }] ∧ t.mem = s.mem) ∧
     (s.admits (.tlbinv d a) = true → isShared (sourceValue s.me.s a) = true → gaModule (sourceValue s.me.s a) = moduleOf s.ctl.core →
       s.released .package = true →
       ∃ t, exec (.tlbinv d a) s = .next t ∧
         t.me.run = .waiting (.acks (sourceValue s.me.s a) (sourceValue s.me.s d) [0, 1, 2, 3, 4, 5, 6, 7]) ∧ t.mem = s.mem)) ∧
  (∀ (s : State) (i : Instr) (a d : Operand) (h : Word), s.me.mode = true → s.me.taken = [.done] →
     s.admits i = true → s.released .package = true →
     ((i = .wake a ∧ Answers (use a) (s.begins i) h (s.begins i) ∧ h.toNat < 2 ^ 33) ∨
       (i = .preempt a ∧ Answers (use a) (s.begins i) h (s.begins i)) ∨
       (i = .tlbinv d a ∧ isShared (sourceValue s.me.s a) = true ∧ gaModule (sourceValue s.me.s a) = moduleOf s.ctl.core)) →
     exec i s = .next (s.wentOn s.me .seq))

/-! Events of memory, ports, homes and barriers. -/

/-- The reply to a load lands, and the load completes in that cycle with the extended value in its register (R146); a translated
store is accepted, enters the network of its home's die, counts in `PENDB` and completes (R244, R263); after a reissue neither issues
again within its 16 cycles (R145). An engine's message answered goes to the engine that waits for it (R454). An acknowledgement takes its bytes from `PENDB` and leaves its error,
if it carries one and none is held (R234, R246), and one for a thread whose slot has been started again changes nothing of the new
thread (R27); neither lands before the earlier answers of its home core (R150). A wait for `PENDB` ends when it is zero (R246,
R285); a failed attempt is sent again with one repeat fewer (R184); a returned request is sent again when its time has come
(R415). -/
def Obligations.Replies : Prop :=
  ∀ (s : State) (id : Nat) (r : Req), s.wf = true → look s.reqs id = some r →
    let u := s.thread r.core r.slot
    (∀ (i : Instr) (sx : Bool) (d : Fin 16) (k : Fin 8) (sz : Size) (disp : BitVec 15) (ga v : Word),
      i = (if sx then .ld (.s d) k sz false disp else .ldn (.s d) k sz false disp) → i.wf = true → r.stage = .performed (.val v) →
      r.awaited = true → (s.core r.core).status ≠ .saved → s.answerBehind r = false → u.run = .waiting (.reply id) → u.parked = some (encode i) → u.taken = [] →
      segCheck (u.seg.get k) ((u.a.get k).toNat + disp.toInt) (sizeBytes sz) .r = .ok ga →
      (isShared ga = true ∨ windowAccepts (gaOff ga) (sizeBytes sz) .load = true) →
      ∃ t, exec (.remoteReplyLands id) s = .next t ∧ look t.reqs id = none ∧ t.mem = s.mem ∧
        t.thread r.core r.slot =
          (continueAt { u with s := vset u.s d (extend sx (sizeBytes sz) v) } .seq).readyFrom
            (s.cycle r.core + max 1 (u.nextIssue - s.cycle r.core))) ∧
    (∀ (d : Fin 16) (k : Fin 8) (sz : Size) (disp : BitVec 15) (ga : Word) (tg : Target), r.target = some tg →
      r.stage = .translated → r.awaited = false → r.retired = false → u.run = .waiting (.reply id) →
      u.parked = some (encode (.st (.s d) k sz false disp)) → u.taken = [] →
      segCheck (u.seg.get k) ((u.a.get k).toNat + disp.toInt) (sizeBytes sz) .w = .ok ga → isShared ga = true →
      gaModule ga = moduleOf r.core →
      let die := dieOfSlice tg.home
      let x := s.netInput r die
      ∃ t, exec (.storeAccepted id) s = .next t ∧ look t.reqs id = some { r with retired := true, input := x } ∧
        (t.net die).at_ 0 x = (s.net die).at_ 0 x ++ [id] ∧ t.mem = s.mem ∧
        t.thread r.core r.slot = (continueAt { u with pendb := u.pendb + BitVec.ofNat 32 r.bytes } .seq).readyFrom
          (s.cycle r.core + max 1 (u.nextIssue - s.cycle r.core))) ∧
    (∀ tok, r.stage = .performed tok → r.awaited = false → r.retired = true → (s.core r.core).status ≠ .saved →
      s.answerBehind r = false →
      (∀ e, r.engine = some e → (s.engine r.core e).wait = .message id →
        ∃ t, exec (.storeAck id) s = .next t ∧ look t.reqs id = none ∧ t.thread r.core r.slot = u ∧ t.mem = s.mem ∧
          t.engine r.core e = { s.engine r.core e with wait := .none, reply := some tok }) ∧
      (r.engine = none → u.gen = r.gen → exec (.storeAck id) s = .next (applyAll [.req id none, .thread (tkey r.core r.slot) { u with
        pendb := u.pendb - BitVec.ofNat 32 r.bytes, deferred := u.deferred.or tok.error }] s)) ∧
      (r.engine = none → u.gen ≠ r.gen → exec (.storeAck id) s = .next ((Op.req id none).apply s))) ∧
    (∀ L k, (s.thread L k).run = .waiting .drain → (s.core L).status = .active → (s.thread L k).pendb = 0 →
      ((s.thread L k).parked = none → exec (.pendbDrainResume L k) s = .next ((Op.thread (tkey L k)
        ((s.thread L k).goesOn (max (s.thread L k).nextIssue (s.cycle L + 1)))).apply s)) ∧
      (∀ kind scope, (s.thread L k).parked = some (encode (.fence kind scope)) → (s.thread L k).deferred = none →
        (∀ y ∈ s.copies, ¬(y.2.core = L ∧ y.2.slot = k ∧ y.2.engine = none)) →
        exec (.pendbDrainResume L k) s = .next (s.goneOn L k (s.thread L k)))) ∧
    (∀ again, r.stage = .failed again → again ≤ s.ctl.now → u.run = .waiting (.reply id) →
      exec (.feRetry id) s = .next (applyAll [.ctl { s.ctl with nextId := s.ctl.nextId + 1 }, .req id none,
        .req s.ctl.nextId (some { r with
          left := r.left - 1, stage := .sent, target := none, via := none, hop := none, requeued := false }),
        .thread (tkey r.core r.slot) { u with run := .waiting (.reply s.ctl.nextId) }] s)) ∧
    (∀ again, r.stage = .returned again → again ≤ s.ctl.now →
      exec (.heldRequestResend id) s = .next ((Op.req id (some { r with stage := .sent })).apply s))

/-- In a position that is the message engine's, vacant or forced, it takes its first item and the cycle ends (R140, R141): an
incoming load at a local store is performed with the bytes there, and at the receiving core of another module counts in `MSGIN` as
well (R453, R462), which sends one for another core's local store on to that core and keeps it at the head of its queue (R453); a
woken thread takes the trap that ended its wait, fetches again, or has its instruction (here `engwait`) reissued, from 16 cycles
later on (R145). A fill of a line of a local store puts its bytes in the instruction cache, and its thread issues from the next
cycle if it then has its word (R132). -/
def Obligations.MessageEngine : Prop :=
  (∀ (s : State) (L : Nat) (forced : Bool), s.positionReady L = true → s.position L = .mse forced →
    (∀ id rest r n, (s.core L).mse = .remote id :: rest → look s.reqs id = some r → r.stage = .queued → r.op = .load n →
      r.target = none → isShared r.ga = false → gaOff r.ga + n ≤ 0x1F2000 → s.placePoison (localTarget r.ga).place = false →
      let done (t : State) : Prop :=
        look t.reqs id = some { r with
            stage := .performed (.val (w64 (s.readPlace (localTarget r.ga).place n))), answered := s.ctl.steps } ∧
          (t.core L).mse = rest ∧ (t.core L).starved = 0 ∧ (t.physCore (t.physOf L)).cycle = (s.physCore (s.physOf L)).cycle + 1 ∧ t.mem = s.mem
      (moduleOf r.core = moduleOf L →
        ∃ t, exec (if forced then .mseForcedPosition L else .mseRemoteOp L) s = .next t ∧ done t ∧
          (t.core L).msgin = (s.core L).msgin) ∧
      (moduleOf r.core ≠ moduleOf L → gaModule r.ga ≠ moduleOf r.core → r.via.getD (s.destination r) = L → s.pairHeld id r = false →
        (gaCore r.ga = L →
          ∃ t, exec (.activeMessage id) s = .next t ∧ done t ∧ (t.core L).msgin = (s.core L).msgin + 1) ∧
        (gaCore r.ga ≠ L → (s.core (gaCore r.ga)).status = .active →
          ∃ t, exec (.activeMessage id) s = .next t ∧ look t.reqs id = some { r with stage := .forwarded, hop := some s.ctl.nextId } ∧
            (t.core L).mse = (s.core L).mse ∧ (t.core L).msgin = (s.core L).msgin + 1 ∧ t.mem = s.mem))) ∧
    (∀ k rest w, (s.core L).mse = .reissue k :: rest → (s.core L).status = .active → (s.thread L k).run = .waiting w →
      (s.thread L k).woken = true →
      let u := s.thread L k
      let i : Instr := if forced then .mseForcedPosition L else .mseReissue L
      let becomes (v : Thread) : Prop :=
        ∃ t, exec i s = .next t ∧ t.thread L k = v ∧ (t.core L).mse = rest ∧ (t.core L).starved = 0 ∧
          (t.physCore (t.physOf L)).cycle = (s.physCore (s.physOf L)).cycle + 1 ∧ t.mem = s.mem
      (∀ cause v, u.pendingTrap = some (cause, v) → u.parked.isSome = true →
        becomes (enterTrap (u.readyFrom (s.cycle L + 16)) cause v u.pc)) ∧
      (u.pendingTrap = none → u.parked = none → becomes { u with woken := false, run := .waiting .fill, nextIssue := s.cycle L + 16 }) ∧
      (∀ eng, u.pendingTrap = none → u.parked = some (encode (.engwait eng)) → (u.engThread eng).err = none →
        s.outstanding L k eng = 0 → s.engineCopies L k eng = false →
        becomes ((continueAt u .seq).readyFrom (s.cycle L + 16))))) ∧
  (∀ (s : State) (L : Nat) (k : Fin 16) (line : Word),
    let u := s.thread L k
    u.run = .waiting .fill → u.woken = false → (s.core L).status = .active → s.isWaiter (.thread L k) = false →
    u.again ≤ s.ctl.now → u.spoiled = false → s.fetch L u = .miss line → isShared line = false → s.reachable (gaCore line) = true →
    ∃ t, exec (.icacheFill L k) s = .next t ∧ t.mem = s.mem ∧
      t.cachedLine L u.asid line = some (s.lineFrom (.win (gaCore line) (gaOff line))) ∧
      ((∀ x, t.fetch L u ≠ .miss x) → t.thread L k = u.readyFrom (max u.nextIssue (s.cycle L + 1))))

/-- A port entry that is due joins the end of its queue, and wakes a thread that waits for it; at an idle or halted slot it is
discarded (R166, R170, R174). A credit that is due raises the count of its port, and wakes a thread that waits for it (R167). A
port wait that has lasted longer than its limit, when its core has come to that cycle and nothing due at its ports has still to arrive, ends
in NP_TIMEOUT with
the port's operand code, which the message engine takes (R172). -/
def Obligations.PortEvents : Prop :=
  (∀ (s : State) (id : Nat) (m : PortMsg), look s.ports id = some m → m.due ≤ s.ctl.now → s.landsAt id m.core = true →
    s.portBehind id m = false →
    let u := s.thread m.core m.slot
    let gone := (Op.port id none).apply s
    let queued : Thread :=
      { u with queues := vset u.queues m.port.index (u.queues.get m.port.index ++ [(m.value, m.fromCore, m.fromSlot)]) }
    let credited : Thread := { u with credits := vset u.credits m.port.index (u.credits.get m.port.index + 1) }
    (m.isCredit = false → u.startable = false → u.run ≠ .waiting (.port m.port false) →
      exec (.portEntryArrives id) s = .next ((Op.thread (tkey m.core m.slot) queued).apply gone)) ∧
    (m.isCredit = false → u.run = .waiting (.port m.port false) → u.woken = false →
      exec (.portEntryArrives id) s = .next (gone.reissued m.core m.slot queued)) ∧
    (m.isCredit = false → u.startable = true →
      ∃ t, exec (.portEntryArrives id) s = .next t ∧ t.thread m.core m.slot = u ∧ t.mem = s.mem) ∧
    (m.isCredit = true → u.run ≠ .waiting (.port m.port true) →
      exec (.portCreditReturn id) s = .next ((Op.thread (tkey m.core m.slot) credited).apply gone)) ∧
    (m.isCredit = true → u.run = .waiting (.port m.port true) → u.woken = false →
      exec (.portCreditReturn id) s = .next (gone.reissued m.core m.slot credited))) ∧
  (∀ (s : State) (L : Nat) (k : Fin 16) (p : Port) (push : Bool),
    let u := s.thread L k
    u.run = .waiting (.port p push) → u.woken = false → expired u.portWait (s.cycle L) = true → (s.core L).status = .active →
    (s.physCore (s.physOf L)).gated = false → (s.physCore (s.physOf L)).next ≤ s.ctl.now → s.portDue L = false →
    exec (.npTimeout L k) s = .next (s.reissued L k { u with pendingTrap := some (0x11, w64 (24 + p.index.val)) }))

/-- A freed monitor entry is kept for the lowest outstanding ticket, whose thread is woken (R186); with tickets outstanding the
oldest entry is turned over when 1,024 cycles of the home have gone by (R186, R434); a word wait beyond its limit sends a
withdrawal, and the home that performs it frees the thread's entry and ends its wait in FE_TIMEOUT with the address; at the own
local store that is done in the cycle of the expiry (R187). -/
def Obligations.WordWaits : Prop :=
  ∀ (s : State) (home L : Nat) (k : Fin 16),
    let h := s.home home
    let u := s.thread L k
    (∀ n w, s.homeActive home = true → h.hasEntry = true → h.nowServing.toNat < h.nextTicket.toNat →
      h.tickets.find? (fun x => x.1 = h.nowServing.toNat) = some (n, L, k) →
      (∃ ga awaits, w = .word home ga awaits) → u.run = .waiting w → u.woken = false →
      exec (.ticketServed home) s = .next (((Op.home home { h with
        nowServing := h.nowServing + 1, kept := h.kept ++ [h.nowServing.toNat]
        tickets := h.tickets.filter fun x => x.1 ≠ h.nowServing.toNat }).apply s).reissued L k u)) ∧
    (∀ m rest w, h.monitors = m :: rest → m.core = L → m.slot = k → s.homeActive home = true → h.tickets ≠ [] →
      h.lastTurn + s.homeCycles home 1024 ≤ s.ctl.now → u.run = .waiting w → u.woken = false →
      exec (.monitorTurnover home) s =
        .next (((Op.home home { h with monitors := rest, lastTurn := s.ctl.now }).apply s).reissued L k u)) ∧
    (∀ ga awaits, u.run = .waiting (.word home ga awaits) → u.woken = false →
      (∀ x, u.ticket = some x → x.1 = home) →
      let ended (t : State) : Prop := t.mem = s.mem ∧
        t.thread L k = { u with withdrawing := false, ticket := none, pendingTrap := some (0x10, ga), woken := true } ∧
        (t.home home).monitors = h.monitors.filter (fun m => !(m.core = L ∧ m.slot = k)) ∧
        (t.core L).mse = (s.core L).mse ++ [.reissue k]
      (u.withdrawing = false → expired u.wordWait (s.cycle L) = true → (s.core L).status = .active →
        (s.physCore (s.physOf L)).gated = false → (s.physCore (s.physOf L)).next ≤ s.ctl.now →
        (home ≠ L → exec (.waitlimExpiry L k) s = .next ((Op.thread (tkey L k) { u with withdrawing := true }).apply s)) ∧
        (home = L → ∃ t, exec (.waitlimExpiry L k) s = .next t ∧ ended t)) ∧
      (u.withdrawing = true → s.homeReached home = true → ∃ t, exec (.withdrawal L k) s = .next t ∧ ended t))

/-- `bar` at a scope in which the thread is enrolled, when its release waits are over, leaves the thread about to arrive, standing
at the `bar`; at a scope in which it is not enrolled it takes ILLEGAL_OPERAND (R196, R198). An arrival adds one to A; while A is
below E the thread waits, and the arrival that makes A reach E sets A to 0 and releases every thread that had arrived (R197), to
complete within the cycles of R198 from the latest issue among them; a release that reaches a thread completes its `bar` (R196),
a restored slot's no earlier than 16 cycles after the restore, and not while it has its pinned footprint to fetch again (R425, R426). -/
def Obligations.Barriers : Prop :=
  (∀ (s : State) (scope : Scope), scope ≠ .thread →
    (bit s.me.enroll (scope.code - 1) = true → s.released scope = true →
      ∃ t, exec (.bar scope) s = .next t ∧ t.me.run = .waiting (.barArrive scope) ∧ t.me.parked = some (encode (.bar scope)) ∧
        t.me.s = s.me.s ∧ t.mem = s.mem) ∧
    (bit s.me.enroll (scope.code - 1) = false →
      ∃ t, exec (.bar scope) s = .next t ∧ TrapTaken s t s.ctl.core s.ctl.slot 0x02 ((encode (.bar scope)).zeroExtend 64))) ∧
  (∀ (s : State) (L : Nat) (k : Fin 16) (scope : Scope), (s.core L).status = .active →
    let u := s.thread L k
    let key := groupKey scope (s.groupOf scope L)
    let g := s.group key
    (u.run = .waiting (.barArrive scope) →
      ((g.a : Int) + 1 < g.e → exec (.barArrival L k) s = .next (applyAll [.thread (tkey L k) { u with run := .waiting (.barWait scope) },
        .group key { g with a := g.a + 1, waiting := g.waiting ++ [(L, k)], last := max g.last u.barAt }] s)) ∧
      (g.e ≤ (g.a : Int) + 1 → ∃ t, exec (.barArrival L k) s = .next t ∧
        t.group key = { g with a := 0, waiting := [], last := max g.last u.barAt } ∧
        (∀ y ∈ g.waiting ++ [(L, k)], (t.thread y.1 y.2).run = .waiting (.barReleased scope) ∧
          (t.thread y.1 y.2).barAt = max g.last u.barAt + s.nominal y.1 (s.barCycles scope y.1)) ∧ t.mem = s.mem)) ∧
    (u.run = .waiting (.barReleased scope) →
      let v := (continueAt u .seq).readyFrom (max u.nextIssue (s.cycle L + 1))
      exec (.barRelease L k) s =
        .next ((Op.thread (tkey L k) (if u.refetches then { v with run := .waiting .footprint } else v)).apply s)))

/-! Events of launches and tasks. -/

/-- The wake of a launch at a core of a module that has the launch, with a free launch entry and no earlier flood on its way: the
entry holds the launch, an idle or halted slot in the mask starts with the state of R27, R160 and R161, spelled out in
`StartedByLaunch`, from 16 cycles later on, and every
other slot in the mask stays as it runs (R158, R159); a slot with an earlier held start is not started past it (the model's
choice, log 73). A held start is performed in the cycle after the one in which its slot became idle or halted, in order of the
wakes (R159). -/
def Obligations.LaunchEvents : Prop :=
  ∀ (s : State) (L : Nat) (k e : Fin 16),
    (∀ flood f, look s.floods flood = some f → s.inScope f.scope f.fromCore L = true → L ∉ f.reached →
      (∀ x ∈ s.floods, flood ≤ x.1) → s.reachable L = true → f.modules.contains (moduleOf L) = true →
      (s.core L).freeEntry = some e → f.launch.mask ≠ 0 →
      ∃ t x, exec (.launchWake flood L) s = .next t ∧ (t.core L).entries.get e = some x ∧ x.launch = f.launch ∧
        (bit f.launch.mask k.val = true → (s.thread L k).startable = true → ((s.core L).firstHeld k).isNone = true →
          t.thread L k = { launched f.launch (s.thread L k) L k e with run := .ready, nextIssue := s.cycle L + 16 } ∧
          StartedByLaunch f.launch (t.thread L k) L k e (s.cycle L + 16)) ∧
        (bit f.launch.mask k.val = false ∨ (s.thread L k).startable = false → (t.thread L k).run = (s.thread L k).run)) ∧
    (∀ x, s.startDue L k = true → (s.core L).firstHeld k = some (e, x) →
      exec (.heldStart L k) s = .next (applyAll [
        .core L { s.core L with entries := vset (s.core L).entries e (some { x with
          held := x.held &&& ~~~(1#16 <<< k.val), running := x.running ||| (1#16 <<< k.val) }) },
        .thread (tkey L k) { launched x.launch (s.thread L k) L k e with run := .ready, nextIssue := s.cycle L - 1 + 16 }] s) ∧
      StartedByLaunch x.launch { launched x.launch (s.thread L k) L k e with run := .ready, nextIssue := s.cycle L - 1 + 16 } L k e
        (s.cycle L - 1 + 16))

/-- Events of the task unit: a `taskpop` wait beyond its limit ends without a packet, unless one comes in the same cycle (R211); a
word of a footprint is copied to its place with its range pinned (R217); an increment raises WAIT of a pending packet by one (R210,
R213). A decrement of a WAIT above 1 lowers it by one; one of a WAIT of 1 lowers it and places the packet, or holds it while its deque
is full, without being acknowledged before it is placed; one of a WAIT of 0, or of a packet that is not valid, raises event 0x0002
with the handle and the header word, and changes no byte (R212, R213, R221). A firing frees its trigger entry and places its packet, and a
held packet is placed and its decrement acknowledged, when their deque has room (R220, R221). Model's choices: that a decrement of
the own core is held like another (log 32), that a poison mark of a pending packet's words is ignored (log 89), and that a poisoned word of a footprint is copied with its mark (log 74). -/
def Obligations.TaskEvents : Prop :=
  ∀ (s : State) (L : Nat) (k : Fin 16), s.wf = true →
    let u := s.thread L k
    let c := s.core L
    (u.run = .waiting .taskpop → u.assigned = none → u.popEnded = none → u.woken = false → expired u.wordWait (s.cycle L) = true →
      c.status = .active → (s.physCore (s.physOf L)).gated = false → (s.physCore (s.physOf L)).next ≤ s.ctl.now →
      (c.steal = .off → exec (.taskpopTimeout L k) s = .next (s.reissued L k { u with popEnded := some (s.cycle L) })) ∧
      (∀ n, c.steal = .paused n → (∀ j, j ≠ k → (s.thread L j).pops = false) →
        ∃ t, exec (.taskpopTimeout L k) s = .next t ∧ (t.core L).steal = .off ∧
          t.thread L k = { u with popEnded := some (s.cycle L), woken := true })) ∧
    (∀ x,
      let range := Packet.range x
      let ga := w64 (Packet.word x (fpOffset (Packet.word x 0))) + w64 (8 * u.fetched)
      u.run = .waiting .footprint → u.woken = false → u.again ≤ s.ctl.now → u.spoiled = false → c.status = .active → u.assigned = some x → s.pinned L k range = false →
      8 * u.fetched < range.2 → isShared ga = false → s.exists_ ga = true → gaOff ga < 2 ^ 28 →
      windowAccepts (gaOff ga) 8 .load = true → s.reachable (gaCore ga) = true →
      ∃ t, exec (.footprintFetch L k) s = .next t ∧ (t.thread L k).fetched = u.fetched + 1 ∧ (t.thread L k).pin = some range ∧
        (t.thread L k).run = u.run ∧
        Stored s.mem t.mem (lsKey (s.physOf L) (range.1 + 8 * u.fetched)) 8 (w64 (s.readPlace (localTarget ga).place 8))) ∧
    (∀ id h x, look s.tasks id = some (.increment h L) → s.taskBehind id (.increment h L) = false →
      s.legBehind id (s.legOfTask (.increment h L)) = false → s.handleOk h = true → s.reachable (gaCore h) = true →
      gaModule h = moduleOf L ∨ s.reachable (s.receiver (moduleOf L) h) = true → c.split = some x → x.left.erase id ≠ [] →
      let w := ofBytes (s.lsBytes (gaCore h) (gaOff h) 8)
      ∃ t, exec (.splitIncrement id) s = .next t ∧ look t.tasks id = none ∧
        (t.core L).split = some { x with left := x.left.erase id } ∧
        Stored s.mem t.mem (lsKey (s.physOf (gaCore h)) (gaOff h)) 8
          (w64 (w % 2 ^ 32 + (hdrWait w + 1) % 2 ^ 16 * 2 ^ 32 + w / 2 ^ 48 * 2 ^ 48))) ∧
    (∀ id r, look s.reqs id = some r → r.op = .decrement → (r.stage = .sent ∧ r.foreign = false) ∨ r.stage = .forwarded →
      s.legBehind (r.order id) (s.leg r) = false → s.handleOk r.ga = true → s.reachable (gaCore r.ga) = true →
      (s.core (gaCore r.ga)).split = none →
      let H := gaCore r.ga
      let d := s.core H
      let w := ofBytes (s.lsBytes H (gaOff r.ga) 8)
      let p : Packet := s.packetAt H (gaOff r.ga)
      let lower := w % 2 ^ 32 + (hdrWait w - 1) * 2 ^ 32 + w / 2 ^ 48 * 2 ^ 48
      let freed : Packet := p.setWord 0 lower
      let urgent := hdrUrgent (freed.word 0)
      let key := lsKey (s.physOf H) (gaOff r.ga)
      let leaves (t : State) (x : Stage) : Prop := look t.reqs id = some { r with stage := x, answered := s.ctl.steps }
      (1 < hdrWait w → ∃ t, exec (.successorDecrement id) s = .next t ∧ leaves t (.performed .done) ∧
        Stored s.mem t.mem key 8 (w64 lower) ∧ ∀ x, (t.core H).deque x = d.deque x) ∧
      (hdrWait w = 1 → p.valid .release = true → d.poppers = [] →
        (s.hasRoom H urgent = true →
          ∃ t, exec (.successorDecrement id) s = .next t ∧ leaves t (.performed .done) ∧
            ((t.core H).deque urgent).count = (d.deque urgent).count + 1) ∧
        (s.hasRoom H urgent = false →
          ∃ t, exec (.successorDecrement id) s = .next t ∧ leaves t .room ∧ Stored s.mem t.mem key 8 (w64 lower) ∧
            (t.core H).heldTasks = d.heldTasks ++ [{ order := id, packet := freed, trigger := none, owner := some id }])) ∧
      (hdrWait w = 0 ∨ (hdrWait w = 1 ∧ p.valid .release = false) →
        ∃ t, exec (.successorDecrement id) s = .next t ∧ leaves t (.performed .done) ∧ t.mem = s.mem ∧ t.core H = d ∧
          (t.module (moduleOf H)).halyard.events = (s.module (moduleOf H)).halyard.events ++
            [{ source := w64 H, code := 2, stamp := w64 (s.cycle H), d0 := r.ga, d1 := w64 w, d2 := 0 }])) ∧
    (∀ id e ga v home, look s.tasks id = some (.firing L e ga v home) → s.taskBehind id (.firing L e ga v home) = false →
      s.reachable L = true → c.split = none →
      let p : Packet := s.packetAt L (triggerOff e)
      let at_ := trigOffset (p.word 0)
      let q : Packet := Packet.setWord (p.setWord at_ ga.toNat) (at_ + 8) v.toNat
      let urgent := hdrUrgent (q.word 0)
      s.hasRoom L urgent = true →
      ∃ t, exec (.triggerFiring id) s = .next t ∧ look t.tasks id = none ∧ bit (t.core L).triggers e.val = false ∧
        ((t.core L).deque urgent).count = (c.deque urgent).count + 1) ∧
    (∀ x, c.heldTasks.find? (fun x => !s.dequeFull L (hdrUrgent (Packet.word x.packet 0))) = some x → s.reachable L = true →
      c.split = none → c.poppers = [] →
      let urgent := hdrUrgent (Packet.word x.packet 0)
      ∃ t, exec (.heldTaskPlacement L) s = .next t ∧ (t.core L).heldTasks = c.heldTasks.erase x ∧
        ((t.core L).deque urgent).count = (c.deque urgent).count + 1 ∧
        ∀ id r, x.owner = some id → look s.reqs id = some r →
          look t.reqs id = some { r with stage := .performed .done, answered := s.ctl.steps })

/-- Stealing: a core whose slots wait in `taskpop` with empty deques asks the first victim of the cluster's stage (R215); a
request at an empty or inactive victim is answered without a packet, at a victim whose top packet does not split with that packet,
which leaves the victim's top, and at one whose top packet splits and has no successors with the upper part, while the lower stays
(R216); a packet that reaches the thief enters its deque, and without one the next place of the stage is asked (R215, R216); the
pause after a round ends with a new round while the core still steals (R215). -/
def Obligations.Stealing : Prop :=
  ∀ (s : State) (L : Nat),
    let c := s.core L
    let asked (stage j offset : Nat) : State :=
      let x := victimAt L c.g stage j offset
      (Op.core L { c with g := x.2.2, steal := .asking stage j x.2.1 x.1 }).apply s
    (c.steal = .off → s.steals L = true → exec (.stealStart L) s = .next (asked 0 0 0)) ∧
    (∀ stage j o v, c.steal = .asking stage j o v →
      (((s.core v).split.any fun y => y.target = .steal L) = false →
        (s.core v).status ≠ .active ∨ ((s.physCore (s.physOf v)).gated = false ∧ (s.core v).split = none ∧ (s.core v).normal.count = 0) →
        exec (.stealRequest L) s = .next ((Op.core L { c with steal := .answered stage j o none }).apply s)) ∧
      ((s.core v).status = .active → (s.physCore (s.physOf v)).gated = false → (s.core v).normal.count ≠ 0 → (s.core v).split = none →
        let p : Packet := s.packetAt v (dequeOff false (s.core v).normal 0)
        (p.splits = false → (s.core v).poppers = [] →
          ((s.core v).heldTasks.any fun x => !hdrUrgent (Packet.word x.packet 0)) = false →
          ∃ t, exec (.stealRequest L) s = .next t ∧ (t.core L).steal = .answered stage j o (some p) ∧ t.mem = s.mem ∧
            (t.core v).normal = { top := ((s.core v).normal.top + 1) % 160, count := (s.core v).normal.count - 1 }) ∧
        (p.splits = true → hdrNsucc (p.word 0) = 0 →
          ∃ t, exec (.stealRequest L) s = .next t ∧ (t.core L).steal = .answered stage j o (some p.halves.2) ∧
            (t.core v).normal = (s.core v).normal))) ∧
    (∀ stage j o, c.status ≠ .saved →
      (∀ p : Packet, c.steal = .answered stage j o (some p) → c.split = none → s.hasRoom L (hdrUrgent (p.word 0)) = true →
        ∃ t, exec (.stealReply L) s = .next t ∧ (t.core L).steal = .off ∧
          ((t.core L).deque (hdrUrgent (p.word 0))).count = (c.deque (hdrUrgent (p.word 0))).count + 1) ∧
      (c.steal = .answered stage j o none → stage < 3 → s.steals L = true → j + 1 < (if stage = 0 then 15 else 16) →
        exec (.stealReply L) s = .next (asked stage (j + 1) o))) ∧
    (∀ until_, c.steal = .paused until_ → until_ ≤ s.cycle L →
      (s.steals L = true → exec (.stealPauseEnd L) s = .next (asked 0 0 0)) ∧
      (s.steals L = false → exec (.stealPauseEnd L) s = .next ((Op.core L { c with steal := .off }).apply s)))

/-! Events of slices, fault tables and engines. -/

/-- Requests that come next out of the network at a slice that holds their lines and has a miss entry free: every load, store, full-empty
operation, reservation operation and atomic that its home can perform leaves what `HomeEffect` says of it, and its answer goes into the
second network (R179, R180, R182, R189 to R192, R263, R267); so at another core's local store, whose message engine performs it (R140). A
full-empty attempt on a word in the other state is to be repeated while repeats are left: 16 nominal cycles after the failure at a
slice, and 16 cycles of the requesting core after it at a local store (the reading of log 29, DEDUCED, of R184 and R434). A binding is made
and a binding discarded (R218, R219). `gidget` takes the lowest-numbered free identifier of the line of the pool and answers it, goes on
in the next line where none is free, and answers 0 after the last; `gidput` frees an identifier, and has no effect on a free one (R200,
R458). -/
def Obligations.SliceRequests : Prop :=
  (∀ (s : State) (id m a : Nat) (r : Req) (tg : Target), s.wf = true → look s.reqs id = some r → r.target = some tg →
    tg.place = .pa m a → r.stage = .translated → s.atSlice tg.home = some id → 2 ^ 40 ≤ tg.home → tg.sum = none →
    ((s.slice tg.home).find (lineOf a)).isSome = true → (s.slice tg.home).used < 64 →
    let answered (t : State) (x : Token) : Prop :=
      look t.reqs id = some { r with stage := .replying x, answered := s.ctl.steps } ∧
        (t.net (dieOfSlice tg.home)).back 7 (tg.home % 128) = (s.net (dieOfSlice tg.home)).back 7 (tg.home % 128) ++ [id]
    (s.canPerform tg r.op →
      ∃ t x, exec (if r.op.isAttempt then .homeAttempt id else .sliceRequest id) s = .next t ∧ answered t x ∧
        HomeEffect s t r.core r.slot r.op r.ga tg x) ∧
    (((r.op = .ldfe ∨ r.op = .ldff) ∧ s.placeFull tg.place = false) ∨ ((∃ v, r.op = .stef v) ∧ s.placeFull tg.place = true) →
      0 < r.left →
      ∃ t, exec (.homeAttempt id) s = .next t ∧ look t.reqs id = some { r with stage := .failed (s.ctl.now + 16) } ∧ t.mem = s.mem) ∧
    (∀ L e, r.op = .bind L e → ((s.home tg.home).bindings.filter fun b => b.word ≠ tg.place.word).length < 64 →
      s.placeFull tg.place = false →
      ∃ t, exec (.triggerBind id) s = .next t ∧ answered t .done ∧ t.mem = s.mem ∧ (t.home tg.home).bindings =
        ((s.home tg.home).bindings.filter fun b => b.word ≠ tg.place.word) ++
          [{ word := tg.place.word, ga := r.ga, core := L, entry := e }]) ∧
    (r.op = .unbind → ∃ t, exec (.triggerUnbind id) s = .next t ∧ answered t .done ∧ t.mem = s.mem ∧
      (t.home tg.home).bindings.all (fun b => b.word ≠ tg.place.word) = true) ∧
    (0x82100 ≤ a → a < 0x82300 →
      let byteOf (g : Nat) : Nat := 0x82100 + g / 8
      let taken (u : State) (g : Nat) : Bool := bit (u.paByte m (byteOf g)) (g % 8)
      let changed (t : State) (g : Nat) : Prop :=
        (∀ g', g' < 4096 → g' ≠ g → taken t g' = taken s g') ∧ ∀ j, j ≠ paKey m (byteOf g) → t.mem.byte j = s.mem.byte j
      (r.op = .gidget →
        (∀ g, g < 4096 → lineOf (byteOf g) = lineOf a → taken s g = false →
          (∀ g', g' < g → lineOf (byteOf g') = lineOf a → taken s g' = true) →
          ∃ t, exec (.sliceRequest id) s = .next t ∧ answered t (.val (w64 g)) ∧ taken t g = true ∧ changed t g) ∧
        ((∀ g, g < 4096 → lineOf (byteOf g) = lineOf a → taken s g = true) →
          (a + 128 < 0x82300 → ∃ t r', exec (.sliceRequest id) s = .next t ∧ t.mem = s.mem ∧ look t.reqs id = some r' ∧
            r'.stage = .translated ∧ r'.op = .gidget ∧ r'.target = some (paTarget m (128 * (lineOf a + 1)))) ∧
          (0x82300 ≤ a + 128 → ∃ t, exec (.sliceRequest id) s = .next t ∧ answered t (.val 0) ∧ t.mem = s.mem))) ∧
      (∀ g, r.op = .gidput g → 1 ≤ g → g ≤ 4095 → a = byteOf g →
        (taken s g = true → ∃ t, exec (.sliceRequest id) s = .next t ∧ answered t .done ∧ taken t g = false ∧ changed t g) ∧
        (taken s g = false → ∃ t, exec (.sliceRequest id) s = .next t ∧ answered t .done ∧ t.mem = s.mem)))) ∧
  (∀ (s : State) (L id : Nat) (forced : Bool) (rest : List MseItem) (r : Req), s.wf = true → s.positionReady L = true →
    s.position L = .mse forced → (s.core L).mse = .remote id :: rest → look s.reqs id = some r → r.stage = .queued → r.target = none →
    moduleOf r.core = moduleOf L → isShared r.ga = false → gaCore r.ga = L → gaOff r.ga + r.op.size ≤ 0x1F2000 →
    let tg := localTarget r.ga
    let i : Instr := if forced then .mseForcedPosition L else .mseRemoteOp L
    (s.canPerform tg r.op →
      ∃ t x, exec i s = .next t ∧ look t.reqs id = some { r with stage := .performed x, answered := s.ctl.steps } ∧
        HomeEffect s t r.core r.slot r.op r.ga tg x) ∧
    (((r.op = .ldfe ∨ r.op = .ldff) ∧ s.placeFull tg.place = false) ∨ ((∃ v, r.op = .stef v) ∧ s.placeFull tg.place = true) →
      0 < r.left →
      ∃ t, exec i s = .next t ∧ look t.reqs id = some { r with stage := .failed (s.ctl.now + s.nominal r.core 16) } ∧ t.mem = s.mem))

/-- A request is translated to the target that its address resolves to, after the earlier ones of its thread, and enters the
network of its home's die by its input (R243, R247, R263, R279); two requests that meet at a switch and may combine become one,
which leaves the switch then, and whose answer the second takes from the first where it comes back to that switch (R264, R265); a fill
brings its line and answers the requests that wait for it, through the second network (R263, R267); the write-back buffer sends its oldest line, and a line that was sent reaches the bulk tier (R268); a copy of a REP store that comes next out of the network
is applied at its replica, in a slice cycle after its stamp, when its stamp is later than the last (R282, R283). -/
def Obligations.SliceEvents : Prop :=
  ∀ s : State, s.wf = true →
    (∀ id r tg, look s.reqs id = some r → r.stage = .sent → r.ownShared = true → r.target = none → r.op ≠ .check →
      s.translationBehind id r = false →
      ((resolveShared (some (s.clusterAt r.core)) (s.dieAt r.core) r.asid r.ga r.op.need r.op.sync r.op.writes).run
        (Run.start s)).1 = .target tg →
      let x := s.netInput r (dieOfSlice tg.home)
      ∃ t, exec (.translationWalk id) s = .next t ∧ look t.reqs id = some { r with
          target := some tg, stage := .translated, input := if r.awaited || r.retired then x else r.input } ∧
        t.mem = s.mem ∧ (r.awaited = true ∨ r.retired = true →
          (t.net (dieOfSlice tg.home)).at_ 0 x = (s.net (dieOfSlice tg.home)).at_ 0 x ++ [id])) ∧
    (∀ first second x y die stage sw,
      (s.pairs.find? fun (_, _, _, a, b) => a = first && b = second) = some (die, stage, sw, first, second) →
      look s.reqs first = some x → look s.reqs second = some y →
      let n := s.net die
      let y' := lineAfter stage sw (s.netSlice first)
      let taken := (n.set stage sw (n.at_ stage sw).tail).set stage (sw + 64) (n.at_ stage (sw + 64)).tail
      let passed : Op := .net die { taken.set (stage + 1) y' (taken.at_ (stage + 1) y' ++ [first]) with
        spent := ((stage + 1) * 128 + y', first) :: n.spent }
      (∀ n, x.op = .load n → exec (.shroudCombine first second) s = .next (applyAll [
        .req first (some { x with combined := x.combined ++ [(second, 0, switchKey die stage sw)] }),
        .req second (some { y with stage := .merged }), passed] s)) ∧
      (∀ fn a b, x.op = .amo fn a → y.op = .amo fn b → exec (.shroudCombine first second) s = .next (applyAll [
        .req first (some { x with
          op := .amo fn (amoResult fn a b), combined := x.combined ++ [(second, a, switchKey die stage sw)] }),
        .req second (some { y with stage := .merged }), passed] s))) ∧
    (∀ home line m, ((s.slice home).misses.find? fun m => m.line = line) = some m → m.way = .free →
      let sl := s.slice home
      let full := decide (12 ≤ ((sl.setOf line).filter fun l => l.pinned).length)
      let filled : Line := { num := line, dirty := m.dirty, pinned := m.pin && !full, rep := m.rep }
      ∃ t, exec (.missFill home line) s = .next t ∧ t.mem = s.mem ∧
        t.slice home = ({ sl with
          lines := if m.nt then sl.lines ++ [filled] else filled :: sl.lines
          misses := sl.misses.filter fun y => y.line ≠ line }).settle (dieOfSlice home) ∧
        ∀ id ∈ m.waiters, ∀ r x tg, look s.reqs id = some r → r.stage = .missing x → r.target = some tg → 2 ^ 40 ≤ tg.home →
          r.op.isPrefetch = false → look t.reqs id = some { r with stage := .replying x, answered := s.ctl.steps }) ∧
    (∀ die stage line id rest r q second a tok,
      let n := s.net die
      let x := pathLine r.input r.sliceNumber stage
      n.back (stage + 1) line = id :: rest → look s.reqs id = some r → r.stage = .replying tok → 0 < stage →
      r.combined = [(second, a, switchKey die stage (line / 2))] → second ≠ id → look s.reqs second = some q →
      (n.back stage x).length < 8 → (n.back stage ((x + 64) % 128)).length < 8 →
      let t := afterAct s (do let _ ← passBack die stage line [])
      look t.reqs id = some { r with combined := [] } ∧
        ∃ tok', look t.reqs second = some { q with stage := .replying tok' } ∧
          (∀ m v, r.op = .load m → tok = .val v → tok' = .val v) ∧
          ∀ fn b old, r.op = .amo fn b → tok = .val old → tok' = .val (amoResult fn old a)) ∧
    (∀ home,
      let sl := s.slice home
      sl.reserved = none →
      (∀ n rest, sl.writebacks = n :: rest → sl.sending = [] → sl.used < 64 →
        ∃ t, exec (.writeback home) s = .next t ∧ t.mem = s.mem ∧
          t.slice home = ({ sl with writebacks := rest, sending := [n] }).settle (dieOfSlice home)) ∧
      (∀ n rest, sl.writebacks = [] → sl.sending = n :: rest →
        ∃ t, exec (.writeback home) s = .next t ∧ t.mem = s.mem ∧ t.slice home = { sl with sending := rest })) ∧
    (∀ id x, look s.copies id = some x → (∀ y ∈ s.copies, id ≤ y.1) → x.stamp.1 ≤ s.sliceCycle →
      s.atSlice (replicaTarget x.module x.die x.addr).home = some id → s.failedPa x.module x.addr = false →
      (s.slice (replicaTarget x.module x.die x.addr).home).used < 64 →
      let old := (s.repWord x.module x.die x.addr).stamp
      later x.stamp old = true ∨ old = (0, 0) →
      ∃ t, exec (.repReplicaCopy id) s = .next t ∧ look t.copies id = none ∧
        look t.replicas (replicaKey x.module x.die x.addr) =
          some { value := x.value, poison := x.poison, full := x.full, stamp := x.stamp })

/-- Fault tables: a failed walk joins the open entry of its page, or opens a free one with the next generation and a record to
write (R414); a die claims the ring index for its first record, and writes it where the queue is on and word 0 there is empty,
else waits 256 cycles, the lines being present (R267, R412); `wake` of an open entry of its generation closes it and wakes the thread that waits on it, and of
any other entry completes with no other effect (R415, R416); a die drops the translations of a `tlbinv` and acknowledges it (R250,
R251). -/
def Obligations.FaultTables : Prop :=
  ∀ (s : State) (m d : Nat), s.wf = true → d < 8 →
    let x := (s.module m).die d
    (∀ id p, look s.faults id = some p → p.die = m * 8 + d →
      (∀ i e, (x.faults.find? fun e => e.2.keyed p) = some (i, e) →
        exec (.faultEntryOpen id) s = .next (applyAll [.fault id none, .module m { s.module m with
          dies := put (s.module m).dies d { x with faults := put x.faults i { e with waiters := e.waiters ++ [p.waiter] } } }] s)) ∧
      ((x.faults.find? fun e => e.2.keyed p) = none → x.freeEntries ≠ [] →
        ∃ t i e, exec (.faultEntryOpen id) s = .next t ∧ look t.faults id = none ∧ i ∈ x.freeEntries ∧
          look ((t.module m).die d).faults i = some e ∧ e.isOpen = true ∧ e.asid = p.asid ∧ e.page = gaVa p.fault.ga / 16384 ∧
          e.waiters = [p.waiter] ∧ e.gen = ((look x.faults i).map fun e => e.gen).getD 0 + 1 ∧
          ((t.module m).die d).records = x.records ++ [{ words := recordWords p i e.gen, index := none, retryAt := 0 }])) ∧
    (∀ r rest index, x.records = r :: rest →
      let i : Instr := if r.index = none then .faultRecordWrite (m * 8 + d) else .faultRecordRetry (m * 8 + d)
      let present (a : Nat) : Bool := ((s.slice (paTarget m a).home).find (lineOf a)).isSome
      (r.index = none ∧ index = s.sysBlock m 0x10 ∧ present 0x82010 = true) ∨ (r.index = some index ∧ r.retryAt ≤ s.ctl.now) →
      present (s.recordAt m index) = true →
      (s.faultQueueOn m = true → s.placeFull (.pa m (s.recordAt m index)) = false →
        ∃ t, exec i s = .next t ∧ ((t.module m).die d).records = rest ∧ bit (t.module m).window.hirq 3 = true) ∧
      (s.faultQueueOn m = false ∨ s.placeFull (.pa m (s.recordAt m index)) = true →
        ∃ t, exec i s = .next t ∧
          ((t.module m).die d).records = { r with index := some index, retryAt := s.ctl.now + 256 } :: rest)) ∧
    (∀ L k j h,
      let u := s.thread L k
      moduleOf L = m → u.run = .waiting (.table h) → (s.core L).status ≠ .saved → u.parked = some (encode (.wake (.s j))) →
      u.taken = [] → u.mode = true → field (u.s.get j) 33 31 = 0 → u.pendb = 0 → u.deferred = none →
      (∀ y ∈ s.copies, ¬(y.2.core = L ∧ y.2.slot = k ∧ y.2.engine = none)) → field h 29 3 = d →
      (∀ e L' k' since, look x.faults (field h 20 9) = some e → e.isOpen = true → e.gen.toNat = field h 0 20 →
        e.waiters = [.thread L' k'] → (s.thread L' k').run = .waiting (.fault since) → bit h 32 = false → (L', k') ≠ (L, k) →
        ∃ t, exec (.faultTableRelease L k) s = .next t ∧ (t.thread L' k').woken = true ∧
          t.thread L k = (continueAt u .seq).readyFrom (s.cycle L + max 1 (u.nextIssue - s.cycle L)) ∧
          look ((t.module m).die d).faults (field h 20 9) = some { e with isOpen := false, waiters := [] } ∧ t.mem = s.mem) ∧
      ((∀ e, look x.faults (field h 20 9) = some e → e.isOpen = false ∨ e.gen.toNat ≠ field h 0 20) →
        exec (.faultTableRelease L k) s = .next (s.goneOn L k u))) ∧
    (∀ L k a y left, (s.thread L k).run = .waiting (.acks a y left) → (s.core L).status ≠ .saved → moduleOf L = m →
      2 ≤ left.length → (∀ e ∈ left, s.translating m e (BitVec.ofNat 16 y.toNat) = false) →
      ∃ t e, exec (.tlbinvAck L k) s = .next t ∧ e ∈ left ∧ (t.thread L k).run = .waiting (.acks a y (left.erase e)) ∧
        ((t.module m).die e).tlb = ((s.module m).die e).tlb.filter (fun z => !z.dropped a y) ∧ t.mem = s.mem)

/-- Engines: the head of a queue starts when nothing runs and what it awaits is performed, waking the sub-arrays it needs (R315,
R321); a command whose writes are made completes, leaving DONESEQ, its flags and its first error in its thread, unless the slot
has been started again (R27, R315, R318); a sub-array idle for MXGATE cycles is gated (R321). A command that signals stores its SEQ at the
signal's word and sets it full, in its own local store at once, and completes; to another module's local store it sends one message, waits for
its answer, and then completes (R316, R454). -/
def Obligations.EngineEvents : Prop :=
  ∀ (s : State) (L : Nat) (e : Engine), (s.core L).status = .active →
    (∀ c rest, (s.engine L e).queue = c :: rest → s.mayStart L e = true →
      ∃ t, exec (.engineCommandStart L e 0) s = .next t ∧ (t.engine L e).queue = rest ∧
        (t.engine L e).running = some (c, Prog.start c.st) ∧
        (t.core L).gated = (s.core L).gated &&& ~~~arrayMask (needsArray e c) ∧ t.mem = s.mem) ∧
    (∀ c p, (s.engine L e).running = some (c, p) → p.written = true → (c.rel = false ∨ s.replicasDone L e c = true) →
      let x := (s.thread L c.slot).engThread e
      (c.sig = false → (s.engine L e).wait = .none →
        ∃ t, exec (.engineCommandComplete L e) s = .next t ∧ (t.engine L e).running = none ∧
          (t.engine L e).queue = (s.engine L e).queue ∧ t.mem = s.mem ∧
          (t.thread L c.slot).engThread e = if s.issuerLives L c then
            { x with flags := x.flags ||| p.flags, doneSeq := c.seq, err := x.err.or p.error } else x) ∧
      (c.sig = true → p.error = none → (s.engine L e).wait = .none →
        let ga := w64 (8 * c.sigaddr.toNat)
        isShared ga = false → gaOff ga + 8 ≤ 0x1F2000 →
        (gaModule ga ≠ moduleOf L → gaModule ga < s.nmod → (s.engine L e).reply = none →
          ∃ t r, exec (.engineCommandComplete L e) s = .next t ∧ (t.engine L e).running = some (c, p) ∧
            (t.engine L e).wait = .message s.ctl.nextId ∧ look t.reqs s.ctl.nextId = some r ∧ r.op = .stsf (c.seq.zeroExtend 64) ∧
            r.ga = ga ∧ r.core = L ∧ r.slot = c.slot ∧ r.engine = some e ∧ r.awaited = false ∧ r.stage = .sent ∧ t.mem = s.mem) ∧
        (gaModule ga ≠ moduleOf L → gaModule ga < s.nmod → (s.engine L e).reply = some .done → s.issuerLives L c = true →
          ∃ t, exec (.engineCommandComplete L e) s = .next t ∧ (t.engine L e).running = none ∧
            ((t.thread L c.slot).engThread e).doneSeq = c.seq ∧ t.mem = s.mem) ∧
        (gaCore ga = L → moduleOf L < s.nmod → s.mem.wf = true → s.issuerLives L c = true →
          ∃ t, exec (.engineCommandComplete L e) s = .next t ∧ (t.engine L e).running = none ∧
            ((t.thread L c.slot).engThread e).doneSeq = c.seq ∧
            Stored s.mem t.mem (s.localKey L (gaOff ga)) 8 (c.seq.zeroExtend 64) ∧ t.mem.full (s.localKey L (gaOff ga) / 8) = true))) ∧
    (∀ i : Fin 4, (s.core L).mxgate ≠ 0 → (∀ c p, (s.engine L .mxe).running = some (c, p) → mxNeeds c i.val = false) →
      (s.core L).idleSince.get i + (s.core L).mxgate.toNat ≤ s.cycle L →
      exec (.mxSubarrayGate L i) s = .next ((Op.core L { s.core L with gated := (s.core L).gated ||| (1#4 <<< i.val) }).apply s))

/-- What the matrix and the vector engine compute, unit by unit as the model runs them (logs 57 and 93), with operands and outputs in the own local
store. `mx.clr` writes zeros or a bias; `mx.promo` scales an INT32 element with one rounding; a window's weights, scales, activations and
exponents are read run by run, and the last one shows a bad PT5 code; `mx.igemm` adds an element's exact products of a window and writes
the sum at the end of the block; `mx.tgemm` goes on with an element's chain up to a promotion, reads the output, and writes it (R308, R330
to R333). An elementwise command writes its function of an element and notes NONFIN; `vx.quant` and `vx.smax` read a block or a row,
compute it and write it; `vx.red` adds an element to its lane, and writes the result of its levels; `vx.dist` writes a distance; a command
with NONFIN set makes its gather write (R347 to R356). -/
def Obligations.MatrixAndVectorUnits : Prop := ∀ (s : State) (L : Nat), MatrixUnits s L ∧ VectorUnits s L

/-- What the copy engine and the selection unit do, unit by unit as the model runs them (log 57). `cp.copy` and `cp.fill` write an element of
the walk, to another module by a bulk transfer (R454), and a META copy the word with its mark and full-empty bit; `cp.mcast` writes it in
every selected core; a piece's entry is read and checked before its elements move, and one that its segment refuses is error 0x10; `cp.pack`
writes a PT5 byte or a trit; `cp.pf` asks for a line once; `cp.tern` computes a group, with its draws, and writes its bytes and its scale, and
stops at a value that is not finite (R367 to R371, R373). `sl.bound` bounds each query by a record, keeps the best pages and writes the
lists; `sl.score` reads a listed page's record and keys, and inserts or writes the scores; `sl.kinit`, `sl.kins`, `sl.kmerge` and `sl.kread` act on
a list; `sl.resum` recomputes a record; each error stops the command where R393 says (R387 to R393). -/
def Obligations.CopyAndSelectionUnits : Prop := ∀ (s : State) (L : Nat), CopyUnits s L ∧ SelectionUnits s L

/-- Reductions over vectors in the own local stores: a contribution that begins a use with more members to come is recorded with
the values read (R372, R459); once a member's group is full its command completes, and the member no longer holds the group, its
result, if of one element, being the bytes at its address and nothing else changed (R372, R461); an identifier whose members in a
module have all written stops draining there, and the threads that wait for it are woken (R201, R461). -/
def Obligations.Reductions : Prop :=
  ∀ (s : State) (L : Nat), (s.core L).status = .active →
    (∀ c p, s.reducing L = some (c, p) → (s.engine L .cpe).wait = .none → p.written = false → p.error = none →
      let n := redSize (c.rig.get 2)
      let count := cpCount c.rig 0
      let gid := field (c.rig.get 18) 0 12
      (p.sent = false → s.openUse c.asid gid = none → 1 < cpMembers c.rig →
        (∀ i, i < count → let ga := cpAddr c 0 (n * i : Nat)
          s.ownRaw L ga n = true ∧ s.placePoison (localTarget ga).place = false ∧
            s.placePoison (localTarget (ga + w64 (n - 1))).place = false) →
        ∃ t y x, exec (.reductionContribution L) s = .next t ∧ look t.reductions s.ctl.nextId = some y ∧ y.asid = c.asid ∧
          y.gid = gid ∧ y.result = none ∧ y.got = [x] ∧ x.core = L ∧ x.nmemb = cpMembers c.rig ∧
          x.vec = (List.range count).map (fun i => w64 (s.readPlace (localTarget (cpAddr c 0 (n * i : Nat))).place n)) ∧
          ((t.engine L .cpe).running.map fun z => z.2.sent) = some true ∧ t.mem = s.mem) ∧
      (∀ id y vec, p.sent = true → s.resultFor L = some (id, y) → y.result = some (some vec) → vec.length = count →
        p.idx.getD 0 0 = 0 → c.sig = false → c.rel = false → s.issuerLives L c = true → s.wf = true →
        (∀ i, i < count → s.ownRaw L (cpAddr c 1 (n * i : Nat)) n = true) →
        ∃ t, exec (.reductionResult L) s = .next t ∧ (t.engine L .cpe).running = none ∧
          (count = 1 → Stored s.mem t.mem (s.localKey L (gaOff (cpAddr c 1 0))) n (vec.getD 0 0)) ∧
          ((t.thread L c.slot).engThread .cpe).doneSeq = c.seq ∧
          look t.reductions id = if (y.pending.erase L).isEmpty then none else some { y with pending := y.pending.erase L })) ∧
    (∀ m gid, gid ∈ (s.module m).draining → s.stillDrains m gid = false → s.wf = true →
      ∃ t, exec (.gidDrainComplete m gid) s = .next t ∧ gid ∉ (t.module m).draining ∧ t.mem = s.mem ∧
        ∀ M k, moduleOf M = m → (s.thread M k).run = .waiting (.gidDrain gid) → (t.thread M k).woken = true)

/-! Events of contexts, power, errors, Halyard and the host. -/

/-- The freeze controller: a save freezes an active core, and once it is at rest, the lines of its record having come, saves it and
completes the `preempt` (R422, R423, R267); a restore of a record whose lines have come, and whose words are whole and in order, makes its
context active with the registers of the record, and completes the `preempt` (R422, R425, R426). A core past the temperature limit is slowed to divider 8 with an event when no free
core qualifies, and otherwise begins to move to one that does (R433, R487). -/
def Obligations.Contexts : Prop :=
  ∀ (s : State) (m : Nat),
    (∀ r rest j, (s.module m).freezeQueue = r :: rest → (s.module m).migrating = none →
      let L := field r.value 0 33
      (field r.value 50 2 = 0 → (s.core L).status = .active →
        ∃ t, exec (.contextSave m) s = .next t ∧ (t.core L).status = .frozen ∧ (t.module m).freezeQueue = r :: rest ∧ t.mem = s.mem) ∧
      (let x := (freezeStep L false).run (Run.start s)
       let s' := x.2.s
       field r.value 50 2 = 0 → (s.core L).status = .frozen → x.1 = true → s'.awaitsController r.core r.slot j → L ≠ r.core →
        (s'.module m).freezeQueue = r :: rest → s'.recordCome L m (s'.saveSlot m r.value) (recordBytes (bit r.value 49)) →
        ∃ t, exec (.contextSave m) s = .next t ∧ (t.core L).status = .saved ∧ (t.module m).freezeQueue = rest ∧
          t.thread r.core r.slot =
            (continueAt (s'.thread r.core r.slot) .seq).readyFrom
              (s'.cycle r.core + max 1 ((s'.thread r.core r.slot).nextIssue - s'.cycle r.core))) ∧
      (let a := s.saveSlot m r.value
       let f : RecordFn := fun off => w64 (s.readPlace (.pa m (a + off)) 8)
       field r.value 50 2 = 1 → field (f 0) 0 16 = 1 → field (f 8) 0 33 = L → moduleOf L = m → (s.core L).status = .saved →
        recordOk f = true → s.recordCome L m a (recordBytes (bit (f 0) 16)) → (∀ i, 8 * i < recordBytes (bit (f 0) 16) → s.placePoison (.pa m (a + 8 * i)) = false) →
        s.awaitsController r.core r.slot j → L ≠ r.core →
        ∃ t, exec (.contextRestore m) s = .next t ∧ (t.core L).status = .active ∧ (t.module m).freezeQueue = rest ∧
          ∀ k : Fin 16, (t.thread L k).pc = f (0x1000 + 0x2000 * k.val + 8) ∧
            (∀ i : Fin 16, (t.thread L k).s.get i = f (0x1000 + 0x2000 * k.val + 0x10 + 8 * i.val)) ∧
            ∀ i : Fin 8, (t.thread L k).a.get i = f (0x1000 + 0x2000 * k.val + 0x90 + 8 * i.val))) ∧
    (∀ L Q,
      let P := s.physOf L
      let p := s.physCore P
      moduleOf L = m → (s.module m).migrating = none → ((s.module m).halyard.tlimit : Int) < p.temp → (s.core L).status = .active →
      s.controllerFree m = true →
      (s.coolCores m P = [] → p.hot = false →
        ∃ t, exec (.thermalMigration L Q) s = .next t ∧ (t.physCore P).hot = true ∧ (t.physCore P).divider = 3 ∧ t.mem = s.mem ∧
          (t.module m).halyard.events = (s.module m).halyard.events ++
            [{ source := w64 L, code := 0x21, stamp := w64 (s.cycle L), d0 := wInt p.temp, d1 := 0, d2 := 0 }]) ∧
      (Q ∈ s.coolCores m P →
        ∃ t, exec (.thermalMigration L Q) s = .next t ∧ (t.module m).migrating = some (L, Q) ∧ (t.core L).status = .frozen ∧
          t.mem = s.mem))

/-- Power: a slowed core that has cooled by 15 degrees runs at the divider asked for, where its rail serves it (R433); a divider
that is slower, or that the rail serves, takes effect at once, what the core's ports have sent then taking the cycles that were left of it
in cycles of the new divider (log 83), and any other waits (R434, R436); a rail comes to the level that
its cores need, and their dividers take effect (R436); a core at rest with nothing addressed to it is gated, and any other request
is refused (R435); an arrival wakes a gated core, which runs again 1 microsecond later (R435). -/
def Obligations.Power : Prop :=
  ∀ (s : State) (L P : Nat),
    let p := s.physCore P
    (s.physOf L = P → p.hot = true → p.temp + 15 ≤ ((s.module (moduleOf L)).halyard.tlimit : Int) →
      ∃ t, exec (.thermalSlowdownEnd L) s = .next t ∧ (t.physCore P).hot = false ∧ t.mem = s.mem ∧
        (s.rail (P / 16) ≤ p.wanted.val → (t.physCore P).divider = p.wanted)) ∧
    (∀ d : Fin 4, p.hot = false →
      (p.divider ≤ d ∨ s.rail (P / 16) ≤ d.val →
        ∃ t, exec (.dividerChange P d) s = .next t ∧ t.physCore P = { p with wanted := d, divider := d } ∧ t.mem = s.mem ∧
          (∀ M k, t.thread M k = s.thread M k) ∧
          ∀ id x, s.wf = true → look s.ports id = some x → look t.ports id = some
            (if x.fromPhys = P ∧ p.divider ≠ d ∧ p.next < x.due then
              { x with due := p.next + ceilDiv (x.due - p.next) (2 ^ p.divider.val) * 2 ^ d.val } else x)) ∧
      (d < p.divider → d.val < s.rail (P / 16) →
        exec (.dividerChange P d) s = .next ((Op.phys P { p with wanted := d }).apply s))) ∧
    (∀ cluster, ∃ t, exec (.railRiseComplete cluster) s = .next t ∧ t.rail cluster = s.needed cluster ∧ t.mem = s.mem ∧
      ∀ i, i < 16 → (look s.phys (16 * cluster + i)).isSome = true →
        (t.physCore (16 * cluster + i)).divider = (s.physCore (16 * cluster + i)).goal) ∧
    (let M := s.logicalOf P
     ((s.core M).status = .saved ∨ s.mayGate M = true →
       exec (.powerGate P) s = .next ((Op.phys P { p with gated := true, waking := none }).apply s)) ∧
     ((s.core M).status ≠ .saved → s.mayGate M = false → exec (.powerGate P) s = .next s) ∧
     (p.gated = true → p.waking = none → s.arrives M = true →
       exec (.powerGateWake P) s = .next ((Op.phys P { p with waking := some (s.ctl.now + 2000) }).apply s)) ∧
     (∀ n, p.gated = true → p.waking = some n → n ≤ s.ctl.now →
       exec (.powerGateWake P) s = .next ((Op.phys P { p with gated := false, waking := none, next := s.ctl.now }).apply s)))

/-- Errors: an uncorrectable error marks its word, and the new mark is an event (R419, R487); one in a data beat of an answer
delivers it as that of a poisoned word, and one of data on their way marks them, to be written poisoned, with the event of the link's
unit (R419, R487); a corrected one is counted (R419); a plane, a Stay port and an expander that fail, with nothing in flight over them, are
recorded with an event (R455, R472, R487); a Canvas access outside its rights
restarts Canvas with an event (R476, R487). -/
def Obligations.Errors : Prop :=
  ∀ (s : State) (m : Nat),
    let h := (s.module m).halyard
    let told (t : State) (source : Nat) (code : Nat) (d0 : Word) : Prop := t.mem = s.mem ∧
      (t.module m).halyard.events = h.events ++
        [{ source := unitSource source, code := code, stamp := w64 s.ctl.now, d0 := d0, d1 := 0, d2 := 0 }]
    (∀ P off, off < 2 ^ 21 → s.mem.poisoned (lsKey P (off / 8 * 8) / 8) = false →
      let M := s.logicalOf P
      exec (.uncorrectableError (.localStore P off)) s = .next (State.withHalyard ((Op.poison (lsKey P (off / 8 * 8) / 8) true).apply s)
        (moduleOf M) { (s.module (moduleOf M)).halyard with events := (s.module (moduleOf M)).halyard.events ++
          [{ source := w64 M, code := 0x11, stamp := w64 (s.cycle M), d0 := w64 (M * 2 ^ 30 + off / 8 * 8), d1 := 1, d2 := 0 }] })) ∧
    (∀ a, a < 2 ^ 44 → m < s.nmod → s.mem.poisoned (paKey m (a / 8 * 8) / 8) = false →
      ∃ t n, exec (.uncorrectableError (.memory m a)) s = .next t ∧ t.mem = s.mem.setPoison (paKey m (a / 8 * 8) / 8) true ∧
        n ∈ findersOf a ∧ (t.module m).halyard.events = h.events ++
          [{ source := unitSource n, code := 0x11, stamp := w64 s.ctl.now, d0 := w64 (a / 8 * 8), d1 := 0, d2 := 0 }]) ∧
    (∀ id r u, look s.reqs id = some r →
      let word := w64 (r.ga.toNat / 8 * 8)
      let home := (r.target.map fun x => x.home).getD (gaCore r.ga)
      let spoiled (t : State) (r' : Req) : Prop := t.mem = s.mem ∧ look t.reqs id = some r' ∧
        (t.module m).halyard.events = h.events ++
          [{ source := unitSource u, code := 0x11, stamp := w64 s.ctl.now, d0 := word, d1 := 1, d2 := 0 }]
      (∀ v, r.stage = .performed (.val v) → r.awaited = true → r.op.readsData = true → s.linkUnit r.core word home false = some (m, u) →
        ∃ t, exec (.uncorrectableError (.beat id)) s = .next t ∧ spoiled t { r with stage := .performed (.trap 0x28 word) }) ∧
      (r.stage.outward = true → r.op.writesData = true → r.spoiled = false → s.linkUnit r.core word home true = some (m, u) →
        ∃ t, exec (.uncorrectableError (.beat id)) s = .next t ∧ spoiled t { r with spoiled := true })) ∧
    (∀ place, exec (.correctableError m place) s = .next (s.withHalyard m { h with softErrors := h.softErrors + 1 })) ∧
    (∀ p : Fin 8, m < s.nmod → bit (s.module m).planesDown p.val = false → s.linkIdle m (.plane p) →
      ∃ t, exec (.linkFailure m (.plane p)) s = .next t ∧ bit (t.module m).planesDown p.val = true ∧ told t (0x200 + p.val) 0x40 0) ∧
    (∀ p : Fin 2, m < s.nmod → bit (s.module m).staysDown p.val = false → s.linkIdle m (.stay p) →
      ∃ t, exec (.linkFailure m (.stay p)) s = .next t ∧ bit (t.module m).staysDown p.val = true ∧ told t (0x210 + p.val) 0x40 0) ∧
    (∀ x : Fin 6, m < s.nmod → bit (s.module m).failed (x.val + 1) = false →
      ∃ t, exec (.cxlExpanderFailure m x) s = .next t ∧ bit (t.module m).failed (x.val + 1) = true ∧ told t (0x220 + x.val) 0x31 0) ∧
    (∀ a, ∃ t, exec (.canvasSandboxFault m a) s = .next t ∧ (t.module m).halyard.canvasRestarts = h.canvasRestarts + 1 ∧ told t 1 0x50 a)

/-- Halyard: a sample is kept, and one beyond a hold limit holds its module in reset (R473); an event gets the next number and
joins the flash log, newest first (R474); a module reset leaves every thread and core of the module as after reset, every
full-empty bit of the module 1, and no byte of memory and no poison mark changed (R26, R178); a boot of the shipped image,
with the fused hash of its key, that passes, and a configuration whose SVC0 is present, trains the links, latches the fabric block, sets READY,
and leaves every word full and unmarked (R477, R478); a loss of power leaves the
module's memory as if nothing had written it (R480). Model's choices: logs 2, 39 to 42, 98. -/
def Obligations.HalyardEvents : Prop :=
  ∀ (s : State) (m : Nat), s.wf = true →
    let h := (s.module m).halyard
    let fresh (t : State) : Prop := ∀ L k, moduleOf L = m → t.thread L k = Thread.reset ∧ t.core L = Core.reset L
    (∀ x, m < s.nmod → h.lastSample + 200000 ≤ s.ctl.now →
      (holdReasons x = 0 → ∃ t, exec (.sensorSample m x) s = .next t ∧ (t.module m).halyard.sample = some x ∧
        (t.module m).halyard.lastSample = s.ctl.now ∧ (t.module m).halyard.heldInReset = false ∧ t.mem = s.mem) ∧
      (holdReasons x ≠ 0 → h.heldInReset = false → ∃ t, exec (.sensorSample m x) s = .next t ∧ fresh t ∧
        (t.module m).halyard.heldInReset = true)) ∧
    (h.events ≠ [] → ∃ t e, exec (.eventEntry m) s = .next t ∧ e ∈ h.events ∧ (t.module m).halyard.seqNum = h.seqNum + 1 ∧
      (t.module m).halyard.log = (entryWords h.seqNum e :: h.log).take 262144 ∧
      (t.module m).halyard.events.length + 1 = h.events.length ∧ (e.code ≠ 0x51 → bit (t.module m).window.hirq 0 = true) ∧
      t.mem = s.mem) ∧
    (∃ t, exec (.moduleReset m) s = .next t ∧ fresh t ∧ t.mem.cells = s.mem.cells ∧ t.mem.poisons = s.mem.poisons ∧
      (∀ w, wordIn m w = true → t.mem.full w = true) ∧ (t.module m).window = Window.reset) ∧
    (∀ x : BootInput, (s.module m).window.isReady = false → (s.module m).window.recovery = false → h.heldInReset = false →
      h.image = [] → h.imageValid = true → x.imageOk = true → Config.keyHash x.imageBytes = h.vendorHash →
      2 ^ 63 ≤ serviceField x.configBytes 0 → x.modid = m → m < x.nmod → x.nmod ≤ 2 ^ 20 →
      ∃ t, exec (.boot m x) s = .next t ∧ (t.module m).window.isReady = true ∧ (t.module m).window.version = x.imageVersion ∧
        (t.module m).planesDown = x.planesDown ∧ (t.module m).staysDown = x.staysDown ∧ t.nmod = x.nmod ∧ t.fabric m =
          { nmod := x.nmod, ringid := x.ringid, rlen := x.rlen, rpos := x.rpos, peer0 := x.peer0, peer1 := x.peer1 } ∧
        ∀ w, wordIn m w = true → t.mem.full w = true ∧ t.mem.poisoned w = false) ∧
    (m < s.nmod → s.nmod ≤ 2 ^ 20 → ∃ t, exec (.powerLoss m) s = .next t ∧ fresh t ∧
      (∀ a, a < 2 ^ 44 → t.mem.byte (paKey m a) = unreadByte) ∧
      ∀ P off, moduleOf P = m → off < 2 ^ 30 → t.mem.byte (lsKey P off) = unreadByte)

/-- The host's control window: a launch doorbell with valid fields sends a flood from service core 0 and sets BUSY, with BUSY sets
DROP, and with fields out of range sets REJ (R467); writes of ones clear HIRQ, a write of HIEN raises the vectors that it
uncovers, reads of LSTAT and EVLOST clear what they show, and a write to LPKT, LSEG, LASID, LTVEC or LENROL, to the mailbox or to
EVHEAD sets it (R465, R466); a write to one of the launch's registers while BUSY sets DROP alone (R467); an access that is not aligned or
not of 8 bytes writes nothing and reads nothing (R465); a write of MBDOOR starts a known command and answers an unknown one with status 1 (R469, R470). -/
def Obligations.HostWindow : Prop :=
  ∀ (s : State) (m : Nat) (v : Word),
    let w := (s.module m).window
    (m < s.nmod →
      (∀ L scope x, w.launchBusy = false → s.service m 0 = some L → w.launch v L = some (scope, x) →
        ∃ t, exec (.ldoor m v) s = .next t ∧ (t.module m).window.launchBusy = true ∧ t.mem = s.mem ∧
          look t.floods s.ctl.nextId =
            some { scope := scope, launch := x, fromCore := L, fromSlot := none, reached := [], modules := [moduleOf L] }) ∧
      (w.launchBusy = true → exec (.ldoor m v) s = .next (s.withWindow m { w with drop := true })) ∧
      (w.launchBusy = false → (∀ L, s.service m 0 = some L → w.launch v L = none) →
        ∃ t, exec (.ldoor m v) s = .next t ∧ (t.module m).window.rej = true ∧ bit (t.module m).window.hirq 2 = true ∧
          t.floods = s.floods)) ∧
    exec (.hirq m v) s = .next (s.withWindow m { w with hirq := w.hirq &&& ~~~(BitVec.ofNat 4 v.toNat) }) ∧
    exec (.hien m v) s = .next (s.withWindow m { w with
      hien := BitVec.ofNat 4 v.toNat
      msix := w.msix ++ (List.finRange 4).filter fun b =>
        bit w.hirq b.val && bit (BitVec.ofNat 4 v.toNat) b.val && !bit w.hien b.val }) ∧
    exec (.lstat m) s = .next (s.withWindow m { w with rej := false, drop := false }) ∧
    exec (.evlost m) s = .next (s.withWindow m { w with evlost := 0 }) ∧
    (m < s.nmod →
      exec (.hostRegisterWrite m ⟨0x5000, 8⟩ v) s = .next (s.withWindow m { w with evhead := BitVec.ofNat 10 v.toNat }) ∧
      (∀ i, i < 512 → exec (.hostRegisterWrite m ⟨0x2000 + 8 * i, 8⟩ v) s = .next (s.withWindow m { w with mbreq := put w.mbreq i v })) ∧
      (w.launchBusy = false →
        (∀ i, i < 32 → exec (.hostRegisterWrite m ⟨0x1000 + 8 * i, 8⟩ v) s =
          .next (s.withWindow m { w with lpkt := w.lpkt.setIfInBounds i v })) ∧
        (∀ i, i < 16 → exec (.hostRegisterWrite m ⟨0x1100 + 8 * i, 8⟩ v) s =
          .next (s.withWindow m { w with lseg := w.lseg.setIfInBounds i v })) ∧
        exec (.hostRegisterWrite m ⟨0x1180, 8⟩ v) s = .next (s.withWindow m { w with lasid := BitVec.ofNat 16 v.toNat }) ∧
        exec (.hostRegisterWrite m ⟨0x1188, 8⟩ v) s = .next (s.withWindow m { w with ltvec := BitVec.ofNat 62 (v.toNat / 4) }) ∧
        exec (.hostRegisterWrite m ⟨0x1190, 8⟩ v) s = .next (s.withWindow m { w with lenrol := BitVec.ofNat 6 (v.toNat / 2) })) ∧
      (w.launchBusy = true → ∀ i, i < 51 → exec (.hostRegisterWrite m ⟨0x1000 + 8 * i, 8⟩ v) s = .next (s.withWindow m { w with drop := true })) ∧
      (∀ off size, off % 8 ≠ 0 ∨ size ≠ 8 →
        exec (.hostRegisterWrite m ⟨off, size⟩ v) s = .next s ∧ s.windowValue m off size = none) ∧
      (w.mbBusy = false → w.command ∈ mailboxCodes →
        exec (.mbdoor m v) s = .next (s.withWindow m { w with mbBusy := true, mbDone := 0, mbBad := [] })) ∧
      (w.mbBusy = false → w.command ∉ mailboxCodes → ∃ t, exec (.mbdoor m v) s = .next t ∧ Replied t m 1 [] ∧ t.mem = s.mem))

/-- Mailbox commands in service with valid requests reply with status 0 and their body: MEMRD the bytes of a word that is not
poisoned, MEMWR having written its bytes there, their lines being present, SENSE the last sample, PCAP and TLIMIT having set the cap and the
limit, EVLOG the entries asked for by sequence number, ATTEST the first part of a new report and then, each after the host has read the
one before, every further part, IDCERT the certificate; UPDATE copies its image one word a step, and then replies with status 0 where the copy
passes the checks of boot step 3, its image being written and then in flash, and with status 5 where it does not; EVLOG replies with status 2
to a body that asks for nothing; RESET resets the module (R470, R471, R479, R480). Model's choices: that the host has read a reply when it clears
HIRQ bit 1 (log 96), the form of an EVLOG request (log 46), that an UPDATE leaves the bytes of its staging area (log 72) and copies one word in
a step (log 97). -/
def Obligations.Mailbox : Prop :=
  ∀ (s : State) (m : Nat),
    let w := (s.module m).window
    let h := (s.module m).halyard
    let present (a : Nat) : Prop := ((s.slice (paTarget m a).home).find (lineOf a)).isSome = true
    w.recovery = false →
    (∀ a n, a = (w.request 2).toNat → n = (w.request 3).toNat → s.serves m 0x01 = true → w.bodyLength = 16 → w.mbDone = 0 →
      w.mbBad = [] → 0 < n → a % 8 + n ≤ 8 → a + n ≤ 2 ^ 44 → 0x82000 ≤ a → s.placePoison (.pa m a) = false →
      present a → ∃ t, exec (.memrd m) s = .next t ∧ Replied t m 0 (toBytes n (s.readPlace (.pa m a) n)) ∧ t.mem = s.mem) ∧
    (∀ a n, a = (w.request 2).toNat → w.bodyLength = 8 + n → s.serves m 0x02 = true → w.mbDone = 0 → 0 < n → a % 8 + n ≤ 8 →
      a + n ≤ 2 ^ 44 → 0x82000 ≤ a → s.failedPa m a = false → s.mem.wf = true → present a →
      ∃ t, exec (.memwr m) s = .next t ∧ Replied t m 0 [] ∧
        Stored s.mem t.mem (paKey m a) n (w64 (ofBytes ((w.body.drop 8).take n)))) ∧
    (s.serves m 0x10 = true → w.bodyLength = 0 →
      ∃ t, exec (.sense m) s = .next t ∧ Replied t m 0 ((Config.senseReply h.sample).take 4080) ∧ t.mem = s.mem) ∧
    (s.serves m 0x11 = true → w.bodyLength = 8 → 1200 ≤ (w.request 2).toNat → (w.request 2).toNat ≤ 2400 →
      ∃ t, exec (.pcap m) s = .next t ∧ Replied t m 0 [] ∧ (t.module m).halyard = { h with pcap := (w.request 2).toNat }) ∧
    (s.serves m 0x12 = true → w.bodyLength = 8 → 70 ≤ (w.request 2).toNat → (w.request 2).toNat ≤ 105 →
      ∃ t, exec (.tlimit m) s = .next t ∧ Replied t m 0 [] ∧ (t.module m).halyard = { h with tlimit := (w.request 2).toNat }) ∧
    (s.serves m 0x20 = true →
      (∀ asked, Config.evlogAsked w.body = some asked →
        let found := (asked.filterMap fun n => h.log.find? fun ws => ws.head? = some n).take 63
        ∃ t, exec (.evlog m) s = .next t ∧ Replied t m 0 (found.flatMap fun ws => ws.flatMap fun v => toBytes 8 v.toNat) ∧ t.mem = s.mem) ∧
      (Config.evlogAsked w.body = none → ∃ t, exec (.evlog m) s = .next t ∧ Replied t m 2 [] ∧ t.mem = s.mem)) ∧
    (let parts := reportParts (h.reportFor w.version w.body)
     s.serves m 0x30 = true → w.bodyLength = 32 →
      ∃ t, exec (.attest m) s = .next t ∧ Replied t m 0 (parts.headD []) ∧ (t.module m).halyard.report = parts.tail) ∧
    (∀ part rest, h.report = part :: rest → w.mbBusy = false → bit w.hirq 1 = false →
      ∃ t, exec (.attest m) s = .next t ∧ Replied t m 0 part ∧ (t.module m).halyard.report = rest) ∧
    (s.serves m 0x31 = true → w.bodyLength = 0 →
      ∃ t, exec (.idcert m) s = .next t ∧ Replied t m 0 (h.certificate.take 4080) ∧ t.mem = s.mem) ∧
    (let a := (w.request 2).toNat
     let copy := if w.mbDone = 0 then [] else h.staged
     let size := min (0x110000000 - a) (if copy.length < 4096 then 4096 else Config.imageLength (copy.take 4096))
     s.serves m 0x40 = true → w.bodyLength = 8 → inStaging a 1 = true → h.writing = none →
      (copy.length < size → present (a + copy.length) →
        let n := min (size - copy.length) (8 - (a + copy.length) % 8)
        ∃ t, exec (.update m) s = .next t ∧ t.mem = s.mem ∧
          (t.module m).halyard = { h with staged := copy ++ s.bytesAt (paKey m (a + copy.length)) n } ∧
          (t.module m).window = { w with mbDone := copy.length + n }) ∧
      (size ≤ copy.length →
        let image := copy.take size
        let ok := decide (Config.keyHash image = h.vendorHash) && Config.imageVerifies image &&
          decide (h.fusedVersion ≤ (Config.imageVersions image).2)
        ∃ t, exec (.update m) s = .next t ∧ Replied t m (if ok then 0 else 0x05) [] ∧
          (t.module m).halyard =
            if ok then { h with staged := [], imageValid := false, writing := some image } else { h with staged := [] })) ∧
    (∀ image, s.serves m 0x40 = false → h.writing = some image →
      exec (.update m) s = .next (s.withHalyard m { h with image := image, imageValid := true, writing := none })) ∧
    (s.serves m 0x41 = true → w.bodyLength = 0 → s.wf = true →
      ∃ t, exec (.reset m) s = .next t ∧ (t.module m).window = Window.reset ∧ t.mem.cells = s.mem.cells ∧
        (∀ w, wordIn m w = true → t.mem.full w = true) ∧ ∀ L k, moduleOf L = m → t.thread L k = Thread.reset ∧ t.core L = Core.reset L)
end

