-- ==== Sys2Proof/Laws/Map.lean ====
section
/-! SUPPORT. Tables: what `put` and `del` do to `look`, and that they keep the canonical form. -/

namespace Sys2Proof.Machine

variable {α : Type}

@[simp] theorem look_put_self (m : Map α) (k : Nat) (v : α) : look (put m k v) k = some v := by
  induction m with
  | nil => simp [put, look]
  | cons x rest ih =>
    obtain ⟨j, w⟩ := x
    simp only [put]
    split
    · simp [look]
    · split
      · simp [look]
      · rename_i h1 h2
        simp only [look, ih]
        rw [if_neg (Ne.symm h2), if_neg h1]

theorem look_put_other (m : Map α) {k j : Nat} (v : α) (h : j ≠ k) : look (put m k v) j = look m j := by
  induction m with
  | nil => simp [put, look, Ne.symm h]
  | cons x rest ih =>
    obtain ⟨i, w⟩ := x
    simp only [put]
    split
    · rename_i h1
      simp only [look]
      by_cases hj : j < k
      · rw [if_neg (Ne.symm h), if_pos hj, if_neg (by omega), if_pos (by omega)]
      · rw [if_neg (Ne.symm h), if_neg hj]
    · split
      · rename_i h1 h2
        subst h2
        simp only [look]
        rw [if_neg (Ne.symm h), if_neg (Ne.symm h)]
      · simp only [look, ih]

theorem risingFrom_put (m : Map α) (lo k : Nat) (v : α) (h : risingFrom lo m = true) (hk : lo ≤ k) :
    risingFrom lo (put m k v) = true := by
  induction m generalizing lo with
  | nil => simp [put, risingFrom, hk]
  | cons x rest ih =>
    obtain ⟨j, w⟩ := x
    simp only [risingFrom, Bool.and_eq_true, decide_eq_true_eq] at h
    simp only [put]
    split
    · rename_i h1
      simp only [risingFrom, Bool.and_eq_true, decide_eq_true_eq]
      exact ⟨hk, by omega, h.2⟩
    · split
      · rename_i h1 h2
        subst h2
        simp only [risingFrom, Bool.and_eq_true, decide_eq_true_eq]
        exact h
      · rename_i h1 h2
        simp only [risingFrom, Bool.and_eq_true, decide_eq_true_eq]
        exact ⟨h.1, ih (j + 1) h.2 (by omega)⟩

theorem risingFrom_mono (m : Map α) {lo lo' : Nat} (h : risingFrom lo m = true) (hl : lo' ≤ lo) : risingFrom lo' m = true := by
  cases m with
  | nil => rfl
  | cons x rest =>
    simp only [risingFrom, Bool.and_eq_true, decide_eq_true_eq] at h ⊢
    exact ⟨by omega, h.2⟩

theorem risingFrom_del (m : Map α) (lo k : Nat) (h : risingFrom lo m = true) : risingFrom lo (del m k) = true := by
  induction m generalizing lo with
  | nil => rfl
  | cons x rest ih =>
    obtain ⟨j, w⟩ := x
    simp only [del]
    split
    · exact h
    · simp only [risingFrom, Bool.and_eq_true, decide_eq_true_eq] at h
      split
      · exact risingFrom_mono rest h.2 (by omega)
      · simp only [risingFrom, Bool.and_eq_true, decide_eq_true_eq]
        exact ⟨h.1, ih (j + 1) h.2⟩

/-- `put` keeps the canonical form. -/
theorem rising_put (m : Map α) (k : Nat) (v : α) (h : rising m = true) : rising (put m k v) = true :=
  risingFrom_put m 0 k v h (Nat.zero_le k)

/-- `del` keeps the canonical form. -/
theorem rising_del (m : Map α) (k : Nat) (h : rising m = true) : rising (del m k) = true := risingFrom_del m 0 k h

/-- `putOrDel` keeps the canonical form. -/
theorem rising_putOrDel (m : Map α) (k : Nat) (x : Option α) (h : rising m = true) : rising (putOrDel m k x) = true := by
  cases x with
  | none => exact rising_del m k h
  | some v => exact rising_put m k v h

theorem look_below (m : Map α) {lo k : Nat} (h : risingFrom lo m = true) (hk : k < lo) : look m k = none := by
  cases m with
  | nil => rfl
  | cons x rest =>
    simp only [risingFrom, Bool.and_eq_true, decide_eq_true_eq] at h
    simp only [look]
    rw [if_neg (by omega), if_pos (by omega)]

/-- A removed number is listed no more. -/
theorem look_del_self (m : Map α) (k : Nat) (h : rising m = true) : look (del m k) k = none := by
  suffices ∀ lo, risingFrom lo m = true → look (del m k) k = none from this 0 h
  clear h
  intro lo h
  induction m generalizing lo with
  | nil => rfl
  | cons x rest ih =>
    obtain ⟨j, w⟩ := x
    simp only [risingFrom, Bool.and_eq_true, decide_eq_true_eq] at h
    simp only [del]
    split
    · rename_i h1
      simp only [look]
      rw [if_neg (by omega), if_pos h1]
    · split
      · exact look_below rest h.2 (by omega)
      · rename_i h1 h2
        simp only [look]
        rw [if_neg (Ne.symm h2), if_neg h1]
        exact ih (j + 1) h.2

theorem look_del_other (m : Map α) {k j : Nat} (h : j ≠ k) (hm : rising m = true) : look (del m k) j = look m j := by
  suffices ∀ lo, risingFrom lo m = true → look (del m k) j = look m j from this 0 hm
  clear hm
  intro lo h'
  induction m generalizing lo with
  | nil => rfl
  | cons x rest ih =>
    obtain ⟨i, w⟩ := x
    simp only [risingFrom, Bool.and_eq_true, decide_eq_true_eq] at h'
    simp only [del]
    split
    · rfl
    · split
      · rename_i h1 h2
        subst h2
        simp only [look]
        rw [if_neg (Ne.symm h)]
        by_cases hj : j < k
        · rw [if_pos hj, look_below rest h'.2 (by omega)]
        · rw [if_neg hj]
      · simp only [look, ih (i + 1) h'.2]

end Sys2Proof.Machine
end

