-- ==== Sys2Proof/Laws/State.lean ====
section
/-! SUPPORT. What each micro-operation does to each field of the state, and each read of a context after a write of one. -/

namespace Sys2Proof.Machine

variable (s : State)

@[simp] theorem Op.poke_ctl (k : Nat) (b : Byte) : ((Op.poke k b).apply s).ctl = s.ctl := rfl
@[simp] theorem Op.poke_mem (k : Nat) (b : Byte) : ((Op.poke k b).apply s).mem = s.mem.poke k b := rfl
@[simp] theorem Op.poke_threads (k : Nat) (b : Byte) : ((Op.poke k b).apply s).threads = s.threads := rfl
@[simp] theorem Op.poke_cores (k : Nat) (b : Byte) : ((Op.poke k b).apply s).cores = s.cores := rfl
@[simp] theorem Op.poke_phys (k : Nat) (b : Byte) : ((Op.poke k b).apply s).phys = s.phys := rfl
@[simp] theorem Op.poke_homes (k : Nat) (b : Byte) : ((Op.poke k b).apply s).homes = s.homes := rfl
@[simp] theorem Op.poke_slices (k : Nat) (b : Byte) : ((Op.poke k b).apply s).slices = s.slices := rfl
@[simp] theorem Op.poke_nets (k : Nat) (b : Byte) : ((Op.poke k b).apply s).nets = s.nets := rfl
@[simp] theorem Op.poke_modules (k : Nat) (b : Byte) : ((Op.poke k b).apply s).modules = s.modules := rfl
@[simp] theorem Op.poke_fabrics (k : Nat) (b : Byte) : ((Op.poke k b).apply s).fabrics = s.fabrics := rfl
@[simp] theorem Op.poke_nmod (k : Nat) (b : Byte) : ((Op.poke k b).apply s).nmod = s.nmod := rfl
@[simp] theorem Op.poke_groups (k : Nat) (b : Byte) : ((Op.poke k b).apply s).groups = s.groups := rfl
@[simp] theorem Op.poke_reqs (k : Nat) (b : Byte) : ((Op.poke k b).apply s).reqs = s.reqs := rfl
@[simp] theorem Op.poke_ports (k : Nat) (b : Byte) : ((Op.poke k b).apply s).ports = s.ports := rfl
@[simp] theorem Op.poke_tasks (k : Nat) (b : Byte) : ((Op.poke k b).apply s).tasks = s.tasks := rfl
@[simp] theorem Op.poke_floods (k : Nat) (b : Byte) : ((Op.poke k b).apply s).floods = s.floods := rfl
@[simp] theorem Op.poke_faults (k : Nat) (b : Byte) : ((Op.poke k b).apply s).faults = s.faults := rfl
@[simp] theorem Op.poke_copies (k : Nat) (b : Byte) : ((Op.poke k b).apply s).copies = s.copies := rfl
@[simp] theorem Op.poke_replicas (k : Nat) (b : Byte) : ((Op.poke k b).apply s).replicas = s.replicas := rfl
@[simp] theorem Op.poke_reductions (k : Nat) (b : Byte) : ((Op.poke k b).apply s).reductions = s.reductions := rfl

@[simp] theorem Op.fe_ctl (w : Nat) (f : Bool) : ((Op.fe w f).apply s).ctl = s.ctl := rfl
@[simp] theorem Op.fe_mem (w : Nat) (f : Bool) : ((Op.fe w f).apply s).mem = s.mem.setFe w f := rfl
@[simp] theorem Op.fe_threads (w : Nat) (f : Bool) : ((Op.fe w f).apply s).threads = s.threads := rfl
@[simp] theorem Op.fe_cores (w : Nat) (f : Bool) : ((Op.fe w f).apply s).cores = s.cores := rfl
@[simp] theorem Op.fe_phys (w : Nat) (f : Bool) : ((Op.fe w f).apply s).phys = s.phys := rfl
@[simp] theorem Op.fe_homes (w : Nat) (f : Bool) : ((Op.fe w f).apply s).homes = s.homes := rfl
@[simp] theorem Op.fe_slices (w : Nat) (f : Bool) : ((Op.fe w f).apply s).slices = s.slices := rfl
@[simp] theorem Op.fe_nets (w : Nat) (f : Bool) : ((Op.fe w f).apply s).nets = s.nets := rfl
@[simp] theorem Op.fe_modules (w : Nat) (f : Bool) : ((Op.fe w f).apply s).modules = s.modules := rfl
@[simp] theorem Op.fe_fabrics (w : Nat) (f : Bool) : ((Op.fe w f).apply s).fabrics = s.fabrics := rfl
@[simp] theorem Op.fe_nmod (w : Nat) (f : Bool) : ((Op.fe w f).apply s).nmod = s.nmod := rfl
@[simp] theorem Op.fe_groups (w : Nat) (f : Bool) : ((Op.fe w f).apply s).groups = s.groups := rfl
@[simp] theorem Op.fe_reqs (w : Nat) (f : Bool) : ((Op.fe w f).apply s).reqs = s.reqs := rfl
@[simp] theorem Op.fe_ports (w : Nat) (f : Bool) : ((Op.fe w f).apply s).ports = s.ports := rfl
@[simp] theorem Op.fe_tasks (w : Nat) (f : Bool) : ((Op.fe w f).apply s).tasks = s.tasks := rfl
@[simp] theorem Op.fe_floods (w : Nat) (f : Bool) : ((Op.fe w f).apply s).floods = s.floods := rfl
@[simp] theorem Op.fe_faults (w : Nat) (f : Bool) : ((Op.fe w f).apply s).faults = s.faults := rfl
@[simp] theorem Op.fe_copies (w : Nat) (f : Bool) : ((Op.fe w f).apply s).copies = s.copies := rfl
@[simp] theorem Op.fe_replicas (w : Nat) (f : Bool) : ((Op.fe w f).apply s).replicas = s.replicas := rfl
@[simp] theorem Op.fe_reductions (w : Nat) (f : Bool) : ((Op.fe w f).apply s).reductions = s.reductions := rfl

@[simp] theorem Op.poison_ctl (w : Nat) (p : Bool) : ((Op.poison w p).apply s).ctl = s.ctl := rfl
@[simp] theorem Op.poison_mem (w : Nat) (p : Bool) : ((Op.poison w p).apply s).mem = s.mem.setPoison w p := rfl
@[simp] theorem Op.poison_threads (w : Nat) (p : Bool) : ((Op.poison w p).apply s).threads = s.threads := rfl
@[simp] theorem Op.poison_cores (w : Nat) (p : Bool) : ((Op.poison w p).apply s).cores = s.cores := rfl
@[simp] theorem Op.poison_phys (w : Nat) (p : Bool) : ((Op.poison w p).apply s).phys = s.phys := rfl
@[simp] theorem Op.poison_homes (w : Nat) (p : Bool) : ((Op.poison w p).apply s).homes = s.homes := rfl
@[simp] theorem Op.poison_slices (w : Nat) (p : Bool) : ((Op.poison w p).apply s).slices = s.slices := rfl
@[simp] theorem Op.poison_nets (w : Nat) (p : Bool) : ((Op.poison w p).apply s).nets = s.nets := rfl
@[simp] theorem Op.poison_modules (w : Nat) (p : Bool) : ((Op.poison w p).apply s).modules = s.modules := rfl
@[simp] theorem Op.poison_fabrics (w : Nat) (p : Bool) : ((Op.poison w p).apply s).fabrics = s.fabrics := rfl
@[simp] theorem Op.poison_nmod (w : Nat) (p : Bool) : ((Op.poison w p).apply s).nmod = s.nmod := rfl
@[simp] theorem Op.poison_groups (w : Nat) (p : Bool) : ((Op.poison w p).apply s).groups = s.groups := rfl
@[simp] theorem Op.poison_reqs (w : Nat) (p : Bool) : ((Op.poison w p).apply s).reqs = s.reqs := rfl
@[simp] theorem Op.poison_ports (w : Nat) (p : Bool) : ((Op.poison w p).apply s).ports = s.ports := rfl
@[simp] theorem Op.poison_tasks (w : Nat) (p : Bool) : ((Op.poison w p).apply s).tasks = s.tasks := rfl
@[simp] theorem Op.poison_floods (w : Nat) (p : Bool) : ((Op.poison w p).apply s).floods = s.floods := rfl
@[simp] theorem Op.poison_faults (w : Nat) (p : Bool) : ((Op.poison w p).apply s).faults = s.faults := rfl
@[simp] theorem Op.poison_copies (w : Nat) (p : Bool) : ((Op.poison w p).apply s).copies = s.copies := rfl
@[simp] theorem Op.poison_replicas (w : Nat) (p : Bool) : ((Op.poison w p).apply s).replicas = s.replicas := rfl
@[simp] theorem Op.poison_reductions (w : Nat) (p : Bool) : ((Op.poison w p).apply s).reductions = s.reductions := rfl

@[simp] theorem Op.ctl_ctl (c : Ctl) : ((Op.ctl c).apply s).ctl = c := rfl
@[simp] theorem Op.ctl_mem (c : Ctl) : ((Op.ctl c).apply s).mem = s.mem := rfl
@[simp] theorem Op.ctl_threads (c : Ctl) : ((Op.ctl c).apply s).threads = s.threads := rfl
@[simp] theorem Op.ctl_cores (c : Ctl) : ((Op.ctl c).apply s).cores = s.cores := rfl
@[simp] theorem Op.ctl_phys (c : Ctl) : ((Op.ctl c).apply s).phys = s.phys := rfl
@[simp] theorem Op.ctl_homes (c : Ctl) : ((Op.ctl c).apply s).homes = s.homes := rfl
@[simp] theorem Op.ctl_slices (c : Ctl) : ((Op.ctl c).apply s).slices = s.slices := rfl
@[simp] theorem Op.ctl_nets (c : Ctl) : ((Op.ctl c).apply s).nets = s.nets := rfl
@[simp] theorem Op.ctl_modules (c : Ctl) : ((Op.ctl c).apply s).modules = s.modules := rfl
@[simp] theorem Op.ctl_fabrics (c : Ctl) : ((Op.ctl c).apply s).fabrics = s.fabrics := rfl
@[simp] theorem Op.ctl_nmod (c : Ctl) : ((Op.ctl c).apply s).nmod = s.nmod := rfl
@[simp] theorem Op.ctl_groups (c : Ctl) : ((Op.ctl c).apply s).groups = s.groups := rfl
@[simp] theorem Op.ctl_reqs (c : Ctl) : ((Op.ctl c).apply s).reqs = s.reqs := rfl
@[simp] theorem Op.ctl_ports (c : Ctl) : ((Op.ctl c).apply s).ports = s.ports := rfl
@[simp] theorem Op.ctl_tasks (c : Ctl) : ((Op.ctl c).apply s).tasks = s.tasks := rfl
@[simp] theorem Op.ctl_floods (c : Ctl) : ((Op.ctl c).apply s).floods = s.floods := rfl
@[simp] theorem Op.ctl_faults (c : Ctl) : ((Op.ctl c).apply s).faults = s.faults := rfl
@[simp] theorem Op.ctl_copies (c : Ctl) : ((Op.ctl c).apply s).copies = s.copies := rfl
@[simp] theorem Op.ctl_replicas (c : Ctl) : ((Op.ctl c).apply s).replicas = s.replicas := rfl
@[simp] theorem Op.ctl_reductions (c : Ctl) : ((Op.ctl c).apply s).reductions = s.reductions := rfl

@[simp] theorem Op.thread_ctl (k : Nat) (t : Thread) : ((Op.thread k t).apply s).ctl = s.ctl := rfl
@[simp] theorem Op.thread_mem (k : Nat) (t : Thread) : ((Op.thread k t).apply s).mem = s.mem := rfl
@[simp] theorem Op.thread_threads (k : Nat) (t : Thread) : ((Op.thread k t).apply s).threads = put s.threads k t := rfl
@[simp] theorem Op.thread_cores (k : Nat) (t : Thread) : ((Op.thread k t).apply s).cores = s.cores := rfl
@[simp] theorem Op.thread_phys (k : Nat) (t : Thread) : ((Op.thread k t).apply s).phys = s.phys := rfl
@[simp] theorem Op.thread_homes (k : Nat) (t : Thread) : ((Op.thread k t).apply s).homes = s.homes := rfl
@[simp] theorem Op.thread_slices (k : Nat) (t : Thread) : ((Op.thread k t).apply s).slices = s.slices := rfl
@[simp] theorem Op.thread_nets (k : Nat) (t : Thread) : ((Op.thread k t).apply s).nets = s.nets := rfl
@[simp] theorem Op.thread_modules (k : Nat) (t : Thread) : ((Op.thread k t).apply s).modules = s.modules := rfl
@[simp] theorem Op.thread_fabrics (k : Nat) (t : Thread) : ((Op.thread k t).apply s).fabrics = s.fabrics := rfl
@[simp] theorem Op.thread_nmod (k : Nat) (t : Thread) : ((Op.thread k t).apply s).nmod = s.nmod := rfl
@[simp] theorem Op.thread_groups (k : Nat) (t : Thread) : ((Op.thread k t).apply s).groups = s.groups := rfl
@[simp] theorem Op.thread_reqs (k : Nat) (t : Thread) : ((Op.thread k t).apply s).reqs = s.reqs := rfl
@[simp] theorem Op.thread_ports (k : Nat) (t : Thread) : ((Op.thread k t).apply s).ports = s.ports := rfl
@[simp] theorem Op.thread_tasks (k : Nat) (t : Thread) : ((Op.thread k t).apply s).tasks = s.tasks := rfl
@[simp] theorem Op.thread_floods (k : Nat) (t : Thread) : ((Op.thread k t).apply s).floods = s.floods := rfl
@[simp] theorem Op.thread_faults (k : Nat) (t : Thread) : ((Op.thread k t).apply s).faults = s.faults := rfl
@[simp] theorem Op.thread_copies (k : Nat) (t : Thread) : ((Op.thread k t).apply s).copies = s.copies := rfl
@[simp] theorem Op.thread_replicas (k : Nat) (t : Thread) : ((Op.thread k t).apply s).replicas = s.replicas := rfl
@[simp] theorem Op.thread_reductions (k : Nat) (t : Thread) : ((Op.thread k t).apply s).reductions = s.reductions := rfl

@[simp] theorem Op.core_ctl (L : Nat) (c : Core) : ((Op.core L c).apply s).ctl = s.ctl := rfl
@[simp] theorem Op.core_mem (L : Nat) (c : Core) : ((Op.core L c).apply s).mem = s.mem := rfl
@[simp] theorem Op.core_threads (L : Nat) (c : Core) : ((Op.core L c).apply s).threads = s.threads := rfl
@[simp] theorem Op.core_cores (L : Nat) (c : Core) : ((Op.core L c).apply s).cores = put s.cores L c := rfl
@[simp] theorem Op.core_phys (L : Nat) (c : Core) : ((Op.core L c).apply s).phys = s.phys := rfl
@[simp] theorem Op.core_homes (L : Nat) (c : Core) : ((Op.core L c).apply s).homes = s.homes := rfl
@[simp] theorem Op.core_slices (L : Nat) (c : Core) : ((Op.core L c).apply s).slices = s.slices := rfl
@[simp] theorem Op.core_nets (L : Nat) (c : Core) : ((Op.core L c).apply s).nets = s.nets := rfl
@[simp] theorem Op.core_modules (L : Nat) (c : Core) : ((Op.core L c).apply s).modules = s.modules := rfl
@[simp] theorem Op.core_fabrics (L : Nat) (c : Core) : ((Op.core L c).apply s).fabrics = s.fabrics := rfl
@[simp] theorem Op.core_nmod (L : Nat) (c : Core) : ((Op.core L c).apply s).nmod = s.nmod := rfl
@[simp] theorem Op.core_groups (L : Nat) (c : Core) : ((Op.core L c).apply s).groups = s.groups := rfl
@[simp] theorem Op.core_reqs (L : Nat) (c : Core) : ((Op.core L c).apply s).reqs = s.reqs := rfl
@[simp] theorem Op.core_ports (L : Nat) (c : Core) : ((Op.core L c).apply s).ports = s.ports := rfl
@[simp] theorem Op.core_tasks (L : Nat) (c : Core) : ((Op.core L c).apply s).tasks = s.tasks := rfl
@[simp] theorem Op.core_floods (L : Nat) (c : Core) : ((Op.core L c).apply s).floods = s.floods := rfl
@[simp] theorem Op.core_faults (L : Nat) (c : Core) : ((Op.core L c).apply s).faults = s.faults := rfl
@[simp] theorem Op.core_copies (L : Nat) (c : Core) : ((Op.core L c).apply s).copies = s.copies := rfl
@[simp] theorem Op.core_replicas (L : Nat) (c : Core) : ((Op.core L c).apply s).replicas = s.replicas := rfl
@[simp] theorem Op.core_reductions (L : Nat) (c : Core) : ((Op.core L c).apply s).reductions = s.reductions := rfl

@[simp] theorem Op.phys_ctl (P : Nat) (p : Phys) : ((Op.phys P p).apply s).ctl = s.ctl := rfl
@[simp] theorem Op.phys_mem (P : Nat) (p : Phys) : ((Op.phys P p).apply s).mem = s.mem := rfl
@[simp] theorem Op.phys_threads (P : Nat) (p : Phys) : ((Op.phys P p).apply s).threads = s.threads := rfl
@[simp] theorem Op.phys_cores (P : Nat) (p : Phys) : ((Op.phys P p).apply s).cores = s.cores := rfl
@[simp] theorem Op.phys_phys (P : Nat) (p : Phys) : ((Op.phys P p).apply s).phys = put s.phys P p := rfl
@[simp] theorem Op.phys_homes (P : Nat) (p : Phys) : ((Op.phys P p).apply s).homes = s.homes := rfl
@[simp] theorem Op.phys_slices (P : Nat) (p : Phys) : ((Op.phys P p).apply s).slices = s.slices := rfl
@[simp] theorem Op.phys_nets (P : Nat) (p : Phys) : ((Op.phys P p).apply s).nets = s.nets := rfl
@[simp] theorem Op.phys_modules (P : Nat) (p : Phys) : ((Op.phys P p).apply s).modules = s.modules := rfl
@[simp] theorem Op.phys_fabrics (P : Nat) (p : Phys) : ((Op.phys P p).apply s).fabrics = s.fabrics := rfl
@[simp] theorem Op.phys_nmod (P : Nat) (p : Phys) : ((Op.phys P p).apply s).nmod = s.nmod := rfl
@[simp] theorem Op.phys_groups (P : Nat) (p : Phys) : ((Op.phys P p).apply s).groups = s.groups := rfl
@[simp] theorem Op.phys_reqs (P : Nat) (p : Phys) : ((Op.phys P p).apply s).reqs = s.reqs := rfl
@[simp] theorem Op.phys_ports (P : Nat) (p : Phys) : ((Op.phys P p).apply s).ports = s.ports := rfl
@[simp] theorem Op.phys_tasks (P : Nat) (p : Phys) : ((Op.phys P p).apply s).tasks = s.tasks := rfl
@[simp] theorem Op.phys_floods (P : Nat) (p : Phys) : ((Op.phys P p).apply s).floods = s.floods := rfl
@[simp] theorem Op.phys_faults (P : Nat) (p : Phys) : ((Op.phys P p).apply s).faults = s.faults := rfl
@[simp] theorem Op.phys_copies (P : Nat) (p : Phys) : ((Op.phys P p).apply s).copies = s.copies := rfl
@[simp] theorem Op.phys_replicas (P : Nat) (p : Phys) : ((Op.phys P p).apply s).replicas = s.replicas := rfl
@[simp] theorem Op.phys_reductions (P : Nat) (p : Phys) : ((Op.phys P p).apply s).reductions = s.reductions := rfl

@[simp] theorem Op.home_ctl (h : Nat) (x : Home) : ((Op.home h x).apply s).ctl = s.ctl := rfl
@[simp] theorem Op.home_mem (h : Nat) (x : Home) : ((Op.home h x).apply s).mem = s.mem := rfl
@[simp] theorem Op.home_threads (h : Nat) (x : Home) : ((Op.home h x).apply s).threads = s.threads := rfl
@[simp] theorem Op.home_cores (h : Nat) (x : Home) : ((Op.home h x).apply s).cores = s.cores := rfl
@[simp] theorem Op.home_phys (h : Nat) (x : Home) : ((Op.home h x).apply s).phys = s.phys := rfl
@[simp] theorem Op.home_homes (h : Nat) (x : Home) : ((Op.home h x).apply s).homes = put s.homes h x := rfl
@[simp] theorem Op.home_slices (h : Nat) (x : Home) : ((Op.home h x).apply s).slices = s.slices := rfl
@[simp] theorem Op.home_nets (h : Nat) (x : Home) : ((Op.home h x).apply s).nets = s.nets := rfl
@[simp] theorem Op.home_modules (h : Nat) (x : Home) : ((Op.home h x).apply s).modules = s.modules := rfl
@[simp] theorem Op.home_fabrics (h : Nat) (x : Home) : ((Op.home h x).apply s).fabrics = s.fabrics := rfl
@[simp] theorem Op.home_nmod (h : Nat) (x : Home) : ((Op.home h x).apply s).nmod = s.nmod := rfl
@[simp] theorem Op.home_groups (h : Nat) (x : Home) : ((Op.home h x).apply s).groups = s.groups := rfl
@[simp] theorem Op.home_reqs (h : Nat) (x : Home) : ((Op.home h x).apply s).reqs = s.reqs := rfl
@[simp] theorem Op.home_ports (h : Nat) (x : Home) : ((Op.home h x).apply s).ports = s.ports := rfl
@[simp] theorem Op.home_tasks (h : Nat) (x : Home) : ((Op.home h x).apply s).tasks = s.tasks := rfl
@[simp] theorem Op.home_floods (h : Nat) (x : Home) : ((Op.home h x).apply s).floods = s.floods := rfl
@[simp] theorem Op.home_faults (h : Nat) (x : Home) : ((Op.home h x).apply s).faults = s.faults := rfl
@[simp] theorem Op.home_copies (h : Nat) (x : Home) : ((Op.home h x).apply s).copies = s.copies := rfl
@[simp] theorem Op.home_replicas (h : Nat) (x : Home) : ((Op.home h x).apply s).replicas = s.replicas := rfl
@[simp] theorem Op.home_reductions (h : Nat) (x : Home) : ((Op.home h x).apply s).reductions = s.reductions := rfl

@[simp] theorem Op.slice_ctl (n : Nat) (x : Slice) : ((Op.slice n x).apply s).ctl = s.ctl := rfl
@[simp] theorem Op.slice_mem (n : Nat) (x : Slice) : ((Op.slice n x).apply s).mem = s.mem := rfl
@[simp] theorem Op.slice_threads (n : Nat) (x : Slice) : ((Op.slice n x).apply s).threads = s.threads := rfl
@[simp] theorem Op.slice_cores (n : Nat) (x : Slice) : ((Op.slice n x).apply s).cores = s.cores := rfl
@[simp] theorem Op.slice_phys (n : Nat) (x : Slice) : ((Op.slice n x).apply s).phys = s.phys := rfl
@[simp] theorem Op.slice_homes (n : Nat) (x : Slice) : ((Op.slice n x).apply s).homes = s.homes := rfl
@[simp] theorem Op.slice_slices (n : Nat) (x : Slice) : ((Op.slice n x).apply s).slices = put s.slices n x := rfl
@[simp] theorem Op.slice_nets (n : Nat) (x : Slice) : ((Op.slice n x).apply s).nets = s.nets := rfl
@[simp] theorem Op.slice_modules (n : Nat) (x : Slice) : ((Op.slice n x).apply s).modules = s.modules := rfl
@[simp] theorem Op.slice_fabrics (n : Nat) (x : Slice) : ((Op.slice n x).apply s).fabrics = s.fabrics := rfl
@[simp] theorem Op.slice_nmod (n : Nat) (x : Slice) : ((Op.slice n x).apply s).nmod = s.nmod := rfl
@[simp] theorem Op.slice_groups (n : Nat) (x : Slice) : ((Op.slice n x).apply s).groups = s.groups := rfl
@[simp] theorem Op.slice_reqs (n : Nat) (x : Slice) : ((Op.slice n x).apply s).reqs = s.reqs := rfl
@[simp] theorem Op.slice_ports (n : Nat) (x : Slice) : ((Op.slice n x).apply s).ports = s.ports := rfl
@[simp] theorem Op.slice_tasks (n : Nat) (x : Slice) : ((Op.slice n x).apply s).tasks = s.tasks := rfl
@[simp] theorem Op.slice_floods (n : Nat) (x : Slice) : ((Op.slice n x).apply s).floods = s.floods := rfl
@[simp] theorem Op.slice_faults (n : Nat) (x : Slice) : ((Op.slice n x).apply s).faults = s.faults := rfl
@[simp] theorem Op.slice_copies (n : Nat) (x : Slice) : ((Op.slice n x).apply s).copies = s.copies := rfl
@[simp] theorem Op.slice_replicas (n : Nat) (x : Slice) : ((Op.slice n x).apply s).replicas = s.replicas := rfl
@[simp] theorem Op.slice_reductions (n : Nat) (x : Slice) : ((Op.slice n x).apply s).reductions = s.reductions := rfl

@[simp] theorem Op.net_ctl (n : Nat) (x : Net) : ((Op.net n x).apply s).ctl = s.ctl := rfl
@[simp] theorem Op.net_mem (n : Nat) (x : Net) : ((Op.net n x).apply s).mem = s.mem := rfl
@[simp] theorem Op.net_threads (n : Nat) (x : Net) : ((Op.net n x).apply s).threads = s.threads := rfl
@[simp] theorem Op.net_cores (n : Nat) (x : Net) : ((Op.net n x).apply s).cores = s.cores := rfl
@[simp] theorem Op.net_phys (n : Nat) (x : Net) : ((Op.net n x).apply s).phys = s.phys := rfl
@[simp] theorem Op.net_homes (n : Nat) (x : Net) : ((Op.net n x).apply s).homes = s.homes := rfl
@[simp] theorem Op.net_slices (n : Nat) (x : Net) : ((Op.net n x).apply s).slices = s.slices := rfl
@[simp] theorem Op.net_nets (n : Nat) (x : Net) : ((Op.net n x).apply s).nets = put s.nets n x := rfl
@[simp] theorem Op.net_modules (n : Nat) (x : Net) : ((Op.net n x).apply s).modules = s.modules := rfl
@[simp] theorem Op.net_fabrics (n : Nat) (x : Net) : ((Op.net n x).apply s).fabrics = s.fabrics := rfl
@[simp] theorem Op.net_nmod (n : Nat) (x : Net) : ((Op.net n x).apply s).nmod = s.nmod := rfl
@[simp] theorem Op.net_groups (n : Nat) (x : Net) : ((Op.net n x).apply s).groups = s.groups := rfl
@[simp] theorem Op.net_reqs (n : Nat) (x : Net) : ((Op.net n x).apply s).reqs = s.reqs := rfl
@[simp] theorem Op.net_ports (n : Nat) (x : Net) : ((Op.net n x).apply s).ports = s.ports := rfl
@[simp] theorem Op.net_tasks (n : Nat) (x : Net) : ((Op.net n x).apply s).tasks = s.tasks := rfl
@[simp] theorem Op.net_floods (n : Nat) (x : Net) : ((Op.net n x).apply s).floods = s.floods := rfl
@[simp] theorem Op.net_faults (n : Nat) (x : Net) : ((Op.net n x).apply s).faults = s.faults := rfl
@[simp] theorem Op.net_copies (n : Nat) (x : Net) : ((Op.net n x).apply s).copies = s.copies := rfl
@[simp] theorem Op.net_replicas (n : Nat) (x : Net) : ((Op.net n x).apply s).replicas = s.replicas := rfl
@[simp] theorem Op.net_reductions (n : Nat) (x : Net) : ((Op.net n x).apply s).reductions = s.reductions := rfl

@[simp] theorem Op.module_ctl (m : Nat) (x : Module) : ((Op.module m x).apply s).ctl = s.ctl := rfl
@[simp] theorem Op.module_mem (m : Nat) (x : Module) : ((Op.module m x).apply s).mem = s.mem := rfl
@[simp] theorem Op.module_threads (m : Nat) (x : Module) : ((Op.module m x).apply s).threads = s.threads := rfl
@[simp] theorem Op.module_cores (m : Nat) (x : Module) : ((Op.module m x).apply s).cores = s.cores := rfl
@[simp] theorem Op.module_phys (m : Nat) (x : Module) : ((Op.module m x).apply s).phys = s.phys := rfl
@[simp] theorem Op.module_homes (m : Nat) (x : Module) : ((Op.module m x).apply s).homes = s.homes := rfl
@[simp] theorem Op.module_slices (m : Nat) (x : Module) : ((Op.module m x).apply s).slices = s.slices := rfl
@[simp] theorem Op.module_nets (m : Nat) (x : Module) : ((Op.module m x).apply s).nets = s.nets := rfl
@[simp] theorem Op.module_modules (m : Nat) (x : Module) : ((Op.module m x).apply s).modules = put s.modules m x := rfl
@[simp] theorem Op.module_fabrics (m : Nat) (x : Module) : ((Op.module m x).apply s).fabrics = s.fabrics := rfl
@[simp] theorem Op.module_nmod (m : Nat) (x : Module) : ((Op.module m x).apply s).nmod = s.nmod := rfl
@[simp] theorem Op.module_groups (m : Nat) (x : Module) : ((Op.module m x).apply s).groups = s.groups := rfl
@[simp] theorem Op.module_reqs (m : Nat) (x : Module) : ((Op.module m x).apply s).reqs = s.reqs := rfl
@[simp] theorem Op.module_ports (m : Nat) (x : Module) : ((Op.module m x).apply s).ports = s.ports := rfl
@[simp] theorem Op.module_tasks (m : Nat) (x : Module) : ((Op.module m x).apply s).tasks = s.tasks := rfl
@[simp] theorem Op.module_floods (m : Nat) (x : Module) : ((Op.module m x).apply s).floods = s.floods := rfl
@[simp] theorem Op.module_faults (m : Nat) (x : Module) : ((Op.module m x).apply s).faults = s.faults := rfl
@[simp] theorem Op.module_copies (m : Nat) (x : Module) : ((Op.module m x).apply s).copies = s.copies := rfl
@[simp] theorem Op.module_replicas (m : Nat) (x : Module) : ((Op.module m x).apply s).replicas = s.replicas := rfl
@[simp] theorem Op.module_reductions (m : Nat) (x : Module) : ((Op.module m x).apply s).reductions = s.reductions := rfl

@[simp] theorem Op.fabric_ctl (m : Nat) (x : Fabric) : ((Op.fabric m x).apply s).ctl = s.ctl := rfl
@[simp] theorem Op.fabric_mem (m : Nat) (x : Fabric) : ((Op.fabric m x).apply s).mem = s.mem := rfl
@[simp] theorem Op.fabric_threads (m : Nat) (x : Fabric) : ((Op.fabric m x).apply s).threads = s.threads := rfl
@[simp] theorem Op.fabric_cores (m : Nat) (x : Fabric) : ((Op.fabric m x).apply s).cores = s.cores := rfl
@[simp] theorem Op.fabric_phys (m : Nat) (x : Fabric) : ((Op.fabric m x).apply s).phys = s.phys := rfl
@[simp] theorem Op.fabric_homes (m : Nat) (x : Fabric) : ((Op.fabric m x).apply s).homes = s.homes := rfl
@[simp] theorem Op.fabric_slices (m : Nat) (x : Fabric) : ((Op.fabric m x).apply s).slices = s.slices := rfl
@[simp] theorem Op.fabric_nets (m : Nat) (x : Fabric) : ((Op.fabric m x).apply s).nets = s.nets := rfl
@[simp] theorem Op.fabric_modules (m : Nat) (x : Fabric) : ((Op.fabric m x).apply s).modules = s.modules := rfl
@[simp] theorem Op.fabric_fabrics (m : Nat) (x : Fabric) : ((Op.fabric m x).apply s).fabrics = put s.fabrics m x := rfl
@[simp] theorem Op.fabric_nmod (m : Nat) (x : Fabric) : ((Op.fabric m x).apply s).nmod = s.nmod := rfl
@[simp] theorem Op.fabric_groups (m : Nat) (x : Fabric) : ((Op.fabric m x).apply s).groups = s.groups := rfl
@[simp] theorem Op.fabric_reqs (m : Nat) (x : Fabric) : ((Op.fabric m x).apply s).reqs = s.reqs := rfl
@[simp] theorem Op.fabric_ports (m : Nat) (x : Fabric) : ((Op.fabric m x).apply s).ports = s.ports := rfl
@[simp] theorem Op.fabric_tasks (m : Nat) (x : Fabric) : ((Op.fabric m x).apply s).tasks = s.tasks := rfl
@[simp] theorem Op.fabric_floods (m : Nat) (x : Fabric) : ((Op.fabric m x).apply s).floods = s.floods := rfl
@[simp] theorem Op.fabric_faults (m : Nat) (x : Fabric) : ((Op.fabric m x).apply s).faults = s.faults := rfl
@[simp] theorem Op.fabric_copies (m : Nat) (x : Fabric) : ((Op.fabric m x).apply s).copies = s.copies := rfl
@[simp] theorem Op.fabric_replicas (m : Nat) (x : Fabric) : ((Op.fabric m x).apply s).replicas = s.replicas := rfl
@[simp] theorem Op.fabric_reductions (m : Nat) (x : Fabric) : ((Op.fabric m x).apply s).reductions = s.reductions := rfl

@[simp] theorem Op.nmod_ctl (n : Nat) : ((Op.nmod n).apply s).ctl = s.ctl := rfl
@[simp] theorem Op.nmod_mem (n : Nat) : ((Op.nmod n).apply s).mem = s.mem := rfl
@[simp] theorem Op.nmod_threads (n : Nat) : ((Op.nmod n).apply s).threads = s.threads := rfl
@[simp] theorem Op.nmod_cores (n : Nat) : ((Op.nmod n).apply s).cores = s.cores := rfl
@[simp] theorem Op.nmod_phys (n : Nat) : ((Op.nmod n).apply s).phys = s.phys := rfl
@[simp] theorem Op.nmod_homes (n : Nat) : ((Op.nmod n).apply s).homes = s.homes := rfl
@[simp] theorem Op.nmod_slices (n : Nat) : ((Op.nmod n).apply s).slices = s.slices := rfl
@[simp] theorem Op.nmod_nets (n : Nat) : ((Op.nmod n).apply s).nets = s.nets := rfl
@[simp] theorem Op.nmod_modules (n : Nat) : ((Op.nmod n).apply s).modules = s.modules := rfl
@[simp] theorem Op.nmod_fabrics (n : Nat) : ((Op.nmod n).apply s).fabrics = s.fabrics := rfl
@[simp] theorem Op.nmod_nmod (n : Nat) : ((Op.nmod n).apply s).nmod = n := rfl
@[simp] theorem Op.nmod_groups (n : Nat) : ((Op.nmod n).apply s).groups = s.groups := rfl
@[simp] theorem Op.nmod_reqs (n : Nat) : ((Op.nmod n).apply s).reqs = s.reqs := rfl
@[simp] theorem Op.nmod_ports (n : Nat) : ((Op.nmod n).apply s).ports = s.ports := rfl
@[simp] theorem Op.nmod_tasks (n : Nat) : ((Op.nmod n).apply s).tasks = s.tasks := rfl
@[simp] theorem Op.nmod_floods (n : Nat) : ((Op.nmod n).apply s).floods = s.floods := rfl
@[simp] theorem Op.nmod_faults (n : Nat) : ((Op.nmod n).apply s).faults = s.faults := rfl
@[simp] theorem Op.nmod_copies (n : Nat) : ((Op.nmod n).apply s).copies = s.copies := rfl
@[simp] theorem Op.nmod_replicas (n : Nat) : ((Op.nmod n).apply s).replicas = s.replicas := rfl
@[simp] theorem Op.nmod_reductions (n : Nat) : ((Op.nmod n).apply s).reductions = s.reductions := rfl

@[simp] theorem Op.group_ctl (k : Nat) (x : Group) : ((Op.group k x).apply s).ctl = s.ctl := rfl
@[simp] theorem Op.group_mem (k : Nat) (x : Group) : ((Op.group k x).apply s).mem = s.mem := rfl
@[simp] theorem Op.group_threads (k : Nat) (x : Group) : ((Op.group k x).apply s).threads = s.threads := rfl
@[simp] theorem Op.group_cores (k : Nat) (x : Group) : ((Op.group k x).apply s).cores = s.cores := rfl
@[simp] theorem Op.group_phys (k : Nat) (x : Group) : ((Op.group k x).apply s).phys = s.phys := rfl
@[simp] theorem Op.group_homes (k : Nat) (x : Group) : ((Op.group k x).apply s).homes = s.homes := rfl
@[simp] theorem Op.group_slices (k : Nat) (x : Group) : ((Op.group k x).apply s).slices = s.slices := rfl
@[simp] theorem Op.group_nets (k : Nat) (x : Group) : ((Op.group k x).apply s).nets = s.nets := rfl
@[simp] theorem Op.group_modules (k : Nat) (x : Group) : ((Op.group k x).apply s).modules = s.modules := rfl
@[simp] theorem Op.group_fabrics (k : Nat) (x : Group) : ((Op.group k x).apply s).fabrics = s.fabrics := rfl
@[simp] theorem Op.group_nmod (k : Nat) (x : Group) : ((Op.group k x).apply s).nmod = s.nmod := rfl
@[simp] theorem Op.group_groups (k : Nat) (x : Group) : ((Op.group k x).apply s).groups = put s.groups k x := rfl
@[simp] theorem Op.group_reqs (k : Nat) (x : Group) : ((Op.group k x).apply s).reqs = s.reqs := rfl
@[simp] theorem Op.group_ports (k : Nat) (x : Group) : ((Op.group k x).apply s).ports = s.ports := rfl
@[simp] theorem Op.group_tasks (k : Nat) (x : Group) : ((Op.group k x).apply s).tasks = s.tasks := rfl
@[simp] theorem Op.group_floods (k : Nat) (x : Group) : ((Op.group k x).apply s).floods = s.floods := rfl
@[simp] theorem Op.group_faults (k : Nat) (x : Group) : ((Op.group k x).apply s).faults = s.faults := rfl
@[simp] theorem Op.group_copies (k : Nat) (x : Group) : ((Op.group k x).apply s).copies = s.copies := rfl
@[simp] theorem Op.group_replicas (k : Nat) (x : Group) : ((Op.group k x).apply s).replicas = s.replicas := rfl
@[simp] theorem Op.group_reductions (k : Nat) (x : Group) : ((Op.group k x).apply s).reductions = s.reductions := rfl

@[simp] theorem Op.req_ctl (i : Nat) (x : Option Req) : ((Op.req i x).apply s).ctl = s.ctl := rfl
@[simp] theorem Op.req_mem (i : Nat) (x : Option Req) : ((Op.req i x).apply s).mem = s.mem := rfl
@[simp] theorem Op.req_threads (i : Nat) (x : Option Req) : ((Op.req i x).apply s).threads = s.threads := rfl
@[simp] theorem Op.req_cores (i : Nat) (x : Option Req) : ((Op.req i x).apply s).cores = s.cores := rfl
@[simp] theorem Op.req_phys (i : Nat) (x : Option Req) : ((Op.req i x).apply s).phys = s.phys := rfl
@[simp] theorem Op.req_homes (i : Nat) (x : Option Req) : ((Op.req i x).apply s).homes = s.homes := rfl
@[simp] theorem Op.req_slices (i : Nat) (x : Option Req) : ((Op.req i x).apply s).slices = s.slices := rfl
@[simp] theorem Op.req_nets (i : Nat) (x : Option Req) : ((Op.req i x).apply s).nets = s.nets := rfl
@[simp] theorem Op.req_modules (i : Nat) (x : Option Req) : ((Op.req i x).apply s).modules = s.modules := rfl
@[simp] theorem Op.req_fabrics (i : Nat) (x : Option Req) : ((Op.req i x).apply s).fabrics = s.fabrics := rfl
@[simp] theorem Op.req_nmod (i : Nat) (x : Option Req) : ((Op.req i x).apply s).nmod = s.nmod := rfl
@[simp] theorem Op.req_groups (i : Nat) (x : Option Req) : ((Op.req i x).apply s).groups = s.groups := rfl
@[simp] theorem Op.req_reqs (i : Nat) (x : Option Req) : ((Op.req i x).apply s).reqs = putOrDel s.reqs i x := rfl
@[simp] theorem Op.req_ports (i : Nat) (x : Option Req) : ((Op.req i x).apply s).ports = s.ports := rfl
@[simp] theorem Op.req_tasks (i : Nat) (x : Option Req) : ((Op.req i x).apply s).tasks = s.tasks := rfl
@[simp] theorem Op.req_floods (i : Nat) (x : Option Req) : ((Op.req i x).apply s).floods = s.floods := rfl
@[simp] theorem Op.req_faults (i : Nat) (x : Option Req) : ((Op.req i x).apply s).faults = s.faults := rfl
@[simp] theorem Op.req_copies (i : Nat) (x : Option Req) : ((Op.req i x).apply s).copies = s.copies := rfl
@[simp] theorem Op.req_replicas (i : Nat) (x : Option Req) : ((Op.req i x).apply s).replicas = s.replicas := rfl
@[simp] theorem Op.req_reductions (i : Nat) (x : Option Req) : ((Op.req i x).apply s).reductions = s.reductions := rfl

@[simp] theorem Op.port_ctl (i : Nat) (x : Option PortMsg) : ((Op.port i x).apply s).ctl = s.ctl := rfl
@[simp] theorem Op.port_mem (i : Nat) (x : Option PortMsg) : ((Op.port i x).apply s).mem = s.mem := rfl
@[simp] theorem Op.port_threads (i : Nat) (x : Option PortMsg) : ((Op.port i x).apply s).threads = s.threads := rfl
@[simp] theorem Op.port_cores (i : Nat) (x : Option PortMsg) : ((Op.port i x).apply s).cores = s.cores := rfl
@[simp] theorem Op.port_phys (i : Nat) (x : Option PortMsg) : ((Op.port i x).apply s).phys = s.phys := rfl
@[simp] theorem Op.port_homes (i : Nat) (x : Option PortMsg) : ((Op.port i x).apply s).homes = s.homes := rfl
@[simp] theorem Op.port_slices (i : Nat) (x : Option PortMsg) : ((Op.port i x).apply s).slices = s.slices := rfl
@[simp] theorem Op.port_nets (i : Nat) (x : Option PortMsg) : ((Op.port i x).apply s).nets = s.nets := rfl
@[simp] theorem Op.port_modules (i : Nat) (x : Option PortMsg) : ((Op.port i x).apply s).modules = s.modules := rfl
@[simp] theorem Op.port_fabrics (i : Nat) (x : Option PortMsg) : ((Op.port i x).apply s).fabrics = s.fabrics := rfl
@[simp] theorem Op.port_nmod (i : Nat) (x : Option PortMsg) : ((Op.port i x).apply s).nmod = s.nmod := rfl
@[simp] theorem Op.port_groups (i : Nat) (x : Option PortMsg) : ((Op.port i x).apply s).groups = s.groups := rfl
@[simp] theorem Op.port_reqs (i : Nat) (x : Option PortMsg) : ((Op.port i x).apply s).reqs = s.reqs := rfl
@[simp] theorem Op.port_ports (i : Nat) (x : Option PortMsg) : ((Op.port i x).apply s).ports = putOrDel s.ports i x := rfl
@[simp] theorem Op.port_tasks (i : Nat) (x : Option PortMsg) : ((Op.port i x).apply s).tasks = s.tasks := rfl
@[simp] theorem Op.port_floods (i : Nat) (x : Option PortMsg) : ((Op.port i x).apply s).floods = s.floods := rfl
@[simp] theorem Op.port_faults (i : Nat) (x : Option PortMsg) : ((Op.port i x).apply s).faults = s.faults := rfl
@[simp] theorem Op.port_copies (i : Nat) (x : Option PortMsg) : ((Op.port i x).apply s).copies = s.copies := rfl
@[simp] theorem Op.port_replicas (i : Nat) (x : Option PortMsg) : ((Op.port i x).apply s).replicas = s.replicas := rfl
@[simp] theorem Op.port_reductions (i : Nat) (x : Option PortMsg) : ((Op.port i x).apply s).reductions = s.reductions := rfl

@[simp] theorem Op.task_ctl (i : Nat) (x : Option TaskMsg) : ((Op.task i x).apply s).ctl = s.ctl := rfl
@[simp] theorem Op.task_mem (i : Nat) (x : Option TaskMsg) : ((Op.task i x).apply s).mem = s.mem := rfl
@[simp] theorem Op.task_threads (i : Nat) (x : Option TaskMsg) : ((Op.task i x).apply s).threads = s.threads := rfl
@[simp] theorem Op.task_cores (i : Nat) (x : Option TaskMsg) : ((Op.task i x).apply s).cores = s.cores := rfl
@[simp] theorem Op.task_phys (i : Nat) (x : Option TaskMsg) : ((Op.task i x).apply s).phys = s.phys := rfl
@[simp] theorem Op.task_homes (i : Nat) (x : Option TaskMsg) : ((Op.task i x).apply s).homes = s.homes := rfl
@[simp] theorem Op.task_slices (i : Nat) (x : Option TaskMsg) : ((Op.task i x).apply s).slices = s.slices := rfl
@[simp] theorem Op.task_nets (i : Nat) (x : Option TaskMsg) : ((Op.task i x).apply s).nets = s.nets := rfl
@[simp] theorem Op.task_modules (i : Nat) (x : Option TaskMsg) : ((Op.task i x).apply s).modules = s.modules := rfl
@[simp] theorem Op.task_fabrics (i : Nat) (x : Option TaskMsg) : ((Op.task i x).apply s).fabrics = s.fabrics := rfl
@[simp] theorem Op.task_nmod (i : Nat) (x : Option TaskMsg) : ((Op.task i x).apply s).nmod = s.nmod := rfl
@[simp] theorem Op.task_groups (i : Nat) (x : Option TaskMsg) : ((Op.task i x).apply s).groups = s.groups := rfl
@[simp] theorem Op.task_reqs (i : Nat) (x : Option TaskMsg) : ((Op.task i x).apply s).reqs = s.reqs := rfl
@[simp] theorem Op.task_ports (i : Nat) (x : Option TaskMsg) : ((Op.task i x).apply s).ports = s.ports := rfl
@[simp] theorem Op.task_tasks (i : Nat) (x : Option TaskMsg) : ((Op.task i x).apply s).tasks = putOrDel s.tasks i x := rfl
@[simp] theorem Op.task_floods (i : Nat) (x : Option TaskMsg) : ((Op.task i x).apply s).floods = s.floods := rfl
@[simp] theorem Op.task_faults (i : Nat) (x : Option TaskMsg) : ((Op.task i x).apply s).faults = s.faults := rfl
@[simp] theorem Op.task_copies (i : Nat) (x : Option TaskMsg) : ((Op.task i x).apply s).copies = s.copies := rfl
@[simp] theorem Op.task_replicas (i : Nat) (x : Option TaskMsg) : ((Op.task i x).apply s).replicas = s.replicas := rfl
@[simp] theorem Op.task_reductions (i : Nat) (x : Option TaskMsg) : ((Op.task i x).apply s).reductions = s.reductions := rfl

@[simp] theorem Op.flood_ctl (i : Nat) (x : Option Flood) : ((Op.flood i x).apply s).ctl = s.ctl := rfl
@[simp] theorem Op.flood_mem (i : Nat) (x : Option Flood) : ((Op.flood i x).apply s).mem = s.mem := rfl
@[simp] theorem Op.flood_threads (i : Nat) (x : Option Flood) : ((Op.flood i x).apply s).threads = s.threads := rfl
@[simp] theorem Op.flood_cores (i : Nat) (x : Option Flood) : ((Op.flood i x).apply s).cores = s.cores := rfl
@[simp] theorem Op.flood_phys (i : Nat) (x : Option Flood) : ((Op.flood i x).apply s).phys = s.phys := rfl
@[simp] theorem Op.flood_homes (i : Nat) (x : Option Flood) : ((Op.flood i x).apply s).homes = s.homes := rfl
@[simp] theorem Op.flood_slices (i : Nat) (x : Option Flood) : ((Op.flood i x).apply s).slices = s.slices := rfl
@[simp] theorem Op.flood_nets (i : Nat) (x : Option Flood) : ((Op.flood i x).apply s).nets = s.nets := rfl
@[simp] theorem Op.flood_modules (i : Nat) (x : Option Flood) : ((Op.flood i x).apply s).modules = s.modules := rfl
@[simp] theorem Op.flood_fabrics (i : Nat) (x : Option Flood) : ((Op.flood i x).apply s).fabrics = s.fabrics := rfl
@[simp] theorem Op.flood_nmod (i : Nat) (x : Option Flood) : ((Op.flood i x).apply s).nmod = s.nmod := rfl
@[simp] theorem Op.flood_groups (i : Nat) (x : Option Flood) : ((Op.flood i x).apply s).groups = s.groups := rfl
@[simp] theorem Op.flood_reqs (i : Nat) (x : Option Flood) : ((Op.flood i x).apply s).reqs = s.reqs := rfl
@[simp] theorem Op.flood_ports (i : Nat) (x : Option Flood) : ((Op.flood i x).apply s).ports = s.ports := rfl
@[simp] theorem Op.flood_tasks (i : Nat) (x : Option Flood) : ((Op.flood i x).apply s).tasks = s.tasks := rfl
@[simp] theorem Op.flood_floods (i : Nat) (x : Option Flood) : ((Op.flood i x).apply s).floods = putOrDel s.floods i x := rfl
@[simp] theorem Op.flood_faults (i : Nat) (x : Option Flood) : ((Op.flood i x).apply s).faults = s.faults := rfl
@[simp] theorem Op.flood_copies (i : Nat) (x : Option Flood) : ((Op.flood i x).apply s).copies = s.copies := rfl
@[simp] theorem Op.flood_replicas (i : Nat) (x : Option Flood) : ((Op.flood i x).apply s).replicas = s.replicas := rfl
@[simp] theorem Op.flood_reductions (i : Nat) (x : Option Flood) : ((Op.flood i x).apply s).reductions = s.reductions := rfl

@[simp] theorem Op.fault_ctl (i : Nat) (x : Option PendingFault) : ((Op.fault i x).apply s).ctl = s.ctl := rfl
@[simp] theorem Op.fault_mem (i : Nat) (x : Option PendingFault) : ((Op.fault i x).apply s).mem = s.mem := rfl
@[simp] theorem Op.fault_threads (i : Nat) (x : Option PendingFault) : ((Op.fault i x).apply s).threads = s.threads := rfl
@[simp] theorem Op.fault_cores (i : Nat) (x : Option PendingFault) : ((Op.fault i x).apply s).cores = s.cores := rfl
@[simp] theorem Op.fault_phys (i : Nat) (x : Option PendingFault) : ((Op.fault i x).apply s).phys = s.phys := rfl
@[simp] theorem Op.fault_homes (i : Nat) (x : Option PendingFault) : ((Op.fault i x).apply s).homes = s.homes := rfl
@[simp] theorem Op.fault_slices (i : Nat) (x : Option PendingFault) : ((Op.fault i x).apply s).slices = s.slices := rfl
@[simp] theorem Op.fault_nets (i : Nat) (x : Option PendingFault) : ((Op.fault i x).apply s).nets = s.nets := rfl
@[simp] theorem Op.fault_modules (i : Nat) (x : Option PendingFault) : ((Op.fault i x).apply s).modules = s.modules := rfl
@[simp] theorem Op.fault_fabrics (i : Nat) (x : Option PendingFault) : ((Op.fault i x).apply s).fabrics = s.fabrics := rfl
@[simp] theorem Op.fault_nmod (i : Nat) (x : Option PendingFault) : ((Op.fault i x).apply s).nmod = s.nmod := rfl
@[simp] theorem Op.fault_groups (i : Nat) (x : Option PendingFault) : ((Op.fault i x).apply s).groups = s.groups := rfl
@[simp] theorem Op.fault_reqs (i : Nat) (x : Option PendingFault) : ((Op.fault i x).apply s).reqs = s.reqs := rfl
@[simp] theorem Op.fault_ports (i : Nat) (x : Option PendingFault) : ((Op.fault i x).apply s).ports = s.ports := rfl
@[simp] theorem Op.fault_tasks (i : Nat) (x : Option PendingFault) : ((Op.fault i x).apply s).tasks = s.tasks := rfl
@[simp] theorem Op.fault_floods (i : Nat) (x : Option PendingFault) : ((Op.fault i x).apply s).floods = s.floods := rfl
@[simp] theorem Op.fault_faults (i : Nat) (x : Option PendingFault) : ((Op.fault i x).apply s).faults = putOrDel s.faults i x := rfl
@[simp] theorem Op.fault_copies (i : Nat) (x : Option PendingFault) : ((Op.fault i x).apply s).copies = s.copies := rfl
@[simp] theorem Op.fault_replicas (i : Nat) (x : Option PendingFault) : ((Op.fault i x).apply s).replicas = s.replicas := rfl
@[simp] theorem Op.fault_reductions (i : Nat) (x : Option PendingFault) : ((Op.fault i x).apply s).reductions = s.reductions := rfl

@[simp] theorem Op.copy_ctl (i : Nat) (x : Option RepCopy) : ((Op.copy i x).apply s).ctl = s.ctl := rfl
@[simp] theorem Op.copy_mem (i : Nat) (x : Option RepCopy) : ((Op.copy i x).apply s).mem = s.mem := rfl
@[simp] theorem Op.copy_threads (i : Nat) (x : Option RepCopy) : ((Op.copy i x).apply s).threads = s.threads := rfl
@[simp] theorem Op.copy_cores (i : Nat) (x : Option RepCopy) : ((Op.copy i x).apply s).cores = s.cores := rfl
@[simp] theorem Op.copy_phys (i : Nat) (x : Option RepCopy) : ((Op.copy i x).apply s).phys = s.phys := rfl
@[simp] theorem Op.copy_homes (i : Nat) (x : Option RepCopy) : ((Op.copy i x).apply s).homes = s.homes := rfl
@[simp] theorem Op.copy_slices (i : Nat) (x : Option RepCopy) : ((Op.copy i x).apply s).slices = s.slices := rfl
@[simp] theorem Op.copy_nets (i : Nat) (x : Option RepCopy) : ((Op.copy i x).apply s).nets = s.nets := rfl
@[simp] theorem Op.copy_modules (i : Nat) (x : Option RepCopy) : ((Op.copy i x).apply s).modules = s.modules := rfl
@[simp] theorem Op.copy_fabrics (i : Nat) (x : Option RepCopy) : ((Op.copy i x).apply s).fabrics = s.fabrics := rfl
@[simp] theorem Op.copy_nmod (i : Nat) (x : Option RepCopy) : ((Op.copy i x).apply s).nmod = s.nmod := rfl
@[simp] theorem Op.copy_groups (i : Nat) (x : Option RepCopy) : ((Op.copy i x).apply s).groups = s.groups := rfl
@[simp] theorem Op.copy_reqs (i : Nat) (x : Option RepCopy) : ((Op.copy i x).apply s).reqs = s.reqs := rfl
@[simp] theorem Op.copy_ports (i : Nat) (x : Option RepCopy) : ((Op.copy i x).apply s).ports = s.ports := rfl
@[simp] theorem Op.copy_tasks (i : Nat) (x : Option RepCopy) : ((Op.copy i x).apply s).tasks = s.tasks := rfl
@[simp] theorem Op.copy_floods (i : Nat) (x : Option RepCopy) : ((Op.copy i x).apply s).floods = s.floods := rfl
@[simp] theorem Op.copy_faults (i : Nat) (x : Option RepCopy) : ((Op.copy i x).apply s).faults = s.faults := rfl
@[simp] theorem Op.copy_copies (i : Nat) (x : Option RepCopy) : ((Op.copy i x).apply s).copies = putOrDel s.copies i x := rfl
@[simp] theorem Op.copy_replicas (i : Nat) (x : Option RepCopy) : ((Op.copy i x).apply s).replicas = s.replicas := rfl
@[simp] theorem Op.copy_reductions (i : Nat) (x : Option RepCopy) : ((Op.copy i x).apply s).reductions = s.reductions := rfl

@[simp] theorem Op.replica_ctl (k : Nat) (x : Option RepWord) : ((Op.replica k x).apply s).ctl = s.ctl := rfl
@[simp] theorem Op.replica_mem (k : Nat) (x : Option RepWord) : ((Op.replica k x).apply s).mem = s.mem := rfl
@[simp] theorem Op.replica_threads (k : Nat) (x : Option RepWord) : ((Op.replica k x).apply s).threads = s.threads := rfl
@[simp] theorem Op.replica_cores (k : Nat) (x : Option RepWord) : ((Op.replica k x).apply s).cores = s.cores := rfl
@[simp] theorem Op.replica_phys (k : Nat) (x : Option RepWord) : ((Op.replica k x).apply s).phys = s.phys := rfl
@[simp] theorem Op.replica_homes (k : Nat) (x : Option RepWord) : ((Op.replica k x).apply s).homes = s.homes := rfl
@[simp] theorem Op.replica_slices (k : Nat) (x : Option RepWord) : ((Op.replica k x).apply s).slices = s.slices := rfl
@[simp] theorem Op.replica_nets (k : Nat) (x : Option RepWord) : ((Op.replica k x).apply s).nets = s.nets := rfl
@[simp] theorem Op.replica_modules (k : Nat) (x : Option RepWord) : ((Op.replica k x).apply s).modules = s.modules := rfl
@[simp] theorem Op.replica_fabrics (k : Nat) (x : Option RepWord) : ((Op.replica k x).apply s).fabrics = s.fabrics := rfl
@[simp] theorem Op.replica_nmod (k : Nat) (x : Option RepWord) : ((Op.replica k x).apply s).nmod = s.nmod := rfl
@[simp] theorem Op.replica_groups (k : Nat) (x : Option RepWord) : ((Op.replica k x).apply s).groups = s.groups := rfl
@[simp] theorem Op.replica_reqs (k : Nat) (x : Option RepWord) : ((Op.replica k x).apply s).reqs = s.reqs := rfl
@[simp] theorem Op.replica_ports (k : Nat) (x : Option RepWord) : ((Op.replica k x).apply s).ports = s.ports := rfl
@[simp] theorem Op.replica_tasks (k : Nat) (x : Option RepWord) : ((Op.replica k x).apply s).tasks = s.tasks := rfl
@[simp] theorem Op.replica_floods (k : Nat) (x : Option RepWord) : ((Op.replica k x).apply s).floods = s.floods := rfl
@[simp] theorem Op.replica_faults (k : Nat) (x : Option RepWord) : ((Op.replica k x).apply s).faults = s.faults := rfl
@[simp] theorem Op.replica_copies (k : Nat) (x : Option RepWord) : ((Op.replica k x).apply s).copies = s.copies := rfl
@[simp] theorem Op.replica_replicas (k : Nat) (x : Option RepWord) : ((Op.replica k x).apply s).replicas = putOrDel s.replicas k x := rfl
@[simp] theorem Op.replica_reductions (k : Nat) (x : Option RepWord) : ((Op.replica k x).apply s).reductions = s.reductions := rfl

@[simp] theorem Op.reduction_ctl (i : Nat) (x : Option Reduction) : ((Op.reduction i x).apply s).ctl = s.ctl := rfl
@[simp] theorem Op.reduction_mem (i : Nat) (x : Option Reduction) : ((Op.reduction i x).apply s).mem = s.mem := rfl
@[simp] theorem Op.reduction_threads (i : Nat) (x : Option Reduction) : ((Op.reduction i x).apply s).threads = s.threads := rfl
@[simp] theorem Op.reduction_cores (i : Nat) (x : Option Reduction) : ((Op.reduction i x).apply s).cores = s.cores := rfl
@[simp] theorem Op.reduction_phys (i : Nat) (x : Option Reduction) : ((Op.reduction i x).apply s).phys = s.phys := rfl
@[simp] theorem Op.reduction_homes (i : Nat) (x : Option Reduction) : ((Op.reduction i x).apply s).homes = s.homes := rfl
@[simp] theorem Op.reduction_slices (i : Nat) (x : Option Reduction) : ((Op.reduction i x).apply s).slices = s.slices := rfl
@[simp] theorem Op.reduction_nets (i : Nat) (x : Option Reduction) : ((Op.reduction i x).apply s).nets = s.nets := rfl
@[simp] theorem Op.reduction_modules (i : Nat) (x : Option Reduction) : ((Op.reduction i x).apply s).modules = s.modules := rfl
@[simp] theorem Op.reduction_fabrics (i : Nat) (x : Option Reduction) : ((Op.reduction i x).apply s).fabrics = s.fabrics := rfl
@[simp] theorem Op.reduction_nmod (i : Nat) (x : Option Reduction) : ((Op.reduction i x).apply s).nmod = s.nmod := rfl
@[simp] theorem Op.reduction_groups (i : Nat) (x : Option Reduction) : ((Op.reduction i x).apply s).groups = s.groups := rfl
@[simp] theorem Op.reduction_reqs (i : Nat) (x : Option Reduction) : ((Op.reduction i x).apply s).reqs = s.reqs := rfl
@[simp] theorem Op.reduction_ports (i : Nat) (x : Option Reduction) : ((Op.reduction i x).apply s).ports = s.ports := rfl
@[simp] theorem Op.reduction_tasks (i : Nat) (x : Option Reduction) : ((Op.reduction i x).apply s).tasks = s.tasks := rfl
@[simp] theorem Op.reduction_floods (i : Nat) (x : Option Reduction) : ((Op.reduction i x).apply s).floods = s.floods := rfl
@[simp] theorem Op.reduction_faults (i : Nat) (x : Option Reduction) : ((Op.reduction i x).apply s).faults = s.faults := rfl
@[simp] theorem Op.reduction_copies (i : Nat) (x : Option Reduction) : ((Op.reduction i x).apply s).copies = s.copies := rfl
@[simp] theorem Op.reduction_replicas (i : Nat) (x : Option Reduction) : ((Op.reduction i x).apply s).replicas = s.replicas := rfl
@[simp] theorem Op.reduction_reductions (i : Nat) (x : Option Reduction) : ((Op.reduction i x).apply s).reductions = putOrDel s.reductions i x := rfl

theorem tkey_inj {L L' : Nat} {k k' : Fin 16} (h : tkey L k = tkey L' k') : L = L' ∧ k = k' := by
  unfold tkey at h
  have := k.isLt
  have := k'.isLt
  exact ⟨by omega, Fin.ext (by omega)⟩

theorem tkey_ne {L L' : Nat} {k k' : Fin 16} (h : (L, k) ≠ (L', k')) : tkey L k ≠ tkey L' k' := fun e => by
  obtain ⟨rfl, rfl⟩ := tkey_inj e
  exact h rfl

@[simp] theorem thread_thread (L : Nat) (k : Fin 16) (t : Thread) : ((Op.thread (tkey L k) t).apply s).thread L k = t := by
  simp [State.thread]

theorem thread_thread_other {L L' : Nat} {k k' : Fin 16} (t : Thread) (h : (L, k) ≠ (L', k')) :
    ((Op.thread (tkey L' k') t).apply s).thread L k = s.thread L k := by
  simp [State.thread, look_put_other _ _ (tkey_ne h)]

@[simp] theorem core_core (L : Nat) (c : Core) : ((Op.core L c).apply s).core L = c := by simp [State.core]

theorem core_core_other {L L' : Nat} (c : Core) (h : L ≠ L') : ((Op.core L' c).apply s).core L = s.core L := by
  simp [State.core, look_put_other _ _ h]

@[simp] theorem module_module (m : Nat) (x : Module) : ((Op.module m x).apply s).module m = x := by simp [State.module]

@[simp] theorem home_home (h : Nat) (x : Home) : ((Op.home h x).apply s).home h = x := by simp [State.home]

theorem home_home_other {h h' : Nat} (x : Home) (hn : h ≠ h') : ((Op.home h' x).apply s).home h = s.home h := by
  simp [State.home, look_put_other _ _ hn]

@[simp] theorem slice_slice (n : Nat) (x : Slice) : ((Op.slice n x).apply s).slice n = x := by simp [State.slice]

@[simp] theorem net_net (n : Nat) (x : Net) : ((Op.net n x).apply s).net n = x := by simp [State.net]

@[simp] theorem group_group (k : Nat) (x : Group) : ((Op.group k x).apply s).group k = x := by simp [State.group]

@[simp] theorem Op.poke_thread_read (k : Nat) (b : Byte) (Q : Nat) (j : Fin 16) : ((Op.poke k b).apply s).thread Q j = s.thread Q j := rfl
@[simp] theorem Op.poke_core_read (k : Nat) (b : Byte) (L' : Nat) : ((Op.poke k b).apply s).core L' = s.core L' := rfl
@[simp] theorem Op.poke_module_read (k : Nat) (b : Byte) (m' : Nat) : ((Op.poke k b).apply s).module m' = s.module m' := rfl
@[simp] theorem Op.poke_home_read (k : Nat) (b : Byte) (h' : Nat) : ((Op.poke k b).apply s).home h' = s.home h' := rfl
@[simp] theorem Op.poke_slice_read (k : Nat) (b : Byte) (n' : Nat) : ((Op.poke k b).apply s).slice n' = s.slice n' := rfl
@[simp] theorem Op.poke_net_read (k : Nat) (b : Byte) (n' : Nat) : ((Op.poke k b).apply s).net n' = s.net n' := rfl
@[simp] theorem Op.poke_group_read (k : Nat) (b : Byte) (g' : Nat) : ((Op.poke k b).apply s).group g' = s.group g' := rfl
@[simp] theorem Op.fe_thread_read (w : Nat) (f : Bool) (Q : Nat) (j : Fin 16) : ((Op.fe w f).apply s).thread Q j = s.thread Q j := rfl
@[simp] theorem Op.fe_core_read (w : Nat) (f : Bool) (L' : Nat) : ((Op.fe w f).apply s).core L' = s.core L' := rfl
@[simp] theorem Op.fe_module_read (w : Nat) (f : Bool) (m' : Nat) : ((Op.fe w f).apply s).module m' = s.module m' := rfl
@[simp] theorem Op.fe_home_read (w : Nat) (f : Bool) (h' : Nat) : ((Op.fe w f).apply s).home h' = s.home h' := rfl
@[simp] theorem Op.fe_slice_read (w : Nat) (f : Bool) (n' : Nat) : ((Op.fe w f).apply s).slice n' = s.slice n' := rfl
@[simp] theorem Op.fe_net_read (w : Nat) (f : Bool) (n' : Nat) : ((Op.fe w f).apply s).net n' = s.net n' := rfl
@[simp] theorem Op.fe_group_read (w : Nat) (f : Bool) (g' : Nat) : ((Op.fe w f).apply s).group g' = s.group g' := rfl
@[simp] theorem Op.poison_thread_read (w : Nat) (p : Bool) (Q : Nat) (j : Fin 16) : ((Op.poison w p).apply s).thread Q j = s.thread Q j := rfl
@[simp] theorem Op.poison_core_read (w : Nat) (p : Bool) (L' : Nat) : ((Op.poison w p).apply s).core L' = s.core L' := rfl
@[simp] theorem Op.poison_module_read (w : Nat) (p : Bool) (m' : Nat) : ((Op.poison w p).apply s).module m' = s.module m' := rfl
@[simp] theorem Op.poison_home_read (w : Nat) (p : Bool) (h' : Nat) : ((Op.poison w p).apply s).home h' = s.home h' := rfl
@[simp] theorem Op.poison_slice_read (w : Nat) (p : Bool) (n' : Nat) : ((Op.poison w p).apply s).slice n' = s.slice n' := rfl
@[simp] theorem Op.poison_net_read (w : Nat) (p : Bool) (n' : Nat) : ((Op.poison w p).apply s).net n' = s.net n' := rfl
@[simp] theorem Op.poison_group_read (w : Nat) (p : Bool) (g' : Nat) : ((Op.poison w p).apply s).group g' = s.group g' := rfl
@[simp] theorem Op.ctl_thread_read (c : Ctl) (Q : Nat) (j : Fin 16) : ((Op.ctl c).apply s).thread Q j = s.thread Q j := rfl
@[simp] theorem Op.ctl_core_read (c : Ctl) (L' : Nat) : ((Op.ctl c).apply s).core L' = s.core L' := rfl
@[simp] theorem Op.ctl_module_read (c : Ctl) (m' : Nat) : ((Op.ctl c).apply s).module m' = s.module m' := rfl
@[simp] theorem Op.ctl_home_read (c : Ctl) (h' : Nat) : ((Op.ctl c).apply s).home h' = s.home h' := rfl
@[simp] theorem Op.ctl_slice_read (c : Ctl) (n' : Nat) : ((Op.ctl c).apply s).slice n' = s.slice n' := rfl
@[simp] theorem Op.ctl_net_read (c : Ctl) (n' : Nat) : ((Op.ctl c).apply s).net n' = s.net n' := rfl
@[simp] theorem Op.ctl_group_read (c : Ctl) (g' : Nat) : ((Op.ctl c).apply s).group g' = s.group g' := rfl
@[simp] theorem Op.thread_core_read (k : Nat) (t : Thread) (L' : Nat) : ((Op.thread k t).apply s).core L' = s.core L' := rfl
@[simp] theorem Op.thread_module_read (k : Nat) (t : Thread) (m' : Nat) : ((Op.thread k t).apply s).module m' = s.module m' := rfl
@[simp] theorem Op.thread_home_read (k : Nat) (t : Thread) (h' : Nat) : ((Op.thread k t).apply s).home h' = s.home h' := rfl
@[simp] theorem Op.thread_slice_read (k : Nat) (t : Thread) (n' : Nat) : ((Op.thread k t).apply s).slice n' = s.slice n' := rfl
@[simp] theorem Op.thread_net_read (k : Nat) (t : Thread) (n' : Nat) : ((Op.thread k t).apply s).net n' = s.net n' := rfl
@[simp] theorem Op.thread_group_read (k : Nat) (t : Thread) (g' : Nat) : ((Op.thread k t).apply s).group g' = s.group g' := rfl
@[simp] theorem Op.core_thread_read (L : Nat) (c : Core) (Q : Nat) (j : Fin 16) : ((Op.core L c).apply s).thread Q j = s.thread Q j := rfl
@[simp] theorem Op.core_module_read (L : Nat) (c : Core) (m' : Nat) : ((Op.core L c).apply s).module m' = s.module m' := rfl
@[simp] theorem Op.core_home_read (L : Nat) (c : Core) (h' : Nat) : ((Op.core L c).apply s).home h' = s.home h' := rfl
@[simp] theorem Op.core_slice_read (L : Nat) (c : Core) (n' : Nat) : ((Op.core L c).apply s).slice n' = s.slice n' := rfl
@[simp] theorem Op.core_net_read (L : Nat) (c : Core) (n' : Nat) : ((Op.core L c).apply s).net n' = s.net n' := rfl
@[simp] theorem Op.core_group_read (L : Nat) (c : Core) (g' : Nat) : ((Op.core L c).apply s).group g' = s.group g' := rfl
@[simp] theorem Op.phys_thread_read (P : Nat) (p : Phys) (Q : Nat) (j : Fin 16) : ((Op.phys P p).apply s).thread Q j = s.thread Q j := rfl
@[simp] theorem Op.phys_core_read (P : Nat) (p : Phys) (L' : Nat) : ((Op.phys P p).apply s).core L' = s.core L' := rfl
@[simp] theorem Op.phys_module_read (P : Nat) (p : Phys) (m' : Nat) : ((Op.phys P p).apply s).module m' = s.module m' := rfl
@[simp] theorem Op.phys_home_read (P : Nat) (p : Phys) (h' : Nat) : ((Op.phys P p).apply s).home h' = s.home h' := rfl
@[simp] theorem Op.phys_slice_read (P : Nat) (p : Phys) (n' : Nat) : ((Op.phys P p).apply s).slice n' = s.slice n' := rfl
@[simp] theorem Op.phys_net_read (P : Nat) (p : Phys) (n' : Nat) : ((Op.phys P p).apply s).net n' = s.net n' := rfl
@[simp] theorem Op.phys_group_read (P : Nat) (p : Phys) (g' : Nat) : ((Op.phys P p).apply s).group g' = s.group g' := rfl
@[simp] theorem Op.home_thread_read (h : Nat) (x : Home) (Q : Nat) (j : Fin 16) : ((Op.home h x).apply s).thread Q j = s.thread Q j := rfl
@[simp] theorem Op.home_core_read (h : Nat) (x : Home) (L' : Nat) : ((Op.home h x).apply s).core L' = s.core L' := rfl
@[simp] theorem Op.home_module_read (h : Nat) (x : Home) (m' : Nat) : ((Op.home h x).apply s).module m' = s.module m' := rfl
@[simp] theorem Op.home_slice_read (h : Nat) (x : Home) (n' : Nat) : ((Op.home h x).apply s).slice n' = s.slice n' := rfl
@[simp] theorem Op.home_net_read (h : Nat) (x : Home) (n' : Nat) : ((Op.home h x).apply s).net n' = s.net n' := rfl
@[simp] theorem Op.home_group_read (h : Nat) (x : Home) (g' : Nat) : ((Op.home h x).apply s).group g' = s.group g' := rfl
@[simp] theorem Op.slice_thread_read (n : Nat) (x : Slice) (Q : Nat) (j : Fin 16) : ((Op.slice n x).apply s).thread Q j = s.thread Q j := rfl
@[simp] theorem Op.slice_core_read (n : Nat) (x : Slice) (L' : Nat) : ((Op.slice n x).apply s).core L' = s.core L' := rfl
@[simp] theorem Op.slice_module_read (n : Nat) (x : Slice) (m' : Nat) : ((Op.slice n x).apply s).module m' = s.module m' := rfl
@[simp] theorem Op.slice_home_read (n : Nat) (x : Slice) (h' : Nat) : ((Op.slice n x).apply s).home h' = s.home h' := rfl
@[simp] theorem Op.slice_group_read (n : Nat) (x : Slice) (g' : Nat) : ((Op.slice n x).apply s).group g' = s.group g' := rfl
@[simp] theorem Op.slice_net_read (n : Nat) (x : Slice) (n' : Nat) : ((Op.slice n x).apply s).net n' = s.net n' := rfl
@[simp] theorem Op.net_thread_read (n : Nat) (x : Net) (Q : Nat) (j : Fin 16) : ((Op.net n x).apply s).thread Q j = s.thread Q j := rfl
@[simp] theorem Op.net_core_read (n : Nat) (x : Net) (L' : Nat) : ((Op.net n x).apply s).core L' = s.core L' := rfl
@[simp] theorem Op.net_module_read (n : Nat) (x : Net) (m' : Nat) : ((Op.net n x).apply s).module m' = s.module m' := rfl
@[simp] theorem Op.net_home_read (n : Nat) (x : Net) (h' : Nat) : ((Op.net n x).apply s).home h' = s.home h' := rfl
@[simp] theorem Op.net_slice_read (n : Nat) (x : Net) (n' : Nat) : ((Op.net n x).apply s).slice n' = s.slice n' := rfl
@[simp] theorem Op.net_group_read (n : Nat) (x : Net) (g' : Nat) : ((Op.net n x).apply s).group g' = s.group g' := rfl
@[simp] theorem Op.module_thread_read (m : Nat) (x : Module) (Q : Nat) (j : Fin 16) : ((Op.module m x).apply s).thread Q j = s.thread Q j := rfl
@[simp] theorem Op.module_core_read (m : Nat) (x : Module) (L' : Nat) : ((Op.module m x).apply s).core L' = s.core L' := rfl
@[simp] theorem Op.module_home_read (m : Nat) (x : Module) (h' : Nat) : ((Op.module m x).apply s).home h' = s.home h' := rfl
@[simp] theorem Op.module_slice_read (m : Nat) (x : Module) (n' : Nat) : ((Op.module m x).apply s).slice n' = s.slice n' := rfl
@[simp] theorem Op.module_net_read (m : Nat) (x : Module) (n' : Nat) : ((Op.module m x).apply s).net n' = s.net n' := rfl
@[simp] theorem Op.module_group_read (m : Nat) (x : Module) (g' : Nat) : ((Op.module m x).apply s).group g' = s.group g' := rfl
@[simp] theorem Op.fabric_thread_read (m : Nat) (x : Fabric) (Q : Nat) (j : Fin 16) : ((Op.fabric m x).apply s).thread Q j = s.thread Q j := rfl
@[simp] theorem Op.fabric_core_read (m : Nat) (x : Fabric) (L' : Nat) : ((Op.fabric m x).apply s).core L' = s.core L' := rfl
@[simp] theorem Op.fabric_module_read (m : Nat) (x : Fabric) (m' : Nat) : ((Op.fabric m x).apply s).module m' = s.module m' := rfl
@[simp] theorem Op.fabric_home_read (m : Nat) (x : Fabric) (h' : Nat) : ((Op.fabric m x).apply s).home h' = s.home h' := rfl
@[simp] theorem Op.fabric_slice_read (m : Nat) (x : Fabric) (n' : Nat) : ((Op.fabric m x).apply s).slice n' = s.slice n' := rfl
@[simp] theorem Op.fabric_net_read (m : Nat) (x : Fabric) (n' : Nat) : ((Op.fabric m x).apply s).net n' = s.net n' := rfl
@[simp] theorem Op.fabric_group_read (m : Nat) (x : Fabric) (g' : Nat) : ((Op.fabric m x).apply s).group g' = s.group g' := rfl
@[simp] theorem Op.nmod_thread_read (n : Nat) (Q : Nat) (j : Fin 16) : ((Op.nmod n).apply s).thread Q j = s.thread Q j := rfl
@[simp] theorem Op.nmod_core_read (n : Nat) (L' : Nat) : ((Op.nmod n).apply s).core L' = s.core L' := rfl
@[simp] theorem Op.nmod_module_read (n : Nat) (m' : Nat) : ((Op.nmod n).apply s).module m' = s.module m' := rfl
@[simp] theorem Op.nmod_home_read (n : Nat) (h' : Nat) : ((Op.nmod n).apply s).home h' = s.home h' := rfl
@[simp] theorem Op.nmod_slice_read (n : Nat) (n' : Nat) : ((Op.nmod n).apply s).slice n' = s.slice n' := rfl
@[simp] theorem Op.nmod_net_read (n : Nat) (n' : Nat) : ((Op.nmod n).apply s).net n' = s.net n' := rfl
@[simp] theorem Op.nmod_group_read (n : Nat) (g' : Nat) : ((Op.nmod n).apply s).group g' = s.group g' := rfl
@[simp] theorem Op.group_thread_read (k : Nat) (x : Group) (Q : Nat) (j : Fin 16) : ((Op.group k x).apply s).thread Q j = s.thread Q j := rfl
@[simp] theorem Op.group_core_read (k : Nat) (x : Group) (L' : Nat) : ((Op.group k x).apply s).core L' = s.core L' := rfl
@[simp] theorem Op.group_module_read (k : Nat) (x : Group) (m' : Nat) : ((Op.group k x).apply s).module m' = s.module m' := rfl
@[simp] theorem Op.group_home_read (k : Nat) (x : Group) (h' : Nat) : ((Op.group k x).apply s).home h' = s.home h' := rfl
@[simp] theorem Op.group_slice_read (k : Nat) (x : Group) (n' : Nat) : ((Op.group k x).apply s).slice n' = s.slice n' := rfl
@[simp] theorem Op.group_net_read (k : Nat) (x : Group) (n' : Nat) : ((Op.group k x).apply s).net n' = s.net n' := rfl
@[simp] theorem Op.req_thread_read (i : Nat) (x : Option Req) (Q : Nat) (j : Fin 16) : ((Op.req i x).apply s).thread Q j = s.thread Q j := rfl
@[simp] theorem Op.req_core_read (i : Nat) (x : Option Req) (L' : Nat) : ((Op.req i x).apply s).core L' = s.core L' := rfl
@[simp] theorem Op.req_module_read (i : Nat) (x : Option Req) (m' : Nat) : ((Op.req i x).apply s).module m' = s.module m' := rfl
@[simp] theorem Op.req_home_read (i : Nat) (x : Option Req) (h' : Nat) : ((Op.req i x).apply s).home h' = s.home h' := rfl
@[simp] theorem Op.req_slice_read (i : Nat) (x : Option Req) (n' : Nat) : ((Op.req i x).apply s).slice n' = s.slice n' := rfl
@[simp] theorem Op.req_net_read (i : Nat) (x : Option Req) (n' : Nat) : ((Op.req i x).apply s).net n' = s.net n' := rfl
@[simp] theorem Op.req_group_read (i : Nat) (x : Option Req) (g' : Nat) : ((Op.req i x).apply s).group g' = s.group g' := rfl
@[simp] theorem Op.port_thread_read (i : Nat) (x : Option PortMsg) (Q : Nat) (j : Fin 16) : ((Op.port i x).apply s).thread Q j = s.thread Q j := rfl
@[simp] theorem Op.port_core_read (i : Nat) (x : Option PortMsg) (L' : Nat) : ((Op.port i x).apply s).core L' = s.core L' := rfl
@[simp] theorem Op.port_module_read (i : Nat) (x : Option PortMsg) (m' : Nat) : ((Op.port i x).apply s).module m' = s.module m' := rfl
@[simp] theorem Op.port_home_read (i : Nat) (x : Option PortMsg) (h' : Nat) : ((Op.port i x).apply s).home h' = s.home h' := rfl
@[simp] theorem Op.port_slice_read (i : Nat) (x : Option PortMsg) (n' : Nat) : ((Op.port i x).apply s).slice n' = s.slice n' := rfl
@[simp] theorem Op.port_net_read (i : Nat) (x : Option PortMsg) (n' : Nat) : ((Op.port i x).apply s).net n' = s.net n' := rfl
@[simp] theorem Op.port_group_read (i : Nat) (x : Option PortMsg) (g' : Nat) : ((Op.port i x).apply s).group g' = s.group g' := rfl
@[simp] theorem Op.task_thread_read (i : Nat) (x : Option TaskMsg) (Q : Nat) (j : Fin 16) : ((Op.task i x).apply s).thread Q j = s.thread Q j := rfl
@[simp] theorem Op.task_core_read (i : Nat) (x : Option TaskMsg) (L' : Nat) : ((Op.task i x).apply s).core L' = s.core L' := rfl
@[simp] theorem Op.task_module_read (i : Nat) (x : Option TaskMsg) (m' : Nat) : ((Op.task i x).apply s).module m' = s.module m' := rfl
@[simp] theorem Op.task_home_read (i : Nat) (x : Option TaskMsg) (h' : Nat) : ((Op.task i x).apply s).home h' = s.home h' := rfl
@[simp] theorem Op.task_slice_read (i : Nat) (x : Option TaskMsg) (n' : Nat) : ((Op.task i x).apply s).slice n' = s.slice n' := rfl
@[simp] theorem Op.task_net_read (i : Nat) (x : Option TaskMsg) (n' : Nat) : ((Op.task i x).apply s).net n' = s.net n' := rfl
@[simp] theorem Op.task_group_read (i : Nat) (x : Option TaskMsg) (g' : Nat) : ((Op.task i x).apply s).group g' = s.group g' := rfl
@[simp] theorem Op.flood_thread_read (i : Nat) (x : Option Flood) (Q : Nat) (j : Fin 16) : ((Op.flood i x).apply s).thread Q j = s.thread Q j := rfl
@[simp] theorem Op.flood_core_read (i : Nat) (x : Option Flood) (L' : Nat) : ((Op.flood i x).apply s).core L' = s.core L' := rfl
@[simp] theorem Op.flood_module_read (i : Nat) (x : Option Flood) (m' : Nat) : ((Op.flood i x).apply s).module m' = s.module m' := rfl
@[simp] theorem Op.flood_home_read (i : Nat) (x : Option Flood) (h' : Nat) : ((Op.flood i x).apply s).home h' = s.home h' := rfl
@[simp] theorem Op.flood_slice_read (i : Nat) (x : Option Flood) (n' : Nat) : ((Op.flood i x).apply s).slice n' = s.slice n' := rfl
@[simp] theorem Op.flood_net_read (i : Nat) (x : Option Flood) (n' : Nat) : ((Op.flood i x).apply s).net n' = s.net n' := rfl
@[simp] theorem Op.flood_group_read (i : Nat) (x : Option Flood) (g' : Nat) : ((Op.flood i x).apply s).group g' = s.group g' := rfl
@[simp] theorem Op.fault_thread_read (i : Nat) (x : Option PendingFault) (Q : Nat) (j : Fin 16) : ((Op.fault i x).apply s).thread Q j = s.thread Q j := rfl
@[simp] theorem Op.fault_core_read (i : Nat) (x : Option PendingFault) (L' : Nat) : ((Op.fault i x).apply s).core L' = s.core L' := rfl
@[simp] theorem Op.fault_module_read (i : Nat) (x : Option PendingFault) (m' : Nat) : ((Op.fault i x).apply s).module m' = s.module m' := rfl
@[simp] theorem Op.fault_home_read (i : Nat) (x : Option PendingFault) (h' : Nat) : ((Op.fault i x).apply s).home h' = s.home h' := rfl
@[simp] theorem Op.fault_slice_read (i : Nat) (x : Option PendingFault) (n' : Nat) : ((Op.fault i x).apply s).slice n' = s.slice n' := rfl
@[simp] theorem Op.fault_net_read (i : Nat) (x : Option PendingFault) (n' : Nat) : ((Op.fault i x).apply s).net n' = s.net n' := rfl
@[simp] theorem Op.fault_group_read (i : Nat) (x : Option PendingFault) (g' : Nat) : ((Op.fault i x).apply s).group g' = s.group g' := rfl
@[simp] theorem Op.copy_thread_read (i : Nat) (x : Option RepCopy) (Q : Nat) (j : Fin 16) : ((Op.copy i x).apply s).thread Q j = s.thread Q j := rfl
@[simp] theorem Op.copy_core_read (i : Nat) (x : Option RepCopy) (L' : Nat) : ((Op.copy i x).apply s).core L' = s.core L' := rfl
@[simp] theorem Op.copy_module_read (i : Nat) (x : Option RepCopy) (m' : Nat) : ((Op.copy i x).apply s).module m' = s.module m' := rfl
@[simp] theorem Op.copy_home_read (i : Nat) (x : Option RepCopy) (h' : Nat) : ((Op.copy i x).apply s).home h' = s.home h' := rfl
@[simp] theorem Op.copy_slice_read (i : Nat) (x : Option RepCopy) (n' : Nat) : ((Op.copy i x).apply s).slice n' = s.slice n' := rfl
@[simp] theorem Op.copy_net_read (i : Nat) (x : Option RepCopy) (n' : Nat) : ((Op.copy i x).apply s).net n' = s.net n' := rfl
@[simp] theorem Op.copy_group_read (i : Nat) (x : Option RepCopy) (g' : Nat) : ((Op.copy i x).apply s).group g' = s.group g' := rfl
@[simp] theorem Op.replica_thread_read (k : Nat) (x : Option RepWord) (Q : Nat) (j : Fin 16) : ((Op.replica k x).apply s).thread Q j = s.thread Q j := rfl
@[simp] theorem Op.replica_core_read (k : Nat) (x : Option RepWord) (L' : Nat) : ((Op.replica k x).apply s).core L' = s.core L' := rfl
@[simp] theorem Op.replica_module_read (k : Nat) (x : Option RepWord) (m' : Nat) : ((Op.replica k x).apply s).module m' = s.module m' := rfl
@[simp] theorem Op.replica_home_read (k : Nat) (x : Option RepWord) (h' : Nat) : ((Op.replica k x).apply s).home h' = s.home h' := rfl
@[simp] theorem Op.replica_slice_read (k : Nat) (x : Option RepWord) (n' : Nat) : ((Op.replica k x).apply s).slice n' = s.slice n' := rfl
@[simp] theorem Op.replica_net_read (k : Nat) (x : Option RepWord) (n' : Nat) : ((Op.replica k x).apply s).net n' = s.net n' := rfl
@[simp] theorem Op.replica_group_read (k : Nat) (x : Option RepWord) (g' : Nat) : ((Op.replica k x).apply s).group g' = s.group g' := rfl
@[simp] theorem Op.reduction_thread_read (i : Nat) (x : Option Reduction) (Q : Nat) (j : Fin 16) : ((Op.reduction i x).apply s).thread Q j = s.thread Q j := rfl
@[simp] theorem Op.reduction_core_read (i : Nat) (x : Option Reduction) (L' : Nat) : ((Op.reduction i x).apply s).core L' = s.core L' := rfl
@[simp] theorem Op.reduction_module_read (i : Nat) (x : Option Reduction) (m' : Nat) : ((Op.reduction i x).apply s).module m' = s.module m' := rfl
@[simp] theorem Op.reduction_home_read (i : Nat) (x : Option Reduction) (h' : Nat) : ((Op.reduction i x).apply s).home h' = s.home h' := rfl
@[simp] theorem Op.reduction_slice_read (i : Nat) (x : Option Reduction) (n' : Nat) : ((Op.reduction i x).apply s).slice n' = s.slice n' := rfl
@[simp] theorem Op.reduction_net_read (i : Nat) (x : Option Reduction) (n' : Nat) : ((Op.reduction i x).apply s).net n' = s.net n' := rfl
@[simp] theorem Op.reduction_group_read (i : Nat) (x : Option Reduction) (g' : Nat) : ((Op.reduction i x).apply s).group g' = s.group g' := rfl
@[simp] theorem Op.poke_cycle_read (k : Nat) (b : Byte) (Q : Nat) : ((Op.poke k b).apply s).cycle Q = s.cycle Q := rfl
@[simp] theorem Op.poke_physOf_read (k : Nat) (b : Byte) (Q : Nat) : ((Op.poke k b).apply s).physOf Q = s.physOf Q := rfl
@[simp] theorem Op.fe_cycle_read (w : Nat) (f : Bool) (Q : Nat) : ((Op.fe w f).apply s).cycle Q = s.cycle Q := rfl
@[simp] theorem Op.fe_physOf_read (w : Nat) (f : Bool) (Q : Nat) : ((Op.fe w f).apply s).physOf Q = s.physOf Q := rfl
@[simp] theorem Op.poison_cycle_read (w : Nat) (p : Bool) (Q : Nat) : ((Op.poison w p).apply s).cycle Q = s.cycle Q := rfl
@[simp] theorem Op.poison_physOf_read (w : Nat) (p : Bool) (Q : Nat) : ((Op.poison w p).apply s).physOf Q = s.physOf Q := rfl
@[simp] theorem Op.ctl_physOf_read (c : Ctl) (Q : Nat) : ((Op.ctl c).apply s).physOf Q = s.physOf Q := rfl
@[simp] theorem Op.thread_cycle_read (k : Nat) (t : Thread) (Q : Nat) : ((Op.thread k t).apply s).cycle Q = s.cycle Q := rfl
@[simp] theorem Op.thread_physOf_read (k : Nat) (t : Thread) (Q : Nat) : ((Op.thread k t).apply s).physOf Q = s.physOf Q := rfl
@[simp] theorem Op.core_cycle_read (L : Nat) (c : Core) (Q : Nat) : ((Op.core L c).apply s).cycle Q = s.cycle Q := rfl
@[simp] theorem Op.core_physOf_read (L : Nat) (c : Core) (Q : Nat) : ((Op.core L c).apply s).physOf Q = s.physOf Q := rfl
@[simp] theorem Op.phys_physOf_read (P : Nat) (p : Phys) (Q : Nat) : ((Op.phys P p).apply s).physOf Q = s.physOf Q := rfl
@[simp] theorem Op.home_cycle_read (h : Nat) (x : Home) (Q : Nat) : ((Op.home h x).apply s).cycle Q = s.cycle Q := rfl
@[simp] theorem Op.home_physOf_read (h : Nat) (x : Home) (Q : Nat) : ((Op.home h x).apply s).physOf Q = s.physOf Q := rfl
@[simp] theorem Op.slice_cycle_read (n : Nat) (x : Slice) (Q : Nat) : ((Op.slice n x).apply s).cycle Q = s.cycle Q := rfl
@[simp] theorem Op.slice_physOf_read (n : Nat) (x : Slice) (Q : Nat) : ((Op.slice n x).apply s).physOf Q = s.physOf Q := rfl
@[simp] theorem Op.net_cycle_read (n : Nat) (x : Net) (Q : Nat) : ((Op.net n x).apply s).cycle Q = s.cycle Q := rfl
@[simp] theorem Op.net_physOf_read (n : Nat) (x : Net) (Q : Nat) : ((Op.net n x).apply s).physOf Q = s.physOf Q := rfl
@[simp] theorem Op.fabric_cycle_read (m : Nat) (x : Fabric) (Q : Nat) : ((Op.fabric m x).apply s).cycle Q = s.cycle Q := rfl
@[simp] theorem Op.fabric_physOf_read (m : Nat) (x : Fabric) (Q : Nat) : ((Op.fabric m x).apply s).physOf Q = s.physOf Q := rfl
@[simp] theorem Op.nmod_cycle_read (n : Nat) (Q : Nat) : ((Op.nmod n).apply s).cycle Q = s.cycle Q := rfl
@[simp] theorem Op.nmod_physOf_read (n : Nat) (Q : Nat) : ((Op.nmod n).apply s).physOf Q = s.physOf Q := rfl
@[simp] theorem Op.group_cycle_read (k : Nat) (x : Group) (Q : Nat) : ((Op.group k x).apply s).cycle Q = s.cycle Q := rfl
@[simp] theorem Op.group_physOf_read (k : Nat) (x : Group) (Q : Nat) : ((Op.group k x).apply s).physOf Q = s.physOf Q := rfl
@[simp] theorem Op.req_cycle_read (i : Nat) (x : Option Req) (Q : Nat) : ((Op.req i x).apply s).cycle Q = s.cycle Q := rfl
@[simp] theorem Op.req_physOf_read (i : Nat) (x : Option Req) (Q : Nat) : ((Op.req i x).apply s).physOf Q = s.physOf Q := rfl
@[simp] theorem Op.port_cycle_read (i : Nat) (x : Option PortMsg) (Q : Nat) : ((Op.port i x).apply s).cycle Q = s.cycle Q := rfl
@[simp] theorem Op.port_physOf_read (i : Nat) (x : Option PortMsg) (Q : Nat) : ((Op.port i x).apply s).physOf Q = s.physOf Q := rfl
@[simp] theorem Op.task_cycle_read (i : Nat) (x : Option TaskMsg) (Q : Nat) : ((Op.task i x).apply s).cycle Q = s.cycle Q := rfl
@[simp] theorem Op.task_physOf_read (i : Nat) (x : Option TaskMsg) (Q : Nat) : ((Op.task i x).apply s).physOf Q = s.physOf Q := rfl
@[simp] theorem Op.flood_cycle_read (i : Nat) (x : Option Flood) (Q : Nat) : ((Op.flood i x).apply s).cycle Q = s.cycle Q := rfl
@[simp] theorem Op.flood_physOf_read (i : Nat) (x : Option Flood) (Q : Nat) : ((Op.flood i x).apply s).physOf Q = s.physOf Q := rfl
@[simp] theorem Op.fault_cycle_read (i : Nat) (x : Option PendingFault) (Q : Nat) : ((Op.fault i x).apply s).cycle Q = s.cycle Q := rfl
@[simp] theorem Op.fault_physOf_read (i : Nat) (x : Option PendingFault) (Q : Nat) : ((Op.fault i x).apply s).physOf Q = s.physOf Q := rfl
@[simp] theorem Op.copy_cycle_read (i : Nat) (x : Option RepCopy) (Q : Nat) : ((Op.copy i x).apply s).cycle Q = s.cycle Q := rfl
@[simp] theorem Op.copy_physOf_read (i : Nat) (x : Option RepCopy) (Q : Nat) : ((Op.copy i x).apply s).physOf Q = s.physOf Q := rfl
@[simp] theorem Op.replica_cycle_read (k : Nat) (x : Option RepWord) (Q : Nat) : ((Op.replica k x).apply s).cycle Q = s.cycle Q := rfl
@[simp] theorem Op.replica_physOf_read (k : Nat) (x : Option RepWord) (Q : Nat) : ((Op.replica k x).apply s).physOf Q = s.physOf Q := rfl
@[simp] theorem Op.reduction_cycle_read (i : Nat) (x : Option Reduction) (Q : Nat) : ((Op.reduction i x).apply s).cycle Q = s.cycle Q := rfl
@[simp] theorem Op.reduction_physOf_read (i : Nat) (x : Option Reduction) (Q : Nat) : ((Op.reduction i x).apply s).physOf Q = s.physOf Q := rfl

end Sys2Proof.Machine
end

