-- ==== Sys2Proof/Laws/Invariant.lean ====
section
/-! SUPPORT. Memory by key: what its operations do, and that they keep its canonical form; every micro-operation keeps the
canonical form of the state, so every action and every step does. -/

namespace Sys2Proof.Machine

/-! Memory. -/

theorem Memory.wf_rising {m : Memory} (h : m.wf = true) : rising m.cells = true := by
  simp only [Memory.wf, Bool.and_eq_true] at h
  exact h.1.1.1

/-- The byte stored is read back. -/
@[simp] theorem Memory.byte_poke_self (m : Memory) (k : Nat) (b : Byte) (h : m.wf = true) : (m.poke k b).byte k = b := by
  simp only [Memory.byte, Memory.poke]
  split
  · rename_i hb
    subst hb
    simp [look_del_self m.cells k (Memory.wf_rising h)]
  · simp

/-- Every other byte reads as before. -/
theorem Memory.byte_poke_other (m : Memory) {k j : Nat} (b : Byte) (hj : j ≠ k) (h : m.wf = true) :
    (m.poke k b).byte j = m.byte j := by
  simp only [Memory.byte, Memory.poke]
  split
  · rw [look_del_other m.cells hj (Memory.wf_rising h)]
  · rw [look_put_other m.cells b hj]

theorem all_put {α : Type} (p : α → Bool) (m : Map α) (k : Nat) (v : α) (h : m.all (fun c => p c.2) = true) (hv : p v = true) :
    (put m k v).all (fun c => p c.2) = true := by
  induction m with
  | nil => simp [put, hv]
  | cons x rest ih =>
    obtain ⟨j, w⟩ := x
    simp only [List.all_cons, Bool.and_eq_true] at h
    simp only [put]
    split
    · simp [hv, h]
    · split
      · simp [hv, h]
      · simp [h, ih h.2]

theorem all_del {α : Type} (p : α → Bool) (m : Map α) (k : Nat) (h : m.all (fun c => p c.2) = true) :
    (del m k).all (fun c => p c.2) = true := by
  induction m with
  | nil => simp [del]
  | cons x rest ih =>
    obtain ⟨j, w⟩ := x
    have h' := h
    simp only [List.all_cons, Bool.and_eq_true] at h'
    simp only [del]
    split
    · exact h
    · split
      · exact h'.2
      · simp [h', ih h'.2]

/-- Storing a byte keeps memory's canonical form. -/
theorem Memory.wf_poke (m : Memory) (k : Nat) (b : Byte) (h : m.wf = true) : (m.poke k b).wf = true := by
  simp only [Memory.wf, Bool.and_eq_true] at h ⊢
  obtain ⟨⟨⟨h1, h2⟩, h3⟩, h4⟩ := h
  refine ⟨⟨⟨?_, ?_⟩, h3⟩, h4⟩
  · simp only [Memory.poke]
    split
    · exact rising_del m.cells k h1
    · exact rising_put m.cells k b h1
  · simp only [Memory.poke]
    split
    · exact all_del (fun c => decide (c ≠ unreadByte)) m.cells k h2
    · rename_i hb
      exact all_put (fun c => decide (c ≠ unreadByte)) m.cells k b h2 (by simpa using hb)

/-- Setting a full-empty bit keeps memory's canonical form. -/
theorem Memory.wf_setFe (m : Memory) (w : Nat) (f : Bool) (h : m.wf = true) : (m.setFe w f).wf = true := by
  simp only [Memory.wf, Bool.and_eq_true] at h ⊢
  obtain ⟨⟨⟨h1, h2⟩, h3⟩, h4⟩ := h
  refine ⟨⟨⟨h1, h2⟩, ?_⟩, h4⟩
  cases f
  · exact rising_put m.empties w () h3
  · exact rising_del m.empties w h3

/-- Setting a poison mark keeps memory's canonical form. -/
theorem Memory.wf_setPoison (m : Memory) (w : Nat) (p : Bool) (h : m.wf = true) : (m.setPoison w p).wf = true := by
  simp only [Memory.wf, Bool.and_eq_true] at h ⊢
  obtain ⟨⟨⟨h1, h2⟩, h3⟩, h4⟩ := h
  refine ⟨⟨⟨h1, h2⟩, h3⟩, ?_⟩
  cases p
  · exact rising_del m.poisons w h4
  · exact rising_put m.poisons w () h4

/-! The state. -/

/-- A micro-operation keeps the canonical form. -/
theorem Op.wf_apply (o : Op) (s : State) (h : s.wf = true) : (o.apply s).wf = true := by
  simp only [State.wf, Bool.and_eq_true] at h ⊢
  obtain ⟨⟨⟨⟨⟨⟨⟨⟨⟨⟨⟨⟨⟨⟨⟨⟨⟨h0, h1⟩, h2⟩, h3⟩, h4⟩, h5⟩, h6⟩, h7⟩, h8⟩, h9⟩, h10⟩, h11⟩, h12⟩, h13⟩, h14⟩, h15⟩, h16⟩, h17⟩ := h
  cases o <;>
    simp [Op.apply, Memory.wf_poke, Memory.wf_setFe, Memory.wf_setPoison, rising_put, rising_putOrDel, h0, h1, h2, h3, h4, h5,
      h6, h7, h8, h9, h10, h11, h12, h13, h14, h15, h16, h17]

/-- Micro-operations keep the canonical form. -/
theorem applyAll_wf (ops : List Op) (s : State) (h : s.wf = true) : (applyAll ops s).wf = true := by
  induction ops generalizing s with
  | nil => exact h
  | cons o rest ih => exact ih _ (o.wf_apply s h)

/-- A property that every micro-operation keeps holds after any action. -/
theorem afterAct_induct {P : State → Prop} (step : ∀ o s, P s → P (Op.apply o s)) (s : State) (a : Act s Unit) (h : P s) :
    P (afterAct s a) := by
  unfold afterAct
  rw [(a.run (Run.start s)).2.made]
  generalize (a.run (Run.start s)).2.ops.reverse = ops
  clear a
  unfold applyAll
  suffices ∀ s, P s → P (ops.foldl (fun s o => o.apply s) s) from this s h
  clear h
  induction ops with
  | nil => exact fun _ h => h
  | cons o rest ih => exact fun s h => ih _ (step o s h)

/-- An action keeps the canonical form. -/
theorem afterAct_wf (s : State) (a : Act s Unit) (h : s.wf = true) : (afterAct s a).wf = true :=
  afterAct_induct (P := fun s => s.wf = true) (fun o s h => o.wf_apply s h) s a h

end Sys2Proof.Machine
end

