-- ==== Sys2Proof/Laws/Action.lean ====
section
/-! SUPPORT. How an action of the hardware runs: each of its primitive steps, and each change of one context, as an equation on the
computation under way. -/

namespace Sys2Proof.Machine

variable {s : State} {α β : Type} (r : Run s)

/-! Primitives. -/

theorem afterAct_eq (a : Act s Unit) : afterAct s a = (a.run (Run.start s)).2.s := rfl

theorem act_eq (a : Act s Unit) : act s a = .next (a.run (Run.start s)).2.s := rfl

/-- A bind of the identity monad, as `StateT.run_bind` leaves it. -/
@[simp] theorem id_bind_act (x : Id α) (f : α → Id β) : x >>= f = f x := rfl

@[simp] theorem id_pure_act (x : α) : (pure x : Id α) = x := rfl

@[simp] theorem Run.start_s : (Run.start s).s = s := rfl

@[simp] theorem Run.push_s (o : Op) : (r.push o).s = o.apply r.s := rfl

@[simp] theorem run_pure_act (v : α) : (pure v : Act s α).run r = (v, r) := rfl

@[simp] theorem run_bind_act (a : Act s α) (f : α → Act s β) : (a >>= f).run r = (f (a.run r).1).run (a.run r).2 := rfl

@[simp] theorem run_map_act (a : Act s α) (f : α → β) : (f <$> a).run r = (f (a.run r).1, (a.run r).2) := rfl

@[simp] theorem run_emit (o : Op) : (emit o).run r = ((), r.push o) := rfl

@[simp] theorem run_now : (now : Act s State).run r = (r.s, r) := rfl

@[simp] theorem run_get_act : (get : Act s (Run s)).run r = (r, r) := rfl

@[simp] theorem run_set_act (r' : Run s) : (set r' : Act s PUnit).run r = ((), r') := rfl

@[simp] theorem run_ite_act (c : Prop) [Decidable c] (a b : Act s α) : (if c then a else b).run r = if c then a.run r else b.run r := by
  split <;> rfl

theorem run_when (c : Bool) (a : Act s Unit) : (when_ c a).run r = if c then a.run r else ((), r) := by
  unfold when_
  split <;> rfl

@[simp] theorem run_when_true (a : Act s Unit) : (when_ true a).run r = a.run r := rfl

@[simp] theorem run_when_false (a : Act s Unit) : (when_ false a).run r = ((), r) := rfl

@[simp] theorem run_each_nil (f : α → Act s Unit) : (each [] f).run r = ((), r) := rfl

@[simp] theorem run_each_cons (x : α) (xs : List α) (f : α → Act s Unit) :
    (each (x :: xs) f).run r = (each xs f).run ((f x).run r).2 := rfl

@[simp] theorem run_freshId :
    (freshId : Act s Nat).run r = (r.s.ctl.nextId, r.push (.ctl { r.s.ctl with nextId := r.s.ctl.nextId + 1 })) := rfl

@[simp] theorem run_freeValue :
    (freeValue : Act s Nat).run r =
      (Config.freeNat r.s.ctl.fresh, r.push (.ctl { r.s.ctl with fresh := r.s.ctl.fresh + 1 })) := rfl

/-! Changes of one context. -/

@[simp] theorem run_setThread (L : Nat) (k : Fin 16) (t : Thread) :
    (setThread L k t).run r = ((), r.push (.thread (tkey L k) t)) := rfl

@[simp] theorem run_modThread (L : Nat) (k : Fin 16) (f : Thread → Thread) :
    (modThread L k f).run r = ((), r.push (.thread (tkey L k) (f (r.s.thread L k)))) := rfl

@[simp] theorem run_modCore (L : Nat) (f : Core → Core) : (modCore L f).run r = ((), r.push (.core L (f (r.s.core L)))) := rfl

@[simp] theorem run_modModule (m : Nat) (f : Module → Module) :
    (modModule m f).run r = ((), r.push (.module m (f (r.s.module m)))) := rfl

@[simp] theorem run_modWindow (m : Nat) (f : Window → Window) :
    (modWindow m f).run r = ((), r.push (.module m { r.s.module m with window := f (r.s.module m).window })) := rfl

@[simp] theorem run_modHalyard (m : Nat) (f : Halyard → Halyard) :
    (modHalyard m f).run r = ((), r.push (.module m { r.s.module m with halyard := f (r.s.module m).halyard })) := rfl

@[simp] theorem run_modPhys (P : Nat) (f : Phys → Phys) : (modPhys P f).run r = ((), r.push (.phys P (f (r.s.physCore P)))) := rfl

@[simp] theorem run_modHome (h : Nat) (f : Home → Home) : (modHome h f).run r = ((), r.push (.home h (f (r.s.home h)))) := rfl

@[simp] theorem run_modSlice (n : Nat) (f : Slice → Slice) : (modSlice n f).run r = ((), r.push (.slice n (f (r.s.slice n)))) := rfl

@[simp] theorem run_modNet (n : Nat) (f : Net → Net) : (modNet n f).run r = ((), r.push (.net n (f (r.s.net n)))) := rfl

@[simp] theorem run_modDie (m d : Nat) (f : Die → Die) :
    (modDie m d f).run r = ((), r.push (.module m { r.s.module m with dies := put (r.s.module m).dies d (f ((r.s.module m).die d)) })) := rfl

@[simp] theorem run_modEngine (L : Nat) (e : Engine) (f : EngineUnit → EngineUnit) :
    (modEngine L e f).run r = ((), r.push (.core L { r.s.core L with
      engines := vset (r.s.core L).engines (Fin.ofNat 4 e.code) (f ((r.s.core L).engines.get (Fin.ofNat 4 e.code))) })) := rfl

/-- A wake of a waiting thread that is not woken yet. -/
theorem run_wake (L : Nat) (k : Fin 16) (w : Wait) (h : (r.s.thread L k).run = .waiting w) (h' : (r.s.thread L k).woken = false) :
    (wake L k).run r = ((), (r.push (.thread (tkey L k) { r.s.thread L k with woken := true })).push
      (.core L { r.s.core L with mse := (r.s.core L).mse ++ [.reissue k] })) := by
  simp only [wake, run_bind_act, run_now]
  rw [h]
  simp only [h', Bool.not_false, run_when_true, run_bind_act, run_setThread, run_modCore]
  rfl

/-- A wake of any other thread does nothing. -/
theorem run_wake_none (L : Nat) (k : Fin 16) (h : (∀ w, (r.s.thread L k).run ≠ .waiting w) ∨ (r.s.thread L k).woken = true) :
    (wake L k).run r = ((), r) := by
  simp only [wake, run_bind_act, run_now]
  split
  · rename_i w hw
    rcases h with h | h
    · exact absurd hw (h w)
    · simp [h]
  · rfl

/-! Two writes of one context. -/

theorem put_put {α : Type} (m : Map α) (k : Nat) (a b : α) : put (put m k a) k b = put m k b := by
  induction m with
  | nil => simp [put]
  | cons p rest ih =>
    obtain ⟨j, w⟩ := p
    simp only [put]
    split
    · simp [put]
    · split
      · simp [put]
      · rename_i h1 h2
        simp only [put, h1, h2, if_false, ih]

@[simp] theorem Op.thread_thread_apply (k : Nat) (t u : Thread) (s : State) :
    (Op.thread k u).apply ((Op.thread k t).apply s) = (Op.thread k u).apply s := by simp [Op.apply, put_put]

@[simp] theorem Op.core_core_apply (L : Nat) (c d : Core) (s : State) :
    (Op.core L d).apply ((Op.core L c).apply s) = (Op.core L d).apply s := by simp [Op.apply, put_put]

@[simp] theorem Op.module_module_apply (m : Nat) (x y : Module) (s : State) :
    (Op.module m y).apply ((Op.module m x).apply s) = (Op.module m y).apply s := by simp [Op.apply, put_put]

@[simp] theorem Op.phys_phys_apply (P : Nat) (p q : Phys) (s : State) :
    (Op.phys P q).apply ((Op.phys P p).apply s) = (Op.phys P q).apply s := by simp [Op.apply, put_put]

@[simp] theorem Op.home_home_apply (h : Nat) (x y : Home) (s : State) :
    (Op.home h y).apply ((Op.home h x).apply s) = (Op.home h y).apply s := by simp [Op.apply, put_put]

theorem Op.core_thread_apply (L k : Nat) (c : Core) (t : Thread) (s : State) :
    (Op.thread k t).apply ((Op.core L c).apply s) = (Op.core L c).apply ((Op.thread k t).apply s) := rfl

end Sys2Proof.Machine
end

