-- ==== Sys2Proof/Laws/Attempt.lean ====
section
/-! SUPPORT. How an attempt goes: parts of it joined, its checks, and what a completed or stopped attempt leaves. -/

namespace Sys2Proof.Machine

variable {s : State} {α β : Type}

/-! Parts. -/

theorem Answers.bind {x : Att s α} {f : α → Att s β} {c c1 c2 : Ctx s} {v : α} {w : β} (h : Answers x c v c1)
    (h' : Answers (f v) c1 w c2) : Answers (x >>= f) c w c2 := by
  unfold Answers at *
  simp only [StateT.run_bind, h]
  exact h'

@[simp] theorem answers_pure (v w : α) (c c' : Ctx s) : Answers (pure v : Att s α) c w c' ↔ v = w ∧ c = c' := by
  show (Except.ok (v, c) : Except (Stop × List Token) (α × Ctx s)) = .ok (w, c') ↔ _
  simp

theorem answers_get (c : Ctx s) : Answers (get : Att s (Ctx s)) c c c := rfl

theorem answers_here (c : Ctx s) : Answers here c c.run.s c := rfl

theorem answers_self (c : Ctx s) : Answers self c c.me c := rfl

theorem Answers.unique {x : Att s α} {c c1 c2 : Ctx s} {v w : α} (h : Answers x c v c1) (h' : Answers x c w c2) :
    v = w ∧ c1 = c2 := by
  unfold Answers at *
  rw [h] at h'
  simpa using h'

/-- What an answered bind was made of. -/
theorem Answers.of_bind {x : Att s α} {f : α → Att s β} {c c2 : Ctx s} {w : β} (h : Answers (x >>= f) c w c2) :
    ∃ v c1, Answers x c v c1 ∧ Answers (f v) c1 w c2 := by
  unfold Answers at *
  simp only [StateT.run_bind] at h
  cases hx : x.run c with
  | error e => rw [hx] at h; cases h
  | ok p => rw [hx] at h; exact ⟨p.1, p.2, rfl, h⟩

/-! Whole attempts. -/

/-- The checks of R51 and R165 pass without an effect. -/
theorem answers_precheck {i : Instr} (h : s.admits i = true) : Answers (precheck i) (s.begins i) () (s.begins i) := by
  simp only [State.admits, Bool.and_eq_true, Bool.or_eq_true, Bool.not_eq_true', Option.isNone_iff_eq_none] at h
  obtain ⟨⟨h1, h2⟩, h3⟩ := h
  have e1 : (Instr.supervisor i && !s.me.mode) = false := by
    rcases h1 with h1 | h1 <;> simp [h1]
  have e : (s.begins i).me = s.me := rfl
  unfold precheck
  refine (answers_get _).bind ((answers_self _).bind ?_)
  rw [e, e1, h2]
  simp only [Bool.false_eq_true, Bool.not_true, if_false]
  have : edgePort (s.begins i).core (s.begins i).slot (Instr.fields i) = none := h3
  rw [this]
  rfl

/-- A whole attempt that answers leaves what `Ctx.retired` says. -/
theorem issue_answers {i : Instr} {body : Att s Next} {n : Next} {c : Ctx s} (h : s.admits i = true)
    (hb : Answers body (s.begins i) n c) :
    issue i s body = .next (c.retired n) := by
  have hp : (do precheck i; body : Att s Next).run (Ctx.start i s.ctl.core s.ctl.slot (Run.start s)) = .ok (n, c) :=
    Answers.bind (answers_precheck h) hb
  unfold issue act afterAct attempt Ctx.retired
  simp only [StateT.run_bind] at hp
  simp only [StateT.run_bind, StateT.run_get, pure_bind]
  rw [hp]
  simp only [StateT.run_bind, StateT.run_set, pure_bind]

/-- An attempt whose checks pass and whose body stops at once leaves what `State.stopped` says. -/
theorem issue_stops {i : Instr} {body : Att s Next} {x : Stop} (h : s.admits i = true)
    (hb : body.run (s.begins i) = .error (x, [])) : issue i s body = .next (s.stopped i x) := by
  have hp : (do precheck i; body : Att s Next).run (Ctx.start i s.ctl.core s.ctl.slot (Run.start s)) = .error (x, []) := by
    have := answers_precheck h
    unfold Answers at this
    simp only [StateT.run_bind]
    rw [show (precheck i).run (Ctx.start i s.ctl.core s.ctl.slot (Run.start s)) = _ from this]
    exact hb
  unfold issue act State.stopped afterAct attempt
  simp only [StateT.run_bind] at hp
  simp only [StateT.run_bind, StateT.run_get, pure_bind]
  rw [hp]

end Sys2Proof.Machine
end

