-- ==== Sys2Proof/Laws/Engine.lean ====
section
/-! SUPPORT. How the parts of an engine's unit run: their primitives, and an access to a word of the own local store. -/

namespace Sys2Proof.Machine

variable {s : State} {α β : Type}

theorem Gives.bind {x : EngM s α} {f : α → EngM s β} {c c' c'' : EngCtx s} {v : α} {w : β} (h : Gives x c v c') (h' : Gives (f v) c' w c'') :
    Gives (x >>= f) c w c'' := by
  unfold Gives at *
  simp only [ExceptT.run_bind, StateT.run_bind, h]
  exact h'

theorem gives_pure (v : α) (c : EngCtx s) : Gives (pure v) c v c := rfl

theorem gives_get (c : EngCtx s) : Gives get c c c := rfl

theorem gives_now (c : EngCtx s) : Gives engNow c c.run.s c := rfl

theorem gives_act (a : Act s α) (c : EngCtx s) : Gives (engAct a) c (a.run c.run).1 { c with run := (a.run c.run).2 } := rfl

theorem gives_mapM {f : α → EngM s β} {g : α → β} {c : EngCtx s} : ∀ {xs : List α}, (∀ x ∈ xs, Gives (f x) c (g x) c) →
    Gives (xs.mapM f) c (xs.map g) c
  | [], _ => by simpa using gives_pure [] c
  | x :: xs, h => by
    rw [List.mapM_cons]
    exact (h x (by simp)).bind ((gives_mapM fun y hy => h y (by simp [hy])).bind (gives_pure _ c))

theorem toBytes_succ (n x : Nat) : toBytes (n + 1) x = BitVec.ofNat 8 x :: toBytes n (x / 256) := by
  simp only [toBytes, List.range_succ_eq_map, List.map_cons, List.map_map]
  refine congr (congrArg _ (by rw [Nat.mul_zero, Nat.pow_zero, Nat.div_one])) (List.map_congr_left fun i _ => ?_)
  show BitVec.ofNat 8 (x / 2 ^ (8 * (i + 1))) = BitVec.ofNat 8 (x / 256 / 2 ^ (8 * i))
  rw [Nat.div_div_eq_div_mul, show 8 * (i + 1) = 8 + 8 * i by omega, Nat.pow_add]

/-- Bytes of the number that bytes make are those bytes. -/
theorem toBytes_ofBytes : ∀ bs : List Byte, toBytes bs.length (ofBytes bs) = bs
  | [] => rfl
  | b :: bs => by
    have h : ofBytes (b :: bs) = b.toNat + 256 * ofBytes bs := rfl
    have h1 : (b.toNat + 256 * ofBytes bs) / 256 = ofBytes bs := by omega
    rw [List.length_cons, toBytes_succ, h, h1, toBytes_ofBytes bs]
    congr 1
    apply BitVec.eq_of_toNat_eq
    simp only [BitVec.toNat_ofNat]
    omega

/-- The module of a local-space address is that of its core. -/
theorem moduleOf_gaCore (ga : Word) : moduleOf (gaCore ga) = gaModule ga := by
  unfold gaCore gaModule field moduleOf
  omega

/-- An address of the own raw local store is resolved as it stands. -/
theorem gives_engTarget_own {c : EngCtx s} {ga : Word} {need : Need} {sync writes : Bool} (h : isOwn c.core ga = true)
    (h1 : gaOff ga < 0x1F2000) (h2 : gaModule ga < c.run.s.nmod) : Gives (engTarget ga need sync writes) c (localTarget ga) c := by
  simp only [isOwn, Bool.and_eq_true, Bool.not_eq_true', decide_eq_true_eq] at h
  have hm : gaModule ga = moduleOf c.core := by rw [← h.2, moduleOf_gaCore]
  have hr : Gives (engResolve ga need sync writes) c (localTarget ga) c := by
    have hn : ¬c.run.s.nmod ≤ moduleOf c.core := by omega
    have ho : ¬0x1F2000 ≤ gaOff ga := by omega
    unfold engResolve
    refine (gives_get c).bind ?_
    simp only [h.1, h.2, hm, hn, h1, ne_eq, not_true_eq_false, decide_false, Bool.false_eq_true, Bool.not_false, decide_true, Bool.not_true,
      false_and, and_false, if_false, if_true]
    exact gives_pure _ c
  exact hr.bind ((gives_get c).bind (by
    have : (granted (.engine c.core c.eng) (decide (gaModule ga ≠ moduleOf c.core)) (c.run.s.physOf (if decide (gaModule ga ≠ moduleOf c.core) then
      c.run.s.receiver (moduleOf c.core) ga else c.core)) (localTarget ga)).run c.run = (true, c.run) := rfl
    have g := gives_act (granted (.engine c.core c.eng) (decide (gaModule ga ≠ moduleOf c.core)) (c.run.s.physOf
      (if decide (gaModule ga ≠ moduleOf c.core) then c.run.s.receiver (moduleOf c.core) ga else c.core)) (localTarget ga)) c
    rw [this] at g
    exact g.bind (gives_pure _ c)))

/-- Reading some bytes of one word of it gives them, where the word is not poisoned. -/
theorem gives_engRead_own {c : EngCtx s} {ga : Word} {n : Nat} (h : isOwn c.core ga = true) (hn : 0 < n) (h0 : gaOff ga % 8 + n ≤ 8)
    (h1 : gaOff ga + n ≤ 0x1F2000) (h2 : gaModule ga < c.run.s.nmod) (h3 : c.run.s.placePoison (localTarget ga).place = false) :
    Gives (engRead ga n) c (ofBytes (c.run.s.lsBytes c.core (gaOff ga) n)) c := by
  have hp : piecesOf ga.toNat n = [(ga.toNat, n)] := by
    have : ga.toNat % 8 = gaOff ga % 8 := by unfold gaOff field; omega
    have hk : min n (8 - ga.toNat % 8) = n := by omega
    have hz : n ≠ 0 := by omega
    unfold piecesOf
    rw [show n / 8 + 2 = (n / 8 + 1) + 1 from rfl]
    simp [pieces, hz, hk]
  have hc : gaCore ga = c.core := by
    simp only [isOwn, Bool.and_eq_true, decide_eq_true_eq] at h
    exact h.2
  have ht : Gives (engTargets ga n .read false) c [(localTarget ga, 0, n)] c := by
    unfold engTargets
    rw [hp]
    refine gives_mapM (g := fun _ => (localTarget ga, 0, n)) fun x hx => ?_
    have hx : x = (ga.toNat, n) := by simpa using hx
    subst hx
    have he : w64 ga.toNat = ga := by simp [w64]
    simp only [he, Nat.sub_self]
    exact (gives_engTarget_own h (by omega) h2).bind (gives_pure _ c)
  have hl : c.run.s.linkUnit c.core (ga + w64 0) (localTarget ga).home false = none := by
    have h4 : c.core < 2 ^ 40 := by rw [← hc]; unfold gaCore field; omega
    have h5 : gaModule ga = moduleOf c.core := by rw [← hc, moduleOf_gaCore]
    simp only [State.linkUnit, BitVec.add_zero, h5, ne_eq, not_true_eq_false, if_false, localTarget, State.dieOfHome, h4, if_true, hc]
  have hs : Gives (engSpoiled (ga + w64 0) (localTarget ga).home false) c false c := by
    unfold engSpoiled
    refine (gives_get c).bind ?_
    have g := gives_act (spoilOn c.core (ga + w64 0) (localTarget ga).home false (c.run.s.engine c.core c.eng).spoiled) c
    have e : (spoilOn c.core (ga + w64 0) (localTarget ga).home false (c.run.s.engine c.core c.eng).spoiled).run c.run = (false, c.run) := by
      simp only [spoilOn, run_bind_act, run_now, hl]
      rfl
    rw [e] at g
    exact g.bind ((gives_act (when_ false _) c).bind (gives_pure _ c))
  have hf : Gives ([(localTarget ga, 0, n)].forM fun (tg, _, _) => engAct (touch tg false)) c () c :=
    (gives_act (touch (localTarget ga) false) c).bind (gives_pure () c)
  have ha : Gives ([(localTarget ga, 0, n)].anyM fun (tg, at_, _) => engSpoiled (ga + w64 at_) tg.home false) c false c :=
    hs.bind (gives_pure false c)
  have hv : ofBytes ([(localTarget ga, 0, n)].flatMap fun (tg, _, k) => toBytes k (c.run.s.readPlace tg.place k)) =
      ofBytes (c.run.s.lsBytes c.core (gaOff ga) n) := by
    have e : c.run.s.readPlace (localTarget ga).place n = ofBytes (c.run.s.lsBytes c.core (gaOff ga) n) := by
      simp only [localTarget, State.readPlace, State.keyOf, hc]
      rfl
    have l : (c.run.s.lsBytes c.core (gaOff ga) n).length = n := by simp [State.lsBytes, State.bytesAt]
    simp only [List.flatMap_cons, List.flatMap_nil, List.append_nil, e]
    have b := toBytes_ofBytes (c.run.s.lsBytes c.core (gaOff ga) n)
    rw [l] at b
    rw [b]
  have hk : Gives (engPeek ga n) c (ofBytes (c.run.s.lsBytes c.core (gaOff ga) n), false) c := by
    unfold engPeek
    refine ht.bind ((gives_now c).bind (hf.bind (ha.bind ?_)))
    rw [hv]
    simp only [List.any_cons, h3, List.any_nil, Bool.or_false]
    exact gives_pure _ c
  unfold engRead
  exact hk.bind (gives_pure _ c)

/-- The pieces of a run lie in it, each in one word, and have its bytes in order. -/
theorem pieces_spec (f : Nat → Byte) : ∀ (fuel ga n : Nat), n = 0 ∨ ga % 8 + n ≤ 8 * fuel →
    (∀ x ∈ pieces ga n fuel, ga ≤ x.1 ∧ x.1 + x.2 ≤ ga + n ∧ 0 < x.2 ∧ x.1 % 8 + x.2 ≤ 8) ∧
      (pieces ga n fuel).flatMap (fun x => (List.range x.2).map fun i => f (x.1 + i)) = (List.range n).map fun i => f (ga + i)
  | 0, ga, n, h => by
    have : n = 0 := by omega
    subst this
    simp [pieces]
  | fuel + 1, ga, n, h => by
    unfold pieces
    by_cases hn : n = 0
    · simp [hn]
    · have hk : n - min n (8 - ga % 8) = 0 ∨ (ga + min n (8 - ga % 8)) % 8 + (n - min n (8 - ga % 8)) ≤ 8 * fuel := by omega
      obtain ⟨h1, h2⟩ := pieces_spec f fuel _ _ hk
      simp only [hn, if_false, List.mem_cons, forall_eq_or_imp, List.flatMap_cons, h2]
      refine ⟨⟨by omega, fun x hx => ?_⟩, ?_⟩
      · have := h1 x hx
        omega
      · have e : n = min n (8 - ga % 8) + (n - min n (8 - ga % 8)) := by omega
        conv => rhs; rw [e, List.range_add, List.map_append, List.map_map]
        simp only [Function.comp_def, Nat.add_assoc]

/-- Reading a run of the own raw local store gives its bytes, where no word of it is poisoned. -/
theorem gives_engBytes_own {c : EngCtx s} {base n : Nat} (h : isOwn c.core (w64 base) = true) (hb : base + n ≤ 2 ^ 64)
    (h1 : gaOff (w64 base) + n ≤ 0x1F2000) (h2 : gaModule (w64 base) < c.run.s.nmod)
    (h3 : ∀ i, i < n → c.run.s.placePoison (localTarget (w64 (base + i))).place = false) :
    Gives (engBytes base n) c (c.run.s.lsBytes c.core (gaOff (w64 base)) n) c := by
  have hn : n = 0 ∨ base % 8 + n ≤ 8 * (n / 8 + 2) := by omega
  obtain ⟨hp, hf⟩ := pieces_spec (fun x => c.run.s.mem.byte (lsKey (c.run.s.physOf c.core) 0 + (gaOff (w64 base) + (x - base)))) _ _ _ hn
  have each : ∀ x ∈ piecesOf base n, Gives (do return toBytes x.2 (← engRead (w64 x.1) x.2)) c
      (c.run.s.lsBytes c.core (gaOff (w64 base) + (x.1 - base)) x.2) c := by
    intro x hx
    obtain ⟨a, k⟩ := x
    obtain ⟨p1, p2, p3, p4⟩ := hp _ hx
    simp only at p1 p2 p3 p4
    have eo : gaOff (w64 a) = gaOff (w64 base) + (a - base) := by
      simp only [gaOff, field, w64, BitVec.toNat_ofNat] at h1 ⊢
      omega
    have ec : gaCore (w64 a) = gaCore (w64 base) := by
      simp only [gaOff, gaCore, field, w64, BitVec.toNat_ofNat] at h1 ⊢
      omega
    have ei : isShared (w64 a) = isShared (w64 base) := by
      simp only [gaOff, isShared, bit, field, w64, BitVec.getLsbD_ofNat, BitVec.toNat_ofNat, Nat.testBit_eq_decide_div_mod_eq] at h1 ⊢
      have : a / 2 ^ 63 = base / 2 ^ 63 := by omega
      rw [this]
    have em : gaModule (w64 a) = gaModule (w64 base) := by rw [← moduleOf_gaCore, ec, moduleOf_gaCore]
    have g := gives_engRead_own (c := c) (ga := w64 a) (n := k) (by unfold isOwn at h ⊢; rw [ei, ec]; exact h) p3
      (by rw [eo]; simp only [gaOff, field, w64, BitVec.toNat_ofNat] at h1 ⊢; omega) (by omega) (em ▸ h2) (by
        have := h3 (a - base) (by omega)
        rwa [show base + (a - base) = a by omega] at this)
    refine g.bind ?_
    have b := toBytes_ofBytes (c.run.s.lsBytes c.core (gaOff (w64 a)) k)
    rw [show (c.run.s.lsBytes c.core (gaOff (w64 a)) k).length = k by simp [State.lsBytes, State.bytesAt]] at b
    rw [b, eo]
    exact gives_pure _ c
  unfold engBytes
  refine (gives_mapM each).bind ?_
  have e : ((piecesOf base n).map fun x => c.run.s.lsBytes c.core (gaOff (w64 base) + (x.1 - base)) x.2).flatten =
      c.run.s.lsBytes c.core (gaOff (w64 base)) n := by
    refine Eq.trans (congrArg List.flatten (List.map_congr_left fun x hx => ?_)) (hf.trans (List.map_congr_left fun i _ => ?_))
    · refine List.map_congr_left fun i _ => congrArg c.run.s.mem.byte ?_
      have := (hp x hx).1
      show lsKey _ (gaOff (w64 base) + (x.1 - base)) + i = lsKey _ 0 + (gaOff (w64 base) + (x.1 + i - base))
      unfold lsKey
      omega
    · refine congrArg c.run.s.mem.byte ?_
      show lsKey _ 0 + (gaOff (w64 base) + (base + i - base)) = lsKey _ (gaOff (w64 base)) + i
      unfold lsKey
      omega
  rw [e]
  exact gives_pure _ c

end Sys2Proof.Machine
end

