-- ==== Sys2Proof/Laws/Run.lean ====
section
/-! SUPPORT. How the parts of an attempt run, as equations: what each answers and leaves, or why it stops. -/

namespace Sys2Proof.Machine

variable {s : State} {α β : Type} (c : Ctx s)

/-! Primitives. -/

@[simp] theorem ok_bind {ε : Type} (v : α) (f : α → Except ε β) : (Except.ok v >>= f) = f v := rfl

@[simp] theorem error_bind {ε : Type} (e : ε) (f : α → Except ε β) : (Except.error e >>= f) = .error e := rfl

@[simp] theorem run_pure_att (v : α) : (pure v : Att s α).run c = .ok (v, c) := rfl

@[simp] theorem run_hw (a : Act s α) : (hw a).run c = .ok ((a.run c.run).1, { c with run := (a.run c.run).2 }) := rfl

@[simp] theorem run_get_att : (get : Att s (Ctx s)).run c = .ok (c, c) := rfl

@[simp] theorem run_here : (here : Att s State).run c = .ok (c.run.s, c) := rfl

@[simp] theorem run_self : (self : Att s Thread).run c = .ok (c.me, c) := rfl

@[simp] theorem run_modSelf (f : Thread → Thread) :
    (modSelf f).run c = .ok ((), { c with run := c.run.push (.thread (tkey c.core c.slot) (f c.me)) }) := rfl

@[simp] theorem run_stop (x : Stop) : (stop x : Att s α).run c = .error (x, c.seen.reverse) := rfl

@[simp] theorem run_illegalOperand :
    (illegalOperand : Att s α).run c = .error (.trap 0x02 (c.insn.zeroExtend 64), c.seen.reverse) := rfl

@[simp] theorem run_ite_att (p : Prop) [Decidable p] (a b : Att s α) : (if p then a else b).run c = if p then a.run c else b.run c := by
  split <;> rfl

@[simp] theorem run_setReg (i : Fin 16) (v : Word) :
    (setReg i v).run c = .ok ((), { c with run := c.run.push (.thread (tkey c.core c.slot) { c.me with s := vset c.me.s i v }) }) := rfl

@[simp] theorem run_take (t : Token) : (take t).run c = .ok ((), { c with seen := t :: c.seen }) := rfl

@[simp] theorem run_readReg (o : Operand) : (readReg o).run c = .ok (sourceValue c.me.s o, c) := by cases o <;> rfl

@[simp] theorem run_use_s (i : Fin 16) : (use (.s i)).run c = .ok (c.me.s.get i, c) := rfl

@[simp] theorem run_use_z : (use .z).run c = .ok (0, c) := rfl

@[simp] theorem run_write_s (i : Fin 16) (v : Word) :
    (write (.s i) v).run c = .ok ((), { c with run := c.run.push (.thread (tkey c.core c.slot) { c.me with s := vset c.me.s i v }) }) := rfl

@[simp] theorem run_write_z (v : Word) : (write .z v).run c = .ok ((), c) := rfl

theorem run_given_none (h : c.left = []) : given.run c = .ok (none, c) := by
  simp only [given, StateT.run_bind, run_get_att, ok_bind, h]
  rfl

theorem run_given_some {t : Token} {rest : List Token} (h : c.left = t :: rest) :
    given.run c = .ok (some t, { c with left := rest, seen := t :: c.seen }) := by
  simp only [given, StateT.run_bind, run_get_att, ok_bind, h]
  rfl

/-- A data register as the destination of a synchronising instruction. -/
@[simp] theorem run_writeReg_s (i : Fin 16) (v : Word) :
    (writeReg (.s i) v).run c = .ok ((), { c with run := c.run.push (.thread (tkey c.core c.slot) { c.me with s := vset c.me.s i v }) }) := rfl

/-- Any other code as the destination of a synchronising instruction: nothing is written. -/
theorem run_writeReg_other (o : Operand) (v : Word) (h : ∀ i, o ≠ .s i) : (writeReg o v).run c = .ok ((), c) := by
  cases o <;> first | rfl | exact absurd rfl (h _)

/-- The working copy at the start of an attempt. -/
@[simp] theorem begins_me (i : Instr) : (s.begins i).me = s.me := rfl
@[simp] theorem begins_core (i : Instr) : (s.begins i).core = s.ctl.core := rfl
@[simp] theorem begins_slot (i : Instr) : (s.begins i).slot = s.ctl.slot := rfl
@[simp] theorem begins_run (i : Instr) : (s.begins i).run = Run.start s := rfl
@[simp] theorem begins_left (i : Instr) : (s.begins i).left = s.me.taken := rfl
@[simp] theorem begins_seen (i : Instr) : (s.begins i).seen = [] := rfl
@[simp] theorem begins_insn (i : Instr) : (s.begins i).insn = encode i := rfl

/-! Completion. -/

/-- The state that a completed attempt leaves, but for a thread that has ended: the thread gives back what a home keeps for it, and goes
on. -/
theorem retired_eq {n : Next} (hn : n ≠ .ended) (c : Ctx s) :
    c.retired n = applyAll (c.run.s.unkept (c.run.s.thread s.ctl.core s.ctl.slot) ++
      [.thread (tkey s.ctl.core s.ctl.slot) ((continueAt (c.run.s.thread s.ctl.core s.ctl.slot) n).readyFrom
        (c.run.s.cycle s.ctl.core + if n = .yielded then 17 else 1))]) c.run.s := by
  unfold Ctx.retired complete releaseKept State.unkept
  cases n with
  | ended => exact absurd rfl hn
  | _ => cases h : (c.run.s.thread s.ctl.core s.ctl.slot).ticket <;> simp [h, applyAll]

/-- An instruction's meaning is one attempt of it. -/
theorem exec_insn (i : Instr) (s : State) (h : Instr.isEvent i = false) : exec i s = issue i s (attemptOf i) := by
  cases i <;> first | cases h; done | rfl

end Sys2Proof.Machine
end

