-- ==== Sys2Proof/Laws/Trap.lean ====
section
/-! SUPPORT. What taking a trap does (R133): the shared operation said once, and an attempt that stops in one. -/

namespace Sys2Proof.Machine

variable {s : State}

/-! The status word. -/

theorem statusWithModes_mode (st : BitVec 17) (p m : Bool) : bit (statusWithModes st p m) 0 = m := by
  cases p <;> cases m <;> simp [statusWithModes, bit, BitVec.getLsbD, Nat.testBit, Nat.shiftRight_eq_div_pow] <;> omega

theorem statusWithModes_pmode (st : BitVec 17) (p m : Bool) : bit (statusWithModes st p m) 1 = p := by
  cases p <;> cases m <;> simp [statusWithModes, bit, BitVec.getLsbD, Nat.testBit, Nat.shiftRight_eq_div_pow] <;> omega

theorem statusWithModes_rest (st : BitVec 17) (p m : Bool) : (statusWithModes st p m).toNat / 4 = st.toNat / 4 := by
  have h := st.isLt
  cases p <;> cases m <;> simp [statusWithModes] <;> omega

/-! Entering. -/

/-- A thread made to enter a trap, after any changes of homes, is one that has taken it. -/
theorem trapTaken_of_thread {s t : State} {L : Nat} {k : Fin 16} {cycle : Nat} {cause : Byte} {v : Word}
    (hm : t.mem = s.mem) (ho : ∀ L' k', (L', k') ≠ (L, k) → t.thread L' k' = s.thread L' k')
    (ht : t.thread L k = enterTrap ((s.thread L k).readyFrom cycle) cause v (s.thread L k).pc) : TrapTaken s t L k cause v where
  trappc := by rw [ht]; rfl
  trapcause := by rw [ht]; rfl
  trapval := by rw [ht]; rfl
  pmode := by rw [ht]; exact statusWithModes_pmode _ _ _
  mode := by rw [ht]; exact statusWithModes_mode _ _ _
  statusRest := by rw [ht]; exact statusWithModes_rest _ _ _
  pc := by rw [ht]; rfl
  ready := by rw [ht]; rfl
  scalars := by rw [ht]; rfl
  pointers := by rw [ht]; rfl
  modes := by rw [ht]; rfl
  segments := by rw [ht]; rfl
  asid := by rw [ht]; rfl
  trapvec := by rw [ht]; rfl
  loop := by rw [ht]; rfl
  pendb := by rw [ht]; rfl
  seed := by rw [ht]; rfl
  engines := by rw [ht]; rfl
  queues := by rw [ht]; rfl
  credits := by rw [ht]; rfl
  others := ho
  memory := hm

/-- The entry kept for a ticket is all that `releaseKept` changes. -/
theorem run_releaseKept (r : Run s) (L : Nat) (k : Fin 16) :
    ∃ r', (releaseKept L k).run r = ((), r') ∧ (r' = r ∨ ∃ h x, r' = r.push (.home h x)) := by
  simp only [releaseKept, run_bind_act, run_now]
  split
  · exact ⟨_, rfl, .inr ⟨_, _, rfl⟩⟩
  · exact ⟨_, rfl, .inl rfl⟩

/-- What taking a precise trap does. -/
theorem run_trapThread (r : Run s) (L : Nat) (k : Fin 16) (gap : Nat) (cause : Byte) (v : Word) :
    TrapTaken r.s ((trapThread L k gap cause v).run r).2.s L k cause v ∧
      ((trapThread L k gap cause v).run r).2.s.cores = r.s.cores ∧ ((trapThread L k gap cause v).run r).2.s.ctl = r.s.ctl := by
  obtain ⟨r', hr, h⟩ := run_releaseKept r L k
  simp only [trapThread, run_bind_act, run_now, hr, run_modThread, Run.push_s]
  rcases h with rfl | ⟨h, x, rfl⟩
  · refine ⟨trapTaken_of_thread (cycle := r'.s.cycle L + gap) rfl ?_ ?_, rfl, rfl⟩
    · intro L' k' hne
      exact thread_thread_other _ _ hne
    · simp
  · refine ⟨trapTaken_of_thread (cycle := r.s.cycle L + gap) rfl ?_ ?_, rfl, rfl⟩
    · intro L' k' hne
      exact thread_thread_other _ _ hne
    · simp

/-- The state of an attempt that stopped in a trap before any effect. -/
theorem stopped_trap (i : Instr) (cause : Byte) (v : Word) :
    TrapTaken s (s.stopped i (.trap cause v)) s.ctl.core s.ctl.slot cause v ∧ (s.stopped i (.trap cause v)).cores = s.cores ∧
      (s.stopped i (.trap cause v)).ctl = s.ctl :=
  run_trapThread (Run.start s) s.ctl.core s.ctl.slot 1 cause v

/-- An instruction whose attempt stops in a trap before any effect takes it. -/
theorem exec_traps {i : Instr} {cause : Byte} {v : Word} (hi : Instr.isEvent i = false) (ha : s.admits i = true)
    (h : (attemptOf i).run (s.begins i) = .error (.trap cause v, [])) :
    ∃ t, exec i s = .next t ∧ TrapTaken s t s.ctl.core s.ctl.slot cause v ∧ t.cores = s.cores := by
  rw [exec_insn i s hi, issue_stops ha h]
  exact ⟨_, rfl, (stopped_trap i cause v).1, (stopped_trap i cause v).2.1⟩

/-- An instruction that a check of R51 or R165 refuses takes its trap. -/
theorem exec_precheck_traps {i : Instr} {cause : Byte} {v : Word} (hi : Instr.isEvent i = false)
    (h : (precheck i).run (s.begins i) = .error (.trap cause v, [])) :
    ∃ t, exec i s = .next t ∧ TrapTaken s t s.ctl.core s.ctl.slot cause v := by
  refine ⟨_, ?_, (stopped_trap i cause v).1⟩
  rw [exec_insn i s hi]
  unfold issue State.stopped
  rw [act_eq, afterAct_eq]
  have hp : (do precheck i; attemptOf i : Att s Next).run (Ctx.start i s.ctl.core s.ctl.slot (Run.start s)) =
      .error (.trap cause v, []) := by
    rw [StateT.run_bind, show (precheck i).run (Ctx.start i s.ctl.core s.ctl.slot (Run.start s)) = _ from h, error_bind]
  unfold attempt
  simp only [run_bind_act, run_get_act]
  rw [hp]

end Sys2Proof.Machine
end

