-- ==== Sys2Proof/Tests/Slice0.lean ====
section
/-! SUPPORT. Tests of the model: ill-formed terms, words written out from the encoding tables of R30 to R47, single instructions
and events with results worked out by hand from the rules they cite, and states that meet the hypotheses of each statement. -/

set_option Elab.async false

namespace Sys2Proof.Tests.Slice0

open Sys2Proof Sys2Proof.Machine

/-! Ill-formed terms: one for each check of `WellFormed`. -/

/-- pos + len is 65 (R36). -/
theorem test_illformed_bitfield : (Instr.bfx (.s 1) (.s 2) 61 3).wf = false := by decide

/-- Two integer types, and one type twice (R38). -/
theorem test_illformed_fcvt :
    (Instr.fcvt (.s 1) (.s 2) (.int .b) (.int .wn) .rne).wf = false ∧ (Instr.fcvt (.s 1) (.s 2) (.fp .f16) (.fp .f16) .rne).wf = false := by
  decide

/-- `ldn` has no size `.w` (R39). -/
theorem test_illformed_ldn : (Instr.ldn (.s 1) 0 .w false 0).wf = false := by decide

/-- Scope `thread` in `bar` and `launch` (R41, R44). -/
theorem test_illformed_scope : (Instr.bar .thread).wf = false ∧ (Instr.launch .thread (.s 1) (.s 2)).wf = false := by decide

/-- A `loop` whose body ends before it begins (R127). -/
theorem test_illformed_loop : (Instr.loop (.s 1) 0).wf = false ∧ (Instr.loop (.s 1) (-1)).wf = false := by decide

/-- A hardware event has no word. -/
theorem test_illformed_event : (Instr.icacheFill 0 0).wf = false := by decide

/-! Words. -/

/-- A word decodes to an instruction, whose own word it is. -/
def reads (w : InsnWord) (i : Instr) : Bool :=
  match decodeWord w with
  | .ok j => i = j && encode i = w
  | .error _ => false

theorem reads_ok {w : InsnWord} {i : Instr} (h : reads w i = true) : decodeWord w = .ok i := by
  unfold reads at h
  split at h
  · next j e => rw [e]; simp at h; rw [h.1]
  · exact absurd h (by simp)

/-- Fields of an engine command. -/
def x (a b : Operand) (acq rel : Bool) (scope : Scope) (sig : Bool) : EngArgs :=
  { a := a, b := b, acq := acq, rel := rel, scope := scope, sig := sig }

/-- The words of the listing that ends the encoding chapter, of `nop` and of `ret`. -/
theorem test_decode_listing : [
    reads 0x2C200000#32 (.li (.s 1) 0), reads 0x2C40000A#32 (.li (.s 2) 10), reads 0x04218800#32 (.add (.s 1) (.s 1) (.mem 1)),
    reads 0x1042FFFF#32 (.addi (.s 2) (.s 2) (-1)), reads 0x9C40FFFE#32 (.bnz (.s 2) (-2)),
    reads 0x68230100#32 (.st (.s 1) 0 .w false 0x100), reads 0xB4000001#32 .texit, reads 0x07FFF803#32 (.or .z .z .z),
    reads 0xA80F0000#32 (.jr (.s 15))].all id = true := by decide +kernel

/-- Words that are not instructions (R48): zero, major 0x3F, FN 0x018 of major 0x01, B of a unary instruction, kind 3 of a fence,
scope 7, hint 2, FMT 3, RM 6, a bitfield over the end, `ldn.w`, ENG 4, CMD 4 of the matrix engine, SUB 10. -/
theorem test_decode_refuses :
    ([0x00000000#32, 0xFC000000#32, 0x04221818#32, 0x08220800#32, 0x78000018#32, 0x78000007#32, 0x6C400000#32, 0x40221830#32,
      0x40221806#32, 0x28220FC1#32, 0x64230000#32, 0xC2000000#32, 0xC0040000#32, 0xE000000A#32].all fun w =>
        (match decodeWord w with | .ok _ => false | .error _ => true)) = true := by decide +kernel

theorem test_decode_binary : [
    reads 0x04100800#32 (.add (.s 0) (.mem 0) (.s 1)), reads 0x04334001#32 (.sub (.s 1) (.mem 3) (.s 8)),
    reads 0x04567802#32 (.and (.s 2) (.mem 6) (.s 15)), reads 0x0479B003#32 (.or (.s 3) (.port .e) (.mem 6)),
    reads 0x049CE804#32 (.xor (.s 4) (.port .l) (.port .h)), reads 0x04A13005#32 (.andn (.s 5) (.s 1) (.s 6)),
    reads 0x04C46806#32 (.shl (.s 6) (.s 4) (.s 13)), reads 0x04E7A007#32 (.shr (.s 7) (.s 7) (.mem 4)),
    reads 0x050AD808#32 (.sar (.s 8) (.s 10) (.port .s)), reads 0x052D2009#32 (.rot (.s 9) (.s 13) (.s 4)),
    reads 0x0550580A#32 (.min (.s 10) (.mem 0) (.s 11)), reads 0x0573900B#32 (.max (.s 11) (.mem 3) (.mem 2)),
    reads 0x0596C80C#32 (.minn (.s 12) (.mem 6) (.port .e)), reads 0x05B9100D#32 (.maxn (.s 13) (.port .e) (.s 2)),
    reads 0x05DC480E#32 (.slt (.s 14) (.port .l) (.s 9)), reads 0x05E1800F#32 (.sltn (.s 15) (.s 1) (.mem 0)),
    reads 0x0404B810#32 (.seq (.s 0) (.s 4) (.mem 7)), reads 0x04270011#32 (.mul (.s 1) (.s 7) (.s 0)),
    reads 0x044A3812#32 (.mulh (.s 2) (.s 10) (.s 7)), reads 0x046D7013#32 (.mulhn (.s 3) (.s 13) (.s 14)),
    reads 0x0490A814#32 (.div (.s 4) (.mem 0) (.mem 5)), reads 0x04B3E015#32 (.divn (.s 5) (.mem 3) (.port .l)),
    reads 0x04D62816#32 (.rem (.s 6) (.mem 6) (.s 5)), reads 0x04F96017#32 (.remn (.s 7) (.port .e) (.s 12))].all id = true := by decide +kernel

theorem test_decode_unary : [
    reads 0x0A800000#32 (.clz (.mem 4) (.s 0)), reads 0x0AA10001#32 (.ctz (.mem 5) (.s 1)),
    reads 0x0AC20002#32 (.popc (.mem 6) (.s 2)), reads 0x0AE30003#32 (.bswapH (.mem 7) (.s 3)),
    reads 0x0B040004#32 (.bswapS (.port .w) (.s 4)), reads 0x0B250005#32 (.bswapW (.port .e) (.s 5)),
    reads 0x0B460006#32 (.sextB (.port .n) (.s 6)), reads 0x0B670007#32 (.sextH (.port .s) (.s 7)),
    reads 0x0B880008#32 (.sextS (.port .l) (.s 8)), reads 0x0BA90009#32 (.zextB (.port .h) (.s 9)),
    reads 0x080A000A#32 (.zextH (.s 0) (.s 10)), reads 0x082B000B#32 (.zextS (.s 1) (.s 11))].all id = true := by decide +kernel

theorem test_decode_immediate : [
    reads 0x0C221FC0#32 (.sel (.s 1) (.s 2) (.s 3) .z), reads 0x1042FFFF#32 (.addi (.s 2) (.s 2) (-1)),
    reads 0x1430FFFF#32 (.andi (.s 1) (.mem 0) 0xFFFF), reads 0x1B010001#32 (.ori (.port .w) (.s 1) 1),
    reads 0x1FE18000#32 (.xori .z (.s 1) 0x8000), reads 0x2022FFFB#32 (.slti (.s 1) (.s 2) (-5)),
    reads 0x2422003F#32 (.shli (.s 1) (.s 2) 63), reads 0x24220041#32 (.shri (.s 1) (.s 2) 1),
    reads 0x24220085#32 (.sari (.s 1) (.s 2) 5), reads 0x242200C7#32 (.roti (.s 1) (.s 2) 7),
    reads 0x28220F03#32 (.bfx (.s 1) (.s 2) 60 3), reads 0x2822403F#32 (.bfxs (.s 1) (.s 2) 0 63),
    reads 0x28228207#32 (.bfi (.s 1) (.s 2) 8 7), reads 0x2C3FFFFF#32 (.li (.s 1) (-1)), reads 0x30755555#32 (.lhi (.s 3) 0x155555)].all id = true := by decide +kernel

theorem test_decode_floatingPoint : [
    reads 0x40221800#32 (.fadd (.s 1) (.s 2) (.s 3) .f32 .rne), reads 0x40221851#32 (.fsub (.s 1) (.s 2) (.s 3) .f16 .rtz),
    reads 0x402218A2#32 (.fmul (.s 1) (.s 2) (.s 3) .bf16 .rdn), reads 0x402218C3#32 (.fdiv (.s 1) (.s 2) (.s 3) .f32 .rup),
    reads 0x40221900#32 (.fmin (.s 1) (.s 2) (.s 3) .f32), reads 0x40221950#32 (.fmax (.s 1) (.s 2) (.s 3) .f16),
    reads 0x402219A0#32 (.feq (.s 1) (.s 2) (.s 3) .bf16), reads 0x402219C0#32 (.flt (.s 1) (.s 2) (.s 3) .f32),
    reads 0x40221A10#32 (.fle (.s 1) (.s 2) (.s 3) .f16), reads 0x40221A60#32 (.fsgn (.s 1) (.s 2) (.s 3) .bf16),
    reads 0x44220014#32 (.fsqrt (.s 1) (.s 2) .f16 .rmm), reads 0x44220060#32 (.fclass (.s 1) (.s 2) .bf16),
    reads 0x44220085#32 (.fround (.s 1) (.s 2) .f32 .dyn), reads 0x48221905#32 (.fma (.s 1) (.s 2) (.s 3) (.s 4) .f32 .dyn),
    reads 0x4C221910#32 (.fnma (.s 1) (.s 2) (.s 3) (.s 4) .f16 .rne),
    reads 0x50220581#32 (.fcvt (.s 1) (.s 2) (.int .w) (.fp .f32) .rtz)].all id = true := by decide +kernel

theorem test_decode_memory : [
    reads 0x631FFFF8#32 (.ld (.port .w) 7 .w true (-8)), reads 0x644C7FFC#32 (.ldn (.s 2) 3 .b false (-4)),
    reads 0x68230100#32 (.st (.s 1) 0 .w false 0x100), reads 0x6C288010#32 (.pf .nt 2 true 16),
    reads 0x70280008#32 (.ldfe (.s 1) 2 false 8), reads 0x73E98008#32 (.ldff .z 2 true 8),
    reads 0x702A7FF8#32 (.stef (.s 1) 2 false (-8)), reads 0x702B0000#32 (.stsf (.s 1) 2 false 0)].all id = true := by decide +kernel

theorem test_decode_synchronisation : [
    reads 0x74050000#32 (.fempty 5), reads 0x74250001#32 (.fstate (.s 1) 5), reads 0x74250002#32 (.lr (.s 1) 5),
    reads 0x74251003#32 (.sc (.s 1) (.s 2) 5), reads 0x74251004#32 (.cas (.s 1) (.s 2) 5), reads 0x74000005#32 (.waitrs),
    reads 0x77E01010#32 (.amoAdd .z (.s 2) 0), reads 0x77E11011#32 (.amoAnd .z (.s 2) 1), reads 0x77E21012#32 (.amoOr .z (.s 2) 2),
    reads 0x77E31013#32 (.amoXor .z (.s 2) 3), reads 0x77E41014#32 (.amoMin .z (.s 2) 4), reads 0x77E51015#32 (.amoMax .z (.s 2) 5),
    reads 0x77E61016#32 (.amoMinn .z (.s 2) 6), reads 0x77E71017#32 (.amoMaxn .z (.s 2) 7),
    reads 0x77E01018#32 (.amoSwap .z (.s 2) 0), reads 0x77E11019#32 (.amoFadd .z (.s 2) 1),
    reads 0x78000016#32 (.fence .full .system), reads 0x78140008#32 (.fenceFlag .rel .thread 4), reads 0x7C000002#32 (.bar .cluster)].all id = true := by decide +kernel

theorem test_decode_control : [
    reads 0x8022FFFD#32 (.beq (.s 1) (.s 2) (-3)), reads 0x8422FFFE#32 (.bne (.s 1) (.s 2) (-2)),
    reads 0x8822FFFF#32 (.blt (.s 1) (.s 2) (-1)), reads 0x8C220000#32 (.bge (.s 1) (.s 2) 0),
    reads 0x90220001#32 (.bltn (.s 1) (.s 2) 1), reads 0x94220002#32 (.bgen (.s 1) (.s 2) 2), reads 0x9820FFFF#32 (.bz (.s 1) (-1)),
    reads 0x9C40FFFE#32 (.bnz (.s 2) (-2)), reads 0xA3FFFFFF#32 (.jmp (-1)), reads 0xA5FFFFFF#32 (.call 0x1FFFFFF),
    reads 0xA80F0000#32 (.jr (.s 15)), reads 0xAC200004#32 (.loop (.s 1) 4)].all id = true := by decide +kernel

theorem test_decode_pointersThreadsTasks : [
    reads 0xB0610000#32 (.setp 3 (.s 1)), reads 0xB0230001#32 (.getp (.s 1) 3), reads 0xB0610002#32 (.setm 3 (.s 1)),
    reads 0xB0230803#32 (.segq (.s 1) 3 true), reads 0xB0611004#32 (.segld 3 (.s 1) (.s 2)),
    reads 0xB03D0005#32 (.npcount (.s 1) (.port .h)), reads 0xB4011000#32 (.spawn (.s 1) (.s 2)), reads 0xB4000001#32 (.texit),
    reads 0xB4000002#32 (.yield), reads 0xB4011403#32 (.launch .package (.s 1) (.s 2)), reads 0xB4010004#32 (.taskpush (.s 1)),
    reads 0xB4200005#32 (.taskpop (.s 1)), reads 0xB4010006#32 (.taskdone (.s 1)), reads 0xB4030807#32 (.trigset 3 (.s 1)),
    reads 0xB4030008#32 (.trigclr 3), reads 0xB4200009#32 (.gidget (.s 1)), reads 0xB401000A#32 (.gidput (.s 1))].all id = true := by decide +kernel

theorem test_decode_engines : [
    reads 0xC00007C1#32 (.mxTgemm (x (.s 0) .z false false .thread true)),
    reads 0xC0010BA2#32 (.mxIgemm (x (.s 1) (.s 14) true false .core false)),
    reads 0xC0021355#32 (.mxPromo (x (.s 2) (.s 13) false true .cluster true)),
    reads 0xC0031FF6#32 (.mxClr (x (.s 3) .z true true .die false)),
    reads 0xC08007C1#32 (.vxAdd (x (.s 0) .z false false .thread true)),
    reads 0xC0810BA2#32 (.vxSub (x (.s 1) (.s 14) true false .core false)),
    reads 0xC0821355#32 (.vxMul (x (.s 2) (.s 13) false true .cluster true)),
    reads 0xC0831FF6#32 (.vxFma (x (.s 3) .z true true .die false)),
    reads 0xC08422C9#32 (.vxMin (x (.s 4) (.s 11) false false .package true)),
    reads 0xC0852AAA#32 (.vxMax (x (.s 5) (.s 10) true false .ring false)),
    reads 0xC08637DD#32 (.vxAbs (x (.s 6) .z false true .system true)),
    reads 0xC0873A30#32 (.vxCvt (x (.s 7) (.s 8) true true .thread false)),
    reads 0xC08841C3#32 (.vxQuant (x (.s 8) (.s 7) false false .core true)),
    reads 0xC0894FE4#32 (.vxRed (x (.s 9) .z true false .cluster false)),
    reads 0xC08A5157#32 (.vxExp (x (.s 10) (.s 5) false true .die true)),
    reads 0xC08B5938#32 (.vxRsq (x (.s 11) (.s 4) true true .package false)),
    reads 0xC08C67CB#32 (.vxSmax (x (.s 12) .z false false .ring true)),
    reads 0xC08D68AC#32 (.vxDist (x (.s 13) (.s 2) true false .system false)),
    reads 0xC08E7051#32 (.vxCmp (x (.s 14) (.s 1) false true .thread true)),
    reads 0xC08F7FF2#32 (.vxSel (x (.s 15) .z true true .core false)),
    reads 0xC09003C5#32 (.vxFill (x (.s 0) (.s 15) false false .cluster true)),
    reads 0xC10007C1#32 (.cpCopy (x (.s 0) .z false false .thread true)),
    reads 0xC1010BA2#32 (.cpMcast (x (.s 1) (.s 14) true false .core false)),
    reads 0xC1021355#32 (.cpGath (x (.s 2) (.s 13) false true .cluster true)),
    reads 0xC1031FF6#32 (.cpScat (x (.s 3) .z true true .die false)),
    reads 0xC10422C9#32 (.cpTern (x (.s 4) (.s 11) false false .package true)),
    reads 0xC1052AAA#32 (.cpPack (x (.s 5) (.s 10) true false .ring false)),
    reads 0xC10637DD#32 (.cpPf (x (.s 6) .z false true .system true)),
    reads 0xC1073A30#32 (.cpRed (x (.s 7) (.s 8) true true .thread false)),
    reads 0xC10841C3#32 (.cpFill (x (.s 8) (.s 7) false false .core true)),
    reads 0xC18007C1#32 (.slBound (x (.s 0) .z false false .thread true)),
    reads 0xC1810BA2#32 (.slScore (x (.s 1) (.s 14) true false .core false)),
    reads 0xC1821355#32 (.slKinit (x (.s 2) (.s 13) false true .cluster true)),
    reads 0xC1831FF6#32 (.slKins (x (.s 3) .z true true .die false)),
    reads 0xC18422C9#32 (.slKmerge (x (.s 4) (.s 11) false false .package true)),
    reads 0xC1852AAA#32 (.slKread (x (.s 5) (.s 10) true false .ring false)),
    reads 0xC18637DD#32 (.slResum (x (.s 6) .z false true .system true))].all id = true := by decide +kernel

theorem test_decode_engineInterface : [
    reads 0xC401005F#32 (.engset .cpe 31 (.s 1)), reads 0xC4200127#32 (.engget (.s 1) .vxe 7), reads 0xC4000260#32 (.engwait .slu),
    reads 0xC4200300#32 (.engstat (.s 1) .mxe), reads 0xC4010420#32 (.engsave .vxe (.s 1)),
    reads 0xC4010540#32 (.engload .cpe (.s 1))].all id = true := by decide +kernel

theorem test_decode_system : [
    reads 0xE0200300#32 (.mfsys (.s 1) 0x030), reads 0xE0010241#32 (.mtsys 0x024 (.s 1)), reads 0xE000FFF2#32 (.trap 4095),
    reads 0xE0000003#32 (.tret), reads 0xE0000004#32 (.brk), reads 0xE2000005#32 (.rand (.mem 0)), reads 0xE0000006#32 (.iinv),
    reads 0xE0010007#32 (.wake (.s 1)), reads 0xE0010008#32 (.preempt (.s 1)), reads 0xE0410009#32 (.tlbinv (.s 2) (.s 1))].all id = true := by decide +kernel

/-! Small states. -/

/-- A descriptor over 2^28 bytes from a base, with every right. -/
def wide (base : Nat) : Seg := { base := w64 base, word := BitVec.ofNat 47 (2 ^ 28 + 31 * 2 ^ 40) }

/-- A ready thread in supervisor mode whose descriptors reach core 0's local store, with three registers set. -/
def thread (x y z : Word) : Thread :=
  { Thread.reset with
    run := .ready, status := 1, seg := Vector.replicate 8 (wide 0), trapvec := 0x100, pc := 0x40
    s := vset (vset (vset Thread.reset.s 1 x) 2 y) 3 z }

/-- The machine at reset but for the thread in slot 0 of core 0. -/
def holding (t : Thread) : State := (Op.thread 0 t).apply State.reset

/-- The machine with three registers set in that thread. -/
def regs (x y z : Word) : State := holding (thread x y z)

/-- A property of the next state, where there is one. -/
def nextHas (o : Host.Outcome State Fault Refusal) (p : State → Bool) : Bool :=
  match o with
  | .next t => p t
  | _ => false

/-- `s3` after an instruction over `s1` and `s2`. -/
def gives (i : Instr) (x y v : Word) : Bool := nextHas (exec i (regs x y 7)) fun t => t.me.s.get 3 = v && t.me.run = .ready && t.me.pc = 0x44

/-- The working copy that a part of an attempt leaves. -/
def after {s : State} {α : Type} (x : Att s α) (c : Ctx s) : Ctx s :=
  match x.run c with
  | .ok (_, c') => c'
  | .error _ => c

/-- The part of an attempt answers a value. -/
def saysIt {s : State} {α : Type} [DecidableEq α] (x : Att s α) (c : Ctx s) (v : α) : Bool :=
  match x.run c with
  | .ok (w, _) => w = v
  | .error _ => false

theorem answers_after {s : State} {α : Type} [DecidableEq α] {x : Att s α} {c : Ctx s} {v : α} (h : saysIt x c v = true) :
    Answers x c v (after x c) := by
  unfold Answers after
  unfold saysIt at h
  split at h
  · next w c' e => rw [e]; simp at h; subst h; rfl
  · exact absurd h (by simp)

/-- An instruction takes a trap in slot 0 of core 0 with a cause and a value, at its own PC. -/
def trapsWith (i : Instr) (s : State) (cause : Byte) (v : Word) : Bool :=
  nextHas (exec i s) fun t =>
    t.me.trapcause = cause && t.me.trapval = v && t.me.mode && t.me.pc = 0x400 && t.me.trappc = 0x10 && t.me.s = s.me.s && t.mem = s.mem

/-! Integer instructions (R86 to R92): wraps, signs and the corners of division. -/

theorem test_binary : [
    gives (.add (.s 3) (.s 1) (.s 2)) (-1) 2 1, gives (.sub (.s 3) (.s 1) (.s 2)) 2 5 (-3), gives (.and (.s 3) (.s 1) (.s 2)) 12 10 8,
    gives (.or (.s 3) (.s 1) (.s 2)) 12 10 14, gives (.xor (.s 3) (.s 1) (.s 2)) 12 10 6, gives (.andn (.s 3) (.s 1) (.s 2)) 12 10 4,
    gives (.shl (.s 3) (.s 1) (.s 2)) 1 67 8, gives (.shr (.s 3) (.s 1) (.s 2)) (-1) 63 1, gives (.sar (.s 3) (.s 1) (.s 2)) (-16) 66 (-4),
    gives (.rot (.s 3) (.s 1) (.s 2)) 1 1 0x8000000000000000, gives (.min (.s 3) (.s 1) (.s 2)) (-1) 1 (-1),
    gives (.max (.s 3) (.s 1) (.s 2)) (-1) 1 1, gives (.minn (.s 3) (.s 1) (.s 2)) (-1) 1 1,
    gives (.maxn (.s 3) (.s 1) (.s 2)) (-1) 1 (-1), gives (.slt (.s 3) (.s 1) (.s 2)) (-1) 1 1,
    gives (.sltn (.s 3) (.s 1) (.s 2)) (-1) 1 0, gives (.seq (.s 3) (.s 1) (.s 2)) 5 5 1,
    gives (.mul (.s 3) (.s 1) (.s 2)) (-3) 5 (-15), gives (.mulh (.s 3) (.s 1) (.s 2)) (-3) 5 (-1),
    gives (.mulhn (.s 3) (.s 1) (.s 2)) (-1) 2 1, gives (.div (.s 3) (.s 1) (.s 2)) (-7) 2 (-3),
    gives (.divn (.s 3) (.s 1) (.s 2)) 7 2 3, gives (.rem (.s 3) (.s 1) (.s 2)) (-7) 2 (-1),
    gives (.remn (.s 3) (.s 1) (.s 2)) 7 4 3].all id = true := by decide +kernel

theorem test_division_corners : [
    gives (.div (.s 3) (.s 1) (.s 2)) 5 0 (-1), gives (.divn (.s 3) (.s 1) (.s 2)) 5 0 (-1), gives (.rem (.s 3) (.s 1) (.s 2)) 5 0 5,
    gives (.remn (.s 3) (.s 1) (.s 2)) 5 0 5, gives (.div (.s 3) (.s 1) (.s 2)) 0x8000000000000000 (-1) 0x8000000000000000,
    gives (.rem (.s 3) (.s 1) (.s 2)) 0x8000000000000000 (-1) 0].all id = true := by decide +kernel

theorem test_unary : [
    gives (.clz (.s 3) (.s 1)) 1 0 63, gives (.ctz (.s 3) (.s 1)) 8 0 3, gives (.ctz (.s 3) (.s 1)) 0 0 64, gives (.popc (.s 3) (.s 1)) 0xFF 0 8,
    gives (.bswapH (.s 3) (.s 1)) 0x91234 0 0x3412, gives (.bswapS (.s 3) (.s 1)) 0x12345678 0 0x78563412,
    gives (.bswapW (.s 3) (.s 1)) 1 0 0x0100000000000000, gives (.sextB (.s 3) (.s 1)) 0x180 0 (-128),
    gives (.sextH (.s 3) (.s 1)) 0x8000 0 (-32768), gives (.sextS (.s 3) (.s 1)) 0x80000000 0 (-0x80000000),
    gives (.zextB (.s 3) (.s 1)) (-1) 0 0xFF, gives (.zextH (.s 3) (.s 1)) (-1) 0 0xFFFF,
    gives (.zextS (.s 3) (.s 1)) (-1) 0 0xFFFFFFFF].all id = true := by decide +kernel

theorem test_immediate : [
    gives (.addi (.s 3) (.s 1) (-1)) 0 0 (-1), gives (.andi (.s 3) (.s 1) 0xFFFF) (-1) 0 0xFFFF, gives (.ori (.s 3) (.s 1) 0x8000) 1 0 0x8001,
    gives (.xori (.s 3) (.s 1) 1) 1 0 0, gives (.slti (.s 3) (.s 1) (-1)) (-2) 0 1, gives (.shli (.s 3) (.s 1) 63) 3 0 0x8000000000000000,
    gives (.shri (.s 3) (.s 1) 63) (-1) 0 1, gives (.sari (.s 3) (.s 1) 1) (-2) 0 (-1), gives (.roti (.s 3) (.s 1) 4) 0x1F 0 0xF000000000000001,
    gives (.bfx (.s 3) (.s 1) 60 3) (-1) 0 15, gives (.bfxs (.s 3) (.s 1) 4 3) 0x80 0 (-8), gives (.bfi (.s 3) (.s 1) 4 3) 0xFA 0 0xA7,
    gives (.li (.s 3) (-1)) 0 0 (-1), gives (.lhi (.s 3) 5) 0 0 0xE00005, gives (.sel (.s 3) (.s 1) (.s 2) .z) 8 9 9,
    gives (.sel (.s 3) (.s 1) (.s 2) (.s 3)) 8 9 8].all id = true := by decide +kernel

/-! Floating point (R95 to R104), on FP32 unless said: 1 + 2 is 3, 1 - 2 is -1, 3 by 3 is 9, 1 / 0 is an infinity with DZ, 1 / 3
rounds to 0x3EAAAAAB with NX. -/

/-- `gives` for a result with its flags. -/
def givesFp (i : Instr) (x y v : Word) (flags : Nat) : Bool :=
  nextHas (exec i (regs x y 0x3F800000)) fun t => t.me.s.get 3 = v && t.me.flags = flags

theorem test_fp_arithmetic : [
    givesFp (.fadd (.s 3) (.s 1) (.s 2) .f32 .rne) 0x3F800000 0x40000000 0x40400000 0,
    givesFp (.fsub (.s 3) (.s 1) (.s 2) .f32 .rne) 0x3F800000 0x40000000 0xBF800000 0,
    givesFp (.fmul (.s 3) (.s 1) (.s 2) .f32 .rne) 0x40400000 0x40400000 0x41100000 0,
    givesFp (.fdiv (.s 3) (.s 1) (.s 2) .f32 .rne) 0x3F800000 0x40400000 0x3EAAAAAB 1,
    givesFp (.fdiv (.s 3) (.s 1) (.s 2) .f32 .rne) 0x3F800000 0 0x7F800000 8,
    givesFp (.fsqrt (.s 3) (.s 1) .f32 .rne) 0x40800000 0 0x40000000 0, givesFp (.fsqrt (.s 3) (.s 1) .f32 .rne) 0xBF800000 0 0x7FC00000 16,
    givesFp (.fma (.s 3) (.s 1) (.s 2) (.s 3) .f32 .rne) 0x40000000 0x40400000 0x40E00000 0,
    givesFp (.fnma (.s 3) (.s 1) (.s 2) (.s 3) .f32 .rne) 0x40000000 0x40400000 0xC0A00000 0,
    givesFp (.fadd (.s 3) (.s 1) (.s 2) .f16 .rne) 0x3C00 0x3C00 0x4000 0].all id = true := by decide +kernel

theorem test_fp_other : [
    givesFp (.fmin (.s 3) (.s 1) (.s 2) .f32) 0x3F800000 0xBF800000 0xBF800000 0, givesFp (.fmax (.s 3) (.s 1) (.s 2) .bf16) 0x3F80 0xBF80 0x3F80 0,
    givesFp (.feq (.s 3) (.s 1) (.s 2) .f32) 0 0x80000000 1 0, givesFp (.flt (.s 3) (.s 1) (.s 2) .f32) 0xBF800000 0 1 0,
    givesFp (.fle (.s 3) (.s 1) (.s 2) .f32) 0x3F800000 0x3F800000 1 0,
    givesFp (.fsgn (.s 3) (.s 1) (.s 2) .f32) 0x3F800000 0x80000000 0xBF800000 0, givesFp (.fclass (.s 3) (.s 1) .f32) 0x7F800000 0 128 0,
    givesFp (.fround (.s 3) (.s 1) .f32 .rtz) 0x3FC00000 0 0x3F800000 1,
    givesFp (.fcvt (.s 3) (.s 1) (.int .w) (.fp .f32) .rtz) 0xC0200000 0 (-2) 1,
    givesFp (.fcvt (.s 3) (.s 1) (.fp .bf16) (.int .b) .rne) 0xFF 0 0xBF80 0].all id = true := by decide +kernel

/-! Loads, stores and synchronising accesses at offset 0x100 of the own local store, which holds the word 0x8877665544332281. -/

/-- The thread `t` with `a0` at 0x100, in a machine whose word there holds that value. -/
def overWord (t : Thread) : State :=
  applyAll ([.thread 0 { t with a := vset t.a 0 0x100 }] ++
    ((List.range 8).map fun i => Op.poke (0x100 + i) (BitVec.ofNat 8 (0x8877665544332281 / 2 ^ (8 * i))))) State.reset

/-- The same with the word empty. -/
def overEmpty (t : Thread) : State := (Op.fe 0x20 false).apply (overWord t)

/-- The word at 0x100 of core 0's local store. -/
def wordAt (s : State) : Nat := ofBytes (s.lsBytes 0 0x100 8)

/-- `s3` and the word after an instruction. -/
def leaves (i : Instr) (s : State) (v w : Word) : Bool :=
  nextHas (exec i s) fun t => t.me.s.get 3 = v && w64 (wordAt t) = w && t.me.run = .ready

theorem test_memory : [
    leaves (.ldn (.s 3) 0 .b false 0) (overWord (thread 0 0 7)) 0x81 0x8877665544332281,
    leaves (.ld (.s 3) 0 .s false 4) (overWord (thread 0 0 7)) (-0x778899AB) 0x8877665544332281,
    leaves (.st (.s 1) 0 .b false 7) (overWord (thread 0x1FF 0 7)) 7 0xFF77665544332281,
    leaves (.add (.s 3) (.mem 0) .z) (overWord (thread 0 0 7)) 0x81 0x8877665544332281,
    leaves (.add (.mem 0) (.s 1) .z) (overWord (thread 0x99 0 7)) 7 0x8877665544332299].all id = true := by decide +kernel

theorem test_memory_traps : [
    trapsWith (.ld (.s 3) 0 .w false 4) (overWord (thread 0 0 7)) 0x06 0x104,
    trapsWith (.ld (.s 3) 0 .b false (-0x101)) (overWord (thread 0 0 7)) 0x04 (-1),
    trapsWith (.st (.s 3) 0 .w false 0) (overWord { (thread 0 0 7) with seg := Vector.replicate 8 { base := 0, word := 0x1000 } }) 0x05 0x100
    ].all id = true := by decide +kernel

theorem test_synchronising : [
    leaves (.ldfe (.s 3) 0 false 0) (overWord (thread 0 0 7)) 0x8877665544332281 0x8877665544332281,
    leaves (.ldff (.s 3) 0 false 0) (overWord (thread 0 0 7)) 0x8877665544332281 0x8877665544332281,
    leaves (.stef (.s 1) 0 false 0) (overEmpty (thread 5 0 7)) 7 5, leaves (.stsf (.s 1) 0 false 0) (overWord (thread 5 0 7)) 7 5,
    leaves (.fempty 0) (overWord (thread 5 0 7)) 7 0x8877665544332281, leaves (.fstate (.s 3) 0) (overEmpty (thread 5 0 7)) 0 0x8877665544332281,
    leaves (.fstate (.s 3) 0) (overWord (thread 5 0 7)) 1 0x8877665544332281,
    leaves (.amoAdd (.s 3) (.s 1) 0) (overWord (thread 1 0 7)) 0x8877665544332281 0x8877665544332282,
    leaves (.amoAnd (.s 3) (.s 1) 0) (overWord (thread 0xF 0 7)) 0x8877665544332281 1,
    leaves (.amoOr (.s 3) (.s 1) 0) (overWord (thread 2 0 7)) 0x8877665544332281 0x8877665544332283,
    leaves (.amoXor (.s 3) (.s 1) 0) (overWord (thread 1 0 7)) 0x8877665544332281 0x8877665544332280,
    leaves (.amoMin (.s 3) (.s 1) 0) (overWord (thread 1 0 7)) 0x8877665544332281 0x8877665544332281,
    leaves (.amoMax (.s 3) (.s 1) 0) (overWord (thread 1 0 7)) 0x8877665544332281 1,
    leaves (.amoMinn (.s 3) (.s 1) 0) (overWord (thread 1 0 7)) 0x8877665544332281 1,
    leaves (.amoMaxn (.s 3) (.s 1) 0) (overWord (thread 1 0 7)) 0x8877665544332281 0x8877665544332281,
    leaves (.amoSwap (.s 3) (.s 1) 0) (overWord (thread 1 0 7)) 0x8877665544332281 1,
    leaves (.cas (.s 3) (.s 1) 0) (overWord (thread 1 0 7)) 0x8877665544332281 0x8877665544332281,
    leaves (.cas (.s 3) (.s 1) 0) (overWord (thread 1 0 0x8877665544332281)) 0x8877665544332281 1,
    leaves (.lr (.s 3) 0) (overWord (thread 1 0 7)) 0x8877665544332281 0x8877665544332281,
    leaves (.sc (.s 3) (.s 1) 0) (overWord (thread 1 0 7)) 0 0x8877665544332281].all id = true := by decide +kernel

/-- `amo.fadd` at an aligned single: 1 + 2 is 3, and the upper half stays (R190). -/
theorem test_amo_fadd :
    nextHas (exec (.amoFadd (.s 3) (.s 1) 0) (applyAll [.poke 0x100 0, .poke 0x101 0, .poke 0x102 0x80, .poke 0x103 0x3F]
      (overWord (thread 0x40000000 0 7)))) (fun t => wordAt t = 0x8877665540400000 && t.me.s.get 3 = 0x3F800000) = true := by decide +kernel

/-- `lr` and then `sc`: the store is made and answered 1 (R192). -/
theorem test_lr_sc :
    nextHas (exec (.lr (.s 2) 0) (overWord (thread 1 0 7))) (fun t => leaves (.sc (.s 3) (.s 1) 0) t 1 1) = true := by decide +kernel

/-- Attempts that fail park in state 3 (R184). -/
theorem test_full_empty_parks :
    nextHas (exec (.ldfe (.s 3) 0 false 0) (overEmpty (thread 0 0 7))) (fun t => t.me.run = .waiting (.word 0 0x100 .full)) = true ∧
    nextHas (exec (.stef (.s 3) 0 false 0) (overWord (thread 0 0 7))) (fun t => t.me.run = .waiting (.word 0 0x100 .empty)) = true := by
  decide +kernel

/-- A fence's flag word becomes 1 (R286); `waitrs` without a reservation and a fence with nothing outstanding go on (R194, R285). -/
theorem test_fences : [
    leaves (.fenceFlag .full .system 0) (overEmpty (thread 0 0 7)) 7 1, leaves (.fence .rel .core) (overWord (thread 0 0 7)) 7 0x8877665544332281,
    leaves .waitrs (overWord (thread 0 0 7)) 7 0x8877665544332281, leaves (.pf .nt 0 true 0) (overWord (thread 0 0 7)) 7 0x8877665544332281
    ].all id = true := by decide +kernel

/-! Control transfers, pointers and system instructions. -/

/-- The PC after an instruction. -/
def goesTo (i : Instr) (x y pc : Word) : Bool := nextHas (exec i (regs x y 7)) fun t => t.me.pc = pc && t.me.run = .ready

theorem test_control : [
    goesTo (.beq (.s 1) (.s 2) (-1)) 5 5 0x3C, goesTo (.beq (.s 1) (.s 2) (-1)) 5 6 0x44, goesTo (.bne (.s 1) (.s 2) 2) 5 6 0x48,
    goesTo (.blt (.s 1) (.s 2) 2) (-1) 0 0x48, goesTo (.bge (.s 1) (.s 2) 2) 0 0 0x48, goesTo (.bltn (.s 1) (.s 2) 2) (-1) 0 0x44,
    goesTo (.bgen (.s 1) (.s 2) 2) (-1) 0 0x48, goesTo (.bz (.s 1) 2) 0 0 0x48, goesTo (.bnz (.s 1) 2) 0 0 0x44, goesTo (.jmp (-16)) 0 0 0,
    goesTo (.jr (.s 1)) 0x1234 0 0x1234, goesTo (.loop (.s 1) 4) 0 0 0x54, goesTo (.loop (.s 1) 4) 2 0 0x44].all id = true := by decide +kernel

/-- `call` leaves the return address in `s15`; `jr` to 2 traps (R126). -/
theorem test_call_jr :
    nextHas (exec (.call 4) (regs 0 0 0)) (fun t => t.me.pc = 0x50 && t.me.s.get 15 = 0x44) = true ∧
    trapsWith (.jr (.s 1)) (regs 2 0 0) 0x06 2 = true := by decide +kernel

/-- A pass and the last pass over the end of a loop (R128). -/
theorem test_loop_end :
    continueAt { Thread.reset with pc := 0x20, lstart := 4, lend := 8, lcount := 2 } .seq =
      { Thread.reset with pc := 0x10, lstart := 4, lend := 8, lcount := 1 } ∧
    continueAt { Thread.reset with pc := 0x20, lstart := 4, lend := 8, lcount := 1 } .seq =
      { Thread.reset with pc := 0x24, lstart := 4, lend := 8, lcount := 0 } := by decide +kernel

theorem test_pointers :
    nextHas (exec (.setp 2 (.s 1)) (regs 9 0 0)) (fun t => t.me.a.get 2 = 9) = true ∧
    nextHas (exec (.setm 2 (.s 1)) (regs 0xFFFFFFFF 0 0)) (fun t => t.me.m.get 2 = 0xFFFFF) = true ∧
    nextHas (exec (.getp (.s 3) 0) (overWord (thread 0 0 0))) (fun t => t.me.s.get 3 = 0x100) = true ∧
    gives (.segq (.s 3) 2 true) 0 0 0x1F0010000000 = true ∧ gives (.npcount (.s 3) (.port .e)) 0 0 0x400 = true ∧
    gives (.npcount (.s 3) (.port .w)) 0 0 0 = true ∧
    nextHas (exec (.segld 2 (.s 1) (.s 2)) (regs 0x1000 (2 ^ 40 + 64) 0)) (fun t => t.me.seg.get 2 = { base := 0x1000, word := 2 ^ 40 + 64 }) = true ∧
    trapsWith (.segld 2 (.s 1) (.s 2)) (regs 0x1000 (2 ^ 47) 0) 0x02 0xB0411004 = true := by decide +kernel

/-- SEED 1 steps to 0x40822041 (R8, by hand: 1 ^ 1 << 13 is 0x2001; ^ >> 7 is 0x2041; ^ << 17 is 0x40822041). -/
theorem test_rand :
    nextHas (exec (.rand (.s 3)) (holding { (thread 0 0 0) with seed := 1 })) (fun t => t.me.s.get 3 = 0x40822041 && t.me.seed = 0x40822041) =
      true := by decide +kernel

theorem test_system :
    gives (.mfsys (.s 3) 0x021) 0 0 8 = true ∧
      nextHas (exec (.mtsys 0x020 (.s 1)) (regs 0x123456789 0 0)) (fun t => t.me.waitlim = 0x23456789) = true ∧
    trapsWith (.trap 77) (regs 0 0 0) 0x09 77 = true ∧ trapsWith .brk (regs 0 0 0) 0x0A 0 = true ∧
    nextHas (exec .tret (holding { (thread 0 0 0) with trappc := 5 })) (fun t => t.me.pc = 0x14 && !t.me.mode) = true ∧
    trapsWith .tret (holding { (thread 0 0 0) with status := 0 }) 0x03 0xE0000003 = true ∧
    nextHas (exec .iinv (regs 0 0 0)) (fun t => (t.physCore 0).icache = []) = true := by decide +kernel

/-! What the hypotheses of each statement ask is met: one theorem for each statement that has hypotheses. -/

/-- Core 0's next position runs `add s1, s2, s3`. -/
def placed : State := State.reset.withFetchWord 32 0x04221800

theorem witness_DecodeEncode : (Instr.bfx (.s 1) (.s 2) 63 0).wf = true := by decide

theorem witness_EncodeDecode : decodeWord 0x28220FC0#32 = .ok (.bfx (.s 1) (.s 2) 63 0) := reads_ok (by decide +kernel)

theorem witness_StepRunsDecoded :
    placed.turn = .position 0 ∧ moduleOf 0 < placed.nmod ∧ placed.turnTaken.positionReady 0 = true ∧
      placed.turnTaken.issues 0 = some (0, .add (.s 1) (.s 2) (.s 3)) := by decide +kernel

theorem witness_PositionIssues :
    placed.issuesFrom 0 ∧ placed.fetch 0 (placed.thread 0 (placed.owner 0)) = .word 0x04221800 ∧
      decodeWord 0x04221800 = .ok (.add (.s 1) (.s 2) (.s 3)) :=
  ⟨⟨by decide +kernel, by decide +kernel, by decide +kernel, by decide +kernel⟩, by decide +kernel, rfl⟩

/-- The same machine, with the thread changed; and with a word that is no instruction. -/
def fetching0 (f : Thread → Thread) : State := (Op.thread 0 (f (placed.thread 0 0))).apply placed
def noWord : State := State.reset.withFetchWord 32 0

theorem issuesFrom_of {s : State}
    (h : (s.core 0).status = .active ∧ (s.core 0).mse = [] ∧ (s.thread 0 (s.owner 0)).run = .ready ∧ (s.thread 0 (s.owner 0)).nextIssue ≤ s.cycle 0) :
    s.issuesFrom 0 := ⟨h.1, .inl h.2.1, h.2.2.1, h.2.2.2⟩

/-- A PC of 2, one at the last word of its segment and one past it, a segment without X in user mode, the first fetch of a handler, and
word 0. -/
theorem witness_PositionIssues_fails :
    ([(fun t => { t with pc := 2 }), (fun t => { t with pc := w64 ((t.seg.get 7).limit), status := 1 }), (fun t => { t with pc := 2, entering := true })].all
      fun (f : Thread → Thread) =>
        let r := fetching0 f
        r.turn = .position 0 && r.turnTaken.positionReady 0 &&
          (match r.turnTaken.fetch 0 (r.turnTaken.thread 0 (r.turnTaken.owner 0)) with | .trap _ _ => true | _ => false)) = true ∧
      (fetching0 fun t => { t with pc := 2 }).turnTaken.issuesFrom 0 ∧ noWord.turnTaken.issuesFrom 0 ∧ noWord.turn = .position 0 ∧
      noWord.turnTaken.positionReady 0 = true ∧ noWord.turnTaken.fetch 0 (noWord.turnTaken.thread 0 (noWord.turnTaken.owner 0)) = .word 0 ∧
      (match decodeWord 0 with | .ok _ => false | .error _ => true) = true :=
  ⟨by decide +kernel, issuesFrom_of (by decide +kernel), issuesFrom_of (by decide +kernel), by decide +kernel, by decide +kernel, by decide +kernel,
    by decide +kernel⟩

theorem test_fetch :
    nextHas (step noWord) (fun t => (t.thread 0 0).trapcause = 0x01 && (t.thread 0 0).trapval = 0 && (t.thread 0 0).mode) = true ∧
    nextHas (step (fetching0 fun t => { t with pc := 2 })) (fun t => (t.thread 0 0).trapcause = 0x06 && (t.thread 0 0).trapval = 2) = true ∧
    nextHas (step (fetching0 fun t => { t with pc := 2, entering := true })) (fun t =>
      (t.thread 0 0).run = .halted && (t.thread 0 0).trapcause = 0) = true := by decide +kernel

theorem witness_CanonicalKept : placed.wf = true ∧ nextHas (step placed) (fun _ => true) = true := by decide +kernel

theorem witness_StepNeverStops : ∀ L, placed.turn = .position L → moduleOf L < placed.nmod := by
  intro L h
  have e : placed.turn = .position 0 := by decide +kernel
  rw [e] at h
  cases h
  decide +kernel

/-- Core 0 of module 1 has its turn in a machine of one module. -/
theorem witness_StepNeverStops_missing :
    let s := (Op.ctl { placed.ctl with turn := some (.position 8192) }).apply placed
    s.turn = .position 8192 ∧ s.nmod ≤ moduleOf 8192 ∧ (match step s with | .fault .noSuchModule => true | _ => false) = true := by
  decide +kernel

theorem witness_ResetState : sysKnown 0x042 = true := by decide

/-- The working copy with which an instruction that reads `s1`, `s2` begins. -/
def begin_ (s : State) : Ctx s := s.begins .yield

/-- The thread with an entry in the queue of its east port, sent by core 1, and one credit there. -/
def ported : Thread :=
  { (thread 5 6 7) with queues := vset Thread.reset.queues Port.e.index [(42, 1, 0)], credits := vset Thread.reset.credits Port.e.index 1 }

theorem witness_PortOperands :
    (begin_ (holding ported)).me.queues.get Port.e.index = (42, 1, 0) :: [] ∧ peer 0 0 .e = some (1, 0, .w) ∧
      (begin_ (holding ported)).me.queues.get Port.h.index = [] ∧ (begin_ (holding ported)).me.credits.get Port.e.index ≠ 0 ∧
      (begin_ (holding { ported with credits := Vector.replicate 6 0 })).me.credits.get Port.e.index = 0 := by decide +kernel

/-- An access of `n` bytes through `a0` passes `Seg` with a right at the address `ga` of the own raw local store. -/
def localOk (s : State) (disp : Int) (n : Nat) (need : Right) (ga : Word) : Bool :=
  (match segCheck (s.me.seg.get 0) ((s.me.a.get 0).toNat + disp) n need with | .ok g => g = ga | .error _ => false) && isOwn s.ctl.core ga &&
    gaOff ga + n ≤ 0x1F2000

/-- The last word of the raw local store. -/
def lastWord : State := holding { (thread 5 6 7) with a := vset Thread.reset.a 0 0x1F1FF8, m := vset Thread.reset.m 0 0x30000 }

theorem witness_MemoryOperands :
    localOk lastWord 0 8 .r 0x1F1FF8 = true ∧ localOk lastWord 0 8 .w 0x1F1FF8 = true ∧ 2 ^ esz (lastWord.me.m.get 0) = 8 ∧
      (begin_ lastWord).left = [] ∧ lastWord.placePoison (.win 0 0x1F1FF8) = false ∧ lastWord.mem.wf = true := by decide +kernel

theorem witness_IntegerBinary :
    let i : Instr := .add (.mem 0) (.s 1) (.s 2)
    let c := after (useAll [.s 1, .s 2]) (lastWord.begins i)
    lastWord.admits i = true ∧ binaryRule i = some (.mem 0, .s 1, .s 2, fun x y => x + y) ∧
      Answers (useAll [.s 1, .s 2]) (lastWord.begins i) [5, 6] c ∧
      Answers (write (.mem 0) (5 + 6)) c () (after (write (.mem 0) (5 + 6)) c) :=
  ⟨by decide +kernel, rfl, answers_after (by decide +kernel), answers_after (by decide +kernel)⟩

theorem witness_IntegerUnary :
    let i : Instr := .clz (.s 3) (.s 1)
    let s := regs 1 0 0
    let c := after (use (.s 1)) (s.begins i)
    s.admits i = true ∧ unaryRule i = some (.s 3, .s 1, aluClz) ∧ Answers (use (.s 1)) (s.begins i) 1 c ∧
      Answers (write (.s 3) (aluClz 1)) c () (after (write (.s 3) (aluClz 1)) c) :=
  ⟨by decide +kernel, rfl, answers_after (by decide +kernel), answers_after (by decide +kernel)⟩

theorem witness_SelectInsertConstant :
    let s := regs 1 2 3
    let i : Instr := .sel (.s 3) (.s 1) (.s 2) (.s 3)
    let j : Instr := .bfi (.s 3) (.s 1) 63 0
    s.admits i = true ∧ s.admits j = true ∧ s.admits (.li (.s 3) 5) = true ∧ s.admits (.lhi (.s 3) 5) = true ∧
      Answers (useAll [.s 1, .s 2, .s 3]) (s.begins i) [1, 2, 3] (after (useAll [.s 1, .s 2, .s 3]) (s.begins i)) ∧
      Answers (useAll [.s 1, .s 3]) (s.begins j) [1, 3] (after (useAll [.s 1, .s 3]) (s.begins j)) ∧
      (∀ k, (0x8000000000000003 : Word).getLsbD k = if 63 ≤ k ∧ k < 63 + 0 + 1 ∧ k < 64 then (1 : Word).getLsbD (k - 63) else (3 : Word).getLsbD k) ∧
      Answers (use (.s 3)) (s.begins (.lhi (.s 3) 5)) 3 (after (use (.s 3)) (s.begins (.lhi (.s 3) 5))) := by
  and_intros <;> try first | decide +kernel | exact answers_after (by decide +kernel)
  intro k
  by_cases h : k < 64
  · have : ∀ k : Fin 64, (0x8000000000000003 : Word).getLsbD k =
        if 63 ≤ k.val ∧ k.val < 63 + 0 + 1 ∧ k.val < 64 then (1 : Word).getLsbD (k - 63) else (3 : Word).getLsbD k := by decide +kernel
    exact this ⟨k, h⟩
  · rw [BitVec.getLsbD_of_ge _ _ (by omega), if_neg (by omega), BitVec.getLsbD_of_ge _ _ (by omega)]

theorem witness_IntegerRegisterFrame : (regs 1 2 3).me.run = .ready ∧
    binaryRule (.sub (.s 3) (.s 1) (.s 2)) = some (.s 3, .s 1, .s 2, fun x y => x - y) := ⟨by decide +kernel, rfl⟩

/-- 1 / 0 raises DZ. -/
def divides : Instr := .fdiv (.s 3) (.s 1) (.s 2) .f32 .rne

theorem witness_FloatResult : ∃ (s : State) (f : Nat → List Word → Word × Exc) (v : Word),
    let c := after (useAll [.s 1, .s 2]) (s.begins divides)
    floatRule divides = some (.s 3, [.s 1, .s 2], .rne, f) ∧ s.admits divides = true ∧
      Answers (useAll [.s 1, .s 2]) (s.begins divides) [0x3F800000, 0] c ∧
      (f (roundingMode c.me .rne) [0x3F800000, 0]).2 &&& BitVec.ofNat 5 c.me.enables = 0 ∧
      (f (roundingMode c.me .rne) [0x3F800000, 0]).1 = v ∧ Answers (write (.s 3) v) c () (after (write (.s 3) v) c) :=
  ⟨regs 0x3F800000 0 0, _, 0x7F800000, rfl, by decide +kernel, answers_after (by decide +kernel), by decide +kernel, by decide +kernel,
    answers_after (by decide +kernel)⟩

theorem witness_FloatResult_trap : ∃ (s : State) (f : Nat → List Word → Word × Exc),
    floatRule divides = some (.s 3, [.s 1, .s 2], .rne, f) ∧ s.admits divides = true ∧
      Answers (useAll [.s 1, .s 2]) (s.begins divides) [0x3F800000, 0] (s.begins divides) ∧
      (f (roundingMode s.me .rne) [0x3F800000, 0]).2 &&& BitVec.ofNat 5 s.me.enables ≠ 0 :=
  ⟨holding { (thread 0x3F800000 0 0) with status := 0x8001 }, _, rfl, by decide +kernel, rfl, by decide +kernel⟩

theorem test_fp_traps : trapsWith divides (holding { (thread 0x3F800000 0 0) with status := 0x8001 }) 0x07 8 = true := by decide +kernel

theorem witness_LoadStoreLocal :
    localOk lastWord 0 8 .r 0x1F1FF8 = true ∧ localOk lastWord 0 8 .w 0x1F1FF8 = true ∧ lastWord.me.taken = [] ∧ lastWord.me.run = .ready ∧
      lastWord.placePoison (.win 0 0x1F1FF8) = false ∧ lastWord.mem.wf = true := by decide +kernel

/-- The thread whose descriptors reach the local store of core 1. -/
def away : State := holding { (thread 5 6 7) with seg := Vector.replicate 8 (wide (2 ^ 30)) }

theorem witness_AccessCompletes :
    let i : Instr := .ld (.s 3) 0 .w true 0
    let c := after (load 0x1F1FF8 8) (lastWord.begins i)
    let c' := after (advanceIf true 0) c
    let j : Instr := .st (.s 1) 0 .w true 0
    let d := after (advanceIf true 0) (lastWord.begins j)
    lastWord.admits i = true ∧ localOk lastWord 0 8 .r 0x1F1FF8 = true ∧ Answers (load 0x1F1FF8 8) (lastWord.begins i) 0 c ∧
      Answers (advanceIf true 0) c () c' ∧ Answers (write (.s 3) (extend true 8 0)) c' () (after (write (.s 3) (extend true 8 0)) c') ∧
      lastWord.admits j = true ∧ Answers (addressFirst 0x1F1FF8 (.s 1)) (lastWord.begins j) () (lastWord.begins j) ∧
      localOk lastWord 0 8 .w 0x1F1FF8 = true ∧ windowAccepts 0x1F1FF8 8 .store = true ∧
      Answers (advanceIf true 0) (lastWord.begins j) () d ∧ Answers (use (.s 1)) d 5 (after (use (.s 1)) d) ∧
      Answers (store 0x1F1FF8 8 5) (after (use (.s 1)) d) () (after (store 0x1F1FF8 8 5) (after (use (.s 1)) d)) := by
  and_intros <;> first | decide +kernel | exact answers_after (by decide +kernel)

theorem witness_AccessCompletes_remote :
    away.me.taken = [] ∧ (match segCheck (away.me.seg.get 0) 0 8 .r with | .ok g => decide (g = 0x40000000) | .error _ => false) = true ∧
      isOwn 0 0x40000000 = false ∧ away.exists_ 0x40000000 = true ∧ windowAccepts (gaOff 0x40000000) 8 .load = true := by decide +kernel

theorem test_remote_load :
    nextHas (exec (.ld (.s 3) 0 .w false 0) away) (fun t => t.me.run = .waiting (.reply 0) && t.reqs.length = 1) = true := by decide +kernel

/-- A synchronising access of 8 bytes through `a0` passes `Seg` at an address of another core, or of shared space, that exists. -/
def farOk (s : State) (ga : Word) : Bool :=
  (match segCheck (s.me.seg.get 0) ((s.me.a.get 0).toNat + 0) 8 .s with | .ok g => g = ga | .error _ => false) && !isOwn s.ctl.core ga &&
    s.exists_ ga && (isShared ga || windowAccepts (gaOff ga) 8 .sync)

/-- A thread of core 0 whose descriptors reach a base, with an answer given. -/
def given (base : Nat) (ts : List Token) : State := holding { (thread 5 6 7) with seg := Vector.replicate 8 (wide base), taken := ts }

theorem witness_AccessCompletes_sync :
    awaitedRule (given (2 ^ 30) [.val 9]).me (.ldfe (.s 3) 0 true 0) = some (.ldfe, 0, 0, true, .s 3) ∧
      (given (2 ^ 30) [.val 9]).admits (.ldfe (.s 3) 0 true 0) = true ∧ farOk (given (2 ^ 30) [.val 9]) 0x40000000 = true ∧
      retiredRule (given (2 ^ 30) []).me (.stsf (.s 1) 0 true 0) = some (.stsf 5, 0, 0, true) ∧
      (given (2 ^ 30) []).admits (.stsf (.s 1) 0 true 0) = true ∧ farOk (given (2 ^ 30) []) 0x40000000 = true ∧
      (given (2 ^ 30) []).me.pendb.toNat + HomeOp.size (.stsf 5) < 2 ^ 32 ∧
      farOk (given (2 ^ 63) [.done]) 0x8000000000000000 = true ∧ gaModule 0x8000000000000000 = moduleOf 0 := by
  and_intros <;> first | decide +kernel

theorem test_sync_answers :
    nextHas (exec (.ldfe (.s 3) 0 true 0) (given (2 ^ 30) [.val 9])) (fun t => t.me.s.get 3 = 9 && t.me.run = .ready && t.me.a.get 0 = 0) = true ∧
    nextHas (exec (.amoAdd .z (.s 1) 0) (given (2 ^ 30) [])) (fun t => t.me.run = .ready && t.me.pendb = 8 && t.reqs.length = 1) = true ∧
    nextHas (exec (.stsf (.s 1) 0 false 0) (given (2 ^ 63) [.done])) (fun t => t.me.run = .ready && t.me.pc = 0x44 && t.reqs = []) = true := by
  decide +kernel

theorem witness_SegmentTrap :
    (regs 0 0 0).admits (.ld (.s 3) 0 .w true 0x3FFF) = true ∧ ((0 : Int) + (-1) < 0) ∧ ((wide 0).limit : Int) < 2 ^ 28 - 7 + 8 ∧
      (2 ^ 28 - 8 + 8 : Int) ≤ ((wide 0).limit : Int) ∧ ({ base := 0, word := 0x1000 } : Seg).has .r = false ∧
      (wide 0).has .w = true ∧ ((wide 0).form 1).toNat % 2 ≠ 0 := by decide +kernel

theorem witness_PointersAndSegments :
    let s := regs 0x1000 (2 ^ 40 + 64) 0
    s.admits (.setp 2 (.s 1)) = true ∧ s.admits (.setm 2 (.s 1)) = true ∧ s.admits (.getp (.s 3) 2) = true ∧ s.admits (.segq (.s 3) 2 true) = true ∧
      s.admits (.npcount (.s 3) (.port .w)) = true ∧ s.admits (.segld 2 (.s 1) (.s 2)) = true ∧
      Answers (use (.s 1)) (s.begins (.setp 2 (.s 1))) 0x1000 (after (use (.s 1)) (s.begins (.setp 2 (.s 1)))) ∧
      Answers (write (.s 3) 0) (s.begins (.getp (.s 3) 2)) () (after (write (.s 3) 0) (s.begins (.getp (.s 3) 2))) ∧
      Answers (useAll [.s 1, .s 2]) (s.begins (.segld 2 (.s 1) (.s 2))) [0x1000, 2 ^ 40 + 64] (s.begins (.segld 2 (.s 1) (.s 2))) ∧
      (2 ^ 45 - 1 < 2 ^ 45 ∧ (2 ^ 46 - 1) / 2 ^ 45 = 1 ∧ ¬(2 ^ 46 < 2 ^ 45 ∨ 2 ^ 46 / 2 ^ 45 = 1)) := by
  and_intros <;> first | decide +kernel | exact answers_after (by decide +kernel)

/-- A prefetch of shared space. -/
theorem witness_PointersAndSegments_prefetch :
    (match segCheck ((given (2 ^ 63) []).me.seg.get 0) (((given (2 ^ 63) []).me.a.get 0).toNat + (0 : BitVec 15).toInt) 1 .r with
      | .ok g => decide (g = 0x8000000000000000) | .error _ => false) = true ∧
      (given (2 ^ 63) []).exists_ 0x8000000000000000 = true ∧
      nextHas (exec (.pf .nt 0 true 0) (given (2 ^ 63) [])) (fun t => (t.reqs.map fun y => (y.2.op, y.2.stage)) = [(.prefetch true, .sent)]) =
        true ∧
      nextHas (exec (.pf .nt 0 true 0) (regs 0 0 0)) (fun t => t.reqs = [] && t.me.pc = 0x44) = true := by decide +kernel

/-- `LocalSync` as a check. -/
def syncOk (s : State) (k : Fin 8) (disp : Int) (n : Nat) (ga : Word) : Bool :=
  (match segCheck (s.me.seg.get k) ((s.me.a.get k).toNat + disp) n .s with | .ok g => g = ga | .error _ => false) &&
    isOwn s.ctl.core ga && (gaOff ga + n ≤ 0x1F2000 && s.me.taken = [])

theorem localSync_of {s : State} {k : Fin 8} {disp : Int} {n : Nat} {ga : Word} (h : syncOk s k disp n ga = true) :
    LocalSync s k disp n ga := by
  unfold syncOk at h
  simp only [Bool.and_eq_true, decide_eq_true_eq] at h
  refine ⟨?_, h.1.2, h.2.1, h.2.2⟩
  have h1 := h.1.1
  split at h1
  · next g e => rw [e]; simp at h1; rw [h1]
  · exact absurd h1 (by simp)

/-- The last word of the raw local store, empty. -/
def lastEmpty : State := (Op.fe (0x1F1FF8 / 8) false).apply lastWord

theorem witness_FullEmptyLocal :
    LocalSync lastWord 0 (0 : BitVec 15).toInt 8 0x1F1FF8 ∧ LocalSync lastEmpty 0 (0 : BitVec 15).toInt 8 0x1F1FF8 ∧
      lastWord.admits (.ldfe (.s 3) 0 true 0) = true ∧ lastEmpty.admits (.stef (.s 1) 0 true 0) = true ∧
      lastWord.admits (.fstate (.s 3) 0) = true ∧
      lastWord.mem.full (lastWord.localKey 0 0x1F1FF8 / 8) = true ∧ lastEmpty.mem.full (lastWord.localKey 0 0x1F1FF8 / 8) = false ∧
      lastWord.mem.poisoned (lastWord.localKey 0 0x1F1FF8 / 8) = false ∧ lastEmpty.mem.wf = true ∧ lastWord.me.run = .ready ∧
      lastEmpty.me.wordWait = none ∧ lastEmpty.me.ticket = none ∧ (lastEmpty.home 0).hasEntry = true ∧
      (lastEmpty.home 0).nowServing = (lastEmpty.home 0).nextTicket := by
  and_intros <;> first | decide +kernel | exact localSync_of (by decide +kernel)

theorem witness_AtomicLocal :
    LocalSync lastWord 0 0 8 0x1F1FF8 ∧
      LocalSync (holding { lastWord.me with a := vset Thread.reset.a 0 0x1F1FFC }) 0 0 4 0x1F1FFC ∧ lastWord.mem.wf = true ∧
      lastWord.mem.poisoned (lastWord.localKey 0 0x1F1FF8 / 8) = false ∧
      atomicRule (.amoFadd (.s 3) (.s 1) 0) = some (9, .s 3, .s 1, 0) ∧ lastWord.admits (.amoFadd (.s 3) (.s 1) 0) = true ∧
      lastWord.admits (.cas (.s 3) (.s 1) 0) = true ∧ lastWord.admits (.lr (.s 3) 0) = true ∧ lastWord.admits (.sc (.s 3) (.s 1) 0) = true ∧
      lastWord.holds 0 0 = false ∧ lastWord.me.run = .ready := by
  and_intros <;> first | decide +kernel | exact localSync_of (by decide +kernel)

/-- The last word, reserved by the thread; the word is full and the home has room. -/
def reserved : State :=
  applyAll [.thread 0 { lastWord.me with reservation := some (0x1F1FF8, 0) },
    .home 0 { Home.reset with reservations := [{ core := 0, slot := 0, block := (Place.win 0 0x1F1FF8).block }] }] lastWord

theorem witness_AtomicLocal_waits :
    LocalSync reserved 0 0 8 0x1F1FF8 ∧ reserved.mem.wf = true ∧ reserved.mem.poisoned (reserved.localKey 0 0x1F1FF8 / 8) = false ∧
      reserved.holds 0 0 = true ∧ reserved.me.wordWait = none ∧ reserved.me.ticket = none ∧ (reserved.home 0).hasEntry = true ∧
      (reserved.home 0).nowServing = (reserved.home 0).nextTicket ∧
      nextHas (exec .waitrs reserved) (fun t => t.me.run = .waiting (.word 0 0x1F1FF8 .reservation)) = true ∧
      nextHas (exec (.sc (.s 3) (.s 1) 0) reserved) (fun t => t.me.s.get 3 = 1 && t.me.reservation = none) = true := by
  and_intros <;> first | decide +kernel | exact localSync_of (by decide +kernel)

/-- A thread that has 8 bytes outstanding. -/
def pending : State := holding { (thread 0 0 0) with pendb := 8 }

theorem witness_Fences :
    (regs 0 0 0).released .system = true ∧ (regs 0 0 0).me.run = .ready ∧ pending.me.pendb ≠ 0 ∧ LocalSync lastEmpty 0 0 8 0x1F1FF8 ∧
      lastEmpty.mem.wf = true ∧ lastEmpty.released .system = true := by
  and_intros <;> first | decide +kernel | exact localSync_of (by decide +kernel)

theorem test_fence_waits :
    nextHas (exec (.fence .rel .core) pending) (fun t => t.me.run = .waiting .drain && t.me.pc = 0x40) = true := by decide +kernel

theorem witness_GroupIdentifiers :
    (regs 9 0 0).admits (.gidget (.s 3)) = true ∧ (regs 9 0 0).me.taken = [] ∧
      (holding { (thread 9 0 0) with taken := [.val 4] }).me.taken = [.val 4] ∧ (regs 9 0 0).admits (.gidput (.s 1)) = true ∧
      Answers (use (.s 1)) ((regs 9 0 0).begins (.gidput (.s 1))) 9 ((regs 9 0 0).begins (.gidput (.s 1))) ∧
      Answers (use (.s 1)) ((regs 4096 0 0).begins (.gidput (.s 1))) 4096 ((regs 4096 0 0).begins (.gidput (.s 1))) := by
  and_intros <;> first | decide +kernel | rfl

theorem test_gidput :
    nextHas (exec (.gidput (.s 1)) (regs 4095 0 0)) (fun t =>
      (t.reqs.map fun y => (y.2.op, y.2.target)) = [(.gidput 4095, some (paTarget 0 0x822FF))]) = true ∧
    nextHas (exec (.gidput (.s 1)) (regs 4096 0 0)) (fun t => t.reqs = [] && t.me.run = .ready) = true := by decide +kernel

theorem witness_ControlTransfers :
    let s := regs 2 8 0
    (∃ cond, branchRule (.beq (.s 1) (.s 2) (-1)) = some ([.s 1, .s 2], cond, -1)) ∧ s.admits (.beq (.s 1) (.s 2) (-1)) = true ∧
      Answers (useAll [.s 1, .s 2]) (s.begins (.beq (.s 1) (.s 2) (-1))) [2, 8] (s.begins (.beq (.s 1) (.s 2) (-1))) ∧ s.me.run = .ready ∧
      s.admits (.jr (.s 1)) = true ∧ Answers (use (.s 2)) (s.begins (.jr (.s 2))) 8 (s.begins (.jr (.s 2))) ∧
      Answers (use (.s 1)) (s.begins (.jr (.s 1))) 2 (s.begins (.jr (.s 1))) ∧ s.admits (.loop (.s 1) 1) = true ∧
      Answers (use (.s 1)) (s.begins (.loop (.s 1) 1)) 2 (s.begins (.loop (.s 1) 1)) :=
  ⟨⟨_, rfl⟩, by decide +kernel, rfl, by decide +kernel, by decide +kernel, rfl, rfl, by decide +kernel, rfl⟩

theorem witness_SystemRegisters :
    let s := regs 0 8 0
    s.admits (.mfsys (.s 3) 0x013) = true ∧ sysKnown 0x013 = true ∧ s.me.mode = true ∧ s.me.run = .ready ∧
      (let c : Ctx s := { s.begins (.mfsys (.s 3) 0x013) with left := [], seen := [.val (s.sysRead 0 0 0x013)] }
       Answers (write (.s 3) (s.sysRead 0 0 0x013)) c () (after (write (.s 3) (s.sysRead 0 0 0x013)) c)) ∧
      ¬(1 ≤ (s.me.s.get 1).toNat % 128 ∧ (s.me.s.get 1).toNat % 128 ≤ 64) ∧
      (1 ≤ (s.me.s.get 2).toNat % 128 ∧ (s.me.s.get 2).toNat % 128 ≤ 64) ∧
      (0x057, 2 ^ 20 - 1) ∈ (List.range 8).map (fun k => (0x050 + k, 2 ^ 20 - 1)) ∧
      5 ≤ (0x50 : Word).toNat / 2 ^ 4 % 8 ∧ (0x40 : Word).toNat / 2 ^ 4 % 8 < 5 := by
  and_intros <;> first | decide +kernel | exact answers_after (by decide +kernel)

theorem witness_SystemRegisters_mfsys :
    let s := given 0 [.val 8]
    let i : Instr := .mfsys (.s 3) 0x002
    let c : Ctx s := { s.begins i with left := [], seen := [.val 8] }
    s.admits i = true ∧ s.me.taken = .val 8 :: [] ∧ Answers (write (.s 3) 8) c () (after (write (.s 3) 8) c) ∧
      ((regs 300 0 0).core 0).mxgateAt ≤ (regs 300 0 0).cycle 0 ∧ (regs 300 0 0).me.taken = [] ∧
      nextHas (exec (.mtsys 0x040 (.s 1)) (regs 300 0 0)) (fun t => (t.core 0).mxgate = 300) = true := by
  and_intros <;> first | decide +kernel | exact answers_after (by decide +kernel)

/-- Register number 4, which the table does not list. -/
theorem witness_SystemRegisters_unlisted :
    sysKnown (4 : BitVec 12).toNat = false ∧ (regs 0 0 0).admits (.mfsys (.s 3) 4) = true ∧
      trapsWith (.mfsys (.s 3) 4) (regs 0 0 0) 0x02 0xE0600040 = true ∧ trapsWith (.mtsys 4 (.s 1)) (regs 0 0 0) 0x02 0xE0010041 = true := by
  decide +kernel

/-- A user thread. -/
def user : State := holding { (thread 0 0 0) with status := 0 }

theorem witness_TrapAndReturn :
    (regs 0 0 0).me.mode = true ∧ (regs 0 0 0).me.run = .ready ∧ user.me.mode = false ∧ trapsWith .tret user 0x03 0xE0000003 = true := by
  decide +kernel

theorem witness_PrecheckTraps :
    user.me.mode = false ∧ Instr.supervisor (.tlbinv (.s 1) (.s 2)) = true ∧ user.admits (.mfsys (.s 1) 0x10) = true ∧
      user.admits (.mtsys 0x40 (.s 1)) = true ∧ Instr.supervisor (.add .code30 (.s 1) (.s 2)) = false ∧
      ((Instr.fields (.add .code30 (.s 1) (.s 2))).all fun (o, a) => a.ok o) = false ∧
      ((Instr.fields (.add (.port .w) (.s 1) (.port .n))).all fun (o, a) => a.ok o) = true ∧
      edgePort 0 0 (Instr.fields (.add (.port .w) (.s 1) (.port .n))) = some .n := by decide +kernel

theorem test_precheck :
    trapsWith (.add .code30 (.s 1) (.s 2)) (regs 0 0 0) 0x02 0x07C11000 = true ∧
      trapsWith (.add (.port .w) (.s 1) (.port .n)) (regs 0 0 0) 0x12 26 = true ∧
      trapsWith (.mtsys 0x40 (.s 1)) user 0x03 0xE0010401 = true := by decide +kernel

theorem witness_RandomAndCache :
    let s := holding { (thread 0 0 0) with seed := 1 }
    let c : Ctx s := { s.begins (.rand (.s 3)) with
      run := (s.begins (.rand (.s 3))).run.push (.thread (tkey s.ctl.core s.ctl.slot) { s.me with seed := 0x40822041 }) }
    s.admits (.rand (.s 3)) = true ∧ Answers (write (.s 3) 0x40822041) c () (after (write (.s 3) 0x40822041) c) ∧ s.me.pendb = 0 ∧
      s.me.deferred = none ∧
    (let s := holding { (thread 0 0 0) with credits := Vector.replicate 6 0 }
     s.admits (.rand (.port .e)) = true ∧ s.me.credits.get Port.e.index = 0 ∧ s.me.portWait = none) := by
  and_intros <;> first | decide +kernel | exact answers_after (by decide +kernel)

/-! Threads and tasks. -/

/-- The machine with words in core 0's local store. -/
def withWords (t : Thread) (ws : List (Nat × Word)) : State :=
  applyAll ((Op.thread 0 t) :: ws.flatMap fun (a, v) => (List.range 8).map fun i => Op.poke (a + i) (BitVec.ofNat 8 (v.toNat / 2 ^ (8 * i)))) State.reset

/-- A plain packet of 32 bytes with entry 0x80 at offset 0x200 of the local store, where `s1` points. -/
def packets : State := withWords (thread 0x200 3 0) [(0x200, 2), (0x208, 0x80)]

def thePacket : Packet := toBytes 8 2 ++ toBytes 8 0x80 ++ toBytes 16 0

theorem witness_Spawn :
    let s := regs 15 0x80 0
    let i : Instr := .spawn (.s 1) (.s 2)
    s.admits i = true ∧ Answers (useAll [.s 1, .s 2]) (s.begins i) [15, 0x80] (s.begins i) ∧ (s.thread 0 15).startable = true ∧
      ¬s.arrived 0 15 ∧ (s.thread 0 0).startable = false ∧
      Answers (useAll [.s 1, .s 2]) ((regs 16 0 0).begins i) [16, 0] ((regs 16 0 0).begins i) :=
  ⟨by decide +kernel, rfl, by decide +kernel, fun ⟨key, h⟩ => by simp [State.group, regs, holding, Op.apply, State.reset, look] at h,
    by decide +kernel, rfl⟩

theorem test_spawn :
    nextHas (exec (.spawn (.s 1) (.s 2)) (regs 15 0x80 0)) (fun t =>
      (t.thread 0 15).run = .ready && (t.thread 0 15).pc = 0x80 && (t.thread 0 15).nextIssue = 16 && (t.thread 0 15).status = 0) = true ∧
    trapsWith (.spawn (.s 1) (.s 2)) (regs 16 0x80 0) 0x02 0xB4011000 = true := by decide +kernel

theorem witness_YieldAndExit :
    (regs 0 0 0).me.run = .ready ∧ (regs 0 0 0).me.inService = false ∧ (∀ e, (regs 0 0 0).outstanding 0 0 e = 0) ∧ pending.me.pendb ≠ 0 := by
  refine ⟨by decide +kernel, by decide +kernel, ?_, by decide +kernel⟩
  intro e; cases e <;> decide +kernel

theorem test_exit : nextHas (exec .texit (regs 0 0 0)) (fun t => t.me.run = .idle) = true ∧
    nextHas (exec .yield (regs 0 0 0)) (fun t => t.me.nextIssue = 17 && t.me.pc = 0x44) = true := by decide +kernel

theorem witness_Launch :
    let i : Instr := .launch .system (.s 1) (.s 2)
    let c := packets.begins i
    let c1 := after (launchPacket .system 0x200) c
    packets.admits i = true ∧ Answers (useAll [.s 1, .s 2]) c [0x200, 3] c ∧ Answers (launchPacket .system 0x200) c thePacket c1 ∧
      Answers (release .system) c1 () c1 :=
  ⟨by decide +kernel, rfl, answers_after (by decide +kernel), rfl⟩

theorem test_launch :
    nextHas (exec (.launch .cluster (.s 1) (.s 2)) packets) (fun t =>
      match t.floods with | [(_, f)] => f.launch.mask = 3 && f.launch.packet = thePacket && f.scope = .cluster | _ => false) = true := by
  decide +kernel

/-- The same with the normal deque full. -/
def fullDeque : State := (Op.core 0 { Core.reset 0 with normal := { top := 0, count := 160 } }).apply packets

/-- A thread with a packet assigned whose footprint is fetched: 8 bytes to offset 0x300. -/
def assigned_ : Packet := toBytes 8 (2 + 2 ^ 10) ++ toBytes 8 0x80 ++ toBytes 8 0 ++ toBytes 8 (0x300 * 2 ^ 32 + 8)

def popper : State := holding { (thread 0 0 0) with assigned := some assigned_, fetched := 1 }

/-- A packet in service, its buffer's offset in `s1`. -/
def serving : State := holding { (thread 0x1F1000 0 0) with inService := true }

theorem witness_Tasks :
    let i : Instr := .taskpush (.s 1)
    let c := packets.begins i
    let j : Instr := .taskdone (.s 1)
    packets.admits i = true ∧ Answers (use (.s 1)) c 0x200 c ∧ Answers (readTask .push 0x200) c thePacket (after (readTask .push 0x200) c) ∧
      (packets.core 0).split = none ∧ packets.dequeFull 0 false = false ∧ (packets.core 0).poppers = [] ∧
      Answers (readTask .push 0x200) (fullDeque.begins i) thePacket (after (readTask .push 0x200) (fullDeque.begins i)) ∧
      fullDeque.dequeFull 0 false = true ∧
      popper.me.inService = false ∧ popper.me.assigned = some assigned_ ∧ hdrFp (Packet.word assigned_ 0) = true ∧
      (Packet.range assigned_).2 ≤ 8 * popper.me.fetched ∧ assigned_.length ≤ 256 ∧ popper.mem.wf = true ∧
      (holding { (thread 0 0 0) with popEnded := some 0 }).me.popEnded.isSome = true ∧
      (regs 0 0 0).me.assigned = none ∧ (regs 0 0 0).me.popEnded = none ∧ ((regs 0 0 0).core 0).urgent.count = 0 ∧
      serving.admits j = true ∧ Answers (use (.s 1)) (serving.begins j) 0x1F1000 (serving.begins j) ∧ (serving.begins j).me.inService = true ∧
      Answers (release .system) (serving.begins j) () (serving.begins j) ∧ (packets.begins j).me.inService = false := by
  and_intros <;> first | decide +kernel | exact answers_after (by decide +kernel)

/-- The packet in service has one successor, at 0x200 of core 1. -/
def succeeding : State :=
  (Op.thread 0 { (thread 0x1F1000 0 0) with inService := true }).apply
    (withWords (thread 0 0 0) [(0x1F1000, 2 + 2 ^ 12), (0x1F1008, 0x80), (0x1F1018, 0x40000200)])

theorem witness_Tasks_successor :
    let j : Instr := .taskdone (.s 1)
    let c := succeeding.begins j
    succeeding.admits j = true ∧ Answers (use (.s 1)) c 0x1F1000 c ∧ c.me.inService = true ∧ Answers (release .system) c () c ∧
      (succeeding.core 0).split = none ∧ Packet.handles (succeeding.packetAt 0 0x1F1000) = [0x40000200] ∧ isShared 0x40000200 = false ∧
      gaModule 0x40000200 < succeeding.nmod ∧ gaCore 0x40000200 ≠ 0 ∧
      nextHas (exec j succeeding) (fun t => t.me.pendb = 8 && (t.reqs.map fun y => (y.2.op, y.2.ga)) = [(.decrement, 0x40000200)]) = true := by
  and_intros <;> first | decide +kernel | rfl

theorem test_tasks :
    nextHas (exec (.taskpush (.s 1)) packets) (fun t => (t.core 0).normal.count = 1 && t.packetAt 0 0x1F2000 = thePacket) = true ∧
    nextHas (exec (.taskpush (.s 1)) fullDeque) (fun t => t.me.run = .waiting (.dequeRoom false)) = true ∧
    nextHas (exec (.taskpop (.s 3)) popper) (fun t => t.me.s.get 3 = 0x1F1000 && t.me.inService) = true ∧
    nextHas (exec (.taskpop (.s 3)) (regs 0 0 0)) (fun t => t.me.run = .waiting .taskpop && (t.core 0).poppers = [0]) = true ∧
    nextHas (exec (.taskdone (.s 1)) serving) (fun t => !t.me.inService && t.me.run = .ready) = true := by decide +kernel

/-- A handler packet (KIND 2, LEN 2) at 0x200; `a0` at the word 0x100. -/
def handlers : State := (Op.thread 0 { (thread 0x200 0 0) with a := vset Thread.reset.a 0 0x100 }).apply
  (withWords Thread.reset [(0x200, 0x202), (0x208, 0x80)])

theorem witness_TriggersLocal :
    let i : Instr := .trigset 0 (.s 1)
    let c := handlers.begins i
    let p : Packet := toBytes 8 0x202 ++ toBytes 8 0x80 ++ toBytes 16 0
    LocalSync handlers 0 0 8 0x100 ∧ handlers.admits i = true ∧ Answers (use (.s 1)) c 0x200 c ∧
      Answers (readTask .trigger 0x200) c p (after (readTask .trigger 0x200) c) ∧ (handlers.core 0).split = none ∧
      ((List.finRange 16).find? fun e => !bit (handlers.core 0).triggers e.val) = some 0 ∧ (handlers.home 0).bindings = [] ∧
      ((Op.fe 0x20 false).apply handlers).placeFull (.win 0 0x100) = false := by
  and_intros <;> first | decide +kernel | exact answers_after (by decide +kernel) | exact localSync_of (by decide +kernel)

theorem test_triggers :
    nextHas (exec (.trigset 0 (.s 1)) ((Op.fe 0x20 false).apply handlers)) (fun t => (t.core 0).triggers = 1 && (t.home 0).bindings.length = 1) =
      true ∧
    nextHas (exec (.trigset 0 (.s 1)) ((Op.fe 0x20 false).apply handlers)) (fun t =>
      nextHas (exec (.trigclr 0) t) fun u => (u.home 0).bindings = []) = true := by decide +kernel

/-! Engines. -/

/-- The thread with rigging registers of one engine set. -/
def rigged (e : Engine) (rs : List (Fin 32 × Word)) : Thread :=
  let rig := rs.foldl (fun r (n, v) => vset r n v) EngThread.start.rig
  { (thread 3 4 0) with eng := vset Thread.reset.eng (engIx e) { EngThread.start with rig := rig } }

/-- `mx.clr` of one element, `vx.fill` of one FP32 element, `cp.fill` of one word and `sl.kinit` of a list of 1, each at 0x1000. -/
def engineCases : List (Engine × Instr × List (Fin 32 × Word)) := [
  (.mxe, .mxClr (x (.s 1) (.s 2) false true .core true), [(4, 0x1000), (5, 0x10001)]),
  (.vxe, .vxFill (x (.s 1) .z true false .core false), [(3, 0x1000), (4, 0x100000001)]),
  (.cpe, .cpFill (x (.s 1) .z false false .thread false), [(1, 0x1000), (2, 0x31), (3, 1)]),
  (.slu, .slKinit (x .z .z false false .thread false), [(11, 1)])]

/-- The command is not rejected. -/
def issuable (s : State) (i : Instr) : Bool :=
  match engineRule i with
  | some (e, _, _, sp) => (rejectReason s.me (s.me.engThread e).rig (sp s s.ctl.core s.me)).isNone && s.admits i && s.outstanding 0 0 e < 2
  | none => false

theorem witness_EngineIssue :
    (engineCases.all fun (e, i, rs) => issuable (holding (rigged e rs)) i) = true ∧ ((regs 0 0 0).module 0).draining = [] := by decide +kernel

theorem test_engine_issue :
    (engineCases.all fun (e, i, rs) => nextHas (exec i (holding (rigged e rs))) fun t =>
      (t.engine 0 e).queue.length = 1 && (t.me.engThread e).seq = 1 && t.me.pc = 0x44) = true := by decide +kernel

/-- Two commands of the thread wait on the selection unit. -/
def crowded : State :=
  let s := holding (rigged .slu [(11, 1)])
  let twice := nextState (nextState s)
  twice
where
  nextState (s : State) : State :=
    match exec (.slKinit (x .z .z false false .thread false)) s with
    | .next t => t
    | _ => s

theorem witness_EngineIssue_refused :
    rejectReason (regs 0 0 0).me ((regs 0 0 0).me.engThread .mxe).rig (mxSpec 3 (regs 0 0 0) 0 (regs 0 0 0).me) = some 0x10 ∧
      (regs 0 0 0).admits (.mxClr (x .z .z false false .thread false)) = true ∧
      rejectReason crowded.me (crowded.me.engThread .slu).rig (slSpec 2 crowded 0 crowded.me) = none ∧ 2 ≤ crowded.outstanding 0 0 .slu := by
  decide +kernel

theorem test_engine_reject :
    trapsWith (.mxClr (x .z .z false false .thread false)) (regs 0 0 0) 0x18 0x10 = true ∧
      nextHas (exec (.slKinit (x .z .z false false .thread false)) crowded) (fun t => t.me.run = .waiting (.engineQueue .slu)) = true := by
  decide +kernel

theorem witness_EngineInterface :
    let s := regs 5 0 0
    s.admits (.engset .cpe 31 (.s 1)) = true ∧ Answers (use (.s 1)) (s.begins (.engset .cpe 31 (.s 1))) 5 (s.begins (.engset .cpe 31 (.s 1))) ∧
      s.admits (.engget (.s 3) .cpe 31) = true ∧
      Answers (write (.s 3) 0) (s.begins (.engget (.s 3) .cpe 31)) () (after (write (.s 3) 0) (s.begins (.engget (.s 3) .cpe 31))) ∧
      s.outstanding 0 0 .slu = 0 ∧ s.copies = [] ∧ s.me.run = .ready ∧ crowded.outstanding 0 0 .slu = 2 ∧
      ((holding { (thread 0 0 0) with eng := vset Thread.reset.eng 3 { EngThread.start with err := some 5 } }).me.engThread .slu).err = some 5 := by
  and_intros <;> first | decide +kernel | exact answers_after (by decide +kernel)

theorem witness_EngineInterface_status :
    let s := regs 5 0 0
    let status := statusWord (s.me.engThread .slu) 0
    let c : Ctx s := { s.begins (.engstat (.s 3) .slu) with
      seen := [.val status]
      run := (s.begins (.engstat (.s 3) .slu)).run.push (.thread (tkey 0 0) { s.me with
        eng := vset s.me.eng 3 { s.me.engThread .slu with flags := (s.me.engThread .slu).flags &&& ~~~(BitVec.ofNat 5 (field status 8 5)) } }) }
    s.admits (.engstat (.s 3) .slu) = true ∧ s.me.taken = [] ∧ Answers (write (.s 3) status) c () (after (write (.s 3) status) c) ∧
      s.engineCopies 0 0 .slu = false := by
  and_intros <;> first | decide +kernel | exact answers_after (by decide +kernel)

theorem test_engine_interface :
    nextHas (exec (.engstat (.s 3) .slu) crowded) (fun t => t.me.s.get 3 = 2) = true ∧
    nextHas (exec (.engset .cpe 31 (.s 1)) (regs 5 0 0)) (fun t => (t.me.engThread .cpe).rig.get 31 = 5) = true ∧
    gives (.engget (.s 3) .cpe 31) 0 0 0 = true ∧ gives (.engwait .cpe) 0 0 7 = true ∧
    trapsWith (.engwait .slu) (holding { (thread 0 0 0) with eng := vset Thread.reset.eng 3 { EngThread.start with err := some 5 } }) 0x19 0x305 =
      true ∧
    nextHas (exec (.engwait .slu) crowded) (fun t => t.me.run = .waiting (.engineDone .slu)) = true := by decide +kernel

set_option maxRecDepth 4000 in
theorem witness_EngineSaveLoad :
    let s := regs 0x400 0 0
    let i : Instr := .engsave .vxe (.s 1)
    let c := s.begins i
    let j : Instr := .engload .vxe (.s 1)
    let d := s.begins j
    s.admits i = true ∧ Answers (use (.s 1)) c 0x400 c ∧ Answers (engineWaitFirst .vxe) c () c ∧ Answers (saveArea 0x400 .w) c (wide 0, 0x400) c ∧
      Answers (windowWords (wide 0) 0x400 34) c () c ∧
      Answers (checkWords (wide 0) 0x400 34) c (List.replicate 34 none) c ∧ c.me.pendb.toNat + 272 < 2 ^ 32 ∧
      (let ws := (saveWords (c.me.engThread .vxe)).zip (List.replicate 34 none)
       Answers (storeWords (wide 0) 0x400 ws) c () (after (storeWords (wide 0) 0x400 ws) c)) ∧
      s.admits j = true ∧ Answers (use (.s 1)) d 0x400 d ∧ Answers (engineWaitFirst .vxe) d () d ∧ Answers (saveArea 0x400 .r) d (wide 0, 0x400) d ∧
      Answers (readWords (wide 0) 0x400 34) d (List.replicate 272 0) (after (readWords (wide 0) 0x400 34) d) ∧
      saveWordsOk (wordsOf (List.replicate 272 0)) = true := by
  and_intros <;> first | decide +kernel | exact answers_after (by decide +kernel)

theorem test_engine_save :
    nextHas (exec (.engsave .slu (.s 1)) (holding { (rigged .slu [(11, 9)]) with s := vset Thread.reset.s 1 0x400 })) (fun t =>
      ofBytes (t.lsBytes 0 0x458 8) = 9 && nextHas (exec (.engload .vxe (.s 1)) t) fun u => (u.me.engThread .vxe).rig.get 11 = 9) = true := by
  decide +kernel

/-! System requests. -/

/-- A thread that asks, and one that has its answer. -/
def answered (x y : Word) : State := holding { (thread x y 0) with taken := [.done] }

theorem witness_SystemRequests :
    let s := regs 0x180000001 5 0
    let p := regs 0x2 5 0
    let q := regs 0x8000000000004000 5 0
    s.me.mode = true ∧ s.me.taken = [] ∧ s.admits (.wake (.s 1)) = true ∧
      Answers (use (.s 1)) (s.begins (.wake (.s 1))) 0x180000001 (s.begins (.wake (.s 1))) ∧ (s.begins (.wake (.s 1))).left = [] ∧
      (0x180000001 : Word).toNat < 2 ^ 33 ∧ Answers (release .package) (s.begins (.wake (.s 1))) () (s.begins (.wake (.s 1))) ∧
      q.admits (.tlbinv (.s 2) (.s 1)) = true ∧ isShared (sourceValue q.me.s (.s 1)) = true ∧ gaModule (sourceValue q.me.s (.s 1)) = 0 ∧
      q.released .package = true ∧
      (answered 0x2 5).me.taken = [.done] ∧ (answered 0x2 5).me.run = .ready ∧
      Answers (use (.s 1)) ((answered 0x2 5).begins (.wake (.s 1))) 2 ((answered 0x2 5).begins (.wake (.s 1))) ∧
      Answers (use (.s 1)) (p.begins (.preempt (.s 1))) 2 (p.begins (.preempt (.s 1))) := by
  and_intros <;> first | decide +kernel | rfl

theorem witness_SystemRequests_answered :
    let s := holding { (thread 0x8000000000004000 5 0) with taken := [.done] }
    s.admits (.tlbinv (.s 2) (.s 1)) = true ∧ s.released .package = true ∧ s.me.mode = true ∧
      nextHas (exec (.tlbinv (.s 2) (.s 1)) s) (fun t => t.me.run = .ready && t.me.pc = 0x44) = true ∧
      nextHas (exec (.wake (.s 1)) (answered 2 5)) (fun t => t.me.run = .ready) = true ∧
      nextHas (exec (.preempt (.s 1)) (answered 2 5)) (fun t => t.me.run = .ready) = true := by decide +kernel

/-- A machine whose module has one save slot and whose core 2 is free to be named. -/
def oneSlot : State := applyAll [.poke (paKey 0 0x82020) 1] (regs 2 5 0)

theorem witness_SystemRequests_preempt :
    oneSlot.admits (.preempt (.s 1)) = true ∧ field (2 : Word) 33 16 = 0 ∧ field (2 : Word) 50 2 < 2 ∧
      field (2 : Word) 52 12 < oneSlot.sysBlock 0 0x20 % 2 ^ 13 ∧ moduleOf (field (2 : Word) 0 33) = 0 ∧ field (2 : Word) 0 33 ≠ 0 ∧
      oneSlot.isService (field (2 : Word) 0 33) = false := by decide +kernel

theorem test_system_requests :
    nextHas (exec (.wake (.s 1)) (regs 5 0 0)) (fun t => t.me.run = .waiting (.table 5)) = true ∧
    nextHas (exec (.preempt (.s 1)) oneSlot) (fun t => t.me.run = .waiting .controller && (t.module 0).freezeQueue.length = 1) = true ∧
    nextHas (exec (.tlbinv (.s 2) (.s 1)) (regs 0x8000000000004000 5 0)) (fun t =>
      t.me.run = .waiting (.acks 0x8000000000004000 5 [0, 1, 2, 3, 4, 5, 6, 7])) = true ∧
    nextHas (exec (.gidget (.s 3)) (regs 0 0 0)) (fun t => t.me.run = .waiting (.reply 0)) = true ∧
    nextHas (exec (.gidput (.s 1)) (regs 9 0 0)) (fun t => t.me.run = .ready && t.reqs.length = 1) = true ∧
    nextHas (exec (.gidput (.s 1)) (regs 0 0 0)) (fun t => t.me.run = .ready && t.reqs = []) = true ∧
    nextHas (exec (.bar .core) (holding { (thread 0 0 0) with enroll := 1 })) (fun t => t.me.run = .waiting (.barArrive .core)) = true ∧
    trapsWith (.bar .core) (regs 0 0 0) 0x02 0x7C000001 = true := by decide +kernel

/-! Events of memory, ports, homes and barriers. -/

/-- A request of slot 0 of a core. -/
def sent (core : Nat) (op : HomeOp) (ga : Word) (awaited : Bool) (stage : Stage) : Req :=
  { core := core, slot := 0, asid := 0, op := op, ga := ga, awaited := awaited, bytes := if awaited then 0 else op.size, retired := false
    left := 2, gen := 0, answered := 0, requeued := false, target := none, stage := stage, combined := [] }

/-- The machine with a thread in slot 0 of core 0 and one request, number 0. -/
def withReq (t : Thread) (r : Req) : State := applyAll [.thread 0 t, .req 0 (some r)] State.reset

/-- A thread whose descriptors reach a base, waiting at an instruction. -/
def waits (base : Nat) (i : Instr) (w : Wait) : Thread :=
  { (thread 5 6 7) with seg := Vector.replicate 8 (wide base), run := .waiting w, parked := some (encode i) }

/-- A load that awaits its reply, which is 0x80 at core 1. -/
def replied : State := withReq (waits (2 ^ 30) (.ld (.s 3) 0 .b false 0) (.reply 0)) (sent 0 (.load 1) 0x40000000 true (.performed (.val 0x80)))

/-- A store to shared space, translated. -/
def accepted : State := withReq (waits (2 ^ 63) (.st (.s 1) 0 .w false 0) (.reply 0)) (sent 0 (.store 8 5) 0x8000000000000000 false .translated)

/-- An acknowledgement of 8 bytes that carries an error, to a thread that waits in a fence. -/
def acked : State :=
  withReq { (waits 0 (.fence .rel .core) .drain) with pendb := 8 }
    { (sent 0 (.store 8 5) 0x40000000 false (.performed (.trap 0x21 0x40000000))) with retired := true }

theorem witness_Replies :
    look replied.reqs 0 = some (sent 0 (.load 1) 0x40000000 true (.performed (.val 0x80))) ∧ (replied.core 0).status ≠ .saved ∧
      (replied.thread 0 0).run = .waiting (.reply 0) ∧ (replied.thread 0 0).parked = some (encode (.ld (.s 3) 0 .b false 0)) ∧
      (replied.thread 0 0).taken = [] ∧ windowAccepts (gaOff 0x40000000) 1 .load = true ∧
      (accepted.thread 0 0).run = .waiting (.reply 0) ∧ gaModule 0x8000000000000000 = moduleOf 0 ∧ isShared 0x8000000000000000 = true ∧
      (accepted.thread 0 0).parked = some (encode (.st (.s 1) 0 .w false 0)) ∧
      (acked.thread 0 0).pendb = 8 ∧ (acked.core 0).status ≠ .saved ∧
      (holding (waits 0 (.fence .rel .core) .drain)).me.run = .waiting .drain ∧
      (holding (waits 0 (.fence .rel .core) .drain)).me.pendb = 0 ∧ (holding (waits 0 (.fence .rel .core) .drain)).me.deferred = none := by
  decide +kernel

theorem witness_Replies_more :
    replied.wf = true ∧ accepted.wf = true ∧ acked.wf = true ∧
      replied.answerBehind (sent 0 (.load 1) 0x40000000 true (.performed (.val 0x80))) = false ∧
      (acked.thread 0 0).gen = 0 ∧ ((Op.thread 0 { acked.me with gen := 1 }).apply acked).me.gen ≠ 0 ∧
      (holding { (thread 0 0 0) with run := .waiting .drain }).me.parked = none ∧ (holding (waits 0 (.fence .rel .core) .drain)).copies = [] ∧
      nextHas (exec (.storeAck 0) ((Op.thread 0 { acked.me with gen := 1 }).apply acked)) (fun t => t.me.pendb = 8 && t.reqs = []) = true ∧
      nextHas (exec (.pendbDrainResume 0 0) (holding { (thread 0 0 0) with run := .waiting .drain })) (fun t => t.me.run = .ready && t.me.pc = 0x40) =
        true := by decide +kernel

/-- A message of core 0's selection unit, answered; and a reply to a thread reissued at cycle 0. -/
def engineAcked : State :=
  applyAll [.core 0 { Core.reset 0 with engines := vset (Core.reset 0).engines 3 { EngineUnit.reset with wait := .message 0 } }]
    (withReq (thread 0 0 0) { (sent 0 (.stsf 1) 0x80000000100 false (.performed .done)) with retired := true, engine := some .slu })
def repliedLate : State := (Op.thread 0 { (replied.thread 0 0) with nextIssue := 16 }).apply replied

theorem witness_Replies_engine :
    engineAcked.wf = true ∧ (engineAcked.engine 0 .slu).wait = .message 0 ∧ (engineAcked.core 0).status ≠ .saved ∧
      engineAcked.answerBehind { (sent 0 (.stsf 1) 0x80000000100 false (.performed .done)) with retired := true, engine := some .slu } = false ∧
      nextHas (exec (.storeAck 0) engineAcked) (fun t => (t.engine 0 .slu).reply = some .done && (t.engine 0 .slu).wait = .none && t.reqs = []) =
        true ∧
      nextHas (exec (.remoteReplyLands 0) repliedLate) (fun t => t.me.nextIssue = 16 && t.me.run = .ready) = true := by decide +kernel

theorem test_replies :
    nextHas (exec (.remoteReplyLands 0) replied) (fun t => t.me.s.get 3 = -128 && t.me.run = .ready && t.me.pc = 0x44 && t.reqs = []) = true ∧
    nextHas (exec (.storeAccepted 0) accepted) (fun t => t.me.pendb = 8 && t.me.run = .ready && t.me.pc = 0x44) = true ∧
    nextHas (exec (.storeAck 0) acked) (fun t => t.me.pendb = 0 && t.me.deferred = some (0x21, 0x40000000)) = true ∧
    nextHas (exec (.pendbDrainResume 0 0) (holding (waits 0 (.fence .rel .core) .drain))) (fun t => t.me.pc = 0x44 && t.me.run = .ready) = true ∧
    nextHas (exec (.feRetry 0) (withReq (waits 0 .waitrs (.reply 0)) (sent 0 .ldfe 0x40000000 true (.failed 0)))) (fun t =>
      t.me.run = .waiting (.reply 0) && (t.reqs.map fun y => (y.2.left, y.2.stage)) = [(1, .sent)]) = true ∧
    nextHas (exec (.heldRequestResend 0) (withReq (thread 0 0 0) (sent 0 .ldfe 0x40000000 true (.returned 0)))) (fun t =>
      (t.reqs.map fun y => y.2.stage) = [.sent]) = true := by decide +kernel

/-- A load by core 1 in the queue of core 0's message engine, whose words at 0x100 are those of `overWord`. -/
def incoming (starved : Nat) : State :=
  applyAll [.thread 0 Thread.reset, .req 0 (some (sent 1 (.load 2) 0x100 true .queued)),
    .core 0 { Core.reset 0 with mse := [.remote 0], starved := starved }] (overWord Thread.reset)

/-- The same from core 8192 for an address of core 0 or of its receiving core, in a machine of two modules, at its receiving core. -/
def foreign (ga : Word) : State :=
  let r := sent 8192 (.load 2) ga true .queued
  applyAll [.nmod 2, .req 0 (some r), .core (({ State.reset with nmod := 2 } : State).destination r)
    { Core.reset (({ State.reset with nmod := 2 } : State).destination r) with mse := [.remote 0] }] (overWord Thread.reset)

/-- An address of the receiving core itself. -/
def ownGa : Word := w64 ((foreign 0x100).destination (sent 8192 (.load 2) 0x100 true .queued) * 2 ^ 30 + 0x100)

/-- A woken thread in the queue of core 0's message engine. -/
def toReissue (t : Thread) : State :=
  applyAll [.thread 0 { t with woken := true }, .core 0 { Core.reset 0 with mse := [.reissue 0] }] State.reset

/-- A thread at PC 0x100 that waits for its first line. -/
def filling : State := overWord { (thread 0 0 0) with pc := 0x100, run := .waiting .fill }

theorem witness_MessageEngine :
    (incoming 0).positionReady 0 = true ∧ (incoming 0).position 0 = .mse false ∧ (incoming 64).position 0 = .mse true ∧
      ((incoming 0).core 0).mse = [.remote 0] ∧ look (incoming 0).reqs 0 = some (sent 1 (.load 2) 0x100 true .queued) ∧
      isShared 0x100 = false ∧ (incoming 0).placePoison (localTarget 0x100).place = false ∧ moduleOf 1 = moduleOf 0 ∧
      ([0x100, ownGa].all fun ga =>
        let s := foreign ga
        let L := s.destination (sent 8192 (.load 2) ga true .queued)
        moduleOf 8192 ≠ moduleOf L && gaModule ga ≠ moduleOf 8192 && s.positionReady L && s.position L = .mse false &&
          (s.core L).mse = [.remote 0] && !s.pairHeld 0 (sent 8192 (.load 2) ga true .queued) && (s.core (gaCore ga)).status = .active &&
          ((gaCore ga = L) = (ga = ownGa))) = true ∧
      (let s := toReissue (waits 0 (.engwait .slu) (.engineDone .slu))
       s.positionReady 0 = true ∧ s.position 0 = .mse false ∧ (s.core 0).mse = [.reissue 0] ∧ (s.thread 0 0).woken = true ∧
        (s.thread 0 0).parked = some (encode (.engwait .slu)) ∧ s.outstanding 0 0 .slu = 0) ∧
      ((toReissue { (waits 0 .waitrs .fill) with pendingTrap := some (0x10, 5) }).thread 0 0).pendingTrap = some (0x10, 5) ∧
      ((toReissue { (thread 0 0 0) with run := .waiting .fill }).thread 0 0).parked = none ∧
      (filling.thread 0 0).run = .waiting .fill ∧ (filling.thread 0 0).woken = false ∧ filling.isWaiter (.thread 0 0) = false ∧
      (filling.thread 0 0).again ≤ filling.ctl.now ∧ (filling.thread 0 0).spoiled = false ∧
      filling.fetch 0 (filling.thread 0 0) = .miss 0x100 ∧ isShared 0x100 = false ∧ filling.reachable (gaCore 0x100) = true := by decide +kernel

theorem test_message_engine :
    nextHas (exec (.mseRemoteOp 0) (incoming 0)) (fun t =>
      (t.reqs.map fun y => y.2.stage) = [.performed (.val 0x2281)] && (t.core 0).mse = [] && t.cycle 0 = 1) = true ∧
    nextHas (exec (.mseForcedPosition 0) (incoming 64)) (fun t => (t.reqs.map fun y => y.2.stage) = [.performed (.val 0x2281)]) = true ∧
    nextHas (exec (.activeMessage 0) (foreign ownGa)) (fun t => (t.reqs.map fun y => y.2.stage) = [.performed (.val 0)]) = true ∧
    nextHas (exec (.activeMessage 0) (foreign 0x100)) (fun t => (t.reqs.map fun y => y.2.stage) = [.forwarded]) = true ∧
    nextHas (exec (.mseReissue 0) (toReissue { (waits 0 .waitrs .fill) with pendingTrap := some (0x10, 5) })) (fun t =>
      t.me.trapcause = 0x10 && t.me.trapval = 5 && t.me.nextIssue = 16) = true ∧
    nextHas (exec (.icacheFill 0 0) filling) (fun t => t.me.run = .ready && t.fetch 0 t.me = .word 0x44332281) = true := by decide +kernel

/-- A port message to slot 0 of core 0's east port, due. -/
def portMsg (isCredit : Bool) : PortMsg :=
  { isCredit := isCredit, core := 0, slot := 0, port := .e, value := 42, fromCore := 1, fromSlot := 0, fromPhys := 1, due := 0 }

/-- It arrives at a thread. -/
def arriving (isCredit : Bool) (t : Thread) : State := applyAll [.thread 0 t, .port 0 (some (portMsg isCredit))] State.reset

theorem witness_PortEvents :
    look (arriving false (thread 0 0 0)).ports 0 = some (portMsg false) ∧ (portMsg false).due ≤ 0 ∧
      (arriving false (thread 0 0 0)).landsAt 0 0 = true ∧ (arriving false (thread 0 0 0)).portBehind 0 (portMsg false) = false ∧
      (thread 0 0 0).startable = false ∧ Thread.reset.startable = true ∧ (waits 0 .waitrs (.port .e false)).woken = false ∧
      expired (some (0, 5)) 6 = true ∧ expired (some (0, 5)) 5 = false ∧
      (arriving true (thread 0 0 0)).landsAt 0 0 = true ∧ (arriving true (thread 0 0 0)).portBehind 0 (portMsg true) = false := by decide +kernel

/-- A thread in a port wait of limit 5 that began at cycle 0, at cycle 6. -/
def portLate (c : Word) : State :=
  applyAll [.thread 0 { (waits 0 .waitrs (.port .e false)) with portWait := some (0, 5) }, .phys 0 { Phys.reset 0 0 with cycle := c }] State.reset

theorem witness_PortEvents_timeout :
    ((portLate 6).thread 0 0).run = .waiting (.port .e false) ∧ expired ((portLate 6).thread 0 0).portWait ((portLate 6).cycle 0) = true ∧
      ((portLate 6).core 0).status = .active ∧ ((portLate 6).physCore ((portLate 6).physOf 0)).gated = false ∧
      ((portLate 6).physCore ((portLate 6).physOf 0)).next ≤ (portLate 6).ctl.now ∧ (portLate 6).portDue 0 = false := by decide +kernel

theorem test_port_events :
    nextHas (exec (.portEntryArrives 0) (arriving false (thread 0 0 0))) (fun t => t.me.queues.get Port.e.index = [(42, 1, 0)]) = true ∧
    nextHas (exec (.portEntryArrives 0) (arriving false (waits 0 .waitrs (.port .e false)))) (fun t => (t.core 0).mse = [.reissue 0]) = true ∧
    nextHas (exec (.portEntryArrives 0) (arriving false Thread.reset)) (fun t => t.me = Thread.reset && t.ports.length = 1) = true ∧
    nextHas (exec (.portCreditReturn 0) (arriving true (thread 0 0 0))) (fun t => t.me.credits.get Port.e.index = 5) = true ∧
    nextHas (exec (.npTimeout 0 0) (portLate 6)) (fun t => t.me.pendingTrap = some (0x11, 25)) = true ∧
    nextHas (exec (.npTimeout 0 0) (portLate 5)) (fun t => t.me.pendingTrap = none) = true := by decide +kernel

/-- A thread that waits on the word 0x100 at home 0, since cycle 0 with limit 5, at cycle 6. -/
def wordLate (withdrawing : Bool) (h : Home) : State :=
  applyAll [.thread 0 { (waits 0 .waitrs (.word 0 0x100 .full)) with wordWait := some (0, 5), withdrawing := withdrawing },
    .phys 0 { Phys.reset 0 0 with cycle := 6 }, .home 0 h, .ctl { State.reset.ctl with now := 1024 }] State.reset

/-- The same on a word of core 1's local store. -/
def wordFar : State :=
  applyAll [.thread 0 { (waits 0 .waitrs (.word 1 0x40000100 .full)) with wordWait := some (0, 5) }, .phys 0 { Phys.reset 0 0 with cycle := 6 }] State.reset

/-- A monitor entry of that thread, and a ticket. -/
def entry0 : Monitor := { core := 0, slot := 0, ga := 0x100, word := 0x20, awaits := .full }
def ticketed : Home := { Home.reset with nextTicket := 1, tickets := [(0, 0, 0)] }
def turning : Home := { Home.reset with monitors := [entry0], nextTicket := 1, tickets := [(0, 0, 1)] }

theorem witness_WordWaits :
    (wordLate false ticketed).homeActive 0 = true ∧ ticketed.hasEntry = true ∧ ticketed.nowServing.toNat < ticketed.nextTicket.toNat ∧
      ticketed.tickets.find? (fun y => y.1 = ticketed.nowServing.toNat) = some (0, 0, 0) ∧
      ((wordLate false ticketed).thread 0 0).run = .waiting (.word 0 0x100 .full) ∧ ((wordLate false ticketed).thread 0 0).woken = false ∧
      turning.tickets ≠ [] ∧ turning.lastTurn + (wordLate false turning).homeCycles 0 1024 ≤ (wordLate false turning).ctl.now ∧
      (wordFar.thread 0 0).run = .waiting (.word 1 0x40000100 .full) ∧ expired (wordFar.thread 0 0).wordWait (wordFar.cycle 0) = true ∧
      expired ((wordLate false turning).thread 0 0).wordWait ((wordLate false turning).cycle 0) = true ∧
      ((wordLate true turning).thread 0 0).withdrawing = true ∧ (wordLate true turning).homeReached 0 = true ∧
      ((wordLate false turning).physCore ((wordLate false turning).physOf 0)).gated = false ∧
      ((wordLate false turning).physCore ((wordLate false turning).physOf 0)).next ≤ (wordLate false turning).ctl.now ∧
      (wordFar.physCore (wordFar.physOf 0)).next ≤ wordFar.ctl.now ∧ ((wordLate false turning).thread 0 0).ticket = none := by decide +kernel

theorem test_word_waits :
    nextHas (exec (.ticketServed 0) (wordLate false ticketed)) (fun t => (t.core 0).mse = [.reissue 0] && (t.home 0).kept = [0]) = true ∧
    nextHas (exec (.monitorTurnover 0) (wordLate false turning)) (fun t => (t.core 0).mse = [.reissue 0] && (t.home 0).monitors = []) = true ∧
    nextHas (exec (.waitlimExpiry 0 0) wordFar) (fun t => t.me.withdrawing && !t.me.woken) = true ∧
    nextHas (exec (.waitlimExpiry 0 0) (wordLate false turning)) (fun t => t.me.pendingTrap = some (0x10, 0x100) && (t.core 0).mse = [.reissue 0]) =
      true ∧
    nextHas (exec (.withdrawal 0 0) (wordLate true turning)) (fun t => t.me.pendingTrap = some (0x10, 0x100) && (t.home 0).monitors = []) = true := by
  decide +kernel

/-- A thread enrolled in its core's group, about to arrive. -/
def atBar (e : Int) : State :=
  applyAll [.thread 0 { (waits 0 (.bar .core) (.barArrive .core)) with enroll := 1 }, .group (groupKey .core 0) { e := e, a := 0, waiting := [], last := 5 }] State.reset

theorem witness_Barriers :
    bit (holding { (thread 0 0 0) with enroll := 1 }).me.enroll (Scope.core.code - 1) = true ∧
      bit (regs 0 0 0).me.enroll (Scope.system.code - 1) = false ∧ (holding { (thread 0 0 0) with enroll := 1 }).released .core = true ∧
      ((atBar 2).core 0).status = .active ∧ ((atBar 2).thread 0 0).run = .waiting (.barArrive .core) ∧
      (((atBar 2).group (groupKey .core ((atBar 2).groupOf .core 0))).a : Int) + 1 < ((atBar 2).group (groupKey .core 0)).e ∧
      ((atBar 1).group (groupKey .core 0)).e ≤ (((atBar 1).group (groupKey .core ((atBar 1).groupOf .core 0))).a : Int) + 1 ∧
      (waits 0 (.bar .core) (.barReleased .core)).run = .waiting (.barReleased .core) := by decide +kernel

/-- A pin that a restored slot has to fetch again. -/
theorem witness_Barriers_refetch :
    ({ (waits 0 (.bar .core) (.barReleased .core)) with inService := true, assigned := some assigned_ } : Thread).refetches = true ∧
      nextHas (exec (.barRelease 0 0) (holding { (waits 0 (.bar .core) (.barReleased .core)) with inService := true, assigned := some assigned_ }))
        (fun t => t.me.run = .waiting .footprint && t.me.pc = 0x44) = true := by decide +kernel

theorem test_barriers :
    nextHas (exec (.barArrival 0 0) (atBar 2)) (fun t => t.me.run = .waiting (.barWait .core) && (t.group (groupKey .core 0)).a = 1) = true ∧
    nextHas (exec (.barArrival 0 0) (atBar 1)) (fun t => t.me.run = .waiting (.barReleased .core) && (t.group (groupKey .core 0)).a = 0) = true ∧
    nextHas (exec (.barRelease 0 0) (holding (waits 0 (.bar .core) (.barReleased .core)))) (fun t => t.me.run = .ready && t.me.pc = 0x44) = true := by
  decide +kernel

/-! Events of launches and tasks. -/

/-- A launch of slots 0 and 1. -/
def launch3 : Launch :=
  { packet := thePacket, mask := 3, seg := Vector.replicate 8 (wide 0), asid := 0, trapvec := 0, enroll := 0, source := 0 }

/-- Its flood at scope `core`, in a machine whose slot 0 of core 0 runs. -/
def flooded : State :=
  applyAll [.thread 0 (thread 0 0 0), .flood 0 (some { scope := .core, launch := launch3, fromCore := 0, fromSlot := some 0, reached := [], modules := [0] })] State.reset

/-- A launch entry that holds slot 1. -/
def held1 : LaunchEntry := { order := 0, held := 2, running := 1, launch := launch3 }
def holds1 : State :=
  applyAll [.core 0 { Core.reset 0 with entries := vset (Core.reset 0).entries 5 (some held1) }, .phys 0 { Phys.reset 0 0 with cycle := 2 }] State.reset

theorem witness_LaunchEvents :
    look flooded.floods 0 = some { scope := .core, launch := launch3, fromCore := 0, fromSlot := some 0, reached := [], modules := [0] } ∧
      flooded.inScope .core 0 0 = true ∧ (∀ y ∈ flooded.floods, 0 ≤ y.1) ∧ flooded.reachable 0 = true ∧
      (flooded.core 0).freeEntry = some 0 ∧ launch3.mask ≠ 0 ∧ [0].contains (moduleOf 0) = true ∧
      bit launch3.mask 1 = true ∧ (flooded.thread 0 1).startable = true ∧ bit launch3.mask 2 = false ∧ (flooded.thread 0 0).startable = false ∧
      ((flooded.core 0).firstHeld 1).isNone = true ∧ (holds1.core 0).firstHeld 1 = some (5, held1) ∧ holds1.startDue 0 1 = true := by
  decide +kernel

theorem test_launch_events :
    nextHas (exec (.launchWake 0 0) flooded) (fun t => (t.thread 0 1).run = .ready && (t.thread 0 1).pc = 0x80 && (t.thread 0 1).s.get 3 = 1 && (t.thread 0 1).s.get 2 = 0x1F0000 &&
      (t.thread 0 1).nextIssue = 16 && ((t.core 0).entries.get 0).map (fun y => y.held) = some 1 && t.floods = []) = true ∧
    nextHas (exec (.heldStart 0 1) holds1) (fun t => (t.thread 0 1).run = .ready && (t.thread 0 1).nextIssue = 17 &&
      ((t.core 0).entries.get 5).map (fun y => y.held) = some 0) =
      true := by decide +kernel

/-- A `taskpop` wait of limit 5 since cycle 0, at cycle 6. -/
def popLate : State :=
  applyAll [.thread 0 { (waits 0 (.taskpop (.s 3)) .taskpop) with wordWait := some (0, 5) }, .phys 0 { Phys.reset 0 0 with cycle := 6 },
    .core 0 { Core.reset 0 with poppers := [0] }] State.reset

/-- A thread whose packet's footprint, 8 bytes at 0x100 of core 1 for offset 0x300, is to be fetched. -/
def farPacket : Packet := toBytes 8 (2 + 2 ^ 10) ++ toBytes 8 0x80 ++ toBytes 8 0x40000100 ++ toBytes 8 (0x300 * 2 ^ 32 + 8)
def fetching : State :=
  applyAll [.thread 0 { (waits 0 (.taskpop (.s 3)) .footprint) with assigned := some farPacket }, .poke (lsKey 1 0x100) 9] State.reset

/-- A pending packet with a WAIT at 0x200 of core 0, for which a task message or a decrement of slot 0 is on its way. -/
def waiting (n : Nat) (c : Core) : State := (Op.core 0 c).apply (withWords (thread 0 0 0) [(0x200, w64 (2 + n * 2 ^ 32)), (0x208, 0x80)])
def splitting : Split := { lower := [], upper := [], urgent := false, target := .pop 0, left := [7, 8] }
def incremented : State := (Op.task 7 (some (.increment 0x200 0))).apply (waiting 2 { Core.reset 0 with split := some splitting })
def decrement : Req := { (sent 0 .decrement 0x200 false .sent) with retired := true }
def decremented (n : Nat) (c : Core) : State := (Op.req 7 (some decrement)).apply (waiting n c)

/-- A core whose normal deque is full. -/
def fullCore : Core := { Core.reset 0 with normal := { top := 0, count := 160 } }

/-- A handler packet in trigger entry 3 of core 0, whose binding at home 0 has fired. -/
def firing3 : TaskMsg := .firing 0 3 0x100 5 0
def fired : State :=
  applyAll [.task 7 (some firing3), .core 0 { Core.reset 0 with triggers := 8 }] (withWords (thread 0 0 0) [(0x1FF300, 0x202), (0x1FF308, 0x80)])

/-- A held packet, and one whose decrement waits for room. -/
def heldTask : HeldTask := { order := 3, packet := thePacket, trigger := none, owner := none }
def holdsTask : State := (Op.core 0 { Core.reset 0 with heldTasks := [heldTask] }).apply State.reset
def holdsOwned : State :=
  applyAll [.core 0 { Core.reset 0 with heldTasks := [{ heldTask with owner := some 7 }] }, .req 7 (some { decrement with stage := .room })] State.reset

theorem witness_TaskEvents :
    popLate.wf = true ∧ (popLate.thread 0 0).run = .waiting .taskpop ∧ (popLate.thread 0 0).assigned = none ∧ (popLate.thread 0 0).popEnded = none ∧
      expired (popLate.thread 0 0).wordWait (popLate.cycle 0) = true ∧ (popLate.core 0).status = .active ∧
      (popLate.physCore (popLate.physOf 0)).gated = false ∧ (popLate.physCore (popLate.physOf 0)).next ≤ popLate.ctl.now ∧
      (popLate.core 0).steal = .off ∧ ∀ j, j ≠ 0 → (popLate.thread 0 j).pops = false := by decide +kernel

theorem witness_TaskEvents_footprint :
    fetching.wf = true ∧ (fetching.thread 0 0).assigned = some farPacket ∧ fetching.pinned 0 0 (Packet.range farPacket) = false ∧
      8 * 0 < (Packet.range farPacket).2 ∧ w64 (Packet.word farPacket (fpOffset (Packet.word farPacket 0))) = 0x40000100 ∧
      (fetching.thread 0 0).again ≤ fetching.ctl.now ∧ (fetching.thread 0 0).spoiled = false ∧
      isShared 0x40000100 = false ∧ fetching.exists_ 0x40000100 = true ∧ fetching.reachable (gaCore 0x40000100) = true ∧
      windowAccepts (gaOff 0x40000100) 8 .load = true := by decide +kernel

theorem witness_TaskEvents_successors :
    (let s := incremented
     s.wf = true ∧ s.handleOk 0x200 = true ∧ s.reachable (gaCore 0x200) = true ∧ s.taskBehind 7 (.increment 0x200 0) = false ∧
      s.legBehind 7 (s.legOfTask (.increment 0x200 0)) = false ∧ gaModule 0x200 = moduleOf 0 ∧ splitting.left.erase 7 ≠ []) ∧
    ([decremented 2 (Core.reset 0), decremented 1 (Core.reset 0), decremented 1 fullCore, decremented 0 (Core.reset 0)].all fun s =>
      look s.reqs 7 = some decrement && !decrement.foreign && !s.legBehind (decrement.order 7) (s.leg decrement) && s.handleOk 0x200 &&
        s.reachable 0 && (s.core 0).split.isNone && s.wf) = true ∧
    ([2, 1, 0].all fun n => hdrWait (ofBytes ((waiting n (Core.reset 0)).lsBytes 0 0x200 8)) = n) = true ∧
    ((decremented 1 (Core.reset 0)).packetAt 0 0x200).valid .release = true ∧
    (decremented 1 (Core.reset 0)).hasRoom 0 false = true ∧ (decremented 1 fullCore).hasRoom 0 false = false ∧
    (((Op.poke 0x201 7).apply (decremented 1 (Core.reset 0))).packetAt 0 0x200).valid .release = false := by decide +kernel

theorem witness_TaskEvents_placed :
    fired.wf = true ∧ fired.taskBehind 7 firing3 = false ∧ fired.reachable 0 = true ∧ fired.hasRoom 0 false = true ∧
      hdrUrgent (Packet.word (fired.packetAt 0 (triggerOff 3)) 0) = false ∧
      (holdsTask.core 0).heldTasks.find? (fun y => !holdsTask.dequeFull 0 (hdrUrgent (Packet.word y.packet 0))) = some heldTask ∧
      holdsTask.reachable 0 = true ∧ (holdsOwned.core 0).heldTasks.map (fun y => y.owner) = [some 7] := by decide +kernel

theorem test_task_events :
    nextHas (exec (.taskpopTimeout 0 0) popLate) (fun t => t.me.popEnded = some 6 && (t.core 0).mse = [.reissue 0]) = true ∧
    nextHas (exec (.taskpopTimeout 0 0) ((Op.core 0 { popLate.core 0 with steal := .paused 9 }).apply popLate)) (fun t => (t.core 0).steal = .off) =
      true ∧
    nextHas (exec (.footprintFetch 0 0) fetching) (fun t => t.me.fetched = 1 && ofBytes (t.lsBytes 0 0x300 8) = 9 && t.me.pin = some (0x300, 8)) =
      true ∧
    nextHas (exec (.splitIncrement 7) incremented) (fun t => ofBytes (t.lsBytes 0 0x200 8) = 0x300000002) = true ∧
    nextHas (exec (.triggerFiring 7) fired) (fun t => (t.core 0).triggers = 0 && (t.core 0).normal.count = 1 &&
      ofBytes (t.lsBytes 0 0x1F2010 8) = 0x100 && ofBytes (t.lsBytes 0 0x1F2018 8) = 5) = true ∧
    nextHas (exec (.heldTaskPlacement 0) holdsTask) (fun t => (t.core 0).heldTasks = [] && (t.core 0).normal.count = 1) = true ∧
    nextHas (exec (.heldTaskPlacement 0) holdsOwned) (fun t => (t.reqs.map fun y => y.2.stage) = [.performed .done]) = true := by decide +kernel

theorem test_decrements :
    nextHas (exec (.successorDecrement 7) (decremented 2 (Core.reset 0))) (fun t =>
      ofBytes (t.lsBytes 0 0x200 8) = 0x100000002 && (t.reqs.map fun y => y.2.stage) = [.performed .done] && (t.core 0).normal.count = 0) = true ∧
    nextHas (exec (.successorDecrement 7) (decremented 1 (Core.reset 0))) (fun t =>
      (t.core 0).normal.count = 1 && t.packetAt 0 0x1F2000 = thePacket && (t.reqs.map fun y => y.2.stage) = [.performed .done]) = true ∧
    nextHas (exec (.successorDecrement 7) (decremented 1 fullCore)) (fun t =>
      (t.core 0).heldTasks.length = 1 && (t.reqs.map fun y => y.2.stage) = [.room]) = true ∧
    nextHas (exec (.successorDecrement 7) (decremented 0 (Core.reset 0))) (fun t =>
      (t.reqs.map fun y => y.2.stage) = [.performed .done] &&
        ((t.module 0).halyard.events.map fun e => (e.code, e.d0, e.d1)) = [(2, 0x200, 2)]) = true := by decide +kernel

/-- Core 0 in a state of stealing; its slot 0 waits for a packet, or not. -/
def stealing (x : Steal) (popping : Bool) : State :=
  let t := if popping then waits 0 (.taskpop (.s 3)) .taskpop else Thread.reset
  applyAll [.thread 0 t, .core 0 { Core.reset 0 with steal := x, poppers := if popping then [0] else [] }] State.reset

/-- Core 1 with a packet that does not split, asked by core 0. -/
def victim : State :=
  applyAll [.core 0 { Core.reset 0 with steal := .asking 0 0 0 1 }, .core 1 { Core.reset 1 with normal := { top := 0, count := 1 } },
    .poke (lsKey 1 0x1F2000) 2, .poke (lsKey 1 0x1F2008) 0x80] State.reset

theorem witness_Stealing :
    ((stealing .off true).core 0).steal = .off ∧ (stealing .off true).steals 0 = true ∧
      ((stealing (.asking 0 0 0 1) true).core 1).normal.count = 0 ∧ ((victim.core 1).status = .active) ∧ (victim.core 1).normal.count ≠ 0 ∧
      (victim.core 1).split = none ∧ Packet.splits (victim.packetAt 1 (dequeOff false (victim.core 1).normal 0)) = false ∧
      (stealing (.answered 0 0 0 (some thePacket)) false).hasRoom 0 (hdrUrgent (Packet.word thePacket 0)) = true ∧
      (stealing (.answered 0 0 0 none) true).steals 0 = true ∧ (stealing (.paused 0) true).steals 0 = true ∧
      (stealing (.paused 0) false).steals 0 = false := by decide +kernel

/-- Core 1 with a packet that splits, KIND 1, the range [0, 8) with unit 4 and no successors, asked by core 0. -/
def splitVictim : State :=
  applyAll [.core 0 { Core.reset 0 with steal := .asking 0 0 0 1 }, .core 1 { Core.reset 1 with normal := { top := 0, count := 1 } },
    .poke (lsKey 1 0x1F2000) 0x05, .poke (lsKey 1 0x1F2001) 1, .poke (lsKey 1 0x1F2008) 0x80, .poke (lsKey 1 0x1F2018) 8, .poke (lsKey 1 0x1F2020) 4] State.reset

theorem witness_Stealing_split :
    let p : Packet := splitVictim.packetAt 1 (dequeOff false (splitVictim.core 1).normal 0)
    p.splits = true ∧ hdrNsucc (p.word 0) = 0 ∧ (splitVictim.physCore (splitVictim.physOf 1)).gated = false ∧
      (splitVictim.core 1).heldTasks = [] ∧ (splitVictim.core 1).poppers = [] ∧
        ((splitVictim.core 1).split.any fun y => y.target = .steal 0) = false ∧
      nextHas (exec (.stealRequest 0) splitVictim) (fun t =>
        (t.core 0).steal = .answered 0 0 0 (some p.halves.2) && (t.core 1).normal.count = 1 &&
          (t.packetAt 1 0x1F2000).word 24 = 4 && p.halves.2.word 16 = 4) = true := by decide +kernel

theorem test_stealing :
    nextHas (exec (.stealStart 0) (stealing .off true)) (fun t =>
      match (t.core 0).steal with | .asking 0 0 _ v => v < 16 && v ≠ 0 | _ => false) = true ∧
    nextHas (exec (.stealRequest 0) (stealing (.asking 0 0 0 1) true)) (fun t => (t.core 0).steal = .answered 0 0 0 none) = true ∧
    nextHas (exec (.stealRequest 0) victim) (fun t => (t.core 0).steal = .answered 0 0 0 (some thePacket) && (t.core 1).normal.count = 0) = true ∧
    nextHas (exec (.stealReply 0) (stealing (.answered 0 0 0 (some thePacket)) false)) (fun t => (t.core 0).normal.count = 1) = true ∧
    nextHas (exec (.stealPauseEnd 0) (stealing (.paused 0) false)) (fun t => (t.core 0).steal = .off) = true := by decide +kernel

/-! Events of slices, fault tables and engines. -/

/-- The slice target of a physical address of module 0, with its line present. -/
def tg0 (a : Nat) : Target := paTarget 0 a
def present (a : Nat) : Op := .slice (tg0 a).home { Slice.reset with lines := [{ num := lineOf a, dirty := false, pinned := false, rep := false }] }

/-- A translated request at that address, with the word there empty or full. -/
def atSlice (op : HomeOp) (awaited full : Bool) : State :=
  applyAll [.req 0 (some { (sent 0 op 0x8000000000100000 awaited .translated) with target := some (tg0 0x100000), retired := !awaited }),
    present 0x100000, .net 0 (Net.reset.set 7 ((tg0 0x100000).home % 128) [0]), .fe (paKey 0 0x100000 / 8) full, .poke (paKey 0 0x100000) 9] State.reset

/-- What the hypotheses of a request at a slice ask. -/
def sliceOk (s : State) : Bool :=
  match look s.reqs 0 with
  | some r => r.stage = .translated && s.atSlice (tg0 0x100000).home = some 0 && r.combined.isEmpty && 2 ^ 40 ≤ (tg0 0x100000).home &&
      ((s.slice (tg0 0x100000).home).find (lineOf 0x100000)).isSome && (s.slice (tg0 0x100000).home).used < 64 &&
        !s.placePoison (.pa 0 0x100000) && s.mem.wf && !s.failedPa 0 0x100000
  | none => false

theorem witness_SliceRequests :
    ([(atSlice .ldff true true), (atSlice .ldfe true false), (atSlice (.stef 5) true true), (atSlice (.bind 0 3) true false),
      (atSlice .unbind false true)].all sliceOk) = true ∧
      (tg0 0x100000).place = .pa 0 0x100000 ∧ (tg0 0x100000).sum = none ∧
      (atSlice .ldff true true).placeFull (tg0 0x100000).place = true ∧ (atSlice .ldfe true false).placeFull (tg0 0x100000).place = false ∧
      ((atSlice (.bind 0 3) true false).home (tg0 0x100000).home).bindings = [] := by decide +kernel

/-- `State.canPerform` as a check. -/
def performable (s : State) (tg : Target) (op : HomeOp) : Bool :=
  let clean := !s.placePoison tg.place
  !s.failedPlace tg.place && match op with
  | .load _ | .lr | .sc _ | .cas _ _ => clean
  | .store n _ => n ≤ 8
  | .ldfe | .ldff => clean && s.placeFull tg.place
  | .stef _ => !s.placeFull tg.place
  | .stsf _ | .fempty | .fstate => true
  | .amo fn _ => clean && fn ≤ 9
  | _ => false

theorem canPerform_of {s : State} {tg : Target} {op : HomeOp} (h : performable s tg op = true) : s.canPerform tg op := by
  unfold performable at h
  unfold State.canPerform
  cases op <;> simp at h <;> simpa using h

/-- Every operation of a home, with the state of the word that it needs. -/
def homeOps : List (HomeOp × Bool) :=
  [(.load 8, true), (.store 8 5, true), (.ldfe, true), (.ldff, true), (.stef 5, false), (.stsf 5, true), (.fempty, true), (.fstate, false),
    (.lr, true), (.sc 5, true), (.cas 9 5, true), (.amo 0 5, true), (.amo 8 5, true), (.amo 9 5, true)]

/-- The same operation by core 1 in the queue of core 0's message engine, for the word 0x100 there. -/
def atBank (op : HomeOp) (full : Bool) : State :=
  applyAll [.req 0 (some (sent 1 op 0x100 true .queued)), .core 0 { Core.reset 0 with mse := [.remote 0] }, .fe 0x20 full, .poke 0x100 9] State.reset

theorem witness_SliceRequests_ops :
    (homeOps.all fun (op, full) => sliceOk (atSlice op true full) && performable (atSlice op true full) (tg0 0x100000) op) = true ∧
    (homeOps.all fun (op, full) =>
      let s := atBank op full
      s.wf && s.positionReady 0 && s.position 0 = .mse false && (s.core 0).mse = [.remote 0] && look s.reqs 0 = some (sent 1 op 0x100 true .queued) &&
        gaOff 0x100 + op.size ≤ 0x1F2000 && performable s (localTarget 0x100) op) = true ∧
    performable (atBank .ldfe false) (localTarget 0x100) .ldfe = false ∧ performable (atBank (.stef 5) true) (localTarget 0x100) (.stef 5) = false := by
  decide +kernel

/-- The answer of request 0. -/
def answerOf (t : State) : Option Token :=
  match (look t.reqs 0).map Req.stage with
  | some (.replying x) => some x
  | some (.performed x) => some x
  | _ => none

/-- What an operation answers and leaves in its word, at a slice and at another core's bank. -/
def atHomes (op : HomeOp) (full : Bool) (x : Token) (v : Nat) (after : Bool) : Bool :=
  nextHas (exec (if op.isAttempt then .homeAttempt 0 else .sliceRequest 0) (atSlice op true full)) (fun t =>
    answerOf t = some x && t.readPlace (.pa 0 0x100000) 8 = v && t.placeFull (.pa 0 0x100000) = after) &&
  nextHas (exec (.mseRemoteOp 0) (atBank op full)) (fun t =>
    answerOf t = some x && t.readPlace (.win 0 0x100) 8 = v && t.placeFull (.win 0 0x100) = after)

theorem test_home_effects :
    atHomes (.load 8) true (.val 9) 9 true = true ∧ atHomes (.store 8 5) true .done 5 true = true ∧ atHomes .ldfe true (.val 9) 9 false = true ∧
    atHomes .ldff true (.val 9) 9 true = true ∧ atHomes (.stef 5) false .done 5 true = true ∧ atHomes (.stsf 5) true .done 5 true = true ∧
    atHomes .fempty true .done 9 false = true ∧ atHomes .fstate false (.val 0) 9 false = true ∧ atHomes .lr true (.val 9) 9 true = true ∧
    atHomes (.sc 5) true (.val 0) 9 true = true ∧ atHomes (.cas 9 5) true (.val 9) 5 true = true ∧ atHomes (.cas 8 5) true (.val 9) 9 true = true ∧
    atHomes (.amo 0 5) true (.val 9) 14 true = true ∧ atHomes (.amo 8 5) true (.val 9) 5 true = true := by decide +kernel

theorem test_slice_requests :
    nextHas (exec (.homeAttempt 0) (atSlice .ldfe true false)) (fun t => (t.reqs.map fun y => y.2.stage) = [.failed 16]) = true ∧
    nextHas (exec (.mseRemoteOp 0) (atBank (.stef 5) true)) (fun t => (t.reqs.map fun y => y.2.stage) = [.failed 16]) = true ∧
    nextHas (exec (.triggerBind 0) (atSlice (.bind 0 3) true false)) (fun t => (t.home (tg0 0x100000).home).bindings.length = 1) = true ∧
    nextHas (exec (.triggerUnbind 0) (atSlice .unbind false true)) (fun t => answerOf t = some .done) = true := by
  decide +kernel

/-- A search of the identifier pool, or a release in it, at a line of the pool whose bytes before a byte are all ones. -/
def atPool (op : HomeOp) (a : Nat) (ones : Nat) : State :=
  { applyAll [.req 0 (some { (sent 0 op 0 true .translated) with target := some (tg0 a) }), present a,
      .net (dieOfSlice (tg0 a).home) (Net.reset.set 7 ((tg0 a).home % 128) [0])] State.reset with
    mem := { State.reset.mem with cells := (List.range ones).map fun i => (paKey 0 (a / 128 * 128 + i), 0xFF) } }

theorem witness_SliceRequests_pool :
    ([(atPool .gidget 0x82100 1, 0x82100), (atPool .gidget 0x82200 128, 0x82200), (atPool .gidget 0x82280 128, 0x82280),
      (atPool (.gidput 4095) 0x822FF 128, 0x822FF), (atPool (.gidput 4095) 0x822FF 127, 0x822FF)].all fun (s, a) =>
        s.wf && s.atSlice (tg0 a).home = some 0 && 2 ^ 40 ≤ (tg0 a).home && (tg0 a).place = .pa 0 a &&
          ((s.slice (tg0 a).home).find (lineOf a)).isSome && (s.slice (tg0 a).home).used < 64) = true ∧
    ((List.range 8).all fun g => bit ((atPool .gidget 0x82100 1).paByte 0 (0x82100 + g / 8)) (g % 8)) = true ∧
    bit ((atPool .gidget 0x82100 1).paByte 0 0x82101) 0 = false ∧
    ((List.range 128).all fun i => (atPool .gidget 0x82280 128).paByte 0 (0x82280 + i) = 0xFF) = true ∧
    bit ((atPool (.gidput 4095) 0x822FF 128).paByte 0 0x822FF) 7 = true ∧ bit ((atPool (.gidput 4095) 0x822FF 127).paByte 0 0x822FF) 7 = false := by
  decide +kernel

theorem test_pool :
    nextHas (exec (.sliceRequest 0) (atPool .gidget 0x82100 1)) (fun t => answerOf t = some (.val 8) && t.paByte 0 0x82101 = 1) = true ∧
    nextHas (exec (.sliceRequest 0) (atPool .gidget 0x82200 128)) (fun t =>
      (t.reqs.map fun y => (y.2.stage, y.2.target)) = [(.translated, some (tg0 0x82280))]) = true ∧
    nextHas (exec (.sliceRequest 0) (atPool .gidget 0x82280 128)) (fun t => answerOf t = some (.val 0)) = true ∧
    nextHas (exec (.sliceRequest 0) (atPool (.gidput 4095) 0x822FF 128)) (fun t => answerOf t = some .done && t.paByte 0 0x822FF = 0x7F) = true ∧
    nextHas (exec (.sliceRequest 0) (atPool (.gidput 4095) 0x822FF 127)) (fun t => answerOf t = some .done && t.paByte 0 0x822FF = 0) = true := by
  decide +kernel

/-- A leaf of 16 KB at physical address 0x100000 with R and W, in the buffer of core 0's cluster, and a load of its page. -/
def leaf0 : TlbEntry := { asid := 0, page := 0, leaf := { pfn := 64, pageBits := 14, attrs := 0xF, entry := 0, regions := [], poisonAt := none } }
def translated : State :=
  applyAll [.module 0 { Module.reset with clusterTlbs := [(0, [leaf0])] }, .req 0 (some (sent 0 (.load 8) 0x8000000000000008 true .sent))] State.reset

/-- Two loads, or two adds of 1 and of 2, of cores 128 and 1024 to one word, at the two inputs of switch 8 of the first stage. -/
def pairOf (x y : HomeOp) : State :=
  applyAll [.req 0 (some { (sent 128 x 0x8000000000100000 true .translated) with target := some (tg0 0x100000) }),
    .req 1 (some { (sent 1024 y 0x8000000000100000 true .translated) with target := some (tg0 0x100000) }),
    .net 0 ((Net.reset.set 0 8 [0]).set 0 72 [1])] State.reset

/-- A miss whose one waiter is request 0, and a write-back to send. -/
def missing : State :=
  let r := { (sent 0 (.load 8) 0x8000000000100000 true (.missing (.val 9))) with target := some (tg0 0x100000) }
  applyAll [.req 0 (some r), .slice (tg0 0x100000).home { Slice.reset with
    misses := [{ line := lineOf 0x100000, way := .free, pin := false, nt := false, dirty := true, rep := false, byCp := false, waiters := [0] }]
    writebacks := [5] }] State.reset

/-- A write-back on its way to the bulk tier. -/
def sendingBack : State := (Op.slice (tg0 0x100000).home { Slice.reset with sending := [5] }).apply State.reset

/-- A copy of a REP store that comes next out of die 3's network. -/
def copying : State :=
  applyAll [.ctl { State.reset.ctl with now := 14 }, .net 3 (Net.reset.set 7 ((replicaTarget 0 3 0x100000).home % 128) [0]),
    .copy 0 (some {
      module := 0, die := 3, addr := 0x100000, value := 0xABCD0000, poison := false, full := true, stamp := (7, 0), core := 0, slot := 0
      gen := 0, engine := none })] State.reset

/-- The answer 9 of a request that took the operand 5 of a second one at switch 0 of stage 1 of die 0. -/
def splitBack (op : HomeOp) : State :=
  applyAll [.req 0 (some { (sent 0 op 0x8000000000100000 true (.replying (.val 9))) with
      target := some (tg0 0x100000), combined := [(1, 5, switchKey 0 1 0)] }),
    .req 1 (some { (sent 1 op 0x8000000000100000 true .merged) with target := some (tg0 0x100000) }), .net 0 (Net.reset.setBack 2 1 [0])] State.reset

theorem witness_SliceEvents :
    let load := sent 0 (.load 8) 0x8000000000000008 true .sent
    let pair := fun (_, _, _, a, b) => decide (a = 0) && decide (b = 1)
    let m : Miss := { line := lineOf 0x100000, way := .free, pin := false, nt := false, dirty := true, rep := false, byCp := false, waiters := [0] }
    translated.wf = true ∧ look translated.reqs 0 = some load ∧ load.ownShared = true ∧ translated.translationBehind 0 load = false ∧
      ((resolveShared (some (translated.clusterAt 0)) (translated.dieAt 0) load.asid load.ga load.op.need load.op.sync load.op.writes).run
        (Run.start translated)).1 = .target { place := .pa 0 0x100008, home := (tg0 0x100000).home, pin := some false, sum := none } ∧
      (pairOf (.load 8) (.load 8)).pairs.find? pair = some (0, 0, 8, 0, 1) ∧
      (pairOf (.amo 5 1) (.amo 5 2)).pairs.find? pair = some (0, 0, 8, 0, 1) ∧ (pairOf (.load 8) (.load 8)).wf = true ∧
      ((missing.slice (tg0 0x100000).home).misses.find? fun m => m.line = lineOf 0x100000) = some m ∧ missing.wf = true ∧
      (missing.slice (tg0 0x100000).home).writebacks = [5] ∧ (missing.slice (tg0 0x100000).home).used < 64 ∧
      (sendingBack.slice (tg0 0x100000).home).writebacks = [] ∧ sendingBack.wf = true ∧
      (∀ y ∈ copying.copies, 0 ≤ y.1) ∧ 7 ≤ copying.sliceCycle ∧ (copying.repWord 0 3 0x100000).stamp = (0, 0) ∧ copying.wf = true ∧
      copying.atSlice (replicaTarget 0 3 0x100000).home = some 0 ∧ copying.failedPa 0 0x100000 = false ∧
      (copying.slice (replicaTarget 0 3 0x100000).home).used < 64 := by
  and_intros <;> decide +kernel

theorem witness_SliceEvents_split :
    ([(splitBack (.load 8)), (splitBack (.amo 0 3))].all fun s =>
      s.wf && (s.net 0).back 2 1 = [0] && ((s.net 0).back 1 0).length < 8 && ((s.net 0).back 1 64).length < 8) = true := by decide +kernel

theorem test_slice_events :
    nextHas (exec (.translationWalk 0) translated) (fun t => (t.reqs.map fun y => y.2.stage) = [.translated] && (t.net 0).at_ 0 0 = [0]) = true ∧
    nextHas (exec (.shroudCombine 0 1) (pairOf (.amo 0 1) (.amo 0 2))) (fun t =>
      (t.reqs.map fun y => (y.2.op, y.2.stage)) = [(.amo 0 3, .translated), (.amo 0 2, .merged)] && (t.net 0).at_ 0 72 = []) = true ∧
    nextHas (exec (.missFill (tg0 0x100000).home (lineOf 0x100000)) missing) (fun t => (t.reqs.map fun y => y.2.stage) = [.replying (.val 9)]) =
      true ∧
    ((afterAct (splitBack (.amo 0 3)) (do let _ ← passBack 0 1 1 [])).reqs.map fun y => y.2.stage) = [.replying (.val 9), .replying (.val 14)] ∧
    nextHas (exec (.writeback (tg0 0x100000).home) missing) (fun t =>
      (t.slice (tg0 0x100000).home).writebacks = [] && (t.slice (tg0 0x100000).home).sending = [5]) = true ∧
    nextHas (exec (.writeback (tg0 0x100000).home) sendingBack) (fun t => (t.slice (tg0 0x100000).home).sending = []) = true ∧
    nextHas (exec (.repReplicaCopy 0) copying) (fun t => t.copies = [] && (t.repWord 0 3 0x100000).value = 0xABCD0000 &&
      (t.repWord 0 2 0x100000).value = 0) =
      true := by decide +kernel

/-- A failed walk of a page at die 0, for a thread. -/
def pending0 : PendingFault :=
  { die := 0, kind := 0, asid := 5, fault := { cause := 0x02, level := 1, epa := 0x40, ga := 0x8000000000004000 }, core := 0, slot := 0
    waiter := .thread 0 0 }

/-- An open entry of that page, with another waiter. -/
def openEntry : FaultEntry := { isOpen := true, gen := 7, asid := 5, page := 1, ga := 0x8000000000004000, waiters := [.thread 1 0] }

/-- It fails while the die holds some entries and records to write. -/
def faulting (es : Map FaultEntry) : State :=
  applyAll [.fault 0 (some pending0), .module 0 { Module.reset with dies := [(0, { Die.reset with faults := es })] }] State.reset

/-- Die 0 has a record to write; the ring of 64 records at 0x200000 has its first record's word empty, or full; the queue is on. -/
def recording (index : Option Nat) (full : Bool) : State :=
  applyAll [.module 0 { Module.reset with dies := [(0, { Die.reset with records := [{ words := [1, 2, 3, 4], index := index, retryAt := 0 }] })] },
    .poke (paKey 0 0x82002) 0x20, .poke (paKey 0 0x82008) 0x26, present 0x82010, present 0x200000, .fe (paKey 0 0x200000 / 8) full] State.reset

/-- The thread in slot 0 of core 0 releases the entry of core 1's thread, or another generation. -/
def releasing (h : Word) : State :=
  applyAll [.thread 0 { (waits 0 (.wake (.s 1)) (.table h)) with s := vset Thread.reset.s 1 h },
    .thread 16 { (waits 0 (.ld (.s 3) 0 .w false 0) (.fault 0)) with a := Thread.reset.a },
    .module 0 { Module.reset with dies := [(0, { Die.reset with faults := [(4, openEntry)] })] }] State.reset

/-- A `tlbinv` that awaits every die, one of which holds its translation. -/
def dropping : State :=
  applyAll [.thread 0 (waits 0 (.tlbinv (.s 2) (.s 1)) (.acks 0x8000000000000000 0 [0, 1])),
    .module 0 { Module.reset with dies := [(0, { Die.reset with tlb := [leaf0] }), (1, { Die.reset with tlb := [leaf0] })] }] State.reset

theorem witness_FaultTables :
    (faulting [(4, openEntry)]).wf = true ∧ pending0.die = 0 * 8 + 0 ∧ ([(4, openEntry)].find? fun e => e.2.keyed pending0) = some (4, openEntry) ∧
      ((([] : Map FaultEntry).find? fun e => e.2.keyed pending0) = none) ∧ Die.reset.freeEntries ≠ [] ∧
      (recording none false).faultQueueOn 0 = true ∧ (recording none false).recordAt 0 0 = 0x200000 ∧
      (recording none false).placeFull (.pa 0 0x200000) = false ∧ (recording none true).placeFull (.pa 0 0x200000) = true ∧
      (((recording none false).slice (paTarget 0 0x82010).home).find (lineOf 0x82010)).isSome = true ∧
      (((recording none false).slice (paTarget 0 0x200000).home).find (lineOf 0x200000)).isSome = true ∧ (recording none false).sysBlock 0 0x10 = 0 ∧
      ((releasing 0x400007).thread 0 0).run = .waiting (.table 0x400007) ∧ field (0x400007 : Word) 20 9 = 4 ∧ field (0x400007 : Word) 29 3 = 0 ∧
      openEntry.gen.toNat = field (0x400007 : Word) 0 20 ∧ bit (0x400007 : Word) 32 = false ∧
      ((releasing 0x400007).thread 1 0).run = .waiting (.fault 0) ∧ openEntry.gen.toNat ≠ field (0x400008 : Word) 0 20 ∧
      (releasing 0x400007).wf = true ∧ ((releasing 0x400007).thread 0 0).mode = true ∧
      (dropping.thread 0 0).run = .waiting (.acks 0x8000000000000000 0 [0, 1]) ∧ (∀ e ∈ [0, 1], dropping.translating 0 e 0 = false) := by
  decide +kernel

theorem test_fault_tables :
    nextHas (exec (.faultEntryOpen 0) (faulting [(4, openEntry)])) (fun t =>
      (((t.module 0).die 0).faults.map fun y => y.2.waiters) = [[.thread 1 0, .thread 0 0]]) = true ∧
    nextHas (exec (.faultRecordWrite 0) (recording none false)) (fun t =>
      t.readPlace (.pa 0 0x200008) 8 = 2 && t.placeFull (.pa 0 0x200000) && t.sysBlock 0 0x10 = 1 && (t.module 0).window.hirq = 8) = true ∧
    nextHas (exec (.faultRecordWrite 0) (recording none true)) (fun t =>
      (((t.module 0).die 0).records.map fun r => (r.index, r.retryAt)) = [(some 0, 256)]) = true ∧
    nextHas (exec (.faultRecordRetry 0) (recording (some 0) false)) (fun t => ((t.module 0).die 0).records = []) = true ∧
    nextHas (exec (.faultTableRelease 0 0) (releasing 0x400007)) (fun t => (t.thread 1 0).woken && t.me.run = .ready && t.me.pc = 0x44) = true ∧
    nextHas (exec (.faultTableRelease 0 0) (releasing 0x400008)) (fun t => !(t.thread 1 0).woken && t.me.run = .ready) = true := by decide +kernel

/-- A command of slot 0 of core 0, and its engine. -/
def command (cmd : Nat) (sig : Bool) (sigaddr : BitVec 61) (rig : Vector Word 32) : Cmd :=
  { cmd := cmd, slot := 0, a := 0, b := 0, rig := rig, seg := Seg.zero, seg2 := Seg.zero, asid := 0, acq := false, rel := false, scope := .thread
    sig := sig, sigaddr := sigaddr, seq := 1, mxpromo := 1, st := 0, earlier := [], order := 0, gen := 0 }

def engined (e : Engine) (u : EngineUnit) (c : Core) : State :=
  applyAll [.thread 0 (thread 0 0 0), .core 0 { c with engines := vset c.engines (engIx e) u }] State.reset

def blank : Vector Word 32 := EngThread.start.rig

/-- A command that waits to start, one that has made its writes, and one whose signal goes to module 1. -/
def toStart : State := engined .slu { EngineUnit.reset with queue := [command 2 false 0 blank] } (Core.reset 0)
def written (sig : Bool) (w : EngWait) : State :=
  engined .slu { EngineUnit.reset with running := some (command 2 sig (2 ^ 40 + 0x20) blank, { (Prog.start 0) with written := true }), wait := w } (Core.reset 0)
def signals : State := (Op.nmod 2).apply (written true .none)

/-- The same with its message answered, and one whose signal goes to the own local store. -/
def replyCame : State :=
  (Op.nmod 2).apply (engined .slu { EngineUnit.reset with
    running := some (command 2 true (2 ^ 40 + 0x20) blank, { (Prog.start 0) with written := true }), reply := some .done } (Core.reset 0))
def signalsOwn : State :=
  engined .slu { EngineUnit.reset with running := some (command 2 true 0x20 blank, { (Prog.start 0) with written := true }) } (Core.reset 0)

/-- The end of a core's idle time of 256 cycles. -/
def idled : State := applyAll [.phys 0 { Phys.reset 0 0 with cycle := 256 }] State.reset

theorem witness_EngineEvents :
    toStart.mayStart 0 .slu = true ∧ (toStart.engine 0 .slu).queue = [command 2 false 0 blank] ∧ (toStart.core 0).status = .active ∧
      ((written false .none).engine 0 .slu).running = some (command 2 false (2 ^ 40 + 0x20) blank, { (Prog.start 0) with written := true }) ∧
      (signals.engine 0 .slu).wait = .none ∧ (signals.engine 0 .slu).reply = none ∧ signals.mem.wf = true ∧
      (let ga := w64 (8 * (2 ^ 40 + 0x20 : BitVec 61).toNat)
       gaModule ga ≠ 0 ∧ gaModule ga < signals.nmod ∧ isShared ga = false ∧ gaOff ga + 8 ≤ 0x1F2000) ∧
      (replyCame.engine 0 .slu).reply = some .done ∧ gaCore (w64 (8 * (0x20 : BitVec 61).toNat)) = 0 ∧ moduleOf 0 < signalsOwn.nmod ∧
      (written false .none).issuerLives 0 (command 2 false (2 ^ 40 + 0x20) blank) = true ∧
      ((Op.thread 0 { signals.me with gen := 1 }).apply signals).issuerLives 0 (command 2 false (2 ^ 40 + 0x20) blank) = false ∧
      (idled.core 0).mxgate ≠ 0 ∧ (idled.engine 0 .mxe).running = none ∧
        (idled.core 0).idleSince.get 3 + (idled.core 0).mxgate.toNat ≤ idled.cycle 0 := by
  decide +kernel

theorem test_engine_events :
    nextHas (exec (.engineCommandStart 0 .slu 0) toStart) (fun t => ((t.engine 0 .slu).running.map fun y => y.1.cmd) = some 2) = true ∧
    nextHas (exec (.engineCommandComplete 0 .slu) (written false .none)) (fun t =>
      (t.engine 0 .slu).running = none && (t.me.engThread .slu).doneSeq = 1) = true ∧
    nextHas (exec (.engineCommandComplete 0 .slu) signals) (fun t => (t.engine 0 .slu).wait = .message 0 &&
      (t.reqs.map fun y => (y.2.op, y.2.ga)) = [(.stsf 1, 0x80000000100)] && (t.me.engThread .slu).doneSeq = 0) = true ∧
    nextHas (exec (.engineCommandComplete 0 .slu) replyCame) (fun t => (t.engine 0 .slu).running = none && (t.me.engThread .slu).doneSeq = 1) = true ∧
    nextHas (exec (.engineCommandComplete 0 .slu) signalsOwn) (fun t => ofBytes (t.lsBytes 0 0x100 8) = 1 && (t.me.engThread .slu).doneSeq = 1) =
      true ∧
    nextHas (exec (.mxSubarrayGate 0 3) idled) (fun t => (t.core 0).gated = 8) = true := by decide +kernel

/-! Units of engine commands. -/

/-- A command of slot 0 with rigging registers set. -/
def cmdOf (cmd : Nat) (rs : List (Fin 32 × Word)) : Cmd := command cmd false 0 (rs.foldl (fun r y => vset r y.1 y.2) blank)

/-- It runs on an engine of core 0 with a progress; bytes of the local store at some offsets. -/
def unitOf (e : Engine) (c : Cmd) (p : Prog) (ws : List (Nat × List Byte)) : State :=
  applyAll (ws.flatMap fun (a, bs) => bs.zipIdx.map fun (b, i) => Op.poke (a + i) b)
    (engined e { EngineUnit.reset with running := some (c, p) } (Core.reset 0))

/-- Some units of it are made, which leave a progress, and bytes at an offset. -/
def ran (e : Engine) (n : Nat) (s : State) (p : Prog → Bool) (a : Nat) (bs : List Byte) : Bool :=
  nextHas (exec (.engineCommandStart 0 e n) s) fun t =>
    (match (t.engine 0 e).running with | some (_, q) => p q | none => false) && t.lsBytes 0 a bs.length = bs

/-- `State.runs`, `State.elementIs` and `State.bytesAre` as checks. -/
def runsOk (s : State) (e : Engine) (c : Cmd) (p : Prog) : Bool :=
  (s.core 0).status = .active && (s.engine 0 e).running = some (c, p) && (s.engine 0 e).wait = .none && p.written = false && p.error = none &&
    s.mem.wf

theorem runs_of {s : State} {e : Engine} {c : Cmd} {p : Prog} (h : runsOk s e c p = true) : s.runs 0 e c p := by
  simp only [runsOk, Bool.and_eq_true, decide_eq_true_eq] at h
  exact ⟨h.1.1.1.1.1, h.1.1.1.1.2, h.1.1.1.2, h.1.1.2, h.1.2, h.2⟩

def elementOk (s : State) (ga : Word) (n v : Nat) : Bool :=
  s.ownRaw 0 ga n && s.placePoison (localTarget ga).place = false && s.placePoison (localTarget (ga + w64 (n - 1))).place = false &&
    (s.localWord 0 (gaOff ga) n).toNat = v

theorem element_of {s : State} {ga : Word} {n v : Nat} (h : elementOk s ga n v = true) : s.elementIs 0 ga n v := by
  simp only [elementOk, Bool.and_eq_true, decide_eq_true_eq] at h
  exact ⟨h.1.1.1, h.1.1.2, h.1.2, h.2⟩

def bytesOk (s : State) (base : Nat) (bs : List Byte) : Bool :=
  (List.range bs.length).all fun i => elementOk s (w64 (base + i)) 1 (bs.getD i 0).toNat

theorem bytes_of {s : State} {base : Nat} {bs : List Byte} (h : bytesOk s base bs = true) : s.bytesAre 0 base bs :=
  fun i hi => element_of ((List.all_eq_true.mp h) i (List.mem_range.mpr hi))

/-- `mx.clr` of one element at 0x1000 with a bias at 0x1100, and without. -/
def clears (bias : Word) : Cmd := cmdOf 3 [(4, 0x1000), (5, 0x10001), (11, bias), (14, 0x1100)]
def clearing (bias : Word) : State := unitOf .mxe (clears bias) (Prog.start 0) [(0x1000, [1, 1, 1, 1]), (0x1100, [0x78, 0x56, 0x34, 0x12])]

/-- `mx.promo` of the integer of R332's example at 0x1100, with a row scale at 0x1200. -/
def promo : Cmd := cmdOf 2 [(0, 0x1100), (4, 0x1000), (5, 0x10001), (10, 2), (12, 0x1200)]
def promoting : State := unitOf .mxe promo (Prog.start 0) [(0x1100, [1, 0, 0, 1]), (0x1200, [0, 0, 0x40, 0x3F])]

theorem witness_MatrixUnits_clrPromo :
    (clearing 1).runs 0 .mxe (clears 1) (Prog.start 0) ∧ (clearing 1).elementIs 0 (mxOut (clears 1) 0 0) 4 0x01010101 ∧
      (clearing 1).elementIs 0 (w64 (((clears 1).rig.get 14).toNat + 0)) 4 0x12345678 ∧ bit ((clears 0).rig.get 11) 0 = false ∧
      (clearing 0).runs 0 .mxe (clears 0) (Prog.start 0) ∧
      promoting.runs 0 .mxe promo (Prog.start 0) ∧ promoting.elementIs 0 (w64 ((promo.rig.get 0).toNat + 0)) 4 0x1000001 ∧
      promoting.elementIs 0 (mxOut promo 0 0) 4 0 ∧ bit (promo.rig.get 10) 1 = true ∧ bit (promo.rig.get 10) 2 = false ∧
      promoting.elementIs 0 (w64 ((promo.rig.get 12).toNat + 0)) 4 0x3F400000 := by
  and_intros <;> first | decide +kernel | exact runs_of (by decide +kernel) | exact element_of (by decide +kernel)

theorem test_matrix_clrPromo :
    ran .mxe 1 (clearing 1) (fun q => q.m = 1) 0x1000 [0x78, 0x56, 0x34, 0x12] = true ∧
    ran .mxe 1 (clearing 0) (fun q => q.m = 1) 0x1000 [0, 0, 0, 0] = true ∧
    ran .mxe 2 promoting (fun q => q.m = 1 && q.flags = 0) 0x1000 [1, 0, 0x40, 0x4B] = true := by decide +kernel

/-- `mx.igemm` of the activations 3, −2 and the weights 5, 7, over K = 2, at four places of its run. -/
def igemm (acc : Word) : Cmd := cmdOf 1 [(0, 0x1100), (2, 0x1200), (4, 0x1000), (5, 0x200010001), (9, acc)]
def igemmAt (acc : Word) (p : Prog) : State := unitOf .mxe (igemm acc) p [(0x1000, [10, 0, 0, 0]), (0x1100, [3, 0xFE]), (0x1200, [5, 7])]
def tile (runs : List (List Byte × List Nat)) : Tile := { block := 0, window := 0, runs := runs }
def withColumns (cols : List (List Byte × List Nat)) : Prog := { (Prog.start 0) with tiles := #v[some (tile cols), none] }
def withRows (cols rows : List (List Byte × List Nat)) : Prog := { withColumns cols with rows := some (tile rows) }
def igemm2 : Prog := withRows [([5, 7], [])] [([3, 0xFE], [])]
def igemm3 : Prog := { igemm2 with w := 1, acc := [(0, { w := 2 ^ 133, nan := false, run := 0 })] }

theorem witness_MatrixUnits_igemm :
    (igemmAt 0 (Prog.start 0)).runs 0 .mxe (igemm 0) (Prog.start 0) ∧
      heldTile ((Prog.start 0).tiles.get (tileSlot 1 0 0)) 0 0 = tile [] ∧
      (igemmAt 0 (Prog.start 0)).bytesAre 0 (((igemm 0).rig.get 2).toNat + 0 * lo32 ((igemm 0).rig.get 7) + 160 * 0) [5, 7] ∧
      (igemmAt 0 (withColumns [([5, 7], [])])).runs 0 .mxe (igemm 0) (withColumns [([5, 7], [])]) ∧
      heldTile (withColumns [([5, 7], [])]).rows 0 0 = tile [] ∧
      (igemmAt 0 (withColumns [([5, 7], [])])).bytesAre 0 (((igemm 0).rig.get 0).toNat + 0 * hi32 ((igemm 0).rig.get 6) + 160 * 0) [3, 0xFE] ∧
      (igemmAt 0 igemm2).runs 0 .mxe (igemm 0) igemm2 ∧ WindowHeld (igemm 0) igemm2 [([5, 7], [])] [([3, 0xFE], [])] ∧
      (igemmAt 1 igemm3).runs 0 .mxe (igemm 1) igemm3 ∧ igemm3.w = ceilDiv (mxK ((igemm 1).rig.get 5)) 160 ∧
      (igemmAt 1 igemm3).elementIs 0 (mxOut (igemm 1) 0 0) 4 10 := by
  and_intros <;> first
    | decide +kernel
    | exact runs_of (by decide +kernel)
    | exact element_of (by decide +kernel)
    | exact bytes_of (by decide +kernel)
    | exact ⟨by decide +kernel, by decide +kernel, by decide +kernel, by decide +kernel⟩

theorem test_matrix_igemm :
    ran .mxe 3 (igemmAt 0 (Prog.start 0)) (fun q => (accOf q 0).w = 2 ^ 133 && q.w = 1) 0x1000 [10, 0, 0, 0] = true ∧
    ran .mxe 4 (igemmAt 0 (Prog.start 0)) (fun q => q.c = 1) 0x1000 [1, 0, 0, 0] = true ∧
    ran .mxe 2 (igemmAt 1 igemm3) (fun q => q.c = 1) 0x1000 [11, 0, 0, 0] = true := by decide +kernel

/-- `mx.tgemm` of five activations of 1 and trits of +1, with the scale 1.0, at its places. -/
def tgemm : Cmd := cmdOf 0 [(0, 0x1100), (2, 0x1200), (3, 0x1300), (4, 0x1000), (5, 0x500010001), (8, 0x10000)]
def tgemmAt (p : Prog) : State :=
  unitOf .mxe tgemm p [(0x1100, [1, 1, 1, 1, 1]), (0x1200, [242]), (0x1300, [0x80, 0x3F])]
def tgemmCols : List (List Byte × List Nat) := [([242], [0x3F80])]
def tgemmRows : List (List Byte × List Nat) := [([1, 1, 1, 1, 1], [])]
def tgemm2 : Prog := withRows tgemmCols tgemmRows
def tgemm3 : Prog := { tgemm2 with atElement := true, acc := [(0, { w := 0, nan := false, run := f26Bits (rneF26 (Num.ofInt 5 0 false)).1 })] }
def tgemm4 : Prog := { tgemm3 with pending := some (0x40A00000, 0) }

theorem witness_MatrixUnits_tgemm :
    (tgemmAt (Prog.start 0)).runs 0 .mxe tgemm (Prog.start 0) ∧
      (tgemmAt (Prog.start 0)).bytesAre 0 ((tgemm.rig.get 2).toNat + 0 * lo32 (tgemm.rig.get 7) + 32 * 0) [242] ∧
      (tgemmAt (Prog.start 0)).elementIs 0 (w64 ((tgemm.rig.get 3).toNat + 2 * (0 * 1 + 0 + 0))) 2 0x3F80 ∧
      (tgemmAt (withColumns tgemmCols)).bytesAre 0 ((tgemm.rig.get 0).toNat + 0 + 160 * 0) [1, 1, 1, 1, 1] ∧
      mxAfmt (tgemm.rig.get 8) = false ∧ (tgemmAt tgemm2).runs 0 .mxe tgemm tgemm2 ∧ WindowHeld tgemm tgemm2 tgemmCols tgemmRows ∧
      (tgemmAt tgemm3).runs 0 .mxe tgemm tgemm3 ∧ (tgemmAt tgemm3).elementIs 0 (mxOut tgemm 0 0) 4 0 ∧ WindowHeld tgemm tgemm3 tgemmCols tgemmRows ∧
      (tgemmAt tgemm4).runs 0 .mxe tgemm tgemm4 ∧ WindowHeld tgemm tgemm4 tgemmCols tgemmRows ∧
      (tgemmAt tgemm4).elementIs 0 (mxOut tgemm 0 0) 4 0 := by
  and_intros <;> first
    | decide +kernel
    | exact runs_of (by decide +kernel)
    | exact element_of (by decide +kernel)
    | exact bytes_of (by decide +kernel)
    | exact ⟨by decide +kernel, by decide +kernel, by decide +kernel, by decide +kernel⟩

/-- 5 × 1.0 = 5.0, unit by unit. -/
theorem test_matrix_tgemm :
    ran .mxe 1 (tgemmAt tgemm2) (fun q => q.atElement && q.acc = tgemm3.acc && q.g = 0) 0x1000 [0, 0, 0, 0] = true ∧
    ran .mxe 1 (tgemmAt tgemm3) (fun q => q.pending = some (0x40A00000, 0)) 0x1000 [0, 0, 0, 0] = true ∧
    ran .mxe 5 (tgemmAt (Prog.start 0)) (fun q => q.c = 1 && q.flags = 0) 0x1000 [0, 0, 0xA0, 0x40] = true := by decide +kernel

/-- `vx.add` of 1.0 and 2.0, into 0x1000; and `vx.fill` of 3.0. -/
def vadd : Cmd := cmdOf 0 [(0, 0x1100), (1, 0x1200), (3, 0x1000), (4, 0x100000001)]
def vadding : State := unitOf .vxe vadd (Prog.start 0) [(0x1100, [0, 0, 0x80, 0x3F]), (0x1200, [0, 0, 0, 0x40])]
def vfill : Cmd := { cmdOf 0x10 [(3, 0x1000), (4, 0x100000001)] with a := 0x40400000 }

/-- `vx.quant` of R353's example from 0x1100, its exponent to 0x1200, at four places. -/
def vquant : Cmd := cmdOf 8 [(0, 0x1100), (2, 0x1200), (3, 0x1000), (4, 0x100000003), (7, 0x800)]
def vquantAt (p : Prog) : State :=
  unitOf .vxe vquant p [(0x1100, toBytes 4 0x40400000 ++ toBytes 4 0x3DCCCCCD ++ toBytes 4 0xBFFEB852)]
def quant1 : Prog := { (Prog.start 0) with row := [0x40400000, 0x3DCCCCCD, 0xBFFEB852] }
def quant2 : Prog := { quant1 with out := [128, 96, 3, 192] }

/-- `vx.red` of the sum of the INT32 values 1 and 2, at the first element and at the result. -/
def vred : Cmd := cmdOf 9 [(0, 0x1100), (3, 0x1000), (4, 0x100000002), (7, 0xAA0)]
def vredAt (p : Prog) : State := unitOf .vxe vred p [(0x1100, [1, 0, 0, 0, 2, 0, 0, 0])]
def red2 : Prog := { (Prog.start 0) with w := 2, lanes := [some 1, some 2] ++ List.replicate 30 none }

/-- `vx.smax` of a row of one zero, and `vx.dist` of (1, 2) and (3, 4). -/
def vsmax : Cmd := cmdOf 0xC [(0, 0x1100), (3, 0x1000), (4, 0x100000001)]
def vsmaxAt (p : Prog) : State := unitOf .vxe vsmax p []
def smax1 : Prog := { (Prog.start 0) with row := [0] }
def smax2 : Prog := { smax1 with out := [0x3F800000] }
def vdist : Cmd := cmdOf 0xD [(0, 0x1100), (1, 0x1200), (3, 0x1000), (4, 0x100000002), (7, 0xA80), (8, 1)]
def vdisting : State := unitOf .vxe vdist (Prog.start 0) [(0x1100, [1, 2]), (0x1200, [3, 4])]

/-- A command whose NONFIN is set, after its last element, with a gather write of 6 to 0x1300, which holds 1. -/
def vgather : Cmd := cmdOf 0 [(4, 0x100000001), (7, 0x4000), (9, 0x1300), (10, 6)]
def gather1 : Prog := { (Prog.start 0) with m := 1, flags := 16 }
def vgathering : State := unitOf .vxe vgather gather1 [(0x1300, [1])]

theorem witness_VectorUnits_elements :
    vadding.runs 0 .vxe vadd (Prog.start 0) ∧ vadding.elementIs 0 (w64 ((vadd.rig.get 0).toNat + 0 + 0)) 4 0x3F800000 ∧
      vadding.elementIs 0 (w64 ((vadd.rig.get 1).toNat + 0 + 0)) 4 0x40000000 ∧
      vadding.ownRaw 0 (w64 ((vadd.rig.get 3).toNat + 0 + 0)) 4 = true ∧ (vGeom vadd.rig).bY = false ∧ vHasZ 0 = false ∧
      (unitOf .vxe vfill (Prog.start 0) []).runs 0 .vxe vfill (Prog.start 0) ∧ vElementwise 0x10 = true ∧
      vgathering.runs 0 .vxe vgather gather1 ∧ vgathering.elementIs 0 (vgather.rig.get 9) 8 1 ∧ (vGeom vgather.rig).nfg = true ∧
      (vGeom vgather.rig).rows ≤ gather1.m := by
  and_intros <;> first | decide +kernel | exact runs_of (by decide +kernel) | exact element_of (by decide +kernel)

theorem witness_VectorUnits_rows :
    (vquantAt (Prog.start 0)).runs 0 .vxe vquant (Prog.start 0) ∧
      (vquantAt (Prog.start 0)).elementIs 0 (w64 ((vquant.rig.get 0).toNat + 0 + (32 * 0 + 0) * 4)) 4 0x40400000 ∧
      (vquantAt quant1).runs 0 .vxe vquant quant1 ∧ (quant1.row.map (vtFp 0).unpack).map Num.exponent = [some 1, some (-4), some 0] ∧
      (vquantAt quant2).runs 0 .vxe vquant quant2 ∧ (vquantAt quant2).ownRaw 0 (w64 ((vquant.rig.get 2).toNat + 0 + 0)) 1 = true ∧
      (vquantAt { quant2 with n := 1 }).runs 0 .vxe vquant { quant2 with n := 1 } ∧
      (vquantAt { quant2 with n := 3 }).runs 0 .vxe vquant { quant2 with n := 3 } ∧
      (vquantAt { quant2 with n := 3 }).ownRaw 0 (w64 ((vquant.rig.get 3).toNat + 0 + 2)) 1 = true ∧
      (vredAt (Prog.start 0)).runs 0 .vxe vred (Prog.start 0) ∧ (vredAt (Prog.start 0)).elementIs 0 (w64 ((vred.rig.get 0).toNat + 0 + 0)) 4 1 ∧
      (vredAt red2).runs 0 .vxe vred red2 ∧ (vredAt red2).ownRaw 0 (w64 ((vred.rig.get 3).toNat + 0 + 0)) 4 = true ∧
      (vsmaxAt (Prog.start 0)).runs 0 .vxe vsmax (Prog.start 0) ∧ (vsmaxAt (Prog.start 0)).elementIs 0 (w64 ((vsmax.rig.get 0).toNat + 0 + 0)) 4 0 ∧
      (vsmaxAt smax1).runs 0 .vxe vsmax smax1 ∧ (vsmaxAt smax2).runs 0 .vxe vsmax smax2 ∧
      vdisting.runs 0 .vxe vdist (Prog.start 0) ∧ rowBytes 8 2 = 2 ∧ vdisting.bytesAre 0 ((vdist.rig.get 0).toNat + 0) [1, 2] ∧
      vdisting.bytesAre 0 ((vdist.rig.get 1).toNat + 0) [3, 4] := by
  and_intros <;> first
    | decide +kernel
    | exact runs_of (by decide +kernel)
    | exact element_of (by decide +kernel)
    | exact bytes_of (by decide +kernel)

theorem test_vector :
    ran .vxe 1 vadding (fun q => q.m = 1 && q.flags = 0) 0x1000 [0, 0, 0x40, 0x40] = true ∧
    ran .vxe 1 (unitOf .vxe vfill (Prog.start 0) []) (fun q => q.m = 1) 0x1000 [0, 0, 0x40, 0x40] = true ∧
    ran .vxe 8 (vquantAt (Prog.start 0)) (fun q => q.m = 1) 0x1000 [96, 3, 192] = true ∧
    ran .vxe 5 (vquantAt (Prog.start 0)) (fun q => q.n = 1 && q.out = [128, 96, 3, 192]) 0x1200 [128] = true ∧
    ran .vxe 3 (vredAt (Prog.start 0)) (fun q => q.m = 1) 0x1000 [3, 0, 0, 0] = true ∧
    ran .vxe 3 (vsmaxAt (Prog.start 0)) (fun q => q.m = 1) 0x1000 [0, 0, 0x80, 0x3F] = true ∧
    ran .vxe 1 vdisting (fun q => q.m = 1) 0x1000 [11, 0, 0, 0] = true ∧
    ran .vxe 1 vgathering (fun q => q.sent) 0x1300 [7, 0, 0, 0, 0, 0, 0, 0] = true := by decide +kernel

/-- `cp.copy` of a word from 0x1100 to 0x1000, `cp.fill` of 7 there or in core 0 of module 1, and a META copy. -/
def ccopy : Cmd := cmdOf 0 [(0, 0x1100), (1, 0x1000), (2, 0x31), (3, 1)]
def tcopying : State := unitOf .cpe ccopy (Prog.start 0) [(0x1100, [5])]
def cfill (dst : Word) : Cmd := { cmdOf 8 [(1, dst), (2, 0x31), (3, 1)] with a := 7 }
def tfilling (dst : Word) : State := (Op.nmod 2).apply (unitOf .cpe (cfill dst) (Prog.start 0) [])
def farAway : Word := 0x80000001000
def cmeta : Cmd := cmdOf 0 [(0, 0x1100), (1, 0x1000), (2, 0x71), (3, 1)]
def metaCopying : State := (Op.fe (lsKey 0 0x1100 / 8) false).apply (unitOf .cpe cmeta (Prog.start 0) [(0x1100, [5])])

/-- `cp.mcast` of a word to the cores 0 and 1. -/
def cmcast : Cmd := cmdOf 1 [(0, 0x1100), (1, 0x1000), (2, 0x31), (3, 1), (16, 1), (17, 0x10003)]
def tmcasting : State := unitOf .cpe cmcast (Prog.start 0) [(0x1100, [5])]

theorem mcast_selects {M : Nat} (h : cmcast.selects 0 M) : M = 0 ∨ M = 1 := by
  obtain ⟨d, r, col, hd, hr, hc, rfl, h1, h2, h3⟩ := h
  have a : ∀ x < 8, bit (cmcast.rig.get 17) (16 + x) = true → x = 0 := by decide +kernel
  have b : ∀ x < 64, bit (cmcast.rig.get 16) x = true → x = 0 := by decide +kernel
  have c : ∀ x < 16, bit (cmcast.rig.get 17) x = true → coreAt (moduleOf 0) 0 0 x = 0 ∨ coreAt (moduleOf 0) 0 0 x = 1 := by decide +kernel
  rw [a d hd h1, b r hr h2]
  exact c col hc h3

/-- `cp.gath` of one piece of two words whose entry, at 0x1200, is 8; and `cp.scat`. -/
def cpiece (cmd : Nat) (d : Seg) : Cmd :=
  { cmdOf cmd [(0, 0x1100), (1, 0x1000), (2, 0x32), (3, 0x800000002), (4, 1), (9, 8), (15, 0x1200)] with seg := d }
def piece1 : Prog := { (Prog.start 0) with atElement := true, w := 8, idx := [1, 0, 0, 0, 0, 0] }
def piecing (cmd : Nat) (d : Seg) (p : Prog) : State :=
  unitOf .cpe (cpiece cmd d) p [(0x1100, [1]), (0x1108, [2]), (0x1110, [3]), (0x1200, [8, 0, 0, 0])]

/-- `cp.pack` of the bytes 1 and -1, and of the byte 119 unpacked to two trits. -/
def cpack (un : Nat) : Cmd := cmdOf 5 [(0, 0x1100), (1, 0x1000), (2, w64 (2 + 256 * un)), (3, 2), (4, 1)]
def packing (un : Nat) (p : Prog) (bs : List Byte) : State := unitOf .cpe (cpack un) p [(0x1100, bs)]
def unpack1 : Prog := { (Prog.start 0) with row := [119], idx := [1, 0, 0, 0, 0, 0] }

/-- `cp.tern` of a group of five BF16 values with the threshold 0.5, and of a second group of one value, whose byte two trits share. -/
def ctern (mode K : Nat) : Cmd := cmdOf 4 [(0, 0x1100), (1, 0x1000), (2, w64 (2 + mode)), (3, w64 K), (4, 1), (20, 0x1200), (21, 0x3F00)]
def terning (mode K : Nat) (p : Prog) (a : Nat) (ws : List Nat) : State := unitOf .cpe (ctern mode K) p [(a, ws.flatMap (toBytes 2))]
def ternGroup : List Nat := [0x3F80, 0xBF80, 0x3F80, 0, 0x3F80]
def tern1 : Prog := { (Prog.start 0) with out := [209, 0x3F4D, 0] }
def tern2 : Prog := { (Prog.start 0) with c := 9, idx := [1, 0, 0, 0, 0, 0] }

/-- `cp.pf` of an address of a shared page whose leaf a buffer holds, its line not asked for, asked for, and come. -/
def cpf : Cmd := cmdOf 6 [(0, 0x8000000000000000), (2, 0x31), (3, 1)]
def prefetching (p : Prog) (come : Bool) : State :=
  applyAll [.module 0 { Module.reset with clusterTlbs := [(0, [leaf0])] },
    .req 0 (if come then some { (sent 0 (.line (.copy 0 false)) 0 false (.performed .done)) with target := some (tg0 0x100000) } else none)]
    (unitOf .cpe cpf p [])
def asked : Prog := { (Prog.start 0) with lines := [((tg0 0x100000).home, lineOf 0x100000)] }

/-- What a part of a unit gives and leaves, as checks. -/
def gaveCtx {s : State} {α : Type} (x : EngM s α) (c : EngCtx s) : EngCtx s := (x.run.run c).2
def givesIt {s : State} {α : Type} (x : EngM s α) (c : EngCtx s) (f : α → Bool) : Bool :=
  match (x.run.run c).1 with
  | .ok v => f v && (gaveCtx x c).core = c.core && (gaveCtx x c).prog = c.prog
  | .error _ => false

theorem gives_of {s : State} {α : Type} {x : EngM s α} {c : EngCtx s} {f : α → Bool} (h : givesIt x c f = true) :
    ∃ v, f v = true ∧ Gives x c v (gaveCtx x c) ∧ (gaveCtx x c).stands c.core c.prog := by
  unfold givesIt at h
  split at h
  · rename_i v e
    simp only [Bool.and_eq_true, decide_eq_true_eq] at h
    exact ⟨v, h.1.1, Prod.ext e rfl, h.1.2, h.2⟩
  · exact absurd h (by simp)

theorem witness_CopyUnits_elements :
    tcopying.runs 0 .cpe ccopy (Prog.start 0) ∧ tcopying.elementIs 0 (cpAddr ccopy 0 0) 8 5 ∧ tcopying.ownRaw 0 (cpAddr ccopy 1 0) 8 = true ∧
      (dstWalk ccopy.rig 1).done (Prog.start 0).idx = false ∧
      (tfilling farAway).runs 0 .cpe (cfill farAway) (Prog.start 0) ∧ cpAddr (cfill farAway) 1 0 = farAway ∧ isShared farAway = false ∧
      gaModule farAway = 1 ∧ gaOff farAway = 0x1000 ∧ ((tfilling farAway).engine 0 .cpe).transferred = false ∧
      (tfilling farAway).reachable (gaCore farAway) = true ∧
      metaCopying.runs 0 .cpe cmeta (Prog.start 0) ∧ cpMeta (cmeta.rig.get 2) = true ∧
      tmcasting.runs 0 .cpe cmcast (Prog.start 0) ∧ tmcasting.elementIs 0 (cpAddr cmcast 0 0) 8 5 ∧
      (∀ M, cmcast.selects 0 M → tmcasting.reachable M = true) ∧ cmcast.selects 0 1 := by
  and_intros <;> first
    | decide +kernel
    | exact runs_of (by decide +kernel)
    | exact element_of (by decide +kernel)
    | exact fun M h => (mcast_selects h).elim (fun e => e ▸ by decide +kernel) (fun e => e ▸ by decide +kernel)
    | exact ⟨0, 0, 1, by decide, by decide, by decide, by decide +kernel, by decide +kernel, by decide +kernel, by decide +kernel⟩

theorem witness_CopyUnits_pieces :
    ([(2, 0x1110, 0x1000, 0x1008), (3, 0x1100, 0x1008, 0x1010)].all fun (n, a, d, d1) =>
      let c := cpiece n (wide 0)
      let s := piecing n (wide 0) (Prog.start 0)
      runsOk s .cpe c (Prog.start 0) && elementOk s (cpAddr c 15 0) 4 8 && !pieceFails c.seg (0x1000 + 8) 2 8 8 &&
        s.ownRaw 0 d 8 && s.ownRaw 0 d1 8 && s.ownRaw 0 a 8 && runsOk (piecing n (wide 0) piece1) .cpe c piece1) = true ∧
    (piecing 2 Seg.zero (Prog.start 0)).runs 0 .cpe (cpiece 2 Seg.zero) (Prog.start 0) ∧
      (piecing 2 Seg.zero (Prog.start 0)).elementIs 0 (cpAddr (cpiece 2 Seg.zero) 15 0) 4 8 ∧
      pieceFails (cpiece 2 Seg.zero).seg (0x1100 + 8) 2 8 8 = true ∧
      (piecing 2 (wide 0) piece1).elementIs 0 (cpAddr (cpiece 2 (wide 0)) 0 16) 8 3 ∧
    (packing 0 (Prog.start 0) [1, 0xFF]).runs 0 .cpe (cpack 0) (Prog.start 0) ∧
      (packing 0 (Prog.start 0) [1, 0xFF]).elementIs 0 (cpAddr (cpack 0) 0 1) 1 ((-1 : Int) % 256).toNat ∧
      (packing 1 (Prog.start 0) [119]).runs 0 .cpe (cpack 1) (Prog.start 0) ∧ (packing 1 unpack1 [119]).runs 0 .cpe (cpack 1) unpack1 ∧
      (packing 1 (Prog.start 0) [119]).elementIs 0 (cpAddr (cpack 1) 0 0) 1 119 := by
  and_intros <;> first | decide +kernel | exact runs_of (by decide +kernel) | exact element_of (by decide +kernel)

theorem witness_CopyUnits_prefetch :
    (prefetching (Prog.start 0) true).runs 0 .cpe cpf (Prog.start 0) ∧ (prefetching asked true).runs 0 .cpe cpf asked ∧
      (dstWalk cpf.rig 1).done (Prog.start 0).idx = false ∧
      ([(Prog.start 0, true), (Prog.start 0, false), (asked, false)].all fun (p, come) =>
        givesIt (engResolve 0x8000000000000000 .read false false) ((prefetching p come).unitBegins 0 .cpe cpf p) fun tg =>
          tg.place.physical = some (0, 0x100000) && tg.home = (tg0 0x100000).home &&
          ((granted (.copy 0 false) false 0 tg).run
            (gaveCtx (engResolve 0x8000000000000000 .read false false) ((prefetching p come).unitBegins 0 .cpe cpf p)).run).1 = come) = true := by
  and_intros <;> first | decide +kernel | exact runs_of (by decide +kernel)

theorem witness_CopyUnits_tern :
    (terning 0 5 (Prog.start 0) 0x1100 ternGroup).runs 0 .cpe (ctern 0 5) (Prog.start 0) ∧
      (∀ k, k < 5 → (terning 0 5 (Prog.start 0) 0x1100 ternGroup).elementIs 0 (cpAddr (ctern 0 5) 0 ((2 * (0 + k) : Nat))) 2 (ternGroup.getD k 0)) ∧
      (∀ w ∈ ternGroup.map bf16.unpack, w.finite = true) ∧
      (terning 0 5 (Prog.start 0) 0x1100 [0x7F80]).elementIs 0 (cpAddr (ctern 0 5) 0 0) 2 0x7F80 ∧ (bf16.unpack 0x7F80).finite = false ∧
      (terning 512 1 (Prog.start 0) 0x1100 [0x3F80]).runs 0 .cpe (ctern 512 1) (Prog.start 0) ∧
      Draws (Machine.Num.mul (bf16.unpack 0x3F00) (bf16.unpack (scaleRule [bf16.unpack 0x3F80]))).1 0 [bf16.unpack 0x3F80] [1] 0 ∧
      (terning 0 5 tern1 0x1100 []).runs 0 .cpe (ctern 0 5) tern1 ∧ (terning 0 5 tern1 0x1100 []).ownRaw 0 (cpAddr (ctern 0 5) 1 0) 1 = true ∧
      (terning 0 5 { tern1 with w := 1 } 0x1100 []).runs 0 .cpe (ctern 0 5) { tern1 with w := 1 } ∧
      (terning 0 5 { tern1 with w := 1 } 0x1100 []).ownRaw 0 (cpAddr (ctern 0 5) 20 0) 2 = true ∧
      (terning 0 33 tern2 0x1140 [0x3F80]).runs 0 .cpe (ctern 0 33) tern2 ∧
      (terning 0 33 tern2 0x1140 [0x3F80]).elementIs 0 (cpAddr (ctern 0 33) 0 64) 2 0x3F80 := by
  and_intros <;> first
    | decide +kernel
    | exact runs_of (by decide +kernel)
    | exact element_of (by decide +kernel)
    | exact fun k hk => element_of ((by decide +kernel : ∀ k < 5, elementOk (terning 0 5 (Prog.start 0) 0x1100 ternGroup)
        (cpAddr (ctern 0 5) 0 ((2 * (0 + k) : Nat))) 2 (ternGroup.getD k 0) = true) k hk)
    | exact .keep (by decide +kernel) (.done _)

theorem test_copy :
    ran .cpe 1 tcopying (fun q => q.idx.headD 0 = 1) 0x1000 [5, 0, 0, 0, 0, 0, 0, 0] = true ∧
    ran .cpe 1 (tfilling 0x1000) (fun q => q.idx.headD 0 = 1) 0x1000 [7, 0, 0, 0, 0, 0, 0, 0] = true ∧
    nextHas (exec (.engineCommandStart 0 .cpe 1) (tfilling farAway)) (fun t => (t.engine 0 .cpe).wait = .transfer farAway &&
      nextHas (exec (.bulkTransfer 0 .cpe) t) fun u => (u.engine 0 .cpe).wait = .none && u.lsBytes (gaCore farAway) 0x1000 2 = [7, 0]) = true ∧
    nextHas (exec (.engineCommandStart 0 .cpe 1) metaCopying) (fun t => t.lsBytes 0 0x1000 1 = [5] && !t.mem.full (lsKey 0 0x1000 / 8)) = true ∧
    nextHas (exec (.engineCommandStart 0 .cpe 1) tmcasting) (fun t => t.lsBytes 0 0x1000 1 = [5] && t.lsBytes 1 0x1000 1 = [5]) = true ∧
    ran .cpe 2 (piecing 2 (wide 0) (Prog.start 0)) (fun q => q.idx = [0, 1, 0, 0, 0, 0]) 0x1000 [2, 0, 0, 0, 0, 0, 0, 0, 3, 0] = true ∧
    ran .cpe 2 (piecing 3 (wide 0) (Prog.start 0)) (fun q => q.idx = [0, 1, 0, 0, 0, 0]) 0x1008 [1, 0, 0, 0, 0, 0, 0, 0, 2, 0] = true ∧
    ran .cpe 1 (piecing 2 Seg.zero (Prog.start 0)) (fun q => q.error = some 0x10) 0x1000 [0] = true ∧
    ran .cpe 1 (packing 0 (Prog.start 0) [1, 0xFF]) (fun q => q.idx.getD 1 0 = 1) 0x1000 [119] = true ∧
    ran .cpe 3 (packing 1 (Prog.start 0) [119]) (fun q => q.idx.getD 1 0 = 1) 0x1000 [1, 0xFF] = true ∧
    ran .cpe 1 (prefetching (Prog.start 0) true) (fun q => q.lines = asked.lines && q.idx.headD 0 = 1) 0x1000 [0] = true ∧
    ran .cpe 1 (prefetching (Prog.start 0) false) (fun q => q = Prog.start 0) 0x1000 [0] = true := by decide +kernel

/-- The mean of four magnitudes of 1 and one 0 is 0.8, the trits are +, -, +, 0, + (R373). -/
theorem test_tern :
    ran .cpe 1 (terning 0 5 (Prog.start 0) 0x1100 ternGroup) (fun q => q.out = tern1.out) 0x1000 [0] = true ∧
    ran .cpe 3 (terning 0 5 (Prog.start 0) 0x1100 ternGroup) (fun q => q.idx.getD 1 0 = 1) 0x1000 [209] = true ∧
    ran .cpe 3 (terning 0 5 (Prog.start 0) 0x1100 ternGroup) (fun q => q.out = []) 0x1200 [0x4D, 0x3F] = true ∧
    ran .cpe 1 (terning 0 5 (Prog.start 0) 0x1100 [0x7F80]) (fun q => q.error = some 0x11) 0x1000 [0] = true ∧
    ran .cpe 1 (terning 0 33 tern2 0x1140 [0x3F80]) (fun q => q.out.take 2 = [134, 0x3F80]) 0x1000 [0] = true := by decide +kernel

/-- `sl.kinit` and `sl.kins` on list 1; `sl.kmerge` of an image at 0x1100 and `sl.kread` to 0x1000, of list 0. -/
def skinit : Cmd := cmdOf 2 [(8, 0x100), (11, 0x10003)]
def skins : Cmd := { cmdOf 3 [(8, 0x100)] with a := 0x3F800000, b := 7 }
def listed (c : Cmd) : State := unitOf .slu c (Prog.start 0) []
def skmerge (d : Seg) : Cmd := { cmdOf 4 [(6, 0x1100)] with seg := d }
def merging (d : Seg) (h : Nat) : State :=
  unitOf .slu (skmerge d) (Prog.start 0) [(0x1100, toBytes 8 h), (0x1108, toBytes 8 0x900000000 ++ [])]
def skread (d : Seg) : Cmd := { cmdOf 5 [(5, 0x1000)] with seg := d }
def reading (d : Seg) (w : Nat) : State :=
  engined .slu { EngineUnit.reset with running := some (skread d, { (Prog.start 0) with w := w }) }
    { Core.reset 0 with topk := vset (Core.reset 0).topk 0 { k := 3, dir := true, pairs := [(0x3F800000, 7)] } }

/-- `sl.bound` of one query over one page, with its record at a shared address; at the page, and at the words of its list. -/
def sbound : Cmd := cmdOf 0 [(0, 0x1100), (1, 0x1200), (2, 0x8000000000000000), (4, 0x1000), (7, 1), (8, 0x101000000), (9, 0x4000000008)]
def region1 : Region := { vbase := 0x8000, vlen := 16384, sbase := 0, dc := 0, sprd := false, hdie := 3 }
def recordLeaf : TlbEntry :=
  { asid := 0, page := 0, leaf := { pfn := 64, pageBits := 14, attrs := 0xF, entry := 0, regions := [region1], poisonAt := none } }
def pageLeaf : TlbEntry :=
  { asid := 0, page := 0x8000, leaf := { pfn := 66, pageBits := 14, attrs := 0x2F, entry := 0, regions := [region1], poisonAt := none } }
def atKey (a : Nat) : Target := { (tg0 a) with home := region1.home 0 0 }

/-- The lines that a unit of the selection unit needs have come. -/
def linesCame (as : List Nat) : List Op :=
  .slice (region1.home 0 0) { Slice.reset with lines := as.map fun a => { num := lineOf a, dirty := false, pinned := false, rep := false } } ::
    as.zipIdx.map fun (a, i) => .req i (some { (sent 0 (.line (.engine 0 .slu)) 0 false (.performed .done)) with target := some (atKey a) })
def selecting (as : List Nat) (s : State) : State :=
  applyAll (.module 0 { Module.reset with clusterTlbs := [(0, [recordLeaf, pageLeaf])] } :: linesCame as) s
def recordLines : List Nat := [0x100000, 0x100080]
def theQuery : List Byte := List.replicate 64 1

/-- The record is that of a page whose keys lie between -1 and 2, with a scale of 1.0, or of an empty page. -/
def bounding (c : Cmd) (full : Bool) (scale : Byte) : State :=
  selecting recordLines (applyAll (
    (if full then [.poke (paKey 0 0x100002) 0x80, .poke (paKey 0 0x100003) 0x3F, .poke (paKey 0 0x100004) 1, .poke (paKey 0 0x100040) 0xFF,
      .poke (paKey 0 0x100080) 2] else []))
    (unitOf .slu c (Prog.start 0) [(0x1100, theQuery), (0x1200, [0, 0, scale, 0x3F])]))
def sboundL2 : Cmd := { sbound with rig := vset sbound.rig 8 0x101000008 }
def bounded : Prog := { (Prog.start 0) with w := 1, picks := [([(0, 0x40000000)], 1)] }

/-- `sl.score` of a list at 0x1300 of one page, whose keys stand at 0x4000, and its scores at 0x1000 in DENSE mode. -/
def sscore (dense : Nat) (d2 : Seg) : Cmd :=
  { cmdOf 1 [(0, 0x1100), (1, 0x1200), (2, 0x8000000000000000), (3, 0x4000), (4, 0x1300), (5, 0x1000),
    (8, w64 (0x101000000 + 32 * dense)), (9, 0x4000000008)] with
    seg := wide 0x8000000000000000, seg2 := d2 }
def scoring (c : Cmd) (count : Byte) : State :=
  selecting recordLines (applyAll [.poke (paKey 0 0x100002) 0x80, .poke (paKey 0 0x100003) 0x3F]
    (unitOf .slu c (Prog.start 0) [(0x1100, theQuery), (0x1200, [0, 0, 0x80, 0x3F]), (0x1300, [count]), (0x4000, [3])]))
def unrecorded : State := (Op.module 0 { Module.reset with clusterTlbs := [(0, [leaf0])] }).apply (scoring (sscore 0 (wide 0)) 1)
def scored : Prog := { (Prog.start 0) with n := 2, queries := [(theQuery, 0x3F800000)], out := [0x40400000, 0] }

/-- `sl.resum` of the page of that record, at 0x108000. -/
def sresum (at_ : Word) : Cmd := cmdOf 6 [(3, at_), (7, 1)]
def resumming (at_ : Word) : State :=
  selecting ((List.range 128).map (fun i => 0x108000 + 128 * i) ++ recordLines) (unitOf .slu (sresum at_) (Prog.start 0) [])

theorem witness_SelectionUnits_lists :
    (listed skinit).runs 0 .slu skinit (Prog.start 0) ∧ (listed skins).runs 0 .slu skins (Prog.start 0) ∧
      (merging (wide 0) 1).runs 0 .slu (skmerge (wide 0)) (Prog.start 0) ∧ (merging (wide 0) 1).elementIs 0 0x1100 8 1 ∧
      reached (wide 0) 0x1100 8 8 8 false = true ∧ (merging (wide 0) 1).elementIs 0 (w64 (0x1100 + 8)) 8 0x900000000 ∧
      reached Seg.zero 0x1100 8 8 8 false = false ∧ (merging Seg.zero 1).runs 0 .slu (skmerge Seg.zero) (Prog.start 0) ∧
      (merging (wide 0) 257).elementIs 0 0x1100 8 257 ∧
      (reading (wide 0) 1).runs 0 .slu (skread (wide 0)) { (Prog.start 0) with w := 1 } ∧ reached (wide 0) 0x1000 8 8 4 true = true ∧
      (reading (wide 0) 1).ownRaw 0 (w64 (0x1000 + 8)) 8 = true ∧ ((reading (wide 0) 1).core 0).topk.get 0 = ⟨3, true, [(0x3F800000, 7)]⟩ ∧
      (reading Seg.zero 1).runs 0 .slu (skread Seg.zero) { (Prog.start 0) with w := 1 } ∧ reached Seg.zero 0x1000 8 8 4 true = false := by
  and_intros <;> first | decide +kernel | exact runs_of (by decide +kernel) | exact element_of (by decide +kernel)

theorem query_of {s : State} {c : Cmd} {p : Prog} (hp : p.queries = []) (g : (sGeom c.rig).d = 64)
    (h0 : c.rig.get 0 = 0x1100) (h1 : c.rig.get 1 = 0x1200) (hb : bytesOk s 0x1100 theQuery = true) (he : elementOk s 0x1200 4 0x3F800000 = true) :
    s.queriesAre 0 c p [0] [(theQuery, 0x3F800000)] := by
  unfold State.queriesAre
  rw [if_pos hp]
  refine ⟨rfl, fun i hi => ?_⟩
  have : i = 0 := by simpa using hi
  subst this
  simp only [List.getD_cons_zero, g, h0, h1, Nat.zero_mul, Nat.mul_zero, Nat.add_zero]
  exact ⟨rfl, bytes_of hb, element_of he⟩

theorem witness_SelectionUnits_bound :
    ([(sbound, true, 0x80), (sbound, false, 0x80), (sboundL2, true, 0)] : List (Cmd × Bool × Byte)).all (fun (c, full, scale) =>
      let s := bounding c full scale
      runsOk s .slu c (Prog.start 0) && (sGeom c.rig).np = 1 && (sGeom c.rig).nq = 1 &&
        givesIt (readSummary c 0x8000000000000000 (sGeom c.rig))
          (s.unitBegins 0 .slu c { (Prog.start 0) with queries := [(theQuery, 0x3F000000 + 0x10000 * scale.toNat)] }) fun r =>
          r.nonempty = full && r.pscale = if full then 0x3F800000 else 0) = true ∧
      (unitOf .slu sbound bounded []).runs 0 .slu sbound bounded ∧
      (unitOf .slu sbound { bounded with m := 1 } []).runs 0 .slu sbound { bounded with m := 1 } ∧
      (unitOf .slu sbound bounded []).ownRaw 0 (w64 (0x1000 + (0 * 8 + 4 * 1))) 4 = true := by
  and_intros <;> first | decide +kernel | exact runs_of (by decide +kernel)

theorem witness_SelectionUnits_queries : (bounding sbound true 0x80).queriesAre 0 sbound (Prog.start 0) [0] [(theQuery, 0x3F800000)] :=
  query_of rfl (by decide +kernel) (by decide +kernel) (by decide +kernel) (by decide +kernel) (by decide +kernel)

theorem witness_SelectionUnits_score :
    (scoring (sscore 1 (wide 0)) 1).runs 0 .slu (sscore 1 (wide 0)) (Prog.start 0) ∧
      (scoring (sscore 1 (wide 0)) 1).elementIs 0 (w64 (0x1300 + 0)) 4 1 ∧ (scoring (sscore 1 (wide 0)) 1).elementIs 0 (w64 (0x1300 + 4)) 4 0 ∧
      (scoring (sscore 0 (wide 0)) 2).elementIs 0 (w64 (0x1300 + 0)) 4 2 ∧
      reached (sscore 1 (wide 0)).seg 0x8000000000000000 0 192 64 false = true ∧ reached (wide 0) 0x4000 0 16384 16384 false = true ∧
      reached Seg.zero 0x4000 0 16384 16384 false = false ∧ unrecorded.isRecord 0 0 0x8000000000000000 0 = false ∧
      (scoring (sscore 1 (wide 0)) 1).isRecord 0 0 0x8000000000000000 0 = true ∧
      (unitOf .slu (sscore 1 (wide 0)) scored []).runs 0 .slu (sscore 1 (wide 0)) scored ∧
      (unitOf .slu (sscore 1 (wide 0)) scored []).ownRaw 0 (w64 (0x1000 + 4 * (0 * 256 + (256 - 2)))) 4 = true := by
  and_intros <;> first | decide +kernel | exact runs_of (by decide +kernel) | exact element_of (by decide +kernel)

/-- The scale of the record is read, and then the keys of the page. -/
def scoringAt : EngCtx (scoring (sscore 1 (wide 0)) 1) :=
  (scoring (sscore 1 (wide 0)) 1).unitBegins 0 .slu (sscore 1 (wide 0)) { (Prog.start 0) with queries := [(theQuery, 0x3F800000)], n := 2 }
def afterScale : EngCtx (scoring (sscore 1 (wide 0)) 1) := gaveCtx (engRead 0x8000000000000000 4) scoringAt

theorem witness_SelectionUnits_scale : givesIt (engRead 0x8000000000000000 4) scoringAt (fun v => v = 0x3F800000) = true := by decide +kernel

theorem witness_SelectionUnits_keys : Gives (engBytes 0x4000 16384) afterScale (afterScale.run.s.lsBytes afterScale.core 0x4000 16384) afterScale :=
  gives_engBytes_own (by decide +kernel) (by decide) (by decide +kernel) (by decide +kernel) fun i _ => by
    have h : afterScale.run.s.mem.poisons = [] := by decide +kernel
    show Memory.poisoned _ _ = false
    simp [Memory.poisoned, h, look]

/-- The page is translated, its record's bytes found, and all their lines have come. -/
def resumAt : EngCtx (resumming 0x8000000000008000) := (resumming 0x8000000000008000).unitBegins 0 .slu (sresum 0x8000000000008000) (Prog.start 0)
def resumPage : EngM (resumming 0x8000000000008000) Target := engTarget 0x8000000000008000 .read false false

theorem witness_SelectionUnits_resum :
    (resumming 0x8000000000008000).runs 0 .slu (sresum 0x8000000000008000) (Prog.start 0) ∧
      ((resumming 0x8000000000008000).regionsAt 0 0 0x8000000000008000).1.find? (fun r => r.holds 0x8000) = some region1 ∧
      givesIt resumPage resumAt (fun tg => tg.place.physical = some (0, 0x108000) && tg.home = region1.home 0 0) = true ∧
      (match ((recordPieces 0 (some 0) 0 0 0 192).run (gaveCtx resumPage resumAt).run).1 with
        | .ok ps => decide (ps = [(0x100000, 192, false)])
        | .error _ => false) = true ∧
      ((allGranted (.engine 0 .slu) false 0 (stepLines (atKey 0x108000) 0 0x108000 { d := 64, pieces := [(0x100000, 192, false)], off := 0 })).run
        (gaveCtx resumPage resumAt).run).1 = true ∧
      ((resumming 0x800000000000C000).regionsAt 0 0 0x800000000000C000).1.find? (fun r => r.holds 0xC000) = none ∧
      ((resumming 0x800000000000C000).regionsAt 0 0 0x800000000000C000).2 = none := by
  and_intros <;> first | decide +kernel | exact runs_of (by decide +kernel)

theorem test_selection :
    nextHas (exec (.engineCommandStart 0 .slu 1) (listed skinit)) (fun t => (t.core 0).topk.get 1 = ⟨3, true, []⟩) = true ∧
    ran .slu 2 (merging (wide 0) 257) (fun q => q.error = some 0x14) 0x1000 [0] = true ∧
    ran .slu 1 (merging Seg.zero 1) (fun q => q.error = some 0x14) 0x1000 [0] = true ∧
    ran .slu 2 (reading (wide 0) 0) (fun q => q.w = 2) 0x1000 [1, 6, 4, 0, 0, 0, 0, 0, 0, 0, 0x80, 0x3F, 7, 0] = true ∧
    ran .slu 1 (bounding sbound true 0x80) (fun q => q.w = 1 && q.picks = [([(0, 0x40000000)], 1)] && q.flags = 0) 0x1000 [0] = true ∧
    ran .slu 2 (unitOf .slu sbound bounded []) (fun q => q.n = 1) 0x1000 [1, 0, 0, 0, 0, 0, 0, 0] = true ∧
    ran .slu 1 (scoring (sscore 0 (wide 0)) 2) (fun q => q.error = some 0x12) 0x1000 [0] = true ∧
    ran .slu 1 (scoring (sscore 0 Seg.zero) 1) (fun q => q.error = some 0x13) 0x1000 [0] = true ∧
    ran .slu 1 unrecorded (fun q => q.error = some 0x10) 0x1000 [0] = true ∧
    ran .slu 2 (unitOf .slu (sscore 1 (wide 0)) scored []) (fun q => q.out = [] && q.w = 1) 0x13F8 [0, 0, 0x40, 0x40, 0, 0, 0, 0] = true ∧
    ran .slu 1 (resumming 0x800000000000C000) (fun q => q.error = some 0x10) 0x1000 [0] = true := by decide +kernel

/-- A reduction of one INT64 word at 0x100 into 0x108, with identifier 1, of two members; and one whose group is full. -/
def redRig : Vector Word 32 :=
  [((0 : Fin 32), (0x100 : Word)), (1, 0x108), (2, 0x4000031), (3, 1), (18, 1), (19, 0x200000000)].foldl (fun r y => vset r y.1 y.2) blank
def reducing (p : Prog) : State :=
  (Op.poke (lsKey 0 0x100) 5).apply (engined .cpe { EngineUnit.reset with running := some (command 7 false 0 redRig, p) } (Core.reset 0))
def full1 : Reduction := { asid := 0, gid := 1, got := [], result := some (some [42]), pending := [0] }
def resulting : State := (Op.reduction 9 (some full1)).apply (reducing { (Prog.start 0) with sent := true })
def drains : State :=
  applyAll [.module 0 { Module.reset with draining := [1] }, .thread 0 (waits 0 .waitrs (.gidDrain 1))] State.reset

theorem witness_Reductions :
    ((reducing (Prog.start 0)).core 0).status = .active ∧ (reducing (Prog.start 0)).reducing 0 = some (command 7 false 0 redRig, Prog.start 0) ∧
      ((reducing (Prog.start 0)).engine 0 .cpe).wait = .none ∧ (reducing (Prog.start 0)).openUse 0 1 = none ∧ 1 < cpMembers redRig ∧
      cpCount redRig 0 = 1 ∧ redSize (redRig.get 2) = 8 ∧ (reducing (Prog.start 0)).ownRaw 0 (cpAddr (command 7 false 0 redRig) 0 0) 8 = true ∧
      (reducing (Prog.start 0)).placePoison (localTarget (cpAddr (command 7 false 0 redRig) 0 0)).place = false ∧
      (reducing (Prog.start 0)).placePoison (localTarget (cpAddr (command 7 false 0 redRig) 0 0 + w64 7)).place = false ∧
      resulting.resultFor 0 = some (9, full1) ∧ resulting.issuerLives 0 (command 7 false 0 redRig) = true ∧ resulting.wf = true ∧ resulting.ownRaw 0 (cpAddr (command 7 false 0 redRig) 1 0) 8 = true ∧
      1 ∈ (drains.module 0).draining ∧ drains.stillDrains 0 1 = false ∧ drains.wf = true := by decide +kernel

theorem test_reductions :
    nextHas (exec (.reductionContribution 0) (reducing (Prog.start 0))) (fun t => (t.reductions.map fun y => y.2.got.map fun z => z.vec) = [[[5]]]) = true ∧
    nextHas (exec (.reductionResult 0) resulting) (fun t => ofBytes (t.lsBytes 0 0x108 8) = 42 && t.reductions = [] &&
      (t.engine 0 .cpe).running = none) =
      true ∧
    nextHas (exec (.gidDrainComplete 0 1) drains) (fun t => (t.module 0).draining = [] && t.me.woken) = true := by decide +kernel

/-! Events of contexts, power, errors, Halyard and the host. -/

/-- The freeze controller has a request of core 0's thread for core 1 (kind 0 saves, 1 restores), whose context stands in a status. -/
def freezing (kind : Nat) (st : CoreStatus) : State :=
  let v := w64 (1 + 2 ^ 50 * kind)
  applyAll [.thread 0 (waits 0 (.preempt (.s 1)) .controller), .core 1 { Core.reset 1 with status := st },
    .module 0 { Module.reset with freezeQueue := [{ core := 0, slot := 0, value := v }] },
    .poke (paKey 0 0) 1, .poke (paKey 0 8) 1] State.reset

/-- A core of 101 degrees, and a free core of 25 or none. -/
def heated (free : Bool) : State :=
  applyAll [.phys 0 { Phys.reset 0 0 with temp := 101 }, .core 1 { Core.reset 1 with status := if free then .saved else .active }] State.reset

theorem witness_Contexts :
    ((freezing 0 .active).module 0).freezeQueue = [{ core := 0, slot := 0, value := 1 }] ∧ ((freezing 0 .active).module 0).migrating = none ∧
      field (1 : Word) 0 33 = 1 ∧ field (1 : Word) 50 2 = 0 ∧ ((freezing 0 .active).core 1).status = .active ∧
      ((freezing 0 .frozen).core 1).status = .frozen ∧ ((freezeStep 1 false).run (Run.start (freezing 0 .frozen))).1 = true ∧
      ((freezeStep 1 false).run (Run.start (freezing 0 .frozen))).2.s.awaitsController 0 0 1 ∧
      (((freezeStep 1 false).run (Run.start (freezing 0 .frozen))).2.s.module 0).freezeQueue = [{ core := 0, slot := 0, value := 1 }] ∧
      (1 : Nat) ≠ 0 ∧ field (w64 (1 + 2 ^ 50)) 50 2 = 1 ∧ (freezing 1 .saved).saveSlot 0 (w64 (1 + 2 ^ 50)) = 0 ∧
      (let f : RecordFn := fun off => w64 ((freezing 1 .saved).readPlace (.pa 0 (0 + off)) 8)
       field (f 0) 0 16 = 1 ∧ field (f 8) 0 33 = 1 ∧ recordOk f = true ∧ recordBytes (bit (f 0) 16) = 0x48000) ∧
      (freezing 1 .saved).awaitsController 0 0 1 ∧ (freezing 1 .saved).mem.poisons = [] ∧
      (heated false).coolCores 0 0 = [] ∧ 1 ∈ (heated true).coolCores 0 0 ∧ (heated true).controllerFree 0 = true ∧
      (((heated true).module 0).halyard.tlimit : Int) < ((heated true).physCore 0).temp ∧ ((heated false).physCore 0).hot = false := by
  unfold State.awaitsController
  and_intros <;> decide +kernel

/-- What the freeze controller asked for core 1: the 2,304 lines of a record at PA 0 have come, each to its slice. -/
def recordLine (i : Nat) : Req := { sent 0 (.line (.record 1)) 0 false (.performed .done) with target := some (paTarget 0 (128 * i)) }
def recordReqs : Map Req := (List.range 2304).map fun i => (i, recordLine i)
def recordSlice (home : Nat) : Slice :=
  let h := home - 2 ^ 40
  { Slice.reset with lines := [⟨h, false, false, false⟩, ⟨1024 + (h ^^^ 1), false, false, false⟩, ⟨2048 + (h ^^^ 2), false, false, false⟩] }
def recordSlices : Map Slice := (List.range' (2 ^ 40) 1024).map fun h => (h, recordSlice h)
def recorded (s : State) : State := { s with reqs := recordReqs, slices := recordSlices }

theorem look_range' {α : Type} (f : Nat → α) (n a k : Nat) (h : k < n) : look ((List.range' a n).map fun i => (i, f i)) (a + k) = some (f (a + k)) := by
  induction n generalizing a k with
  | zero => omega
  | succ n ih =>
    simp only [List.range'_succ, List.map_cons, look]
    cases k with
    | zero => simp
    | succ k =>
      have := ih (a + 1) k (by omega)
      simp only [show a + 1 + k = a + (k + 1) by omega] at this
      simp [this]

theorem recordLine_home (i : Nat) (h : i < 2304) : (paTarget 0 (128 * i)).home = 2 ^ 40 + (i % 1024 ^^^ i / 1024) := by
  have l : 128 * i / 128 = i := by omega
  have a : i / 2 ^ 20 % 1024 = 0 := by omega
  have b : i / 2 ^ 30 % 128 = 0 := by omega
  have c : i / 2 ^ 10 % 1024 = i / 1024 := by omega
  simp only [paTarget, sliceOf, sliceHome, lineOf, l, a, b, c, Nat.xor_zero, if_true]
  omega

theorem recordSlice_has (i : Nat) (h : i < 2304) : ((recordSlice (2 ^ 40 + (i % 1024 ^^^ i / 1024))).find i).isSome = true := by
  have all : (List.range 2304).all (fun i => ((recordSlice (2 ^ 40 + (i % 1024 ^^^ i / 1024))).find i).isSome) = true := by decide +kernel
  exact List.all_eq_true.1 all i (List.mem_range.2 h)

theorem recordCome_of {s : State} (hr : s.reqs = recordReqs) (hs : s.slices = recordSlices) : s.recordCome 1 0 0 0x48000 := by
  intro i _ hi
  have hi : i < 2304 := by simp only [lineOf] at hi; omega
  have bound : i % 1024 ^^^ i / 1024 < 1024 := Nat.xor_lt_two_pow (n := 10) (by omega) (by omega)
  rw [recordLine_home i hi]
  refine ⟨?_, ?_⟩
  · rw [State.slice, hs, recordSlices, look_range' recordSlice _ _ _ bound]
    exact recordSlice_has i hi
  · have find : ∀ p : Nat × Req → Bool, p (i, recordLine i) = true → ∃ id r x, r.stage = Stage.performed x ∧ s.reqs.find? p = some (id, r) := by
      intro p hp
      have some : (recordReqs.find? p).isSome := by
        rw [List.find?_isSome]
        exact ⟨_, List.mem_map.2 ⟨i, List.mem_range.2 hi, rfl⟩, hp⟩
      obtain ⟨⟨id, r⟩, h⟩ := Option.isSome_iff_exists.1 some
      obtain ⟨j, _, e⟩ := List.mem_map.1 (List.mem_of_find?_eq_some h)
      cases e
      exact ⟨_, _, .done, rfl, hr ▸ h⟩
    refine find _ ?_
    have line : lineOf (128 * i) = i := by simp [lineOf]
    have home : sliceHome 0 (sliceOf (128 * i) true 0).1 (sliceOf (128 * i) true 0).2 = 2 ^ 40 + (i % 1024 ^^^ i / 1024) := recordLine_home i hi
    simp [recordLine, sent, home, paTarget, Place.physical, line]

theorem witness_Contexts_lines :
    (let x := (freezeStep 1 false).run (Run.start (recorded (freezing 0 .frozen)))
     x.1 = true ∧ x.2.s.awaitsController 0 0 1 ∧ (x.2.s.module 0).freezeQueue = [{ core := 0, slot := 0, value := 1 }] ∧
      x.2.s.saveSlot 0 1 = 0 ∧ x.2.s.recordCome 1 0 0 (recordBytes (bit (1 : Word) 49))) ∧
    (recorded (freezing 1 .saved)).recordCome 1 0 0 (recordBytes false) := by
  refine ⟨⟨by decide +kernel, ?_, by decide +kernel, by decide +kernel, show State.recordCome _ 1 0 0 0x48000 from recordCome_of (by decide +kernel) (by decide +kernel)⟩,
    show State.recordCome _ 1 0 0 0x48000 from recordCome_of (by rw [recorded]) (by rw [recorded])⟩
  unfold State.awaitsController
  and_intros <;> decide +kernel

theorem test_contexts :
    nextHas (exec (.contextSave 0) (freezing 0 .active)) (fun t => (t.core 1).status = .frozen) = true ∧
    nextHas (exec (.thermalMigration 0 1) (heated false)) (fun t => (t.physCore 0).divider = 3 && (t.module 0).halyard.events.length = 1) = true ∧
    nextHas (exec (.thermalMigration 0 1) (heated true)) (fun t => (t.module 0).migrating = some (0, 1)) = true := by decide +kernel

/-- Physical core 0 as given. -/
def powered (p : Phys) : State := (Op.phys 0 p).apply State.reset

/-- An entry that physical core 0 has sent, due 9 nominal cycles from reset. -/
def onItsWay : State := (Op.port 0 (some { portMsg false with fromPhys := 0, due := 9 })).apply (powered { Phys.reset 0 0 with divider := 1, wanted := 1 })

theorem witness_Power :
    (powered { Phys.reset 0 0 with hot := true, temp := 85 }).physOf 0 = 0 ∧
      ((powered { Phys.reset 0 0 with hot := true, temp := 85 }).physCore 0).temp + 15 ≤
        (((powered { Phys.reset 0 0 with hot := true, temp := 85 }).module 0).halyard.tlimit : Int) ∧
      (powered (Phys.reset 0 0)).rail 0 ≤ 0 ∧ (0 : Fin 4) < (Phys.reset 0 0).divider + 1 ∧
      (({ Module.reset with rails := [(0, 2)] } : Module).rails = [(0, 2)]) ∧
      onItsWay.wf = true ∧ (look onItsWay.ports 0).isSome = true ∧ (onItsWay.physCore 0).divider ≠ 3 ∧ (onItsWay.physCore 0).next < 9 ∧
      (powered (Phys.reset 0 0)).mayGate 0 = true ∧ (regs 0 0 0).mayGate 0 = false ∧
      ((Op.phys 0 { Phys.reset 0 0 with gated := true }).apply flooded).arrives 0 = true := by decide +kernel

theorem test_power :
    nextHas (exec (.thermalSlowdownEnd 0) (powered { Phys.reset 0 0 with hot := true, temp := 85, divider := 3 })) (fun t =>
      !(t.physCore 0).hot && (t.physCore 0).divider = 0) = true ∧
    nextHas (exec (.dividerChange 0 2) (powered (Phys.reset 0 0))) (fun t => (t.physCore 0).divider = 2) = true ∧
    nextHas (exec (.dividerChange 0 3) onItsWay) (fun t => (t.ports.map fun m => m.2.due) = [40]) = true ∧
    nextHas (exec (.dividerChange 0 0) ((Op.module 0 { Module.reset with rails := [(0, 2)] }).apply
      (powered { Phys.reset 0 0 with divider := 2, wanted := 2 }))) (fun t => (t.physCore 0).divider = 2 && (t.physCore 0).wanted = 0 &&
        nextHas (exec (.railRiseComplete 0) t) fun u => (u.physCore 0).divider = 0) = true ∧
    nextHas (exec (.powerGate 0) (powered (Phys.reset 0 0))) (fun t => (t.physCore 0).gated) = true ∧
    nextHas (exec (.powerGate 0) (regs 0 0 0)) (fun t => !(t.physCore 0).gated) = true ∧
    nextHas (exec (.powerGateWake 0) ((Op.phys 0 { Phys.reset 0 0 with gated := true }).apply flooded)) (fun t =>
      (t.physCore 0).waking = some 2000) = true := by decide +kernel

theorem witness_Errors :
    State.reset.mem.poisoned (lsKey 0 (0x1FFFFF / 8 * 8) / 8) = false ∧ State.reset.mem.poisoned (paKey 0 ((2 ^ 44 - 1) / 8 * 8) / 8) = false ∧
      0 < State.reset.nmod ∧ bit (State.reset.module 0).planesDown 7 = false ∧ bit (State.reset.module 0).staysDown 1 = false ∧
      bit (State.reset.module 0).failed 6 = false ∧ State.reset.reqs = [] := by decide +kernel

/-- The answer of a load of core 0 from core 256, of another die, performed, and that of core 8192 in module 1. -/
def answering (ga : Word) : State :=
  applyAll [.nmod 2, .req 0 (some (sent 0 (.load 8) ga true (.performed (.val 7))))] State.reset

theorem witness_Errors_beat :
    (answering 0x10000000000).linkUnit 0 0x10000000000 (gaCore 0x10000000000) false = some (0, 0x100) ∧
      ((answering 0x80000000000).linkUnit 0 0x80000000000 (gaCore 0x80000000000) true).isSome = true ∧
      HomeOp.readsData (.load 8) = true ∧ HomeOp.writesData (.store 8 5) = true ∧ Stage.outward .sent = true ∧
      nextHas (exec (.uncorrectableError (.beat 0)) (answering 0x10000000000)) (fun t =>
        (t.reqs.map fun y => y.2.stage) = [.performed (.trap 0x28 0x10000000000)] &&
          ((t.module 0).halyard.events.map fun e => (e.source, e.code, e.d0, e.d1)) = [(unitSource 0x100, 0x11, 0x10000000000, 1)]) = true ∧
      nextHas (exec (.uncorrectableError (.beat 0)) (applyAll [.nmod 2, .req 0 (some (sent 0 (.store 8 5) 0x10000000000 false .sent))] State.reset))
        (fun t => (t.reqs.map fun y => y.2.spoiled) = [true] && (t.module 0).halyard.events.length = 1) = true := by
  decide +kernel

/-- Nothing is on its way over a link of the machine at reset. -/
theorem witness_Errors_link : State.reset.linkIdle 0 (.plane 7) := by
  refine ⟨?_, ?_, ?_⟩
  · intro id r h; simp [State.reset] at h
  · intro id h L hm; simp [State.reset] at hm
  · intro L e ga h
    have hx : (State.reset.engine L e).wait = .none := by
      cases e <;> rfl
    rw [hx] at h; cases h

theorem test_errors :
    nextHas (exec (.uncorrectableError (.localStore 0 0x10C)) State.reset) (fun t => t.mem.poisons = [(0x21, ())] &&
      ((t.module 0).halyard.events.map fun e => (e.code, e.d0)) = [(0x11, 0x108)]) = true ∧
    nextHas (exec (.correctableError 0 (.localStore 0 0)) State.reset) (fun t => (t.module 0).halyard.softErrors = 1) = true ∧
    nextHas (exec (.linkFailure 0 (.stay 1)) State.reset) (fun t => (t.module 0).staysDown = 2) = true ∧
    nextHas (exec (.cxlExpanderFailure 0 5) State.reset) (fun t => (t.module 0).failed = 0x40) = true ∧
    nextHas (exec (.canvasSandboxFault 0 9) State.reset) (fun t => ((t.module 0).halyard.events.map fun e => (e.source, e.code)) = [(0x200000001, 0x50)]) =
      true := by decide +kernel

/-- A sample of a module with a core at a temperature, 100 microseconds after reset. -/
def sample1 (t : Int) : Sample :=
  { temps := [(0, t)], rails := [], current := 0, power := 1000, inlet := 20, outlet := 30, flow := 5, noFlowMs := 0 }
def sampled : State := (Op.ctl { State.reset.ctl with now := 200000 }).apply State.reset
def raised : State := State.withHalyard State.reset 0 { Halyard.reset with events := [{ source := 5, code := 0x21, stamp := 0, d0 := 0, d1 := 0, d2 := 0 }] }

/-- A boot with service core 5, which launches `thePacket` in slot 0 there; plane 3 stays down. -/
def bootInput : BootInput :=
  { imageOk := true, imageVersion := 3, modid := 0, nmod := 2, ringid := 0, rlen := 1, rpos := 0, peer0 := none, peer1 := none
    imageBytes := [], configBytes := toBytes 8 (2 ^ 63 + 5), planesDown := 8, staysDown := 0, expanders := []
    loads := [(paKey 0 0x100000, 7)]
    starts := [{ core := 5, packet := thePacket, mask := 1, segs := [], asid := 0, trapvec := 0x40, enroll := 0 }] }

/-- A module whose fuses hold the hash of the image's key. -/
def shipped : State := State.withHalyard State.reset 0 { Halyard.reset with vendorHash := Config.keyHash [] }

theorem witness_HalyardEvents :
    State.reset.wf = true ∧ sampled.wf = true ∧ 0 < sampled.nmod ∧ (sampled.module 0).halyard.lastSample + 200000 ≤ sampled.ctl.now ∧
      holdReasons (sample1 110) = 0 ∧ holdReasons (sample1 111) ≠ 0 ∧ (sampled.module 0).halyard.heldInReset = false ∧ raised.wf = true ∧
      (raised.module 0).halyard.events ≠ [] ∧ (State.reset.module 0).window.isReady = false ∧ (State.reset.module 0).window.recovery = false ∧
      (State.reset.module 0).halyard.image = [] ∧ (State.reset.module 0).halyard.imageValid = true ∧ bootInput.imageOk = true ∧
      2 ^ 63 ≤ serviceField bootInput.configBytes 0 ∧ bootInput.modid = 0 ∧ 0 < bootInput.nmod ∧ bootInput.nmod ≤ 2 ^ 20 := by decide +kernel

theorem witness_HalyardEvents_shipped :
    shipped.wf = true ∧ (shipped.module 0).window.isReady = false ∧ (shipped.module 0).window.recovery = false ∧
      (shipped.module 0).halyard.heldInReset = false ∧ (shipped.module 0).halyard.image = [] ∧
      (shipped.module 0).halyard.imageValid = true ∧ Config.keyHash bootInput.imageBytes = (shipped.module 0).halyard.vendorHash :=
  ⟨rfl, rfl, rfl, rfl, rfl, rfl, rfl⟩

theorem test_halyard :
    nextHas (exec (.sensorSample 0 (sample1 111)) ((Op.thread 0 (thread 1 2 3)).apply sampled)) (fun t =>
      (t.module 0).halyard.heldInReset && t.thread 0 0 = Thread.reset) = true ∧
    nextHas (exec (.sensorSample 0 (sample1 90)) sampled) (fun t => (t.physCore 0).temp = 90 && !(t.module 0).halyard.heldInReset) = true ∧
    nextHas (exec (.moduleReset 0) (overWord (thread 1 2 3))) (fun t => t.thread 0 0 = Thread.reset && wordAt t = 0x8877665544332281) = true ∧
    nextHas (exec (.powerLoss 0) (overWord (thread 1 2 3))) (fun t => t.thread 0 0 = Thread.reset && t.mem.cells = []) = true := by decide +kernel

/-- The last steps of a boot: the tables, the full-empty bits and the software. -/
theorem test_boot :
    let t := afterAct (overEmpty Thread.reset) (do trainLinks 0 bootInput; writeTables 0 bootInput; fillBits 0; startSoftware 0 bootInput)
    t.nmod = 2 ∧ t.mem.empties = [] ∧ t.service 0 0 = some 5 ∧ (t.module 0).planesDown = 8 ∧ t.mem.byte (paKey 0 0x100000) = 7 ∧
      (t.floods.map fun y => (y.2.scope, y.2.fromCore, y.2.launch.packet, y.2.launch.mask, y.2.launch.trapvec)) = [(.core, 5, thePacket, 1, 0x40)] := by
  decide +kernel

/-- Service core 5 named in the system block, and a window that asks for a launch of `thePacket` at scope `core`. -/
def hostWindow : Window := { Window.reset with lpkt := (Window.reset.lpkt.setIfInBounds 0 2).setIfInBounds 1 0x80 }
def hosted (w : Window) : State := applyAll [.poke (paKey 0 0x82040) 5, .poke (paKey 0 0x82047) 0x80, .module 0 { Module.reset with window := w }] State.reset

theorem witness_HostWindow :
    0 < (hosted hostWindow).nmod ∧ (hosted hostWindow).service 0 0 = some 5 ∧ (hostWindow.launch 0x30001 5).isSome = true ∧
      hostWindow.launch 0x30000 5 = none ∧ hostWindow.launchBusy = false ∧ ({ hostWindow with launchBusy := true } : Window).launchBusy = true ∧
      hostWindow.mbBusy = false ∧ (({ hostWindow with mbreq := [(0, 0x41)] } : Window).command ∈ mailboxCodes) ∧
      hostWindow.command ∉ mailboxCodes := by decide +kernel

theorem test_host_window :
    nextHas (exec (.ldoor 0 0x30001) (hosted hostWindow)) (fun t =>
      (t.floods.map fun y => (y.2.scope, y.2.launch.mask, y.2.launch.packet, y.2.fromCore)) = [(.core, 3, thePacket, 5)] &&
        (t.module 0).window.launchBusy) = true ∧
    nextHas (exec (.ldoor 0 0x30000) (hosted hostWindow)) (fun t => (t.module 0).window.rej && (t.module 0).window.hirq = 4) = true ∧
    nextHas (exec (.hirq 0 5) (hosted { hostWindow with hirq := 0xF })) (fun t => (t.module 0).window.hirq = 0xA) = true ∧
    nextHas (exec (.hien 0 3) (hosted { hostWindow with hirq := 2 })) (fun t => (t.module 0).window.hien = 3 &&
      (t.module 0).window.msix = [1]) = true ∧
    nextHas (exec (.lstat 0) (hosted { hostWindow with rej := true, drop := true })) (fun t => !(t.module 0).window.rej &&
      !(t.module 0).window.drop) =
      true ∧
    nextHas (exec (.evlost 0) (hosted { hostWindow with evlost := 4 })) (fun t => (t.module 0).window.evlost = 0) = true ∧
    nextHas (exec (.hostRegisterWrite 0 ⟨0x10F8, 8⟩ 7) (hosted hostWindow)) (fun t => (t.module 0).window.lpkt.get 31 = 7) = true ∧
    nextHas (exec (.hostRegisterWrite 0 ⟨0x1178, 8⟩ 7) (hosted hostWindow)) (fun t => (t.module 0).window.lseg.get 15 = 7) = true ∧
    nextHas (exec (.hostRegisterWrite 0 ⟨0x1190, 8⟩ 0xFF) (hosted hostWindow)) (fun t => (t.module 0).window.lenrol = 0x3F) = true ∧
    nextHas (exec (.hostRegisterWrite 0 ⟨0x1190, 8⟩ 7) (hosted { hostWindow with launchBusy := true })) (fun t => (t.module 0).window.lenrol = 0 &&
      (t.module 0).window.drop) = true ∧
    nextHas (exec (.hostRegisterWrite 0 ⟨0x1004, 8⟩ 7) (hosted hostWindow)) (fun t => (t.module 0).window = hostWindow) = true ∧
    nextHas (exec (.hostRegisterWrite 0 ⟨0x1000, 4⟩ 7) (hosted hostWindow)) (fun t => (t.module 0).window = hostWindow) = true ∧
    (hosted hostWindow).windowValue 0 0x1000 8 = some 2 ∧ (hosted hostWindow).windowValue 0 0x1001 8 = none ∧
    nextHas (exec (.mbdoor 0 0) (hosted hostWindow)) (fun t => (t.module 0).window.mbStatus = 1 &&
      !(t.module 0).window.mbBusy) = true := by decide +kernel

/-- A mailbox request in service: its command, and its body's words. -/
def request (code : Nat) (len : Nat) (body : List Word) : State :=
  let words := w64 (code + 2 ^ 32 * len) :: 0x77 :: body
  applyAll ([0x82000, 0x100000, 2 ^ 44 - 8, 0x100000000, 0x10FFFFFFF].map present) <| hosted { Window.reset with mbBusy := true, mbreq := (words.zipIdx.map fun (w, i) => (i, w)) }

/-- The same with a further part of a report to post, and with an image being written. -/
def reporting : State := State.withHalyard State.reset 0 { Halyard.reset with report := [[1, 2]] }
def updating : State := State.withHalyard State.reset 0 { Halyard.reset with writing := some [1], imageValid := false }

def staging : State :=
  let s := request 0x40 8 [0x10FFFFFFF]
  State.withHalyard (s.withWindow 0 { (s.module 0).window with mbDone := 1 }) 0 { Halyard.reset with staged := [7] }

theorem witness_Mailbox :
    ([(0x01, 16), (0x02, 16), (0x10, 0), (0x11, 8), (0x12, 8), (0x20, 0), (0x30, 32), (0x31, 0), (0x40, 8), (0x41, 0)].all fun (c, n) =>
      (request c n [0x100000, 8]).serves 0 c && ((request c n [0x100000, 8]).module 0).window.bodyLength = n) = true ∧
      ((request 0x01 16 [2 ^ 44 - 8, 8]).module 0).window.request 2 = 2 ^ 44 - 8 ∧ ((request 0x01 16 [0x82000, 8]).module 0).window.request 3 = 8 ∧
      (2 ^ 44 - 8) % 8 + 8 ≤ 8 ∧ (request 0x01 16 [0x82000, 8]).placePoison (.pa 0 0x82000) = false ∧
      (request 0x02 16 [0x82000, 8]).failedPa 0 0x82000 = false ∧ (request 0x02 16 [0x82000, 8]).mem.wf = true ∧
      inStaging 0x10FFFFFFF 1 = true ∧ ((request 0x40 8 [0x100000000]).module 0).halyard.writing = none ∧
      (request 0x41 0 []).wf = true ∧ ((request 0x41 0 []).module 0).window.recovery = false ∧
      (reporting.module 0).halyard.report = [1, 2] :: [] ∧ (reporting.module 0).window.mbBusy = false ∧ updating.serves 0 0x40 = false ∧
      (updating.module 0).halyard.writing = some [1] ∧ bit (reporting.module 0).window.hirq 1 = false ∧
      ([0x82000, 0x100000, 2 ^ 44 - 8, 0x100000000, 0x10FFFFFFF].all fun a =>
        (((request 0x01 16 [w64 a, 8]).slice (paTarget 0 a).home).find (lineOf a)).isSome) = true ∧
      (staging.module 0).halyard.staged.length = 1 ∧ min (0x110000000 - 0x10FFFFFFF) 4096 = 1 := by decide +kernel

/-- A body of EVLOG either asks for entries or for nothing. -/
theorem witness_Mailbox_evlog (body : List Byte) : (∃ asked, Config.evlogAsked body = some asked) ∨ Config.evlogAsked body = none := by
  cases Config.evlogAsked body <;> simp

/-- The command replies with a status and a body. -/
def replies (i : Instr) (s : State) (status : Byte) (body : List Byte) : Bool :=
  nextHas (exec i s) fun t => (t.module 0).window.mbStatus = status && (t.module 0).window.mbrep.drop 16 = body && !(t.module 0).window.mbBusy &&
    (t.module 0).window.hirq = 2

theorem test_mailbox :
    replies (.memrd 0) (request 0x01 16 [0x82040, 8]) 0 [5, 0, 0, 0, 0, 0, 0, 0x80] = true ∧
    nextHas (exec (.memwr 0) (request 0x02 16 [0x100000, 9])) (fun t => t.readPlace (.pa 0 0x100000) 8 = 9 &&
      (t.module 0).window.mbStatus = 0) = true ∧
    nextHas (exec (.pcap 0) (request 0x11 8 [1300])) (fun t => (t.module 0).halyard.pcap = 1300) = true ∧
    replies (.pcap 0) (request 0x11 8 [1199]) 2 [] = true ∧
    nextHas (exec (.tlimit 0) (request 0x12 8 [105])) (fun t => (t.module 0).halyard.tlimit = 105) = true ∧
    replies (.tlimit 0) (request 0x12 8 [106]) 2 [] = true ∧ replies (.idcert 0) (request 0x31 0 []) 0 [] = true ∧
    replies (.attest 0) reporting 0 [1, 2] = true ∧
    nextHas (exec (.update 0) (request 0x40 8 [0x100000000])) (fun t => (t.module 0).halyard.staged = List.replicate 8 0 &&
      (t.module 0).window.mbDone = 8) = true ∧
    nextHas (exec (.update 0) updating) (fun t => (t.module 0).halyard.image = [1] && (t.module 0).halyard.imageValid) = true ∧
    nextHas (exec (.reset 0) (request 0x41 0 [])) (fun t => (t.module 0).window = Window.reset) = true := by decide +kernel

end Sys2Proof.Tests.Slice0
end

section

/-! SUPPORT. Integer instructions (R86 to R92): the operands they use, their functions as their tables name them, and their
completion in every operand form. -/

namespace Sys2Proof.Machine

variable {s : State}

/-! Operands. -/

@[simp] theorem answers_useAll_nil (c c' : Ctx s) : Answers (useAll []) c [] c' ↔ c = c' :=
  (answers_pure ..).trans (and_iff_right rfl)

/-- The first operand is used, and then the others over what it leaves (R81). -/
@[simp] theorem answers_useAll_cons (o : Operand) (os : List Operand) (c : Ctx s) (v : Word) (vs : List Word) (c' : Ctx s) :
    Answers (useAll (o :: os)) c (v :: vs) c' ↔ ∃ c1, Answers (use o) c v c1 ∧ Answers (useAll os) c1 vs c' := by
  constructor
  · intro h
    obtain ⟨w, c1, hw, h⟩ := h.of_bind
    obtain ⟨ws, c2, hws, h⟩ := h.of_bind
    obtain ⟨heq, rfl⟩ := (answers_pure ..).mp h
    obtain ⟨rfl, rfl⟩ := List.cons.inj heq
    exact ⟨c1, hw, hws⟩
  · rintro ⟨c1, hv, hvs⟩
    exact hv.bind (hvs.bind ((answers_pure ..).mpr ⟨rfl, rfl⟩))

/-- A last write, after which an instruction goes on at the next offset. -/
theorem Answers.then_seq {x : Att s Unit} {c c' : Ctx s} (h : Answers x c () c') :
    Answers (do x; return Next.seq) c .seq c' := h.bind ((answers_pure ..).mpr ⟨rfl, rfl⟩)

/-- Each operand field of an admitted instruction holds a code that it accepts (R50). -/
theorem ok_of_admits {i : Instr} {o : Operand} {a : Accepts} (h : s.admits i = true) (hm : (o, a) ∈ Instr.fields i) :
    a.ok o = true := by
  simp only [State.admits, Bool.and_eq_true, List.all_eq_true] at h
  obtain ⟨⟨-, hf⟩, -⟩ := h
  exact hf _ hm

/-- Where a field accepts `s0` to `s15` and `z` alone, its use as a source is the reading of a data register. -/
theorem use_eq_readReg {d : Operand} (h : Accepts.regOrZ.ok d = true) : (use d : Att s Word) = readReg d := by
  cases d with
  | s i => rfl
  | z => rfl
  | mem k => cases h
  | port p => cases h
  | code30 => cases h

/-! Functions: comparisons of words as comparisons of the numbers they stand for (R67, R86). -/

theorem aluMin_eq : aluMin = fun x y => if y.toInt < x.toInt then y else x := by
  funext x y; simp [aluMin, BitVec.slt]

theorem aluMax_eq : aluMax = fun x y => if x.toInt < y.toInt then y else x := by
  funext x y; simp [aluMax, BitVec.slt]

theorem aluMinn_eq : aluMinn = fun x y => if y.toNat < x.toNat then y else x := by
  funext x y; simp [aluMinn, BitVec.ult]

theorem aluMaxn_eq : aluMaxn = fun x y => if x.toNat < y.toNat then y else x := by
  funext x y; simp [aluMaxn, BitVec.ult]

theorem aluBool_decide (p : Prop) [Decidable p] : aluBool (decide p) = truth p := by
  by_cases h : p <;> simp [aluBool, truth, w64, h]

theorem aluSlt_eq : (fun x y : Word => aluBool (x.slt y)) = fun x y => truth (x.toInt < y.toInt) :=
  funext fun _ => funext fun _ => aluBool_decide _

theorem aluSltn_eq : (fun x y : Word => aluBool (x.ult y)) = fun x y => truth (x.toNat < y.toNat) :=
  funext fun _ => funext fun _ => aluBool_decide _

theorem aluSeq_eq : (fun x y : Word => aluBool (x = y)) = fun x y => truth (x = y) :=
  funext fun _ => funext fun _ => aluBool_decide _

/-! Two operands (R86). -/

/-- A row of the two-operand table is an instruction, and its attempt is the table's function between its uses. -/
theorem attemptOf_binaryRule {i : Instr} {d a b : Operand} {f : Word → Word → Word} (h : binaryRule i = some (d, a, b, f)) :
    Instr.isEvent i = false ∧ (attemptOf i : Att s Next) = binary f d a b := by
  cases i
  case min => cases h; exact ⟨rfl, congrArg (binary · _ _ _) aluMin_eq⟩
  case max => cases h; exact ⟨rfl, congrArg (binary · _ _ _) aluMax_eq⟩
  case minn => cases h; exact ⟨rfl, congrArg (binary · _ _ _) aluMinn_eq⟩
  case maxn => cases h; exact ⟨rfl, congrArg (binary · _ _ _) aluMaxn_eq⟩
  case slt => cases h; exact ⟨rfl, congrArg (binary · _ _ _) aluSlt_eq⟩
  case sltn => cases h; exact ⟨rfl, congrArg (binary · _ _ _) aluSltn_eq⟩
  case seq => cases h; exact ⟨rfl, congrArg (binary · _ _ _) aluSeq_eq⟩
  all_goals cases h <;> exact ⟨rfl, rfl⟩

/-- Two sources are used and the function's value written. -/
theorem answers_binary {f : Word → Word → Word} {d a b : Operand} {x y : Word} {c c1 c' : Ctx s}
    (hu : Answers (useAll [a, b]) c [x, y] c1) (hw : Answers (write d (f x y)) c1 () c') :
    Answers (binary f d a b) c .seq c' := by
  simp only [answers_useAll_cons, answers_useAll_nil] at hu
  obtain ⟨ca, ha, cb, hb, rfl⟩ := hu
  exact ha.bind (hb.bind hw.then_seq)

/-- Settles O13: each row's attempt is the table's function between its uses, and an attempt that answers completes. -/
theorem integerBinary : Obligations.IntegerBinary := by
  unfold Obligations.IntegerBinary
  intro s i d a b f x y c c' hrule hadm hu hw
  obtain ⟨hinsn, hatt⟩ := attemptOf_binaryRule (s := s) hrule
  rw [exec_insn i s hinsn, hatt]
  exact issue_answers hadm (answers_binary hu hw)

/-! Selection, insertion and constants (R88, R91, R92). -/

/-- A and B are used whatever C is, and the chosen value written (R88). -/
theorem answers_attSel {d a b e : Operand} {x y z : Word} {c c1 c' : Ctx s}
    (hu : Answers (useAll [a, b, e]) c [x, y, z] c1) (hw : Answers (write d (if z = 0 then y else x)) c1 () c') :
    Answers (attSel d a b e) c .seq c' := by
  simp only [answers_useAll_cons, answers_useAll_nil] at hu
  obtain ⟨ca, ha, cb, hb, ce, he, rfl⟩ := hu
  rw [← ite_not] at hw
  exact ha.bind (hb.bind (he.bind hw.then_seq))

/-- The mask of a field has the bits of the word from the field's place up to its length (R91). -/
theorem getLsbD_fieldMask (pos len j : Nat) :
    (fieldMask pos len).getLsbD j = decide (pos ≤ j ∧ j < pos + len ∧ j < 64) := by
  rw [fieldMask, w64, BitVec.getLsbD_ofNat, Nat.testBit_mul_two_pow, Nat.testBit_two_pow_sub_one, Bool.eq_iff_iff]
  simp only [Bool.and_eq_true, decide_eq_true_eq]
  omega

/-- `v` holds the low bits of `x` in the field, and the bits of `y` elsewhere (R91). -/
theorem eq_inserted {x y v : Word} {pos len : Nat} (hv : ∀ j, v.getLsbD j =
      if pos ≤ j ∧ j < pos + len ∧ j < 64 then x.getLsbD (j - pos) else y.getLsbD j) :
    v = (y &&& ~~~fieldMask pos len) ||| ((x <<< pos) &&& fieldMask pos len) := by
  refine BitVec.eq_of_getLsbD_eq fun j hj => ?_
  rw [hv, BitVec.getLsbD_or, BitVec.getLsbD_and, BitVec.getLsbD_and, BitVec.getLsbD_not, BitVec.getLsbD_shiftLeft,
    getLsbD_fieldMask]
  split
  case isTrue hin => rw [decide_eq_true hin]; simp [hj, hin.1]
  case isFalse hout => rw [decide_eq_false hout]; simp [hj]

/-- A is used before D is read, and D gets A's low bits in the field (R91). -/
theorem answers_attBfi {d a : Operand} {pos len1 : BitVec 6} {x y v : Word} {c c1 c' : Ctx s} (hd : Accepts.regOrZ.ok d = true)
    (hu : Answers (useAll [a, d]) c [x, y] c1)
    (hv : ∀ j, v.getLsbD j =
      if pos.toNat ≤ j ∧ j < pos.toNat + len1.toNat + 1 ∧ j < 64 then x.getLsbD (j - pos.toNat) else y.getLsbD j)
    (hw : Answers (write d v) c1 () c') : Answers (attBfi d a pos len1) c .seq c' := by
  simp only [answers_useAll_cons, answers_useAll_nil, use_eq_readReg hd] at hu
  obtain ⟨ca, ha, cd, hread, rfl⟩ := hu
  rw [eq_inserted (len := len1.toNat + 1) hv] at hw
  exact ha.bind (hread.bind hw.then_seq)

theorem answers_attLhi {d : Operand} {imm : BitVec 21} {y : Word} {c c1 c' : Ctx s} (hd : Accepts.regOrZ.ok d = true)
    (hu : Answers (use d) c y c1) (hw : Answers (write d (y <<< 21 ||| imm.zeroExtend 64)) c1 () c') :
    Answers (attLhi d imm) c .seq c' := by
  rw [use_eq_readReg hd] at hu
  exact hu.bind hw.then_seq

/-- Settles O15: the attempt of each of the four answers, and an attempt that answers completes. -/
theorem selectInsertConstant : Obligations.SelectInsertConstant := by
  unfold Obligations.SelectInsertConstant
  intro s d a b e x y z c c' pos len1 imm
  refine ⟨fun hadm hu hw => ?sel, fun hadm hu v hv hw => ?bfi, fun hadm hw => ?li, fun hadm hu hw => ?lhi⟩
  case sel => exact (exec_insn _ s rfl).trans (issue_answers hadm (answers_attSel hu hw))
  case bfi =>
    have hd : Accepts.regOrZ.ok d = true := ok_of_admits hadm (List.mem_cons_of_mem _ (List.mem_singleton_self _))
    exact (exec_insn _ s rfl).trans (issue_answers hadm (answers_attBfi hd hu hv hw))
  case li => exact (exec_insn _ s rfl).trans (issue_answers hadm hw.then_seq)
  case lhi =>
    have hd : Accepts.regOrZ.ok d = true := ok_of_admits hadm (List.mem_singleton_self _)
    exact (exec_insn _ s rfl).trans (issue_answers hadm (answers_attLhi hd hu hw))

end Sys2Proof.Machine
end

section

/-! SUPPORT. Control transfers, traps and returns, random numbers and the instruction cache (R125 to R128, R130, R131, R134): what a
completed attempt leaves, and how each of their attempts goes. -/

namespace Sys2Proof.Machine

variable {s : State}

/-! Completion (R84, R128, R186). -/

/-- What a thread gives back at completion is at most the entry that one home keeps for it (R186). -/
theorem unkept_cases (s : State) (t : Thread) : s.unkept t = [] ∨ ∃ h x, s.unkept t = [.home h x] := by
  unfold State.unkept
  cases t.ticket with
  | none => exact .inl rfl
  | some y => exact .inr ⟨_, _, rfl⟩

/-- The thread that a completed attempt leaves: at its next place, and ready (R84, R128). -/
def Ctx.resumed (c : Ctx s) (n : Next) : Thread :=
  (continueAt (c.run.s.thread s.ctl.core s.ctl.slot) n).readyFrom (c.run.s.cycle s.ctl.core + if n = .yielded then 17 else 1)

/-- Any fact of the state that a completed attempt leaves follows from it where no home, and where one home, has changed. -/
theorem retired_induction {motive : State → Prop} {n : Next} (hn : n ≠ .ended) (c : Ctx s)
    (bare : motive ((Op.thread (tkey s.ctl.core s.ctl.slot) (c.resumed n)).apply c.run.s))
    (home : ∀ h x, motive ((Op.thread (tkey s.ctl.core s.ctl.slot) (c.resumed n)).apply ((Op.home h x).apply c.run.s))) :
    motive (c.retired n) := by
  rw [retired_eq hn]
  rcases unkept_cases c.run.s (c.run.s.thread s.ctl.core s.ctl.slot) with h | ⟨h, x, h⟩
  · rw [h]; exact bare
  · rw [h]; exact home _ _

section retired
variable {n : Next} (hn : n ≠ .ended) (c : Ctx s)
include hn

theorem retired_mem : (c.retired n).mem = c.run.s.mem :=
  retired_induction (motive := fun t => t.mem = c.run.s.mem) hn c rfl fun _ _ => rfl

theorem retired_ctl : (c.retired n).ctl = c.run.s.ctl :=
  retired_induction (motive := fun t => t.ctl = c.run.s.ctl) hn c rfl fun _ _ => rfl

theorem retired_physCore (P : Nat) : (c.retired n).physCore P = c.run.s.physCore P :=
  retired_induction (motive := fun t => t.physCore P = c.run.s.physCore P) hn c rfl fun _ _ => rfl

theorem retired_physOf (L : Nat) : (c.retired n).physOf L = c.run.s.physOf L :=
  retired_induction (motive := fun t => t.physOf L = c.run.s.physOf L) hn c rfl fun _ _ => rfl

theorem retired_me (hctl : c.run.s.ctl = s.ctl) : (c.retired n).me = c.resumed n := by
  rw [State.me, retired_ctl hn, hctl]
  exact retired_induction (motive := fun t => t.thread s.ctl.core s.ctl.slot = _) hn c (thread_thread ..) fun _ _ => thread_thread ..

theorem retired_thread_other {L : Nat} {k : Fin 16} (h : (L, k) ≠ (s.ctl.core, s.ctl.slot)) :
    (c.retired n).thread L k = c.run.s.thread L k :=
  retired_induction (motive := fun t => t.thread L k = c.run.s.thread L k) hn c (thread_thread_other _ _ h) fun _ _ =>
    thread_thread_other _ _ h

end retired

/-- An attempt that changed nothing leaves its thread gone on, and nothing else changed. -/
theorem begins_retired {n : Next} (hn : n ≠ .ended) (i : Instr) : (s.begins i).retired n = s.wentOn s.me n := retired_eq hn _

/-- An attempt that changed its own registers alone leaves its thread gone on with them, and nothing else changed. -/
theorem retired_push_thread {n : Next} (hn : n ≠ .ended) (i : Instr) (u : Thread) :
    Ctx.retired { s.begins i with run := (Run.start s).push (.thread (tkey s.ctl.core s.ctl.slot) u) } n = s.wentOn u n := by
  rw [retired_eq hn]
  have hu : s.unkept u = ((Op.thread (tkey s.ctl.core s.ctl.slot) u).apply s).unkept u := rfl
  simp only [State.wentOn, hu, Run.push_s, Run.start_s, thread_thread, Op.thread_cycle_read]
  rcases unkept_cases ((Op.thread (tkey s.ctl.core s.ctl.slot) u).apply s) u with h | ⟨h, x, h⟩
  · rw [h]; exact Op.thread_thread_apply ..
  · rw [h]; exact Op.thread_thread_apply _ _ _ ((Op.home _ _).apply s)

/-! Attempts. -/

theorem answers_modSelf (f : Thread → Thread) (c : Ctx s) :
    Answers (modSelf f) c () { c with run := c.run.push (.thread (tkey c.core c.slot) (f c.me)) } := rfl

/-- The thread of a working copy whose own registers have been written. -/
@[simp] theorem me_push_thread (c : Ctx s) (t : Thread) :
    Ctx.me { c with run := c.run.push (.thread (tkey c.core c.slot) t) } = t := thread_thread ..

/-- A sequence stops where its second part does. -/
theorem Answers.then_stops {α β : Type} {x : Att s α} {f : α → Att s β} {c c1 : Ctx s} {v : α} {e : Stop × List Token}
    (h : Answers x c v c1) (h' : (f v).run c1 = .error e) : (x >>= f).run c = .error e := by
  unfold Answers at h
  rw [StateT.run_bind, h, ok_bind, h']

/-- A sequence stops where its first part does. -/
theorem bind_stops {α β : Type} {x : Att s α} (f : α → Att s β) {c : Ctx s} {e : Stop × List Token} (h : x.run c = .error e) :
    (x >>= f).run c = .error e := by
  rw [StateT.run_bind, h, error_bind]

/-- As many values are used as there are sources. -/
theorem length_of_answers_useAll : ∀ {os : List Operand} {xs : List Word} {c c' : Ctx s}, Answers (useAll os) c xs c' →
    xs.length = os.length
  | [], _, _, _, h => by rw [← ((answers_pure ..).mp h).1]; rfl
  | o :: os, xs, _, _, h => by
    obtain ⟨v, c1, -, h⟩ := h.of_bind
    obtain ⟨vs, c2, hvs, h⟩ := h.of_bind
    rw [← ((answers_pure ..).mp h).1, List.length_cons, List.length_cons, length_of_answers_useAll hvs]

/-! Conditional branches (R125). -/

/-- A displacement counted in instructions, as the sum of the numbers that the PC and the displacement stand for. -/
theorem relative_eq_pcTarget {w : Nat} (pc : Word) (disp : BitVec w) : relative pc disp = pcTarget pc disp := by
  rw [pcTarget, wInt, BitVec.ofInt_add, BitVec.ofInt_mul, BitVec.ofInt_natCast, BitVec.ofNat_toNat, BitVec.setWidth_eq]
  rfl

/-- A row of the branch table is an instruction, and its attempt compares its two sources, the second of them 0 where it has one. -/
theorem attemptOf_branchRule {i : Instr} {os : List Operand} {cond : List Word → Bool} {disp : BitVec 16}
    (h : branchRule i = some (os, cond, disp)) :
    Instr.isEvent i = false ∧ ∃ f a b, (attemptOf i : Att s Next) = branch f a b disp ∧ (os = [a, b] ∨ os = [a] ∧ b = .z) ∧
      ∀ xs, cond xs = f (xs.getD 0 0) (xs.getD 1 0) := by
  cases i
  case beq => cases h; exact ⟨rfl, _, _, _, rfl, .inl rfl, fun _ => rfl⟩
  case bne => cases h; exact ⟨rfl, _, _, _, rfl, .inl rfl, fun _ => rfl⟩
  case blt => cases h; exact ⟨rfl, _, _, _, rfl, .inl rfl, fun _ => rfl⟩
  case bge => cases h; exact ⟨rfl, _, _, _, rfl, .inl rfl, fun _ => (decide_eq_decide.mpr Int.not_lt.symm).trans decide_not⟩
  case bltn => cases h; exact ⟨rfl, _, _, _, rfl, .inl rfl, fun _ => rfl⟩
  case bgen => cases h; exact ⟨rfl, _, _, _, rfl, .inl rfl, fun _ => (decide_eq_decide.mpr Nat.not_lt.symm).trans decide_not⟩
  case bz => cases h; exact ⟨rfl, _, _, _, rfl, .inr ⟨rfl, rfl⟩, fun _ => rfl⟩
  case bnz => cases h; exact ⟨rfl, _, _, _, rfl, .inr ⟨rfl, rfl⟩, fun _ => rfl⟩
  all_goals cases h

/-- A comparison of one source is one with `z`, whose use gives 0 (R19). -/
theorem answers_branch_sources {os : List Operand} {a b : Operand} {xs : List Word} {c c' : Ctx s}
    (hos : os = [a, b] ∨ os = [a] ∧ b = .z) (hu : Answers (useAll os) c xs c') :
    ∃ c1, Answers (use a) c (xs.getD 0 0) c1 ∧ Answers (use b) c1 (xs.getD 1 0) c' := by
  have hlen := length_of_answers_useAll hu
  rcases hos with rfl | ⟨rfl, rfl⟩
  · match xs, hlen with
    | [x, y], _ =>
      simp only [answers_useAll_cons, answers_useAll_nil] at hu
      obtain ⟨c1, hx, c2, hy, rfl⟩ := hu
      exact ⟨c1, hx, hy⟩
  · match xs, hlen with
    | [x], _ =>
      simp only [answers_useAll_cons, answers_useAll_nil] at hu
      obtain ⟨c1, hx, rfl⟩ := hu
      exact ⟨c1, hx, rfl⟩

theorem answers_branch {f : Word → Word → Bool} {a b : Operand} {disp : BitVec 16} {x y : Word} {c c1 c' : Ctx s}
    (ha : Answers (use a) c x c1) (hb : Answers (use b) c1 y c') :
    Answers (branch f a b disp) c (if f x y then .jump (pcTarget c'.me.pc disp) else .seq) c' := by
  refine ha.bind (hb.bind ?_)
  cases f x y with
  | true => exact (answers_self c').bind ((answers_pure ..).mpr ⟨congrArg _ (relative_eq_pcTarget ..), rfl⟩)
  | false => exact (answers_pure ..).mpr ⟨rfl, rfl⟩

theorem exec_branch {i : Instr} {os : List Operand} {cond : List Word → Bool} {disp : BitVec 16} {xs : List Word} {c : Ctx s}
    (hrule : branchRule i = some (os, cond, disp)) (hadm : s.admits i = true) (hu : Answers (useAll os) (s.begins i) xs c) :
    exec i s = .next (c.retired (if cond xs then .jump (pcTarget c.me.pc disp) else .seq)) := by
  obtain ⟨hinsn, f, a, b, hatt, hos, hcond⟩ := attemptOf_branchRule (s := s) hrule
  obtain ⟨c1, ha, hb⟩ := answers_branch_sources hos hu
  rw [exec_insn i s hinsn, hatt, hcond]
  exact issue_answers hadm (answers_branch ha hb)

/-! Jumps and loops (R126 to R128). -/

/-- The three outcomes of the loop check (R128). -/
theorem continueAt_seq (t : Thread) :
    (t.pc = w64 (4 * t.lend.toNat) → t.lcount ≠ 0 → t.lcount ≠ 1 →
      continueAt t .seq = { t with lcount := t.lcount - 1, pc := w64 (4 * t.lstart.toNat) }) ∧
    (t.pc = w64 (4 * t.lend.toNat) → t.lcount = 1 → continueAt t .seq = { t with lcount := 0, pc := t.pc + 4 }) ∧
    (t.pc ≠ w64 (4 * t.lend.toNat) ∨ t.lcount = 0 → continueAt t .seq = { t with pc := t.pc + 4 }) := by
  refine ⟨fun hpc h0 h1 => ?more, fun hpc h1 => ?last, fun h => ?off⟩
  case more =>
    have hn : t.lcount - 1 ≠ 0 := fun h => h1 (by bv_omega)
    rw [continueAt, afterLoop, if_pos ⟨hpc, h0⟩]
    simp only [if_pos hn]
  case last =>
    have h0 : t.lcount ≠ 0 := by rw [h1]; decide
    rw [continueAt, afterLoop, if_pos ⟨hpc, h0⟩]
    simp [h1]
  case off =>
    have hout : ¬(t.pc = w64 (4 * t.lend.toNat) ∧ t.lcount ≠ 0) := fun ⟨hpc, h0⟩ => h.elim (· hpc) h0
    rw [continueAt, afterLoop, if_neg hout]

theorem continueAt_s (t : Thread) (n : Next) : (continueAt t n).s = t.s := by
  have hloop : (afterLoop t).s = t.s := by unfold afterLoop; split <;> rfl
  cases n with
  | seq | yielded => exact hloop
  | _ => rfl

/-- An instruction whose attempt stops in a trap before any effect takes it (R133). -/
theorem exec_takes_trap {i : Instr} {cause : Byte} {v : Word} (hi : Instr.isEvent i = false) (ha : s.admits i = true)
    (h : (attemptOf i).run (s.begins i) = .error (.trap cause v, [])) :
    ∃ t, exec i s = .next t ∧ TrapTaken s t s.ctl.core s.ctl.slot cause v := by
  obtain ⟨t, ht, htrap, -⟩ := exec_traps hi ha h
  exact ⟨t, ht, htrap⟩

theorem exec_jmp (s : State) (disp : BitVec 26) : exec (.jmp disp) s = .next (s.wentOn s.me (.jump (pcTarget s.me.pc disp))) := by
  have hb : Answers (attJmp disp) (s.begins (.jmp disp)) (.jump (pcTarget s.me.pc disp)) (s.begins (.jmp disp)) :=
    (answers_self _).bind ((answers_pure ..).mpr ⟨congrArg _ (relative_eq_pcTarget ..), rfl⟩)
  rw [← begins_retired (n := .jump _) nofun (.jmp disp)]
  exact (exec_insn _ s rfl).trans (issue_answers rfl hb)

theorem exec_call (s : State) (disp : BitVec 26) : exec (.call disp) s =
    .next (s.wentOn { s.me with s := vset s.me.s 15 (s.me.pc + 4) } (.jump (pcTarget s.me.pc disp))) := by
  have hb : Answers (attCall disp) (s.begins (.call disp)) (.jump (pcTarget s.me.pc disp)) _ :=
    (answers_self _).bind ((answers_modSelf _ _).bind ((answers_pure ..).mpr ⟨congrArg _ (relative_eq_pcTarget ..), rfl⟩))
  rw [← retired_push_thread (n := .jump _) nofun (.call disp)]
  exact (exec_insn _ s rfl).trans (issue_answers rfl hb)

theorem answers_attJr {a : Operand} {v : Word} {c c' : Ctx s} (hu : Answers (use a) c v c') (hv : v.toNat % 4 = 0) :
    Answers (attJr a) c (.jump v) c' := by
  refine hu.bind ?_
  rw [if_neg (not_not_intro hv)]
  exact (answers_pure ..).mpr ⟨rfl, rfl⟩

/-- An offset that is not a multiple of 4 is MISALIGNED (R126). -/
theorem run_attJr_misaligned {a : Operand} {v : Word} {c c' : Ctx s} (hu : Answers (use a) c v c') (hv : v.toNat % 4 ≠ 0) :
    (attJr a).run c = .error (.trap Cause.misaligned v, c'.seen.reverse) := by
  refine hu.then_stops ?_
  rw [if_pos hv, run_stop]

theorem answers_attLoop {a : Operand} {disp : BitVec 16} {n : Word} {c c' : Ctx s} (hu : Answers (use a) c n c') :
    Answers (attLoop a disp) c (if n = 0 then .jump (pcTarget c'.me.pc disp + 4) else .seqNoLoop)
      { c' with run := c'.run.push (.thread (tkey c'.core c'.slot) { c'.me with
          lstart := BitVec.ofNat 62 ((c'.me.pc + 4).toNat / 4), lend := BitVec.ofNat 62 ((pcTarget c'.me.pc disp).toNat / 4)
          lcount := n }) } := by
  rw [← relative_eq_pcTarget]
  refine hu.bind ((answers_self c').bind ((answers_modSelf _ c').bind ?_))
  split
  · exact (answers_pure ..).mpr ⟨rfl, rfl⟩
  · exact (answers_pure ..).mpr ⟨rfl, rfl⟩

/-- Settles O26: the loop check, and for each transfer where its attempt answers to go on, or the trap in which it stops. -/
theorem controlTransfers : Obligations.ControlTransfers := by
  unfold Obligations.ControlTransfers
  refine ⟨continueAt_seq, fun s i os cond disp xs c => exec_branch, fun s disp => ⟨exec_jmp s disp, exec_call s disp⟩,
    fun s a v c hadm hu => ⟨fun hv => ?aligned, fun hv hc => ?misaligned⟩, fun s a disp n c hadm hu => ?loop⟩
  case aligned => exact (exec_insn _ s rfl).trans (issue_answers hadm (answers_attJr hu hv))
  case misaligned =>
    subst hc
    exact exec_takes_trap rfl hadm (run_attJr_misaligned hu hv)
  case loop => exact (exec_insn _ s rfl).trans (issue_answers hadm (answers_attLoop hu))

/-! Traps and returns (R134). -/

/-- In user mode a supervisor instruction takes PRIVILEGE before any operand use (R49, R51). -/
theorem run_precheck_privilege {i : Instr} (hi : Instr.supervisor i = true) (hm : s.me.mode = false) :
    (precheck i).run (s.begins i) = .error (.trap Cause.privilege ((encode i).zeroExtend 64), []) := by
  have hp : (Instr.supervisor i && !(s.begins i).me.mode) = true := by rw [begins_me, hi, hm]; rfl
  refine (answers_get _).then_stops ((answers_self _).then_stops ?_)
  rw [if_pos hp]
  rfl

theorem answers_attTret (s : State) : Answers attTret (s.begins .tret) (.jump (trapReturn s.me).pc)
    { s.begins .tret with run := (Run.start s).push (.thread (tkey s.ctl.core s.ctl.slot) (trapReturn s.me)) } :=
  (answers_modSelf _ _).bind ((answers_self _).bind ((answers_pure ..).mpr
    ⟨congrArg (fun t : Thread => Next.jump t.pc) (thread_thread ..), rfl⟩))

/-- In supervisor mode `tret` goes on with the registers of R134's return. -/
theorem exec_tret (hm : s.me.mode = true) :
    exec .tret s = .next (Ctx.retired
      { s.begins .tret with run := (Run.start s).push (.thread (tkey s.ctl.core s.ctl.slot) (trapReturn s.me)) }
      (.jump (trapReturn s.me).pc)) := by
  have hadm : s.admits .tret = true := by unfold State.admits; rw [hm]; rfl
  exact (exec_insn _ s rfl).trans (issue_answers hadm (answers_attTret s))

/-- Settles O28: `trap` and `brk` stop in their traps, `tret` in user mode in its check; otherwise its thread is the returned one. -/
theorem trapAndReturn : Obligations.TrapAndReturn := by
  unfold Obligations.TrapAndReturn
  refine ⟨fun s n => ⟨?trap, ?brk⟩, fun s hm => ?user, fun s hm => ?supervisor⟩
  case trap => exact exec_takes_trap (i := .trap n) rfl rfl (run_stop _ _)
  case brk => exact exec_takes_trap (i := .brk) rfl rfl (run_stop _ _)
  case user => exact exec_precheck_traps rfl (run_precheck_privilege rfl hm)
  case supervisor =>
    refine ⟨_, exec_tret hm, ?_⟩
    have hn : Next.jump (trapReturn s.me).pc ≠ .ended := nofun
    rw [retired_me hn _ rfl, retired_mem hn, Ctx.resumed, Run.push_s, thread_thread]
    exact ⟨statusWithModes_mode .., statusWithModes_pmode .., rfl, statusWithModes_rest .., rfl, rfl, by constructor <;> rfl, rfl, rfl,
      fun L k h => (retired_thread_other hn _ h).trans (thread_thread_other _ _ h)⟩

/-! Random numbers and the instruction cache (R130, R131). -/

/-- A port that passes the check of R165 has a peer. -/
theorem peer_isSome_of_admits {i : Instr} {p : Port} {rest : List (Operand × Accepts)} (hf : Instr.fields i = (.port p, .any) :: rest)
    (h : s.admits i = true) : ∃ q, peer s.ctl.core s.ctl.slot p = some q := by
  simp only [State.admits, hf, edgePort, Bool.and_eq_true, Option.isNone_iff_eq_none] at h
  cases hp : peer s.ctl.core s.ctl.slot p with
  | none => simp [hp] at h
  | some q => exact ⟨q, rfl⟩

/-- A push without a credit parks in the wait for one (R167). -/
theorem run_push_full {c : Ctx s} {p : Port} {q : Nat × Fin 16 × Port} (v : Word) (hq : peer c.core c.slot p = some q)
    (hc : c.me.credits.get p.index = 0) : (push p v).run c = .error (.park (.port p true), c.seen.reverse) := by
  refine (answers_get _).then_stops ((answers_self _).then_stops ?_)
  simp only [hq, if_pos hc, run_stop]

/-- An attempt parked at a port, with no earlier wait there, changes what says that its thread waits, and nothing else of its registers and
of memory (R167, R172). -/
theorem stopped_park_port (i : Instr) (p : Port) (w : Bool) (h : s.me.portWait = none) :
    (s.stopped i (.park (.port p w))).mem = s.mem ∧
    (s.stopped i (.park (.port p w))).me = { s.me.wait (.port p w) (some (encode i)) [] with
      portWait := some (s.cycle s.ctl.core, s.me.nplim), ticket := none } := by
  have hw : (s.thread s.ctl.core s.ctl.slot).portWait = none := h
  obtain ⟨r', hr, hcases⟩ := run_releaseKept (Run.start s) s.ctl.core s.ctl.slot
  have hx : expired none (s.cycle s.ctl.core) = false := rfl
  simp only [State.stopped, afterAct_eq, settle, run_bind_act, run_now, Run.start_s, hw, hx, Bool.false_eq_true, if_false, hr,
    run_modThread, Run.push_s, State.me]
  rcases hcases with rfl | ⟨_, _, rfl⟩
  · exact ⟨rfl, (thread_thread ..).trans (by simp [Thread.wait, hw])⟩
  · exact ⟨rfl, (thread_thread ..).trans (by simp [Thread.wait, hw])⟩

theorem answers_attRand {d : Operand} {c : Ctx s}
    (hw : Answers (write d (nextRand s.me.seed)) { s.begins (.rand d) with
      run := (s.begins (.rand d)).run.push (.thread (tkey s.ctl.core s.ctl.slot) { s.me with seed := nextRand s.me.seed }) } () c) :
    Answers (attRand d) (s.begins (.rand d)) .seq c :=
  (answers_self _).bind ((answers_modSelf _ _).bind hw.then_seq)

/-- On a full port `rand` stops after its step of SEED, which is dropped with the rest of its working copy (R130). -/
theorem run_attRand_full {p : Port} {q : Nat × Fin 16 × Port} (hq : peer s.ctl.core s.ctl.slot p = some q)
    (hc : s.me.credits.get p.index = 0) : (attRand (.port p)).run (s.begins (.rand (.port p))) = .error (.park (.port p true), []) := by
  refine (answers_self _).then_stops ((answers_modSelf _ _).then_stops (bind_stops _ (run_push_full _ hq ?_)))
  rw [me_push_thread]
  exact hc

theorem answers_drainPendb {c : Ctx s} (h : c.me.pendb = 0) (h' : c.me.deferred = none) : Answers drainPendb c () c := by
  refine (answers_self c).bind ?_
  rw [h, h']
  exact (answers_pure ..).mpr ⟨rfl, rfl⟩

@[simp] theorem physCore_phys (s : State) (P : Nat) (p : Phys) : ((Op.phys P p).apply s).physCore P = p := by
  simp [State.physCore]

theorem answers_attIinv (h : s.me.pendb = 0) (h' : s.me.deferred = none) :
    Answers attIinv (s.begins .iinv) .seq { s.begins .iinv with
      run := (Run.start s).push (.phys (s.physOf s.ctl.core) { s.physCore (s.physOf s.ctl.core) with icache := [] }) } :=
  (answers_get _).bind ((answers_drainPendb (c := s.begins .iinv) h h').bind ((answers_here _).bind rfl))

/-- Settles O30: `rand` writes the next SEED or stops at its port with its working copy dropped; `iinv` drains nothing and empties. -/
theorem randomAndCache : Obligations.RandomAndCache := by
  unfold Obligations.RandomAndCache
  intro s d c
  refine ⟨fun hadm hw => ?write, fun p hd hadm hc hport => ?park, fun hp hd => ?iinv⟩
  case write => exact (exec_insn _ s rfl).trans (issue_answers hadm (answers_attRand hw))
  case park =>
    subst hd
    obtain ⟨q, hq⟩ := peer_isSome_of_admits rfl hadm
    obtain ⟨hmem, hme⟩ := stopped_park_port (.rand (.port p)) p true hport
    refine ⟨_, (exec_insn _ s rfl).trans (issue_stops hadm (run_attRand_full hq hc)), ?_⟩
    rw [hme]
    exact ⟨rfl, rfl, rfl, rfl, rfl, by constructor <;> rfl, hmem⟩
  case iinv =>
    refine ⟨_, (exec_insn _ s rfl).trans (issue_answers rfl (answers_attIinv hp hd)), ?_⟩
    have hn : Next.seq ≠ .ended := nofun
    rw [retired_physOf hn, retired_physCore hn, retired_me hn _ rfl, retired_mem hn]
    exact ⟨congrArg (·.icache) (physCore_phys ..), rfl, continueAt_s .., rfl⟩

end Sys2Proof.Machine
end
